-- ==== Sys2Proof/Word.lean ====
section
/-! DEFINITION. Word.lean: the machine's word types and their plainest arithmetic (03_bundles_and_encoding.md R55, R65; 00_scope.md R5). -/

namespace Sys2Proof

/-- A 64-bit register, address or memory word (R65). -/
abbrev Word := BitVec 64

/-- One byte of memory. -/
abbrev Byte := BitVec 8

/-- A 6-bit register field of a syllable (R55). -/
abbrev Reg := BitVec 6

/-- `x[lo + len − 1 : lo]` as a number (R5). -/
def bits (x lo len : Nat) : Nat := (x >>> lo) % 2 ^ len

/-- Bit `i` of `x`. -/
def bit (x i : Nat) : Bool := (x >>> i) % 2 == 1

/-- The two's complement value of the low `w` bits of `x`. -/
def sgn (w x : Nat) : Int :=
  let y := x % 2 ^ w
  if y < 2 ^ (w - 1) then (y : Int) else (y : Int) - 2 ^ w

/-- An integer reduced modulo `2 ^ w`. -/
def wrap (w : Nat) (x : Int) : Nat := (x % 2 ^ w).toNat

/-- A 64-bit word from an integer, modulo `2 ^ 64`. -/
def word (x : Int) : Word := BitVec.ofInt 64 x

/-- `x` rounded up to a multiple of `m`. -/
def roundUp (x m : Nat) : Nat := (x + m - 1) / m * m

/-- `⌈x / m⌉`. -/
def ceilDiv (x m : Nat) : Nat := (x + m - 1) / m

end Sys2Proof
end

