-- ==== Sys2Proof/Config.lean ====
section
/-! DEFINITION. Config.lean: what the spec names without defining it, as functions and free values that nothing in Lean can evaluate (21_service_boot_damper.md R411, R416; notes/assumptions 5 and 7). -/

namespace Sys2Proof.Config

/-- The SM3 digest of a byte string, 256 bits; named, not defined, by the spec (log 7, DESIGN CHOICE). -/
opaque sm3 : List Byte → Nat

/-- The SM2 verification of a signature over a digest (log 7, DESIGN CHOICE). -/
opaque sm2Verify : Nat → Nat → Bool

/-- The SM2 signature that the identity unit makes over a digest (log 7, DESIGN CHOICE). -/
opaque sm2Sign : Nat → Nat

/-- The least security version that the fuses admit (R411; log 7, DESIGN CHOICE). -/
opaque minSvn : Nat

/-- The i-th free value: a word that the spec leaves open (log 5, DESIGN CHOICE). -/
opaque freeValue : Nat → Word

/-- The i-th unspecified content of a memory on a core, as places and the words there (14_groups.md R308; log 8, DESIGN CHOICE). -/
opaque freeWords : Nat → List (Nat × Word)

end Sys2Proof.Config
end

