-- ==== Sys2Proof/Syntax.lean ====
section
/-! DEFINITION. Syntax.lean: the operand types and the one inductive of instructions (03_bundles_and_encoding.md R55-R75; 04 R88; 05 R124, R138, R146; 06 R163; 07 R185; 08 R197; 12 R277; 13 R295). -/

namespace Sys2Proof

/-- The eight slots (R55). -/
inductive Slot where
  | s | a | va | vb | m | c | p | x
  deriving DecidableEq, Repr

/-- The two vector slots, which share one opcode map (R71). -/
inductive VSlot where
  | va | vb
  deriving DecidableEq, Repr

/-- A source field with its kind tag (R58-R60): kind 0b00 the native register file of the slot, 0b01 a scalar register,
0b10 a constant-bank entry, 0b11 a literal of 6 or 32 bits. -/
inductive Src where
  | r0 (n : Reg)
  | r1 (n : Reg)
  | k (i : BitVec 10)
  | l6 (v : BitVec 6)
  | l32 (v : BitVec 32)
  deriving DecidableEq, Repr

/-- Conditions (R91). -/
inductive Cond where
  | eq | ne | lt | ge | ltu | geu | any | none
  deriving DecidableEq, Repr

/-- Scope suffixes (R68). -/
inductive Scope where
  | ctx | core | die | pkg | dom | dom5 | dom6 | sys
  deriving DecidableEq, Repr

/-- Operations of `amo` (R107). -/
inductive AmoOp where
  | add | and | or | xor | min | max | minu | maxu | swap | fadd
  deriving DecidableEq, Repr

/-- Fields that `cget` names (R114). -/
inductive CapField where
  | base | length | perms | id | v
  deriving DecidableEq, Repr

/-- The index of `lk` (R92): a number in the 32-bit form, a register and an immediate in the 64-bit form. -/
inductive LkIndex where
  | num (i : BitVec 10)
  | reg (b : Reg) (imm : BitVec 10)
  deriving DecidableEq, Repr

/-- The field that the 64-bit `tcrd` extracts (R93). -/
structure BitField where
  lo : BitVec 6
  wm1 : BitVec 6
  deriving DecidableEq, Repr

/-- The operands of `trap` (R100). -/
inductive TrapArg where
  | code (n : Reg)
  | ops (a b : Src)
  deriving DecidableEq, Repr

/-- The operand of `mset` (R138). -/
inductive MaskLit where
  | upto (n : BitVec 5)
  | mask (m : BitVec 16)
  deriving DecidableEq, Repr

/-- Operand B of `mma` (R185). -/
inductive MatB where
  | tile (t : Reg)
  | latch (l : BitVec 2)
  deriving DecidableEq, Repr

/-- Row modes of `mq` take a row block, column modes take none (R168). -/
inductive MqBlock where
  | row (b : Src)
  | col
  deriving DecidableEq, Repr

/-- Operators of `tred` (R408). -/
inductive RedOp where
  | sum | max | min | merge
  deriving DecidableEq, Repr

/-- The fields of a VA, VB or X syllable (R57, R124, R163). -/
structure VOp where
  d : Reg
  a : Src
  b : Src
  c : Reg
  ty : BitVec 3
  f : BitVec 3
  ms : BitVec 4
  ce : BitVec 8
  deriving DecidableEq, Repr

/-- The fields of `tld`, `tst`, `tldm`, `ttrans` and `tred` (R197). -/
structure CopyOp where
  d : Reg
  a : Reg
  b : Src
  c : Reg
  tid : BitVec 8
  ch : BitVec 2
  lay : BitVec 2
  prv : Bool
  deriving DecidableEq, Repr

/-- The fields of a bytecode instruction beside its opcode (R277). `op` is the opcode byte, which a custom operator needs. -/
structure LbOp where
  op : BitVec 8
  md : BitVec 6
  ln : BitVec 2
  d : BitVec 12
  a : BitVec 12
  b : BitVec 12
  c : BitVec 12
  imm : Word
  deriving DecidableEq, Repr

/-- The source of an `oshape` word (R295). -/
inductive ShapeSrc where
  | dim (h : BitVec 2) (e : BitVec 3)
  | reg (r : Reg)
  | lit (v : BitVec 24)
  deriving DecidableEq, Repr

/-- A scale-up frame as it arrives (19_links_and_connections.md R384): the receiving port, whether the FCS is good, the
source MAC address, the header and the flits' bytes. -/
structure Frame where
  port : Nat
  fcs : Bool
  srcMac : Nat
  hdr : BitVec 128
  flits : List Byte
  deriving DecidableEq, Repr

/-- What another package asks of a block of a KV table whose owner this one is (18_kv_tables_and_attention.md R365, R371, R377, R378): its free, its move to a tier, a write
into its frame, or the partial of query rows over it: root entry, block number in the table, layer, head, QPOS, LEN, SCALE, MASK, and the rows' format and codes. -/
inductive KvReq where
  | free (gbn : Nat)
  | move (gbn tier : Nat)
  | write (gbn off : Nat) (data : List Byte)
  | stove (gbn root blk layer head pos len scale : Nat) (noMask : Bool) (fmt : Nat) (rows : List (List Nat))
  deriving DecidableEq, Repr

/-- A tier 1 request from another package (R385, R386): its transaction number, address and what it does, or what it asks of a KV block. -/
structure RemoteReq where
  src : Nat
  txn : Nat
  store : Bool
  amo : Option (AmoOp × Word)
  pa : Nat
  len : Nat
  data : List Byte
  coded : Option Nat := none
  kv : Option KvReq := none
  deriving DecidableEq, Repr

/-- A collective arrival, and the package that sent it (20_collective_instances.md R404). -/
structure CollMsg where
  inst : Nat
  entry : Nat
  gen : Nat
  kind : BitVec 2
  opr : BitVec 3
  fmt : BitVec 4
  len : Nat
  rank : Nat
  data : List Byte
  src : Nat := 0
  deriving DecidableEq, Repr

/-- An access by the host or a CXL peer (09_regions_and_visibility.md R232): a read, a write, or an atomic addition. -/
structure AgentAccess where
  cxl : Bool
  kind : BitVec 2
  addr : Nat
  data : List Byte
  deriving DecidableEq, Repr

/-- One constructor per row of the opcode table: the tile ISA's syllables (R69-R75), the bytecode operators (R279), the
microcode words (R295) and the events and commands, in the table's order but for `endNxt`, `yield` and `rts`, which stand
before `ucOend`. -/
inductive Instr where
  | nop (slot : Slot)
  | sAdd (d : Reg) (a b : Src)
  | sSub (d : Reg) (a b : Src)
  | sMul (d : Reg) (a b : Src)
  | sMulh (d : Reg) (a b : Src)
  | sMulhu (d : Reg) (a b : Src)
  | sDiv (d : Reg) (a b : Src)
  | sDivu (d : Reg) (a b : Src)
  | sRem (d : Reg) (a b : Src)
  | sRemu (d : Reg) (a b : Src)
  | sAnd (d : Reg) (a b : Src)
  | sOr (d : Reg) (a b : Src)
  | sXor (d : Reg) (a b : Src)
  | sAndn (d : Reg) (a b : Src)
  | sShl (d : Reg) (a b : Src)
  | sShr (d : Reg) (a b : Src)
  | sSra (d : Reg) (a b : Src)
  | sMin (d : Reg) (a b : Src)
  | sMax (d : Reg) (a b : Src)
  | sMinu (d : Reg) (a b : Src)
  | sMaxu (d : Reg) (a b : Src)
  | sCmp (cond : Cond) (d : Reg) (a b : Src)
  | sSel (d : Reg) (a b : Src) (c : Reg)
  | li (d : Reg) (a : Src)
  | liHi (d : Reg) (a : Src)
  | lk (d : Reg) (ix : LkIndex)
  | tcrd (d : Reg) (n : BitVec 2) (f : Option BitField)
  | b (off : BitVec 32)
  | bc (cond : Cond) (a b : Src) (off : BitVec 32)
  | j (a : Src)
  | call (d : Reg) (off : BitVec 32)
  | ret (a : Reg)
  | loop (d : Reg) (off : BitVec 32)
  | waitCount (a : Src) (cls : BitVec 8)
  | waitWatermark (a : Src) (ch : BitVec 2)
  | nxt (n : BitVec 2)
  | trap (t : TrapArg)
  | brk (tag : Reg)
  | csrr (d : Reg) (num : BitVec 8)
  | csrw (num : BitVec 8) (a : Src)
  | csrwFpc (a : Src)
  | csrwFmt (a : Src)
  | csrwDmr (a : Src)
  | csrwKbase (a : Src)
  | csrwSchedptr (a : Src)
  | csrwRngctr (a : Src)
  | ld (sz : BitVec 3) (d a : Reg) (b : Src)
  | st (sz : BitVec 2) (d a : Reg) (b : Src)
  | fence (cls : BitVec 2) (sc : Scope)
  | amo (op : AmoOp) (w : Bool) (sc : Scope) (d a : Reg) (b : Src) (off : BitVec 32)
  | cas (w : Bool) (sc : Scope) (d a b c : Reg) (off : BitVec 32)
  | acq (sc : Scope) (d a : Reg) (b : Src)
  | rel (sc : Scope) (d a : Reg)
  | bar (sc : Scope) (d a : Reg)
  | waitf (cond : Cond) (sc : Scope) (d a : Reg) (b : Src) (c : Reg)
  | sbind (sc : Scope) (a b c : Reg)
  | sunbind (a b : Reg)
  | alloc (d : BitVec 4) (a : Src)
  | free (a : BitVec 4)
  | cld (sz : BitVec 3) (d : Reg) (a : BitVec 4) (b : Src)
  | cst (sz : BitVec 2) (d : Reg) (a : BitVec 4) (b : Src)
  | cderive (d a : BitVec 4) (b : Src) (c : Reg) (pm : BitVec 4)
  | cget (d : Reg) (a : BitVec 4) (fld : CapField)
  | ldc (d : BitVec 4) (a : Reg) (b : Src)
  | stc (d : BitVec 4) (a : Reg) (b : Src)
  | tlbinv (sc : Scope) (kind : BitVec 2) (a b : Reg)
  | bankmode (a : Src) (clm : BitVec 8) (mode : BitVec 2)
  | fmtw (a : Src)
  | tidw (cb : Bool) (num : BitVec 8) (a : Reg)
  | tidr (cb : Bool) (num : BitVec 8) (a : Reg)
  | fadd (sl : VSlot) (o : VOp)
  | fsub (sl : VSlot) (o : VOp)
  | fmul (sl : VSlot) (o : VOp)
  | fma (sl : VSlot) (o : VOp)
  | fms (sl : VSlot) (o : VOp)
  | fnma (sl : VSlot) (o : VOp)
  | fnms (sl : VSlot) (o : VOp)
  | fmin (sl : VSlot) (o : VOp)
  | fmax (sl : VSlot) (o : VOp)
  | fabs (sl : VSlot) (o : VOp)
  | fneg (sl : VSlot) (o : VOp)
  | fcmp (sl : VSlot) (o : VOp)
  | fclass (sl : VSlot) (o : VOp)
  | vAdd (sl : VSlot) (o : VOp)
  | vSub (sl : VSlot) (o : VOp)
  | vMul (sl : VSlot) (o : VOp)
  | vMulh (sl : VSlot) (o : VOp)
  | vMin (sl : VSlot) (o : VOp)
  | vMax (sl : VSlot) (o : VOp)
  | vAbs (sl : VSlot) (o : VOp)
  | vNeg (sl : VSlot) (o : VOp)
  | vAnd (sl : VSlot) (o : VOp)
  | vOr (sl : VSlot) (o : VOp)
  | vXor (sl : VSlot) (o : VOp)
  | vAndn (sl : VSlot) (o : VOp)
  | vShl (sl : VSlot) (o : VOp)
  | vShr (sl : VSlot) (o : VOp)
  | vSra (sl : VSlot) (o : VOp)
  | sadd (sl : VSlot) (o : VOp)
  | ssub (sl : VSlot) (o : VOp)
  | vCmp (sl : VSlot) (o : VOp)
  | mov (sl : VSlot) (o : VOp)
  | vSel (sl : VSlot) (o : VOp)
  | cvt (sl : VSlot) (o : VOp)
  | vrng (sl : VSlot) (o : VOp)
  | vred (sl : VSlot) (o : VOp)
  | vacc (sl : VSlot) (o : VOp)
  | vlane (sl : VSlot) (o : VOp)
  | qclr (sl : VSlot) (o : VOp)
  | qupd (sl : VSlot) (o : VOp)
  | qupw (sl : VSlot) (o : VOp)
  | qmrg (sl : VSlot) (o : VOp)
  | qred (sl : VSlot) (o : VOp)
  | qxc (sl : VSlot) (o : VOp)
  | qxcMerge (sl : VSlot) (o : VOp)
  | qdrn (sl : VSlot) (o : VOp)
  | qld (sl : VSlot) (o : VOp)
  | qst (sl : VSlot) (o : VOp)
  | aadd (d : Reg) (a b : Src)
  | asub (d : Reg) (a b : Src)
  | ashl (d : Reg) (a b : Src)
  | lq (sz : BitVec 3) (ms : BitVec 4) (ce : BitVec 8) (a : Reg) (b : Src)
  | lqs (sz : BitVec 3) (ms : BitVec 4) (ce : BitVec 8) (a : Reg) (b : Src) (c : Reg)
  | lqg (sz : BitVec 3) (ms : BitVec 4) (ce : BitVec 8) (a : Reg) (b : Src) (c : Reg)
  | vld (g : BitVec 2) (ms : BitVec 4) (ce : BitVec 8) (d a : Reg) (b : Src)
  | vst (g : BitVec 2) (ms : BitVec 4) (ce : BitVec 8) (d a : Reg) (b : Src)
  | vldg (g : BitVec 2) (ms : BitVec 4) (ce : BitVec 8) (d a : Reg) (b : Src) (c : Reg)
  | vsts (sz : BitVec 2) (ms : BitVec 4) (ce : BitVec 8) (d a : Reg) (b : Src) (c : Reg)
  | mand (ce : BitVec 8) (d a b : BitVec 4)
  | mor (ce : BitVec 8) (d a b : BitVec 4)
  | mxor (ce : BitVec 8) (d a b : BitVec 4)
  | mandn (ce : BitVec 8) (d a b : BitVec 4)
  | mnot (ce : BitVec 8) (d a : BitVec 4)
  | mmov (ce : BitVec 8) (d a : BitVec 4)
  | mset (ce : BitVec 8) (d : BitVec 4) (v : MaskLit)
  | mcnt (ce : BitVec 8) (d : Reg) (a : BitVec 4)
  | mfst (ce : BitVec 8) (d : Reg) (a : BitVec 4)
  | mlim (ce : BitVec 8) (d : BitVec 4) (a : Reg) (perCluster : Bool)
  | frcp (o : VOp)
  | frsqrt (o : VOp)
  | fsqrt (o : VOp)
  | fdiv (o : VOp)
  | fexp2 (o : VOp)
  | flog2 (o : VOp)
  | fsin (o : VOp)
  | fcos (o : VOp)
  | ftanh (o : VOp)
  | ferf (o : VOp)
  | fexp (o : VOp)
  | perm (o : VOp)
  | rev (o : VOp)
  | rot (o : VOp)
  | zip (o : VOp)
  | unzip (o : VOp)
  | xcopy (o : VOp)
  | xbcast (o : VOp)
  | cpush (o : VOp)
  | cpop (o : VOp)
  | cpopCnt (o : VOp)
  | xroute (o : VOp)
  | mma (d : BitVec 3) (a : Reg) (b : MatB) (rm : BitVec 3) (z0 : Bool)
  | mlatch (d : BitVec 2) (a : Reg)
  | mlatchMem (d : BitVec 2) (a : Reg) (tid : BitVec 8)
  | mzero (d : BitVec 3)
  | mst (d : Reg) (a : BitVec 3) (rm : BitVec 3) (clr : Bool)
  | msv (d : Reg) (a : BitVec 3)
  | mrst (d : BitVec 3) (a : Reg)
  | mq (d : BitVec 4) (a : BitVec 3) (merge : Bool) (blk : MqBlock) (ms : BitVec 4) (ce : BitVec 8)
  | macq (mask : BitVec 4)
  | mrls (mask : BitVec 4)
  | tdef (d a b : Reg)
  | trel (d : Reg)
  | tmov (d a : Reg) (tid : Option (BitVec 8))
  | tld (o : CopyOp)
  | tst (o : CopyOp)
  | tldm (o : CopyOp)
  | tstage (b : Src)
  | ttrans (o : CopyOp)
  | tred (opr : RedOp) (o : CopyOp)
  | tfire (d a : Reg) (b : Src)
  | tfireOpen (a : Reg)
  | tsend (d a : Reg) (b : BitVec 4)
  | tsendOpen (a : Src) (b : BitVec 4)
  | tsendClose (b : BitVec 4)
  | trecv (d a : Reg) (b : BitVec 4)
  | attn (d a b : Reg) (rm : BitVec 3) (noMask : Bool)
  | kvmap (d a : Reg) (b : Src) (c : Reg) (fn3 : Bool) (tt : BitVec 2)
  | kvmapPro (a : Reg) (b : Src) (c : Reg)
  | kvmapDem (a : Reg) (b : Src) (c : Reg) (tt : BitVec 2)
  | lbNop (o : LbOp)
  | lbMatmul (o : LbOp)
  | lbEwise (o : LbOp)
  | lbUnary (o : LbOp)
  | lbCast (o : LbOp)
  | lbSoftmax (o : LbOp)
  | lbRstats (o : LbOp)
  | lbRdrain (o : LbOp)
  | lbNorm (o : LbOp)
  | lbAttn (o : LbOp)
  | lbCopy (o : LbOp)
  | lbTranspose (o : LbOp)
  | lbGather (o : LbOp)
  | lbScatter (o : LbOp)
  | lbView (o : LbOp)
  | lbConcat (o : LbOp)
  | lbFill (o : LbOp)
  | lbAllreduce (o : LbOp)
  | lbAllgather (o : LbOp)
  | lbRscatter (o : LbOp)
  | lbAlltoall (o : LbOp)
  | lbBcast (o : LbOp)
  | lbReshard (o : LbOp)
  | lbKvappend (o : LbOp)
  | lbKvtrunc (o : LbOp)
  | lbKvpromote (o : LbOp)
  | lbRngsave (o : LbOp)
  | lbRngset (o : LbOp)
  | lbRngfill (o : LbOp)
  | lbCkptsave (o : LbOp)
  | lbCkptload (o : LbOp)
  | lbDset (o : LbOp)
  | lbDop (o : LbOp)
  | lbDext (o : LbOp)
  | lbDld (o : LbOp)
  | lbBr (o : LbOp)
  | lbBrc (o : LbOp)
  | lbCall (o : LbOp)
  | lbRet (o : LbOp)
  | lbEnd (o : LbOp)
  | lbHbind (o : LbOp)
  | lbNotify (o : LbOp)
  | lbCustom (o : LbOp)
  | ucOphdr (rd wr : BitVec 4) (nwords : BitVec 13) (opc : BitVec 8)
  | ucOshape (n : BitVec 2) (src : ShapeSrc)
  | ucTiledim (n : BitVec 2) (ts : BitVec 11)
  | ucOrder (perm : BitVec 8) (cyclic : Bool)
  | ucBind (h : BitVec 2) (t : Reg) (tid : BitVec 8) (g : BitVec 2) (rows : BitVec 12) (rowb8 : BitVec 14) (k : BitVec 10) (fx : BitVec 4)
  | ucStage (store : Bool) (t : Reg) (ch : BitVec 2) (lay : BitVec 2) (stg : BitVec 16) (sreg : Reg) (h : BitVec 2)
  | ucRoutine (ssz : BitVec 8) (lm : BitVec 4) (koff : BitVec 14) (eoff : BitVec 32)
  | ucFuse (h : BitVec 2) (t : Reg) (consumer : Bool)
  | ucShard (h : BitVec 2) (act : BitVec 2) (inst : BitVec 10)
  | ucDepend (k : BitVec 10)
  | ucEpilog (merge : Bool) (k : BitVec 10)
  | endNxt
  | yield
  | rts
  | ucOend
  | reset
  | hostPerst
  | lock (arg : BitVec 56)
  | tighten (arg : BitVec 56)
  | quote (arg : BitVec 56)
  | extendMr2 (arg : BitVec 56)
  | extendMr3 (arg : BitVec 56)
  | scmdUnassigned (code : BitVec 8)
  | kick
  | watchdog
  | powerClamp (avgW : Nat)
  | thermalClamp (core : Nat) (hot : Bool)
  | mgmtRingDoorbell (ring : BitVec 2)
  | hostIrqWord (v : Word)
  | hostDoorbell (v : Word)
  | shootdown (slot : BitVec 6)
  | hostMsiInterrupt (id : BitVec 11)
  | interruptPost (ctx : Nat) (v : Word)
  | queueDoorbell (q : Nat)
  | ringEntryTake (q : Nat)
  | operatorIssue (q : Nat)
  | microcodeInstall (die : Nat)
  | microcodeRemove (die : Nat)
  | launchBind (launch : Nat)
  | coordLanding (ctx : Nat) (n : BitVec 2)
  | tileDone (launch : Nat) (ti : Nat)
  | graphComplete (q : Nat)
  | issueSelect (core : Nat)
  | agingLimit (ctx : Nat)
  | holdRelease (ctx : Nat)
  | progressPreempt (ctx : Nat)
  | resultLanding (ctx : Nat)
  | interlockedLanding (ctx : Nat) (i : Nat)
  | trapEntry (ctx : Nat)
  | preempt (ctx : Nat)
  | resume (ctx : Nat) (launch : Nat)
  | lqEntryResolve (ctx : Nat) (i : Nat)
  | transferStart (ctx : Nat) (i : Nat)
  | transferComplete (ctx : Nat) (i : Nat)
  | transferFault (ctx : Nat) (i : Nat)
  | privTransferComplete (core : Nat) (ch : Bool)
  | matrixCmdStart (core : Nat)
  | matrixCmdComplete (core : Nat)
  | storePerformed (core : Nat) (i : Nat)
  | codedStoreRmw (core : Nat) (i : Nat)
  | codecFlush (cri : BitVec 6)
  | cxlBiSnoop (addr : Nat)
  | scrubEcc (ctx : Nat)
  | allocRefill (rec : Nat)
  | barrierDeparture (ctx : Nat)
  | barrierUnreachable (obj : Nat)
  | commitDecision (x : Nat)
  | rollbackTrigger (x : Nat) (cause : BitVec 6) (pkg : Nat) (ctx : Nat)
  | groupCmdReplay (x : Nat)
  | groupCmdRollback (x : Nat)
  | groupCmdFail (x : Nat)
  | groupCmdInvalid (x : Nat)
  | kvPromotion (gbn : Nat)
  | kvDemotion (gbn : Nat) (tier : BitVec 2)
  | stovePartial (ctx : Nat) (i : Nat) (blk : Nat)
  | flueFold (ctx : Nat) (i : Nat) (blk : Nat)
  | kvmapComplete (ctx : Nat) (i : Nat)
  | linkTrain (port : Nat)
  | linkTakeDown (port : Nat)
  | linkClear (port : Nat)
  | linkCmdInvalid (port : Nat)
  | bringUpEnd (port : Nat) (lanes : Nat)
  | blockLockLoss (port : Nat)
  | frameReceive (f : Frame)
  | ackTimeout (port : Nat) (pkg : Nat)
  | remoteRequest (r : RemoteReq)
  | connBreakTimeout (e : Nat)
  | tsendDataPhase (ctx : Nat) (i : Nat)
  | trecvComplete (ctx : Nat) (i : Nat) (rows : Nat) (rowb : Nat) (data : List Byte)
  | tsendComplete (ctx : Nat) (i : Nat) (result : BitVec 2)
  | collArrival (a : CollMsg)
  | ringHop (inst : Nat) (entry : Nat)
  | collDelivery (inst : Nat) (entry : Nat)
  | collFireComplete (inst : Nat) (entry : Nat)
  | collStallTimeout (inst : Nat) (entry : Nat)
  | mgmtFrameReceive (port : Bool) (data : List Byte)
  | hostAgentAccess (acc : AgentAccess)
  | hostCxlSnoop (addr : Nat)
  | cxlCompletionTimeout (ctx : Nat) (i : Nat)
  | queueDisable (q : Nat)
  | groupRecordRewrite (x : Nat)
  deriving DecidableEq, Repr

end Sys2Proof
end

