-- ==== Sys2Proof/WellFormed.lean ====
section
/-! DEFINITION. WellFormed.lean: which operands an instruction admits, a check per constructor (03_bundles_and_encoding.md R58-R66; 04 R88; 05 R124, R138, R146; 06 R163, R168; 07 R185; 08 R197; 12 R277; 13 R295; 18 R377; 19 R390; 20 R405, R408). -/

namespace Sys2Proof

/-- The kind of a source as one bit of a set: 1 native register, 2 scalar register, 4 constant bank, 8 literal of 6 bits, 16 literal of 32 bits (R58, R60). -/
def Src.kindBit : Src → Nat
  | .r0 _ => 1
  | .r1 _ => 2
  | .k _ => 4
  | .l6 _ => 8
  | .l32 _ => 16

/-- The source is of one of the kinds `ks`, and a register of kind 0b00 lies in a file of `2 ^ w` registers (R58, R66). -/
def Src.ok (ks w : Nat) (a : Src) : Bool :=
  bit (ks / a.kindBit) 0 &&
    match a with
    | .r0 n => decide (n.toNat < 2 ^ w)
    | _ => true

/-- Two sources share the CX field and the 32-bit literal (R59, R60). -/
def Src.agree : Src → Src → Bool
  | .k i, .k j => i.toNat / 64 == j.toNat / 64
  | .l6 _, .l32 _ => false
  | .l32 _, .l6 _ => false
  | .l32 u, .l32 v => u == v
  | _, _ => true

/-- Register 0 of kind 0b00: a field that the instruction does not use (R58). -/
def Src.unused (a : Src) : Bool := decide (a = .r0 0)

/-- A pair of sources of kinds `ka` and `kb`. -/
def pairOk (ka kb : Nat) (a b : Src) : Bool := a.ok ka 6 && b.ok kb 6 && a.agree b

/-- What a VA, VB or X instruction admits (R124, R163): the width of the register numbers of D, the kinds and width of
A and B, whether C is a register, and the sets of types and function codes. -/
structure VShape where
  dw : Nat
  ak : Nat
  aw : Nat
  bk : Nat
  bw : Nat
  useC : Bool
  tys : Nat
  fs : Nat
  deriving DecidableEq, Repr

/-- The operands fit the shape. A kind set of 0 marks a field that the instruction does not use. -/
def VOp.ok (sh : VShape) (o : VOp) : Bool :=
  decide (o.d.toNat < 2 ^ sh.dw) &&
    (if sh.ak = 0 then o.a.unused else o.a.ok sh.ak sh.aw) &&
    (if sh.bk = 0 then o.b.unused else o.b.ok sh.bk sh.bw) &&
    o.a.agree o.b && (sh.useC || decide (o.c = 0)) && bit sh.tys o.ty.toNat && bit sh.fs o.f.toNat

/-- FP64, FP32, FP16 and BF16 in the order of TY (R60). -/
def fpTys : Nat := 0x0F

/-- `.i64`, `.i32`, `.i8` and `.n`. -/
def intTys : Nat := 0xF0

/-- The rounding overrides 0-4 and 7 (R31). -/
def rmSet : Nat := 0x9F

/-- Shapes that several instructions share. -/
def VShape.arith : VShape := ⟨6, 31, 6, 31, 6, false, fpTys, rmSet⟩
def VShape.fused : VShape := ⟨6, 31, 6, 31, 6, true, fpTys, rmSet⟩
def VShape.extreme : VShape := ⟨6, 31, 6, 31, 6, false, fpTys, 1⟩
def VShape.fsign : VShape := ⟨6, 31, 6, 0, 6, false, fpTys, 1⟩
def VShape.int2 : VShape := ⟨6, 31, 6, 31, 6, false, intTys, 1⟩
def VShape.int1 : VShape := ⟨6, 31, 6, 0, 6, false, intTys, 1⟩
def VShape.special : VShape := ⟨6, 15, 6, 0, 6, false, fpTys, rmSet⟩
def VShape.distance : VShape := ⟨6, 1, 6, 14, 6, false, 0xFF, 1⟩
def VShape.qmem : VShape := ⟨4, 2, 6, 14, 6, false, 1, 0x0F⟩

/-- The shape of a vector instruction. -/
def vshape : Instr → Option (VShape × VOp)
  | .fadd _ o | .fsub _ o | .fmul _ o => some (.arith, o)
  | .fma _ o | .fms _ o | .fnma _ o | .fnms _ o => some (.fused, o)
  | .fmin _ o | .fmax _ o => some (.extreme, o)
  | .fabs _ o | .fneg _ o => some (.fsign, o)
  | .fcmp _ o => some (⟨4, 15, 6, 15, 6, false, fpTys, 0xFF⟩, o)
  | .fclass _ o => some (⟨6, 15, 6, 0, 6, false, fpTys, 1⟩, o)
  | .vAdd _ o | .vSub _ o | .vMul _ o => some (.int2, o)
  | .vMulh _ o => some (⟨6, 31, 6, 31, 6, false, 0x30, 3⟩, o)
  | .vMin _ o | .vMax _ o => some (⟨6, 31, 6, 31, 6, false, intTys, if o.ty = 7 then 1 else 3⟩, o)
  | .vAbs _ o | .vNeg _ o => some (.int1, o)
  | .vAnd _ o | .vOr _ o | .vXor _ o | .vAndn _ o | .vShl _ o | .vShr _ o | .vSra _ o | .sadd _ o | .ssub _ o => some (.int2, o)
  | .vCmp _ o => some (⟨4, 31, 6, 31, 6, false, intTys, 0xFF⟩, o)
  | .mov _ o => some (⟨6, 31, 6, 0, 6, false, 0xFF, 1⟩, o)
  | .vSel _ o => some (⟨6, 15, 6, 15, 6, false, 0xFF, 1⟩, o)
  | .cvt _ o => some (⟨6, 15, 6, 1, 6, false, 0xFF, rmSet⟩, o)
  | .vrng _ o => some (⟨6, 0, 6, 0, 6, false, 0x33, 1⟩, o)
  | .vred _ o => some (⟨6, 1, 6, 0, 6, false, if bit 0x38 o.f.toNat then intTys else 0xFF, 0x3F⟩, o)
  | .vacc _ o => some (⟨6, 1, 3, 14, 6, false, 1, 1⟩, o)
  | .vlane _ o => some (⟨6, 15, 6, 0, 6, false, 0x30, 1⟩, o)
  | .qclr _ o => some (⟨4, 0, 6, 0, 6, false, 1, 1⟩, o)
  | .qupd _ o => some (⟨4, 15, 6, 0, 6, false, 0xEF, 1⟩, o)
  | .qupw _ o => some (⟨4, 15, 6, 15, 6, false, 0xEF, 1⟩, o)
  | .qmrg _ o => some (⟨4, 1, 4, 1, 4, false, 1, 1⟩, o)
  | .qred _ o => some (⟨4, 1, 4, 0, 6, false, 1, 1⟩, o)
  | .qxc _ o => some (⟨4, 1, 4, 14, 6, false, 1, 1⟩, o)
  | .qxcMerge _ o => some (⟨4, 1, 4, 14, 6, false, 1, 2⟩, o)
  | .qdrn _ o => some (⟨6, 1, 4, if o.f = 5 ∨ o.f = 7 then 15 else 0, 6, o.f == 7, 1, 0xFF⟩, o)
  | .qld _ o | .qst _ o => some (.qmem, o)
  | .frcp o | .frsqrt o | .fsqrt o | .fexp2 o | .flog2 o | .fsin o | .fcos o | .ftanh o | .ferf o | .fexp o => some (.special, o)
  | .fdiv o => some (⟨6, 15, 6, 15, 6, false, fpTys, rmSet⟩, o)
  | .perm o => some (⟨6, 1, 6, 15, 6, false, 0xFF, 1⟩, o)
  | .rev o => some (⟨6, 1, 6, 0, 6, false, 0xFF, 1⟩, o)
  | .rot o | .xcopy o | .xbcast o => some (.distance, o)
  | .zip o | .unzip o => some (⟨6, 1, 6, 1, 6, false, 0xFF, 3⟩, o)
  | .cpush o => some (⟨0, 15, 6, 14, 6, false, 0xFF, 1⟩, o)
  | .cpop o => some (⟨6, 0, 6, 14, 6, false, 0xFF, 1⟩, o)
  | .cpopCnt o => some (⟨6, 0, 6, 14, 6, false, 0xFF, 2⟩, o)
  | .xroute o => some (⟨0, 0, 6, 14, 6, false, 0x10, 1⟩, o)
  | _ => none

/-- Operands of the two-source scalar operations. -/
def scalar2Ok (a b : Src) : Bool := pairOk 31 31 a b

/-- Operands of the copies (R197): B of any kind but the layout and privileged channel as R197 says. -/
def CopyOp.ok (o : CopyOp) : Bool :=
  o.b.ok 31 6 && decide (o.lay.toNat < 3) && (!o.prv || decide (o.ch.toNat < 2))

/-- The number of a format of 02 R30 in the low four bits of B, and bit 4 zero: what `cvt` converts to or from (R124). -/
def cvtOk (i : Instr) : Bool :=
  match i with
  | .cvt _ o =>
    match o.b with
    | .r0 n => decide (n.toNat % 16 ≤ 9) && !bit n.toNat 4
    | _ => true
  | _ => true

/-- The checks of R88, R124, R138, R146, R163, R168, R185, R197, R368, R377, R390, R405 and R408 on the operands of one
instruction. Bytecode and microcode words, whose faults arise when they are walked or installed, and events admit every operand. -/
def wellFormed (i : Instr) : Bool :=
  match vshape i with
  | some (sh, o) => o.ok sh && cvtOk i
  | none =>
    match i with
    | .sAdd _ a b | .sSub _ a b | .sMul _ a b | .sMulh _ a b | .sMulhu _ a b | .sDiv _ a b | .sDivu _ a b | .sRem _ a b
    | .sRemu _ a b | .sAnd _ a b | .sOr _ a b | .sXor _ a b | .sAndn _ a b | .sShl _ a b | .sShr _ a b | .sSra _ a b
    | .sMin _ a b | .sMax _ a b | .sMinu _ a b | .sMaxu _ a b | .sCmp _ _ a b | .sSel _ a b _
    | .aadd _ a b | .asub _ a b | .ashl _ a b => scalar2Ok a b
    | .li _ a | .liHi _ a | .waitCount a _ | .waitWatermark a _ => a.ok 31 6
    | .bc _ a b _ => pairOk 7 7 a b
    | .j a => a.ok 7 6
    | .nxt n => decide (n ≠ 0)
    | .trap (.ops a b) => pairOk 15 15 a b
    | .csrw n a => a.ok 15 6 && !(decide (n ∈ [(0x01 : BitVec 8), 0x02, 0x03, 0x22, 0x23, 0x51]))
    | .csrwFpc a | .csrwFmt a | .csrwDmr a | .csrwKbase a | .csrwSchedptr a | .csrwRngctr a => a.ok 15 6
    | .ld sz _ _ b => b.ok 31 6 && decide (sz ≠ 7)
    | .st _ _ _ b => b.ok 31 6
    | .fence cls _ => decide (cls ≠ 3)
    | .amo op w _ _ _ b _ => b.ok 5 6 && !(w && decide (op = .fadd))
    | .acq _ _ _ b | .waitf _ _ _ _ b _ => b.ok 15 6
    | .alloc _ a => a.ok 15 6
    | .cld sz _ _ b => b.ok 15 6 && decide (sz ≠ 7)
    | .cst _ _ _ b | .cderive _ _ b _ _ | .ldc _ _ b | .stc _ _ b => b.ok 15 6
    | .tlbinv sc kind _ _ => decide (sc ∈ [Scope.core, .die, .pkg]) && decide (kind ≠ 3)
    | .bankmode a _ mode => a.ok 15 6 && decide (mode ≠ 3)
    | .fmtw a => a.ok 15 6
    | .tidw cb n _ | .tidr cb n _ => !cb || decide (n.toNat < 16)
    | .lq sz _ _ _ b | .lqs sz _ _ _ b _ => b.ok 31 6 && decide (sz ≠ 7)
    | .lqg sz _ _ _ b c => b.ok 31 6 && decide (sz ≠ 7) && decide (c ≠ 63)
    | .vld _ _ _ d _ b | .vst _ _ _ d _ b | .vsts _ _ _ d _ b _ => b.ok 15 6 && decide (d ≠ 63)
    | .vldg _ _ _ d _ b c => b.ok 15 6 && decide (d ≠ 63) && decide (c ≠ 63)
    | .mset _ _ (.upto n) => decide (n.toNat ≤ 16)
    | .mma _ _ _ rm _ | .mst _ _ rm _ | .attn _ _ _ rm _ => bit rmSet rm.toNat
    | .mq _ _ _ (.row b) _ _ => b.ok 14 6
    | .tld o | .tst o | .tldm o | .ttrans o => o.ok
    | .tred _ o => o.ok
    | .tstage b => b.ok 31 6
    | .tfire _ _ b => b.ok 31 6 && (match b with | .k i => decide (i.toNat < 64) | _ => true)
    | .tsendOpen a _ => a.ok 29 6
    | .kvmap _ _ b _ fn3 tt => b.ok 31 6 && (fn3 || decide (tt = 0))
    | .kvmapPro _ b _ => b.ok 31 6
    | .kvmapDem _ b _ tt => b.ok 31 6 && decide (2 ≤ tt.toNat)
    | _ => true

end Sys2Proof
end

