-- ==== Sys2Proof/Decode.lean ====
section
/-! DEFINITION. Decode.lean: from bits to instructions, total, refusing by the checks of R64, and the encoder written from the same tables (03_bundles_and_encoding.md R55-R75; 04 R88; 05 R124, R138, R146; 06 R163, R168; 07 R185; 08 R197; 12 R277; 13 R295; 18 R368, R377; 19 R390; 20 R405, R408). -/

namespace Sys2Proof

/-- The number of the lowest set bit of `x` below `n`. -/
def lowBit (n x : Nat) : Nat := ((List.range n).find? (bit x)).getD n

/-- The fields of a syllable (R55, R57). `len` counts 32-bit words; `z` is bits [63:46]; fields beyond the length are 0. -/
structure Raw where
  len : Nat := 2
  eob : Nat := 0
  slot : Nat
  op : Nat
  d : Nat := 0
  a : Nat := 0
  b : Nat := 0
  top : Nat := 0
  c : Nat := 0
  ka : Nat := 0
  kb : Nat := 0
  cx : Nat := 0
  z : Nat := 0
  lit : Nat := 0
  deriving DecidableEq, Repr

/-- The fields of the syllable whose bits are `w`; LEN = 0b11 gives `len` = 4. -/
def Raw.ofNat (w : Nat) : Raw :=
  let len := bits w 0 2 + 1
  let u := if len = 1 then 0 else bits w 32 32
  { len, eob := bits w 2 1, slot := bits w 3 3, op := bits w 6 7, d := bits w 13 6, a := bits w 19 6, b := bits w 25 6,
    top := bits w 31 1, c := bits u 0 6, ka := bits u 6 2, kb := bits u 8 2, cx := bits u 10 4, z := bits u 14 18,
    lit := if len = 3 then bits w 64 32 else 0 }

/-- The bits of a syllable from its fields. -/
def Raw.toNat (r : Raw) : Nat :=
  (r.len - 1) + r.eob * 2 ^ 2 + r.slot * 2 ^ 3 + r.op * 2 ^ 6 + r.d * 2 ^ 13 + r.a * 2 ^ 19 + r.b * 2 ^ 25 + r.top * 2 ^ 31 +
    r.c * 2 ^ 32 + r.ka * 2 ^ 38 + r.kb * 2 ^ 40 + r.cx * 2 ^ 42 + r.z * 2 ^ 46 + r.lit * 2 ^ 64

def Raw.f (r : Raw) : Nat := bits r.z 15 3
def Raw.ty (r : Raw) : Nat := bits r.z 12 3
def Raw.ms (r : Raw) : Nat := bits r.z 8 4
def Raw.ce (r : Raw) : Nat := bits r.z 0 8

/-- A source field from its kind tag (R58-R60). -/
def Raw.src (r : Raw) (kind n : Nat) : Src :=
  match kind with
  | 0 => .r0 (.ofNat 6 n)
  | 1 => .r1 (.ofNat 6 n)
  | 2 => .k (.ofNat 10 (r.cx * 64 + n))
  | _ => if r.len = 3 then .l32 (.ofNat 32 r.lit) else .l6 (.ofNat 6 n)

def Raw.sA (r : Raw) : Src := r.src r.ka r.a
def Raw.sB (r : Raw) : Src := r.src r.kb r.b
def Raw.rD (r : Raw) : Reg := .ofNat 6 r.d
def Raw.rA (r : Raw) : Reg := .ofNat 6 r.a
def Raw.rB (r : Raw) : Reg := .ofNat 6 r.b
def Raw.rC (r : Raw) : Reg := .ofNat 6 r.c
def Raw.off (r : Raw) : BitVec 32 := .ofNat 32 r.lit
def Raw.zf (r : Raw) (lo w : Nat) : BitVec w := .ofNat w (bits r.z lo w)
def Raw.zb (r : Raw) (i : Nat) : Bool := bit r.z i

/-- The operands of a VA, VB or X syllable. -/
def Raw.vop (r : Raw) : VOp :=
  { d := r.rD, a := r.sA, b := r.sB, c := r.rC, ty := .ofNat 3 r.ty, f := .ofNat 3 r.f, ms := .ofNat 4 r.ms, ce := .ofNat 8 r.ce }

/-- The operands of a copy (R197). -/
def Raw.copy (r : Raw) : CopyOp :=
  { d := r.rD, a := r.rA, b := r.sB, c := r.rC, tid := r.zf 10 8, ch := r.zf 8 2, lay := r.zf 6 2, prv := r.zb 5 }

def Cond.fromCode : Nat → Cond
  | 0 => .eq | 1 => .ne | 2 => .lt | 3 => .ge | 4 => .ltu | 5 => .geu | 6 => .any | _ => .none

def Cond.toNat : Cond → Nat
  | .eq => 0 | .ne => 1 | .lt => 2 | .ge => 3 | .ltu => 4 | .geu => 5 | .any => 6 | .none => 7

def Scope.fromCode : Nat → Scope
  | 0 => .ctx | 1 => .core | 2 => .die | 3 => .pkg | 4 => .dom | 5 => .dom5 | 6 => .dom6 | _ => .sys

def Scope.toNat : Scope → Nat
  | .ctx => 0 | .core => 1 | .die => 2 | .pkg => 3 | .dom => 4 | .dom5 => 5 | .dom6 => 6 | .sys => 7

def AmoOp.fromCode : Nat → AmoOp
  | 0 => .add | 1 => .and | 2 => .or | 3 => .xor | 4 => .min | 5 => .max | 6 => .minu | 7 => .maxu | 8 => .swap | _ => .fadd

def AmoOp.toNat : AmoOp → Nat
  | .add => 0 | .and => 1 | .or => 2 | .xor => 3 | .min => 4 | .max => 5 | .minu => 6 | .maxu => 7 | .swap => 8 | .fadd => 9

def CapField.fromCode : Nat → CapField
  | 0 => .base | 1 => .length | 2 => .perms | 3 => .id | _ => .v

def CapField.toNat : CapField → Nat
  | .base => 0 | .length => 1 | .perms => 2 | .id => 3 | .v => 4

def RedOp.fromCode : Nat → RedOp
  | 1 => .sum | 2 => .max | 3 => .min | _ => .merge

def RedOp.toNat : RedOp → Nat
  | .sum => 1 | .max => 2 | .min => 3 | .merge => 4

def VSlot.toNat : VSlot → Nat
  | .va => 2 | .vb => 3

def Slot.fromCode : Nat → Slot
  | 0 => .s | 1 => .a | 2 => .va | 3 => .vb | 4 => .m | 5 => .c | 6 => .p | _ => .x

def Slot.toNat : Slot → Nat
  | .s => 0 | .a => 1 | .va => 2 | .vb => 3 | .m => 4 | .c => 5 | .p => 6 | .x => 7

/-- What a field admits: the kinds (bit k for kind k) and, for kind 0b00, the width of its number (R58, R66). -/
structure Fld where
  w : Nat
  ks : Nat

def Fld.no : Fld := ⟨0, 1⟩
def Fld.reg : Fld := ⟨6, 1⟩
def Fld.r4 : Fld := ⟨4, 1⟩
def Fld.r3 : Fld := ⟨3, 1⟩
def Fld.r2 : Fld := ⟨2, 1⟩
def Fld.any : Fld := ⟨6, 15⟩
def Fld.nv : Fld := ⟨6, 14⟩

/-- One row of an opcode map: accepted lengths (1, 2, 4 for 32, 64, 96 bits), accepted types (0: no TY), the four operand
fields, the Z bits in use, accepted function codes, whether F is a rounding override, whether the literal has a meaning
of its own, further offending bits, and the instruction. -/
structure Row where
  lens : Nat
  tys : Nat := 0
  d : Fld := .no
  a : Fld := .no
  b : Fld := .no
  c : Fld := .no
  zm : Nat := 0
  fs : Nat := 1
  rnd : Bool := false
  lit : Bool := false
  bad : List Nat := []
  ins : Instr

/-- `x` when `c`, as a list of at most one offending bit (log 34, DEDUCED). -/
def offend (c : Bool) (x : Nat) : List Nat := if c then [x] else []

/-- The set bits of a field that must be zero: its lowest one. -/
def mustZero (lo v : Nat) : List Nat := offend (decide (v ≠ 0)) (lo + lowBit 32 v)

/-- A row of the S slot's two-source operations (R88, R89). -/
def rowS2 (r : Raw) (f : Reg → Src → Src → Instr) : Option Row :=
  some { lens := 7, d := .reg, a := .any, b := .any, ins := f r.rD r.sA r.sB }

/-- R69, R88. -/
def rowS (r : Raw) : Option Row :=
  let d := r.rD; let a := r.rA; let b := r.rB; let c := r.rC; let sa := r.sA; let sb := r.sB
  let sc := Scope.fromCode (bits r.z 0 3)
  let cond := Cond.fromCode (bits r.z 0 4)
  let sz : BitVec 3 := r.zf 0 3
  match r.op with
  | 0x00 => some { lens := 1, ins := .nop .s }
  | 0x01 => rowS2 r .sAdd
  | 0x02 => rowS2 r .sSub
  | 0x03 => rowS2 r .sMul
  | 0x04 => rowS2 r .sMulh
  | 0x05 => rowS2 r .sMulhu
  | 0x06 => rowS2 r .sDiv
  | 0x07 => rowS2 r .sDivu
  | 0x08 => rowS2 r .sRem
  | 0x09 => rowS2 r .sRemu
  | 0x0A => rowS2 r .sAnd
  | 0x0B => rowS2 r .sOr
  | 0x0C => rowS2 r .sXor
  | 0x0D => rowS2 r .sAndn
  | 0x0E => rowS2 r .sShl
  | 0x0F => rowS2 r .sShr
  | 0x10 => rowS2 r .sSra
  | 0x11 => rowS2 r .sMin
  | 0x12 => rowS2 r .sMax
  | 0x13 => rowS2 r .sMinu
  | 0x14 => rowS2 r .sMaxu
  | 0x15 => some { lens := 6, d := .reg, a := .any, b := .any, zm := 0xF, bad := offend (7 < bits r.z 0 4) 46, ins := .sCmp cond d sa sb }
  | 0x16 => some { lens := 6, d := .reg, a := .any, b := .any, c := .reg, ins := .sSel d sa sb c }
  | 0x17 => some { lens := 6, d := .reg, a := .any, zm := 1, ins := if r.zb 0 then .liHi d sa else .li d sa }
  | 0x18 =>
    if r.len = 1 then some { lens := 3, d := .reg, a := .reg, b := .r4, ins := .lk d (.num (.ofNat 10 (r.b * 64 + r.a))) }
    else some { lens := 3, d := .reg, b := .reg, zm := 0x3FF, ins := .lk d (.reg b (r.zf 0 10)) }
  | 0x19 =>
    some { lens := 3, d := .reg, a := .r2, zm := 0xFFF,
           ins := .tcrd d (.ofNat 2 r.a) (if r.len = 1 then none else some ⟨r.zf 0 6, r.zf 6 6⟩) }
  | 0x20 => some { lens := 4, lit := true, ins := .b r.off }
  | 0x21 => some { lens := 4, a := ⟨6, 7⟩, b := ⟨6, 7⟩, zm := 0xF, lit := true, bad := offend (7 < bits r.z 0 4) 46, ins := .bc cond sa sb r.off }
  | 0x22 => some { lens := 3, a := ⟨6, 7⟩, ins := .j sa }
  | 0x23 => some { lens := 4, d := .reg, lit := true, ins := .call d r.off }
  | 0x24 => some { lens := 1, a := .reg, ins := .ret a }
  | 0x25 => some { lens := 4, d := .reg, lit := true, ins := .loop d r.off }
  | 0x26 =>
    some { lens := 6, a := .any, zm := 0x3FF,
           bad := offend (1 < bits r.z 8 2) 54 ++ (if bits r.z 8 2 = 1 then mustZero 48 (bits r.z 2 6) else []),
           ins := if bits r.z 8 2 = 1 then .waitWatermark sa (r.zf 0 2) else .waitCount sa (r.zf 0 8) }
  | 0x27 => some { lens := 1, d := .r2, bad := offend (r.d = 0) 13, ins := .nxt (.ofNat 2 r.d) }
  | 0x28 => some { lens := 1, ins := .endNxt }
  | 0x29 => some { lens := 1, ins := .yield }
  | 0x2A =>
    if r.len = 1 then some { lens := 3, a := .reg, ins := .trap (.code a) }
    else some { lens := 3, a := .any, b := .any, ins := .trap (.ops sa sb) }
  | 0x2B => some { lens := 1, ins := .rts }
  | 0x2C => some { lens := 1, a := .reg, ins := .brk a }
  | 0x2D => some { lens := 2, d := .reg, zm := 0xFF, ins := .csrr d (r.zf 0 8) }
  | 0x2E =>
    some { lens := 2, a := .any, zm := 0xFF,
           ins := match bits r.z 0 8 with
             | 0x01 => .csrwFpc sa
             | 0x02 => .csrwFmt sa
             | 0x03 => .csrwDmr sa
             | 0x22 => .csrwKbase sa
             | 0x23 => .csrwSchedptr sa
             | 0x51 => .csrwRngctr sa
             | n => .csrw (.ofNat 8 n) sa }
  | 0x30 => some { lens := 6, d := .reg, a := .reg, b := .any, zm := 7, bad := offend (sz = 7) 46, ins := .ld sz d a sb }
  | 0x31 => some { lens := 6, d := .reg, a := .reg, b := .any, zm := 7, bad := offend (3 < sz.toNat) 46, ins := .st (r.zf 0 2) d a sb }
  | 0x32 => some { lens := 2, zm := 0x1F, bad := offend (bits r.z 3 2 = 3) 49, ins := .fence (r.zf 3 2) sc }
  | 0x33 =>
    some { lens := 6, d := .reg, a := .reg, b := ⟨6, 5⟩, zm := 0xFF, lit := true,
           bad := offend (9 < bits r.z 3 4) 49 ++ offend (bits r.z 3 4 = 9 && r.zb 7) 53,
           ins := .amo (.fromCode (bits r.z 3 4)) (r.zb 7) sc d a sb r.off }
  | 0x34 => some { lens := 6, d := .reg, a := .reg, b := .reg, c := .reg, zm := 0x87, lit := true, ins := .cas (r.zb 7) sc d a b c r.off }
  | 0x35 => some { lens := 2, d := .reg, a := .reg, b := .any, zm := 7, ins := .acq sc d a sb }
  | 0x36 => some { lens := 2, d := .reg, a := .reg, zm := 7, ins := .rel sc d a }
  | 0x37 => some { lens := 2, d := .reg, a := .reg, zm := 7, ins := .bar sc d a }
  | 0x38 =>
    some { lens := 2, d := .reg, a := .reg, b := .any, c := .reg, zm := 0x7F, bad := offend (7 < bits r.z 3 4) 49,
           ins := .waitf (.fromCode (bits r.z 3 4)) sc d a sb c }
  | 0x39 => some { lens := 2, a := .reg, b := .reg, c := .reg, zm := 7, ins := .sbind sc a b c }
  | 0x3A => some { lens := 2, a := .reg, b := .reg, ins := .sunbind a b }
  | 0x40 => some { lens := 2, d := .r4, a := .any, ins := .alloc (.ofNat 4 r.d) sa }
  | 0x41 => some { lens := 2, a := .r4, ins := .free (.ofNat 4 r.a) }
  | 0x42 => some { lens := 2, d := .reg, a := .r4, b := .any, zm := 7, bad := offend (sz = 7) 46, ins := .cld sz d (.ofNat 4 r.a) sb }
  | 0x43 => some { lens := 2, d := .reg, a := .r4, b := .any, zm := 7, bad := offend (3 < sz.toNat) 46, ins := .cst (r.zf 0 2) d (.ofNat 4 r.a) sb }
  | 0x44 => some { lens := 2, d := .r4, a := .r4, b := .any, c := .reg, zm := 0xF, ins := .cderive (.ofNat 4 r.d) (.ofNat 4 r.a) sb c (r.zf 0 4) }
  | 0x45 => some { lens := 2, d := .reg, a := .r4, zm := 7, bad := offend (4 < bits r.z 0 3) 46, ins := .cget d (.ofNat 4 r.a) (.fromCode (bits r.z 0 3)) }
  | 0x46 => some { lens := 2, d := .r4, a := .reg, b := .any, ins := .ldc (.ofNat 4 r.d) a sb }
  | 0x47 => some { lens := 2, d := .r4, a := .reg, b := .any, ins := .stc (.ofNat 4 r.d) a sb }
  | 0x50 =>
    some { lens := 2, a := .reg, b := .reg, zm := 0x1F,
           bad := offend (bits r.z 0 2 = 3) 46 ++ offend (!(bits r.z 2 3 == 1 || bits r.z 2 3 == 2 || bits r.z 2 3 == 3)) 48,
           ins := .tlbinv (.fromCode (bits r.z 2 3)) (r.zf 0 2) a b }
  | 0x51 => some { lens := 2, a := .any, zm := 0x3FF, bad := offend (bits r.z 0 2 = 3) 46, ins := .bankmode sa (r.zf 2 8) (r.zf 0 2) }
  | 0x52 => some { lens := 3, a := if r.len = 1 then .reg else .any, ins := .fmtw sa }
  | 0x53 =>
    some { lens := 2, a := .reg, zm := 0x3FF, bad := offend (1 < bits r.z 8 2) 54 ++ (if bits r.z 8 2 = 1 then mustZero 50 (bits r.z 4 4) else []),
           ins := .tidw (r.zb 8) (r.zf 0 8) a }
  | 0x54 =>
    some { lens := 2, a := .reg, zm := 0x3FF, bad := offend (1 < bits r.z 8 2) 54 ++ (if bits r.z 8 2 = 1 then mustZero 50 (bits r.z 4 4) else []),
           ins := .tidr (r.zb 8) (r.zf 0 8) a }
  | _ => none

/-- R70, R146. A vector field that names 63 offends with the lowest bit of the field (R124). -/
def rowA (r : Raw) : Option Row :=
  let d := r.rD; let a := r.rA; let c := r.rC; let sb := r.sB
  let sz : BitVec 3 := r.zf 12 3; let g : BitVec 2 := r.zf 12 2; let ms : BitVec 4 := r.zf 8 4; let ce : BitVec 8 := r.zf 0 8
  match r.op with
  | 0x00 => some { lens := 1, ins := .nop .a }
  | 0x01 => some { lens := 7, d := .reg, a := .any, b := .any, ins := .aadd d r.sA sb }
  | 0x02 => some { lens := 7, d := .reg, a := .any, b := .any, ins := .asub d r.sA sb }
  | 0x03 => some { lens := 7, d := .reg, a := .any, b := .any, ins := .ashl d r.sA sb }
  | 0x08 => some { lens := 6, a := .reg, b := .any, zm := 0x7FFF, bad := offend (sz = 7) 58, ins := .lq sz ms ce a sb }
  | 0x09 => some { lens := 6, a := .reg, b := .any, c := .reg, zm := 0x7FFF, bad := offend (sz = 7) 58, ins := .lqs sz ms ce a sb c }
  | 0x0A => some { lens := 6, a := .reg, b := .any, c := .reg, zm := 0x7FFF, bad := offend (sz = 7) 58 ++ offend (r.c = 63) 32, ins := .lqg sz ms ce a sb c }
  | 0x10 => some { lens := 2, d := .reg, a := .reg, b := .any, zm := 0x3FFF, bad := offend (r.d = 63) 13, ins := .vld g ms ce d a sb }
  | 0x11 => some { lens := 2, d := .reg, a := .reg, b := .any, zm := 0x3FFF, bad := offend (r.d = 63) 13, ins := .vst g ms ce d a sb }
  | 0x12 => some { lens := 2, d := .reg, a := .reg, b := .any, c := .reg, zm := 0x3FFF, bad := offend (r.d = 63) 13 ++ offend (r.c = 63) 32, ins := .vldg g ms ce d a sb c }
  | 0x13 => some { lens := 2, d := .reg, a := .reg, b := .any, c := .reg, zm := 0x7FFF, bad := offend (3 < sz.toNat) 58 ++ offend (r.d = 63) 13, ins := .vsts (r.zf 12 2) ms ce d a sb c }
  | _ => none

/-- A row of the vector maps. -/
def rowVec (lens tys : Nat) (d a b c : Fld) (fs : Nat) (rnd : Bool) (ins : Instr) (bad : List Nat := []) : Option Row :=
  some { lens, tys, d, a, b, c, zm := 0x3FFFF, fs, rnd, bad, ins }

/-- R71, R124, R163. -/
def rowV (sl : VSlot) (r : Raw) : Option Row :=
  let o := r.vop; let n := Fld.no; let g := Fld.reg; let y := Fld.any; let q := Fld.r4
  match r.op with
  | 0x00 => some { lens := 1, ins := .nop (match sl with | .va => .va | .vb => .vb) }
  | 0x01 => rowVec 7 fpTys g y y n rmSet true (.fadd sl o)
  | 0x02 => rowVec 7 fpTys g y y n rmSet true (.fsub sl o)
  | 0x03 => rowVec 7 fpTys g y y n rmSet true (.fmul sl o)
  | 0x04 => rowVec 7 fpTys g y y g rmSet true (.fma sl o)
  | 0x05 => rowVec 7 fpTys g y y g rmSet true (.fms sl o)
  | 0x06 => rowVec 7 fpTys g y y g rmSet true (.fnma sl o)
  | 0x07 => rowVec 7 fpTys g y y g rmSet true (.fnms sl o)
  | 0x08 => rowVec 7 fpTys g y y n 1 false (.fmin sl o)
  | 0x09 => rowVec 7 fpTys g y y n 1 false (.fmax sl o)
  | 0x0A => rowVec 7 fpTys g y n n 1 false (.fabs sl o)
  | 0x0B => rowVec 7 fpTys g y n n 1 false (.fneg sl o)
  | 0x0C => rowVec 2 fpTys q y y n 0xFF false (.fcmp sl o)
  | 0x0D => rowVec 2 fpTys g y n n 1 false (.fclass sl o)
  | 0x20 => rowVec 7 intTys g y y n 1 false (.vAdd sl o)
  | 0x21 => rowVec 7 intTys g y y n 1 false (.vSub sl o)
  | 0x22 => rowVec 7 intTys g y y n 1 false (.vMul sl o)
  | 0x23 => rowVec 7 0x30 g y y n 3 false (.vMulh sl o)
  | 0x24 => rowVec 7 intTys g y y n (if r.ty = 7 then 1 else 3) false (.vMin sl o)
  | 0x25 => rowVec 7 intTys g y y n (if r.ty = 7 then 1 else 3) false (.vMax sl o)
  | 0x26 => rowVec 7 intTys g y n n 1 false (.vAbs sl o)
  | 0x27 => rowVec 7 intTys g y n n 1 false (.vNeg sl o)
  | 0x28 => rowVec 7 intTys g y y n 1 false (.vAnd sl o)
  | 0x29 => rowVec 7 intTys g y y n 1 false (.vOr sl o)
  | 0x2A => rowVec 7 intTys g y y n 1 false (.vXor sl o)
  | 0x2B => rowVec 7 intTys g y y n 1 false (.vAndn sl o)
  | 0x2C => rowVec 7 intTys g y y n 1 false (.vShl sl o)
  | 0x2D => rowVec 7 intTys g y y n 1 false (.vShr sl o)
  | 0x2E => rowVec 7 intTys g y y n 1 false (.vSra sl o)
  | 0x2F => rowVec 7 intTys g y y n 1 false (.sadd sl o)
  | 0x30 => rowVec 6 intTys g y y n 1 false (.ssub sl o)
  | 0x31 => rowVec 6 intTys q y y n 0xFF false (.vCmp sl o)
  | 0x40 => rowVec 7 0xFF g y n n 1 false (.mov sl o)
  | 0x41 => rowVec 2 0xFF g y y n 1 false (.vSel sl o)
  | 0x42 => rowVec 2 0xFF g y g n rmSet true (.cvt sl o) (offend (9 < r.b % 16) 25 ++ offend (bit r.b 4) 29)
  | 0x43 => rowVec 2 0x33 g n n n 1 false (.vrng sl o)
  | 0x44 => rowVec 2 (if bit 0x38 r.f then intTys else 0xFF) g g n n 0x3F false (.vred sl o)
  | 0x45 => rowVec 2 1 g .r3 .nv n 1 false (.vacc sl o)
  | 0x46 => rowVec 3 0x30 g y n n 1 false (.vlane sl o)
  | 0x50 => rowVec 2 1 q n n n 1 false (.qclr sl o)
  | 0x51 => rowVec 2 0xEF q y n n 1 false (.qupd sl o)
  | 0x52 => rowVec 2 0xEF q y y n 1 false (.qupw sl o)
  | 0x53 => rowVec 2 1 q q q n 1 false (.qmrg sl o)
  | 0x54 => rowVec 2 1 q q n n 1 false (.qred sl o)
  | 0x55 => rowVec 2 1 q q .nv n 3 false (if r.f = 1 then .qxcMerge sl o else .qxc sl o)
  | 0x56 => rowVec 2 1 g q (if r.f = 5 ∨ r.f = 7 then y else n) (if r.f = 7 then g else n) 0xFF false (.qdrn sl o)
  | 0x57 => rowVec 2 1 q ⟨6, 2⟩ .nv n 0x0F false (.qld sl o)
  | 0x58 => rowVec 2 1 q ⟨6, 2⟩ .nv n 0x0F false (.qst sl o)
  | _ => none

/-- R73, R139-R145. -/
def rowX (r : Raw) : Option Row :=
  let o := r.vop; let n := Fld.no; let g := Fld.reg; let y := Fld.any
  match r.op with
  | 0x00 => some { lens := 1, ins := .nop .x }
  | 0x01 => rowVec 3 fpTys g y n n rmSet true (.frcp o)
  | 0x02 => rowVec 3 fpTys g y n n rmSet true (.frsqrt o)
  | 0x03 => rowVec 3 fpTys g y n n rmSet true (.fsqrt o)
  | 0x04 => rowVec 3 fpTys g y y n rmSet true (.fdiv o)
  | 0x05 => rowVec 3 fpTys g y n n rmSet true (.fexp2 o)
  | 0x06 => rowVec 3 fpTys g y n n rmSet true (.flog2 o)
  | 0x07 => rowVec 3 fpTys g y n n rmSet true (.fsin o)
  | 0x08 => rowVec 3 fpTys g y n n rmSet true (.fcos o)
  | 0x09 => rowVec 3 fpTys g y n n rmSet true (.ftanh o)
  | 0x0A => rowVec 3 fpTys g y n n rmSet true (.ferf o)
  | 0x0B => rowVec 3 fpTys g y n n rmSet true (.fexp o)
  | 0x20 => rowVec 2 0xFF g g y n 1 false (.perm o)
  | 0x21 => rowVec 2 0xFF g g n n 1 false (.rev o)
  | 0x22 => rowVec 2 0xFF g g .nv n 1 false (.rot o)
  | 0x23 => rowVec 2 0xFF g g g n 3 false (.zip o)
  | 0x24 => rowVec 2 0xFF g g g n 3 false (.unzip o)
  | 0x30 => rowVec 2 0xFF g g .nv n 1 false (.xcopy o)
  | 0x31 => rowVec 2 0xFF g g .nv n 1 false (.xbcast o)
  | 0x38 => rowVec 2 0xFF n y .nv n 1 false (.cpush o)
  | 0x39 => rowVec 2 0xFF g n .nv n 3 false (if r.f = 1 then .cpopCnt o else .cpop o)
  | 0x3A => rowVec 2 0x10 n n .nv n 1 false (.xroute o)
  | _ => none

/-- R72, R138. -/
def rowP (r : Raw) : Option Row :=
  let d : BitVec 4 := .ofNat 4 r.d; let a : BitVec 4 := .ofNat 4 r.a; let b : BitVec 4 := .ofNat 4 r.b; let ce : BitVec 8 := r.zf 0 8
  match r.op with
  | 0x00 => some { lens := 1, ins := .nop .p }
  | 0x01 => some { lens := 3, d := .r4, a := .r4, b := .r4, zm := 0x380FF, ins := .mand ce d a b }
  | 0x02 => some { lens := 3, d := .r4, a := .r4, b := .r4, zm := 0x380FF, ins := .mor ce d a b }
  | 0x03 => some { lens := 3, d := .r4, a := .r4, b := .r4, zm := 0x380FF, ins := .mxor ce d a b }
  | 0x04 => some { lens := 3, d := .r4, a := .r4, b := .r4, zm := 0x380FF, ins := .mandn ce d a b }
  | 0x05 => some { lens := 3, d := .r4, a := .r4, zm := 0x380FF, ins := .mnot ce d a }
  | 0x06 => some { lens := 3, d := .r4, a := .r4, zm := 0x380FF, ins := .mmov ce d a }
  | 0x07 =>
    if r.len = 3 then some { lens := 6, d := .r4, zm := 0x380FF, lit := true, bad := mustZero 80 (bits r.lit 16 16), ins := .mset ce d (.mask (.ofNat 16 r.lit)) }
    else some { lens := 6, d := .r4, a := .reg, zm := 0x380FF, bad := offend (16 < r.a) 19, ins := .mset ce d (.upto (.ofNat 5 r.a)) }
  | 0x08 => some { lens := 2, d := .reg, a := .r4, zm := 0x380FF, ins := .mcnt ce r.rD a }
  | 0x09 => some { lens := 2, d := .reg, a := .r4, zm := 0x380FF, ins := .mfst ce r.rD a }
  | 0x0A => some { lens := 2, d := .r4, a := .reg, zm := 0x380FF, fs := 3, ins := .mlim ce d r.rA (r.f == 1) }
  | _ => none

/-- R74, R168, R185. -/
def rowM (r : Raw) : Option Row :=
  let acc : BitVec 3 := .ofNat 3 r.d; let accA : BitVec 3 := .ofNat 3 r.a; let rm : BitVec 3 := r.zf 15 3
  let badRm := offend (!bit rmSet (bits r.z 15 3)) 61
  match r.op with
  | 0x00 => some { lens := 1, ins := .nop .m }
  | 0x01 =>
    some { lens := 2, d := .r3, a := .reg, b := if r.zb 14 then .r2 else .reg, zm := 0x3C008, bad := badRm,
           ins := .mma acc r.rA (if r.zb 14 then .latch (.ofNat 2 r.b) else .tile r.rB) rm (r.zb 3) }
  | 0x02 =>
    if r.zb 14 then some { lens := 2, d := .r2, a := .reg, zm := 0x40FF, ins := .mlatchMem (.ofNat 2 r.d) r.rA (r.zf 0 8) }
    else some { lens := 2, d := .r2, a := .reg, zm := 0x4000, ins := .mlatch (.ofNat 2 r.d) r.rA }
  | 0x03 => some { lens := 2, d := .r3, ins := .mzero acc }
  | 0x04 => some { lens := 2, d := .reg, a := .r3, zm := 0x3C000, bad := badRm, ins := .mst r.rD accA rm (r.zb 14) }
  | 0x05 => some { lens := 2, d := .reg, a := .r3, ins := .msv r.rD accA }
  | 0x06 => some { lens := 2, d := .r3, a := .reg, ins := .mrst acc r.rA }
  | 0x07 =>
    some { lens := 2, d := .r4, a := .r3, b := if r.zb 1 then .no else .nv, zm := 0x3FFF,
           ins := .mq (.ofNat 4 r.d) accA (r.zb 0) (if r.zb 1 then .col else .row r.sB) (r.zf 10 4) (r.zf 2 8) }
  | 0x08 => some { lens := 2, zm := 0xF, ins := .macq (r.zf 0 4) }
  | 0x09 => some { lens := 2, zm := 0xF, ins := .mrls (r.zf 0 4) }
  | 0x10 => some { lens := 2, d := .reg, a := .reg, b := .reg, ins := .tdef r.rD r.rA r.rB }
  | 0x11 => some { lens := 2, d := .reg, ins := .trel r.rD }
  | 0x12 => some { lens := 2, d := .reg, a := .reg, zm := 0x1FF, ins := .tmov r.rD r.rA (if r.zb 8 then some (r.zf 0 8) else none) }
  | _ => none

/-- A row of the copies (R197). -/
def rowCopy (r : Raw) (zm : Nat) (bad : List Nat) (ins : Instr) : Option Row :=
  some { lens := 6, d := .reg, a := .reg, b := .any, c := .reg, zm,
         bad := offend (bits r.z 6 2 = 3) 52 ++ offend (r.zb 5 && r.zb 9) 55 ++ bad, ins }

/-- R75, R197, R368, R377, R390, R405, R408; of the lengths that R75 lists for `attn`, `tsend` and `trecv` those that R368 and R390 describe (log 35, DEDUCED). -/
def rowC (r : Raw) : Option Row :=
  match r.op with
  | 0x00 => some { lens := 1, ins := .nop .c }
  | 0x01 => rowCopy r 0x3FFE0 [] (.tld r.copy)
  | 0x02 => rowCopy r 0x3FFE0 [] (.tst r.copy)
  | 0x03 => rowCopy r 0x3FFE0 [] (.tldm r.copy)
  | 0x04 => some { lens := 6, b := .any, ins := .tstage r.sB }
  | 0x05 => rowCopy r 0x3FFE0 [] (.ttrans r.copy)
  | 0x08 =>
    if bits r.z 16 2 = 1 then some { lens := 6, a := .reg, zm := 0x30000, ins := .tfireOpen r.rA }
    else some { lens := 6, d := .reg, a := .reg, b := .any, zm := 0x30000, bad := mustZero 42 r.cx ++ offend (r.zb 17) 62, ins := .tfire r.rD r.rA r.sB }
  | 0x09 => rowCopy r 0x3FFFC (offend (!(bit 0x1E (bits r.z 2 3))) 48) (.tred (.fromCode (bits r.z 2 3)) r.copy)
  | 0x0A =>
    match bits r.z 16 2 with
    | 1 => some { lens := if r.ka = 3 then 6 else 2, a := ⟨6, 13⟩, b := .r4, zm := 0x30000, ins := .tsendOpen r.sA (.ofNat 4 r.b) }
    | 2 => some { lens := 2, b := .r4, zm := 0x30000, ins := .tsendClose (.ofNat 4 r.b) }
    | fn => some { lens := 2, d := .reg, a := .reg, b := .r4, zm := 0x30000, bad := offend (fn ≠ 0) 62, ins := .tsend r.rD r.rA (.ofNat 4 r.b) }
  | 0x0B => some { lens := 2, d := .reg, a := .reg, b := .r4, zm := 0x30000, bad := offend (bits r.z 16 2 ≠ 0) 62, ins := .trecv r.rD r.rA (.ofNat 4 r.b) }
  | 0x10 =>
    some { lens := 2, d := .reg, a := .reg, b := .reg, zm := 0x3C000, bad := offend (!bit rmSet (bits r.z 15 3)) 61,
           ins := .attn r.rD r.rA r.rB (r.zf 15 3) (r.zb 14) }
  | 0x11 =>
    let tt : BitVec 2 := r.zf 2 2
    match bits r.z 0 2 with
    | 1 => some { lens := 6, a := .reg, b := .any, c := .reg, zm := 0xF, bad := mustZero 48 tt.toNat, ins := .kvmapPro r.rA r.sB r.rC }
    | 2 => some { lens := 6, a := .reg, b := .any, c := .reg, zm := 0xF, bad := offend (tt.toNat < 2) 48, ins := .kvmapDem r.rA r.sB r.rC tt }
    | fn =>
      some { lens := 6, d := .reg, a := .reg, b := .any, c := .reg, zm := 0xF, bad := if fn = 0 then mustZero 48 tt.toNat else [],
             ins := .kvmap r.rD r.rA r.sB r.rC (fn == 3) tt }
  | _ => none

/-- The row of the opcode maps that a syllable names (R69-R75). -/
def row (r : Raw) : Option Row :=
  match r.slot with
  | 0 => rowS r
  | 1 => rowA r
  | 2 => rowV .va r
  | 3 => rowV .vb r
  | 4 => rowM r
  | 5 => rowC r
  | 6 => rowP r
  | _ => rowX r

/-- Why a syllable is refused: the cause code and TRAPINFO0 (R64). -/
structure Refused where
  cause : Nat
  info : Nat
  deriving DecidableEq, Repr

/-- The offending bits of one operand field at bit `lo`, its kind tag at `klo` (R58, R60, R66). Of a refused kind the offending bit is the lowest set bit of the tag: the tag is no unassigned
value as a whole, since other fields admit it (R64) (log 34, DEDUCED). -/
def fieldBad (f : Fld) (len lo klo kind v : Nat) : List Nat :=
  if !bit f.ks kind then [klo + if kind = 2 then 1 else 0]
  else if kind = 0 then mustZero (lo + f.w) (v / 2 ^ f.w)
  else if kind = 3 ∧ len = 3 then mustZero lo v
  else []

/-- All offending bits of a syllable (R64, check 9). -/
def offending (w : Row) (r : Raw) : List Nat :=
  offend (r.top ≠ 0) 31 ++ fieldBad w.d r.len 13 0 0 r.d ++ fieldBad w.a r.len 19 38 r.ka r.a ++ fieldBad w.b r.len 25 40 r.kb r.b ++
    (if r.len = 1 then []
     else
       fieldBad w.c r.len 32 0 0 r.c ++ (if r.ka = 2 ∨ r.kb = 2 then [] else mustZero 42 r.cx) ++
         mustZero 46 (r.z &&& (0x3FFFF - w.zm)) ++
         offend (((2 ≤ r.slot ∧ r.slot ≤ 3) ∨ 6 ≤ r.slot) && !bit w.fs r.f) 61 ++
         (if w.lit ∨ r.ka = 3 ∨ r.kb = 3 then [] else mustZero 64 r.lit)) ++
    w.bad

/-- The defaults of R62 for a 32-bit syllable. -/
def Raw.defaults (w : Row) (r : Raw) : Raw :=
  if r.len = 1 then
    { r with c := if w.c.w = 6 then r.d else 0
             z := (if w.rnd then 7 else 0) * 2 ^ 15 + (if w.tys = 0 ∨ bit w.tys 0 then 0 else 4) * 2 ^ 12 +
               (if (2 ≤ r.slot ∧ r.slot ≤ 3) ∨ 6 ≤ r.slot then 0xFF else 0) }
  else r

/-- Check 6 of R64 for syllables that one mode refuses (R87, R197, R248). `svc` says that service code runs. -/
def modeRefused (svc : Bool) (r : Raw) : Option Nat :=
  let prv := r.slot = 5 ∧ (r.op ∈ [1, 2, 3, 5, 9]) ∧ r.zb 5 ∧ 1 < r.len
  if svc then
    if r.slot ≠ 0 ∧ r.slot ≠ 5 then some 10
    else if r.slot = 5 ∧ ¬prv then some 11
    else if r.slot = 0 ∧ r.op ∈ [0x27, 0x28, 0x29] then some 12
    else if r.slot = 0 ∧ r.op = 0x2B ∧ r.eob = 0 then some 8
    else none
  else if (r.slot = 0 ∧ r.op ∈ [0x2B, 0x50]) ∨ prv then some 7
  else none

/-- Checks 4 to 9 of R64 on one syllable, in their order; `prev` is the previous syllable's slot plus 1, or 0. -/
def decodeSyllable (svc : Bool) (prev : Nat) (r : Raw) : Except Refused Instr :=
  if 3 < r.len then .error ⟨0x01, 0⟩
  else if r.slot < prev then .error ⟨0x02, r.slot⟩
  else
    match row r with
    | none => .error ⟨0x01, 1⟩
    | some w0 =>
      match modeRefused svc r with
      | some n => .error ⟨0x01, n⟩
      | none =>
        if !bit w0.lens (if r.len = 3 then 2 else r.len - 1) then .error ⟨0x01, 2⟩
        else
          let q := r.defaults w0
          match row q with
          | none => .error ⟨0x01, 1⟩
          | some w =>
            if w.tys ≠ 0 ∧ !bit w.tys q.ty then .error ⟨0x01, 3⟩
            else
              match (offending w q).min? with
              | some i => .error ⟨0x03, i⟩
              | none => .ok w.ins

/-- A syllable's length in bytes from its first word; a length of 0b11 counts as its four bytes. -/
def syllableBytes (w : Nat) : Nat := if bits w 0 2 = 3 then 4 else 4 * (bits w 0 2 + 1)

/-- Little-endian bytes to a number (R26). -/
def leNat : List Byte → Nat
  | [] => 0
  | x :: xs => x.toNat + 256 * leNat xs

/-- The `n` little-endian bytes of a number. -/
def leBytes : Nat → Nat → List Byte
  | 0, _ => []
  | n + 1, x => .ofNat 8 x :: leBytes n (x / 256)

/-- A bytecode operator from its 16 bytes (R277, R279); `none` for an unassigned opcode. -/
def decodeBytecode (w : Nat) : Option Instr :=
  let o : LbOp := { op := .ofNat 8 w, md := .ofNat 6 (bits w 8 6), ln := .ofNat 2 (bits w 14 2), d := .ofNat 12 (bits w 16 12),
                    a := .ofNat 12 (bits w 28 12), b := .ofNat 12 (bits w 40 12), c := .ofNat 12 (bits w 52 12), imm := .ofNat 64 (bits w 64 64) }
  match bits w 0 8 with
  | 0x00 => some (.lbNop o)
  | 0x01 => some (.lbMatmul o)
  | 0x02 => some (.lbEwise o)
  | 0x03 => some (.lbUnary o)
  | 0x04 => some (.lbCast o)
  | 0x05 => some (.lbSoftmax o)
  | 0x06 => some (.lbRstats o)
  | 0x07 => some (.lbRdrain o)
  | 0x08 => some (.lbNorm o)
  | 0x09 => some (.lbAttn o)
  | 0x20 => some (.lbCopy o)
  | 0x21 => some (.lbTranspose o)
  | 0x22 => some (.lbGather o)
  | 0x23 => some (.lbScatter o)
  | 0x24 => some (.lbView o)
  | 0x25 => some (.lbConcat o)
  | 0x26 => some (.lbFill o)
  | 0x30 => some (.lbAllreduce o)
  | 0x31 => some (.lbAllgather o)
  | 0x32 => some (.lbRscatter o)
  | 0x33 => some (.lbAlltoall o)
  | 0x34 => some (.lbBcast o)
  | 0x35 => some (.lbReshard o)
  | 0x40 => some (.lbKvappend o)
  | 0x41 => some (.lbKvtrunc o)
  | 0x42 => some (.lbKvpromote o)
  | 0x48 => some (.lbRngsave o)
  | 0x49 => some (.lbRngset o)
  | 0x4A => some (.lbRngfill o)
  | 0x50 => some (.lbCkptsave o)
  | 0x51 => some (.lbCkptload o)
  | 0x60 => some (.lbDset o)
  | 0x61 => some (.lbDop o)
  | 0x62 => some (.lbDext o)
  | 0x63 => some (.lbDld o)
  | 0x70 => some (.lbBr o)
  | 0x71 => some (.lbBrc o)
  | 0x72 => some (.lbCall o)
  | 0x73 => some (.lbRet o)
  | 0x74 => some (.lbEnd o)
  | 0x75 => some (.lbHbind o)
  | 0x76 => some (.lbNotify o)
  | n => if 0xC0 ≤ n then some (.lbCustom o) else none

/-- The source of an `oshape` word (R295). -/
def decodeShapeSrc (w : Nat) : Option ShapeSrc :=
  match bits w 54 2 with
  | 0 => some (.dim (.ofNat 2 (bits w 52 2)) (.ofNat 3 (bits w 49 3)))
  | 1 => some (.reg (.ofNat 6 (bits w 43 6)))
  | 2 => some (.lit (.ofNat 24 (bits w 0 24)))
  | _ => none

/-- The microcode word of R295, or `none` for an unassigned form or field value or a set reserved bit. -/
def decodeMicrocode (w : Nat) : Option Instr :=
  let z (lo n : Nat) : Bool := bits w lo n == 0
  let perm := List.map (fun p => bits w (50 + 2 * p) 2) [0, 1, 2, 3]
  match bits w 60 4 with
  | 0x0 => if z 0 31 then some (.ucOphdr (.ofNat 4 (bits w 56 4)) (.ofNat 4 (bits w 52 4)) (.ofNat 13 (bits w 39 13)) (.ofNat 8 (bits w 31 8))) else none
  | 0x1 => if z 58 2 && z 24 19 then (decodeShapeSrc w).map (.ucOshape (.ofNat 2 (bits w 56 2))) else none
  | 0x2 => if z 58 2 && z 0 45 && 1 ≤ bits w 45 11 && bits w 45 11 ≤ 1024 then some (.ucTiledim (.ofNat 2 (bits w 56 2)) (.ofNat 11 (bits w 45 11))) else none
  | 0x3 => if z 58 2 && z 0 48 && bits w 48 2 < 2 && perm.Nodup then some (.ucOrder (.ofNat 8 (bits w 50 8)) (bit w 48)) else none
  | 0x4 =>
    if z 58 2 && !z 28 12 && !z 14 14 && 2 ≤ bits w 4 10 && bits w 4 10 ≤ 1022 && bits w 0 4 ≤ 12 then
      some (.ucBind (.ofNat 2 (bits w 56 2)) (.ofNat 6 (bits w 50 6)) (.ofNat 8 (bits w 42 8)) (.ofNat 2 (bits w 40 2)) (.ofNat 12 (bits w 28 12))
        (.ofNat 14 (bits w 14 14)) (.ofNat 10 (bits w 4 10)) (.ofNat 4 (bits w 0 4)))
    else none
  | 0x5 =>
    if z 58 2 && z 0 21 && (bits w 55 3 == 1 || bits w 55 3 == 2) && bits w 45 2 < 3 && !z 29 16 && !z 23 6 then
      some (.ucStage (bits w 55 3 == 2) (.ofNat 6 (bits w 49 6)) (.ofNat 2 (bits w 47 2)) (.ofNat 2 (bits w 45 2)) (.ofNat 16 (bits w 29 16))
        (.ofNat 6 (bits w 23 6)) (.ofNat 2 (bits w 21 2)))
    else none
  | 0x6 =>
    if z 58 2 && !z 50 8 && bits w 0 2 == 0 then
      some (.ucRoutine (.ofNat 8 (bits w 50 8)) (.ofNat 4 (bits w 46 4)) (.ofNat 14 (bits w 32 14)) (.ofNat 32 (bits w 0 32)))
    else none
  | 0x7 => if z 58 2 && z 0 49 then some (.ucFuse (.ofNat 2 (bits w 56 2)) (.ofNat 6 (bits w 50 6)) (bit w 49)) else none
  | 0x8 =>
    if z 58 2 && z 0 44 && (if bits w 54 2 = 0 then z 44 10 else 960 ≤ bits w 44 10 && bits w 44 10 ≤ 1023) then
      some (.ucShard (.ofNat 2 (bits w 56 2)) (.ofNat 2 (bits w 54 2)) (.ofNat 10 (bits w 44 10)))
    else none
  | 0x9 => if z 58 2 && z 0 48 && 2 ≤ bits w 48 10 && bits w 48 10 ≤ 1022 then some (.ucDepend (.ofNat 10 (bits w 48 10))) else none
  | 0xA =>
    if z 58 2 && z 0 46 && bits w 56 2 < 2 && 2 ≤ bits w 46 10 && bits w 46 10 ≤ 1022 then some (.ucEpilog (bit w 56) (.ofNat 10 (bits w 46 10))) else none
  | 0xB => if z 0 60 then some .ucOend else none
  | _ => none

/-- `depend` lies in [57:48] for its K; the assembly of fields into a word at their offsets. -/
def pack : List (Nat × Nat) → Nat
  | [] => 0
  | (lo, v) :: xs => v * 2 ^ lo + pack xs

/-- The fields of a source: kind, number, CX and literal (R58-R60). -/
def Src.kind : Src → Nat
  | .r0 _ => 0 | .r1 _ => 1 | .k _ => 2 | .l6 _ => 3 | .l32 _ => 3

def Src.num : Src → Nat
  | .r0 n | .r1 n => n.toNat
  | .k i => i.toNat % 64
  | .l6 v => v.toNat
  | .l32 _ => 0

def Src.cx : Src → Nat
  | .k i => i.toNat / 64
  | _ => 0

def Src.lit : Src → Nat
  | .l32 v => v.toNat
  | _ => 0

def Src.long : Src → Bool
  | .l32 _ => true
  | _ => false

/-- A syllable of 64 bits, or of 96 where a source is a 32-bit literal, with sources A and B. -/
def encAB (slot op d : Nat) (a b : Src) (c z : Nat) : Raw :=
  { slot, op, d, a := a.num, b := b.num, c, ka := a.kind, kb := b.kind, cx := max a.cx b.cx, z,
    len := if a.long || b.long then 3 else 2, lit := max a.lit b.lit }

/-- The field that an instruction does not use. -/
def Src.none : Src := .r0 0

/-- A vector syllable. -/
def encV (slot op : Nat) (o : VOp) : Raw :=
  encAB slot op o.d.toNat o.a o.b o.c.toNat (o.f.toNat * 2 ^ 15 + o.ty.toNat * 2 ^ 12 + o.ms.toNat * 2 ^ 8 + o.ce.toNat)

/-- A copy syllable (R197). -/
def encCopy (op : Nat) (o : CopyOp) (opr : Nat) : Raw :=
  encAB 5 op o.d.toNat (.r0 o.a) o.b o.c.toNat
    (o.tid.toNat * 2 ^ 10 + o.ch.toNat * 2 ^ 8 + o.lay.toNat * 2 ^ 6 + (if o.prv then 2 ^ 5 else 0) + opr * 2 ^ 2)

/-- A 32-bit syllable. -/
def encShort (slot op d a b : Nat) : Raw := { len := 1, slot, op, d, a, b }

/-- A syllable that carries a branch or access offset as its literal; an offset of 0 needs 96 bits only for the branches. -/
def encOff (r : Raw) (always : Bool) (off : BitVec 32) : Raw :=
  { r with len := if always || decide (off ≠ 0) then 3 else 2, lit := off.toNat }

def b2n (x : Bool) : Nat := if x then 1 else 0

/-- The S, A, M, C and P syllables. -/
def encodeScalar : Instr → Option Raw
  | .nop sl => some (encShort sl.toNat 0 0 0 0)
  | .sAdd d a b => some (encAB 0 0x01 d.toNat a b 0 0)
  | .sSub d a b => some (encAB 0 0x02 d.toNat a b 0 0)
  | .sMul d a b => some (encAB 0 0x03 d.toNat a b 0 0)
  | .sMulh d a b => some (encAB 0 0x04 d.toNat a b 0 0)
  | .sMulhu d a b => some (encAB 0 0x05 d.toNat a b 0 0)
  | .sDiv d a b => some (encAB 0 0x06 d.toNat a b 0 0)
  | .sDivu d a b => some (encAB 0 0x07 d.toNat a b 0 0)
  | .sRem d a b => some (encAB 0 0x08 d.toNat a b 0 0)
  | .sRemu d a b => some (encAB 0 0x09 d.toNat a b 0 0)
  | .sAnd d a b => some (encAB 0 0x0A d.toNat a b 0 0)
  | .sOr d a b => some (encAB 0 0x0B d.toNat a b 0 0)
  | .sXor d a b => some (encAB 0 0x0C d.toNat a b 0 0)
  | .sAndn d a b => some (encAB 0 0x0D d.toNat a b 0 0)
  | .sShl d a b => some (encAB 0 0x0E d.toNat a b 0 0)
  | .sShr d a b => some (encAB 0 0x0F d.toNat a b 0 0)
  | .sSra d a b => some (encAB 0 0x10 d.toNat a b 0 0)
  | .sMin d a b => some (encAB 0 0x11 d.toNat a b 0 0)
  | .sMax d a b => some (encAB 0 0x12 d.toNat a b 0 0)
  | .sMinu d a b => some (encAB 0 0x13 d.toNat a b 0 0)
  | .sMaxu d a b => some (encAB 0 0x14 d.toNat a b 0 0)
  | .sCmp cond d a b => some (encAB 0 0x15 d.toNat a b 0 cond.toNat)
  | .sSel d a b c => some (encAB 0 0x16 d.toNat a b c.toNat 0)
  | .li d a => some (encAB 0 0x17 d.toNat a .none 0 0)
  | .liHi d a => some (encAB 0 0x17 d.toNat a .none 0 1)
  | .lk d (.num i) => some (encShort 0 0x18 d.toNat (i.toNat % 64) (i.toNat / 64))
  | .lk d (.reg b imm) => some (encAB 0 0x18 d.toNat .none (.r0 b) 0 imm.toNat)
  | .tcrd d n none => some (encShort 0 0x19 d.toNat n.toNat 0)
  | .tcrd d n (some f) => some { slot := 0, op := 0x19, d := d.toNat, a := n.toNat, z := f.wm1.toNat * 2 ^ 6 + f.lo.toNat }
  | .b off => some (encOff { slot := 0, op := 0x20 } true off)
  | .bc cond a b off => some (encOff (encAB 0 0x21 0 a b 0 cond.toNat) true off)
  | .j a => some (encAB 0 0x22 0 a .none 0 0)
  | .call d off => some (encOff { slot := 0, op := 0x23, d := d.toNat } true off)
  | .ret a => some (encShort 0 0x24 0 a.toNat 0)
  | .loop d off => some (encOff { slot := 0, op := 0x25, d := d.toNat } true off)
  | .waitCount a cls => some (encAB 0 0x26 0 a .none 0 cls.toNat)
  | .waitWatermark a ch => some (encAB 0 0x26 0 a .none 0 (2 ^ 8 + ch.toNat))
  | .nxt n => some (encShort 0 0x27 n.toNat 0 0)
  | .endNxt => some (encShort 0 0x28 0 0 0)
  | .yield => some (encShort 0 0x29 0 0 0)
  | .trap (.code n) => some (encShort 0 0x2A 0 n.toNat 0)
  | .trap (.ops a b) => some (encAB 0 0x2A 0 a b 0 0)
  | .rts => some (encShort 0 0x2B 0 0 0)
  | .brk tag => some (encShort 0 0x2C 0 tag.toNat 0)
  | .csrr d num => some { slot := 0, op := 0x2D, d := d.toNat, z := num.toNat }
  | .csrw num a => some (encAB 0 0x2E 0 a .none 0 num.toNat)
  | .csrwFpc a => some (encAB 0 0x2E 0 a .none 0 0x01)
  | .csrwFmt a => some (encAB 0 0x2E 0 a .none 0 0x02)
  | .csrwDmr a => some (encAB 0 0x2E 0 a .none 0 0x03)
  | .csrwKbase a => some (encAB 0 0x2E 0 a .none 0 0x22)
  | .csrwSchedptr a => some (encAB 0 0x2E 0 a .none 0 0x23)
  | .csrwRngctr a => some (encAB 0 0x2E 0 a .none 0 0x51)
  | .ld sz d a b => some (encAB 0 0x30 d.toNat (.r0 a) b 0 sz.toNat)
  | .st sz d a b => some (encAB 0 0x31 d.toNat (.r0 a) b 0 sz.toNat)
  | .fence cls sc => some { slot := 0, op := 0x32, z := cls.toNat * 2 ^ 3 + sc.toNat }
  | .amo op w sc d a b off =>
    some (encOff (encAB 0 0x33 d.toNat (.r0 a) b 0 (b2n w * 2 ^ 7 + op.toNat * 2 ^ 3 + sc.toNat)) false off)
  | .cas w sc d a b c off => some (encOff (encAB 0 0x34 d.toNat (.r0 a) (.r0 b) c.toNat (b2n w * 2 ^ 7 + sc.toNat)) false off)
  | .acq sc d a b => some (encAB 0 0x35 d.toNat (.r0 a) b 0 sc.toNat)
  | .rel sc d a => some (encAB 0 0x36 d.toNat (.r0 a) .none 0 sc.toNat)
  | .bar sc d a => some (encAB 0 0x37 d.toNat (.r0 a) .none 0 sc.toNat)
  | .waitf cond sc d a b c => some (encAB 0 0x38 d.toNat (.r0 a) b c.toNat (cond.toNat * 2 ^ 3 + sc.toNat))
  | .sbind sc a b c => some (encAB 0 0x39 0 (.r0 a) (.r0 b) c.toNat sc.toNat)
  | .sunbind a b => some (encAB 0 0x3A 0 (.r0 a) (.r0 b) 0 0)
  | .alloc d a => some (encAB 0 0x40 d.toNat a .none 0 0)
  | .free a => some { slot := 0, op := 0x41, a := a.toNat }
  | .cld sz d a b => some { encAB 0 0x42 d.toNat .none b 0 sz.toNat with a := a.toNat }
  | .cst sz d a b => some { encAB 0 0x43 d.toNat .none b 0 sz.toNat with a := a.toNat }
  | .cderive d a b c pm => some { encAB 0 0x44 d.toNat .none b c.toNat pm.toNat with a := a.toNat }
  | .cget d a fld => some { slot := 0, op := 0x45, d := d.toNat, a := a.toNat, z := fld.toNat }
  | .ldc d a b => some (encAB 0 0x46 d.toNat (.r0 a) b 0 0)
  | .stc d a b => some (encAB 0 0x47 d.toNat (.r0 a) b 0 0)
  | .tlbinv sc kind a b => some (encAB 0 0x50 0 (.r0 a) (.r0 b) 0 (sc.toNat * 2 ^ 2 + kind.toNat))
  | .bankmode a clm mode => some (encAB 0 0x51 0 a .none 0 (clm.toNat * 2 ^ 2 + mode.toNat))
  | .fmtw a => some (encAB 0 0x52 0 a .none 0 0)
  | .tidw cb num a => some (encAB 0 0x53 0 (.r0 a) .none 0 (b2n cb * 2 ^ 8 + num.toNat))
  | .tidr cb num a => some (encAB 0 0x54 0 (.r0 a) .none 0 (b2n cb * 2 ^ 8 + num.toNat))
  | .aadd d a b => some (encAB 1 0x01 d.toNat a b 0 0)
  | .asub d a b => some (encAB 1 0x02 d.toNat a b 0 0)
  | .ashl d a b => some (encAB 1 0x03 d.toNat a b 0 0)
  | .lq sz ms ce a b => some (encAB 1 0x08 0 (.r0 a) b 0 (sz.toNat * 2 ^ 12 + ms.toNat * 2 ^ 8 + ce.toNat))
  | .lqs sz ms ce a b c => some (encAB 1 0x09 0 (.r0 a) b c.toNat (sz.toNat * 2 ^ 12 + ms.toNat * 2 ^ 8 + ce.toNat))
  | .lqg sz ms ce a b c => some (encAB 1 0x0A 0 (.r0 a) b c.toNat (sz.toNat * 2 ^ 12 + ms.toNat * 2 ^ 8 + ce.toNat))
  | .vld g ms ce d a b => some (encAB 1 0x10 d.toNat (.r0 a) b 0 (g.toNat * 2 ^ 12 + ms.toNat * 2 ^ 8 + ce.toNat))
  | .vst g ms ce d a b => some (encAB 1 0x11 d.toNat (.r0 a) b 0 (g.toNat * 2 ^ 12 + ms.toNat * 2 ^ 8 + ce.toNat))
  | .vldg g ms ce d a b c => some (encAB 1 0x12 d.toNat (.r0 a) b c.toNat (g.toNat * 2 ^ 12 + ms.toNat * 2 ^ 8 + ce.toNat))
  | .vsts sz ms ce d a b c => some (encAB 1 0x13 d.toNat (.r0 a) b c.toNat (sz.toNat * 2 ^ 12 + ms.toNat * 2 ^ 8 + ce.toNat))
  | .mand ce d a b => some { slot := 6, op := 0x01, d := d.toNat, a := a.toNat, b := b.toNat, z := ce.toNat }
  | .mor ce d a b => some { slot := 6, op := 0x02, d := d.toNat, a := a.toNat, b := b.toNat, z := ce.toNat }
  | .mxor ce d a b => some { slot := 6, op := 0x03, d := d.toNat, a := a.toNat, b := b.toNat, z := ce.toNat }
  | .mandn ce d a b => some { slot := 6, op := 0x04, d := d.toNat, a := a.toNat, b := b.toNat, z := ce.toNat }
  | .mnot ce d a => some { slot := 6, op := 0x05, d := d.toNat, a := a.toNat, z := ce.toNat }
  | .mmov ce d a => some { slot := 6, op := 0x06, d := d.toNat, a := a.toNat, z := ce.toNat }
  | .mset ce d (.upto n) => some { slot := 6, op := 0x07, d := d.toNat, a := n.toNat, z := ce.toNat }
  | .mset ce d (.mask m) => some { slot := 6, op := 0x07, d := d.toNat, z := ce.toNat, len := 3, lit := m.toNat }
  | .mcnt ce d a => some { slot := 6, op := 0x08, d := d.toNat, a := a.toNat, z := ce.toNat }
  | .mfst ce d a => some { slot := 6, op := 0x09, d := d.toNat, a := a.toNat, z := ce.toNat }
  | .mlim ce d a pc => some { slot := 6, op := 0x0A, d := d.toNat, a := a.toNat, z := b2n pc * 2 ^ 15 + ce.toNat }
  | .mma d a (.tile t) rm z0 => some { slot := 4, op := 0x01, d := d.toNat, a := a.toNat, b := t.toNat, z := rm.toNat * 2 ^ 15 + b2n z0 * 2 ^ 3 }
  | .mma d a (.latch l) rm z0 =>
    some { slot := 4, op := 0x01, d := d.toNat, a := a.toNat, b := l.toNat, z := rm.toNat * 2 ^ 15 + 2 ^ 14 + b2n z0 * 2 ^ 3 }
  | .mlatch d a => some { slot := 4, op := 0x02, d := d.toNat, a := a.toNat }
  | .mlatchMem d a tid => some { slot := 4, op := 0x02, d := d.toNat, a := a.toNat, z := 2 ^ 14 + tid.toNat }
  | .mzero d => some { slot := 4, op := 0x03, d := d.toNat }
  | .mst d a rm clr => some { slot := 4, op := 0x04, d := d.toNat, a := a.toNat, z := rm.toNat * 2 ^ 15 + b2n clr * 2 ^ 14 }
  | .msv d a => some { slot := 4, op := 0x05, d := d.toNat, a := a.toNat }
  | .mrst d a => some { slot := 4, op := 0x06, d := d.toNat, a := a.toNat }
  | .mq d a merge .col ms ce => some { slot := 4, op := 0x07, d := d.toNat, a := a.toNat, z := ms.toNat * 2 ^ 10 + ce.toNat * 2 ^ 2 + 2 + b2n merge }
  | .mq d a merge (.row b) ms ce =>
    some { encAB 4 0x07 d.toNat .none b 0 (ms.toNat * 2 ^ 10 + ce.toNat * 2 ^ 2 + b2n merge) with a := a.toNat }
  | .macq mask => some { slot := 4, op := 0x08, z := mask.toNat }
  | .mrls mask => some { slot := 4, op := 0x09, z := mask.toNat }
  | .tdef d a b => some { slot := 4, op := 0x10, d := d.toNat, a := a.toNat, b := b.toNat }
  | .trel d => some { slot := 4, op := 0x11, d := d.toNat }
  | .tmov d a none => some { slot := 4, op := 0x12, d := d.toNat, a := a.toNat }
  | .tmov d a (some tid) => some { slot := 4, op := 0x12, d := d.toNat, a := a.toNat, z := 2 ^ 8 + tid.toNat }
  | .tld o => some (encCopy 0x01 o 0)
  | .tst o => some (encCopy 0x02 o 0)
  | .tldm o => some (encCopy 0x03 o 0)
  | .tstage b => some (encAB 5 0x04 0 .none b 0 0)
  | .ttrans o => some (encCopy 0x05 o 0)
  | .tred opr o => some (encCopy 0x09 o opr.toNat)
  | .tfire d a b => some (encAB 5 0x08 d.toNat (.r0 a) b 0 0)
  | .tfireOpen a => some { slot := 5, op := 0x08, a := a.toNat, z := 2 ^ 16 }
  | .tsend d a b => some { slot := 5, op := 0x0A, d := d.toNat, a := a.toNat, b := b.toNat }
  | .tsendOpen a b => some { encAB 5 0x0A 0 a .none 0 (2 ^ 16) with b := b.toNat }
  | .tsendClose b => some { slot := 5, op := 0x0A, b := b.toNat, z := 2 ^ 17 }
  | .trecv d a b => some { slot := 5, op := 0x0B, d := d.toNat, a := a.toNat, b := b.toNat }
  | .attn d a b rm nm => some { slot := 5, op := 0x10, d := d.toNat, a := a.toNat, b := b.toNat, z := rm.toNat * 2 ^ 15 + b2n nm * 2 ^ 14 }
  | .kvmap d a b c fn3 tt => some (encAB 5 0x11 d.toNat (.r0 a) b c.toNat (tt.toNat * 2 ^ 2 + if fn3 then 3 else 0))
  | .kvmapPro a b c => some (encAB 5 0x11 0 (.r0 a) b c.toNat 1)
  | .kvmapDem a b c tt => some (encAB 5 0x11 0 (.r0 a) b c.toNat (tt.toNat * 2 ^ 2 + 2))
  | _ => none

/-- The VA, VB and X syllables. -/
def encodeVector : Instr → Option Raw
  | .fadd s o => some (encV s.toNat 0x01 o)
  | .fsub s o => some (encV s.toNat 0x02 o)
  | .fmul s o => some (encV s.toNat 0x03 o)
  | .fma s o => some (encV s.toNat 0x04 o)
  | .fms s o => some (encV s.toNat 0x05 o)
  | .fnma s o => some (encV s.toNat 0x06 o)
  | .fnms s o => some (encV s.toNat 0x07 o)
  | .fmin s o => some (encV s.toNat 0x08 o)
  | .fmax s o => some (encV s.toNat 0x09 o)
  | .fabs s o => some (encV s.toNat 0x0A o)
  | .fneg s o => some (encV s.toNat 0x0B o)
  | .fcmp s o => some (encV s.toNat 0x0C o)
  | .fclass s o => some (encV s.toNat 0x0D o)
  | .vAdd s o => some (encV s.toNat 0x20 o)
  | .vSub s o => some (encV s.toNat 0x21 o)
  | .vMul s o => some (encV s.toNat 0x22 o)
  | .vMulh s o => some (encV s.toNat 0x23 o)
  | .vMin s o => some (encV s.toNat 0x24 o)
  | .vMax s o => some (encV s.toNat 0x25 o)
  | .vAbs s o => some (encV s.toNat 0x26 o)
  | .vNeg s o => some (encV s.toNat 0x27 o)
  | .vAnd s o => some (encV s.toNat 0x28 o)
  | .vOr s o => some (encV s.toNat 0x29 o)
  | .vXor s o => some (encV s.toNat 0x2A o)
  | .vAndn s o => some (encV s.toNat 0x2B o)
  | .vShl s o => some (encV s.toNat 0x2C o)
  | .vShr s o => some (encV s.toNat 0x2D o)
  | .vSra s o => some (encV s.toNat 0x2E o)
  | .sadd s o => some (encV s.toNat 0x2F o)
  | .ssub s o => some (encV s.toNat 0x30 o)
  | .vCmp s o => some (encV s.toNat 0x31 o)
  | .mov s o => some (encV s.toNat 0x40 o)
  | .vSel s o => some (encV s.toNat 0x41 o)
  | .cvt s o => some (encV s.toNat 0x42 o)
  | .vrng s o => some (encV s.toNat 0x43 o)
  | .vred s o => some (encV s.toNat 0x44 o)
  | .vacc s o => some (encV s.toNat 0x45 o)
  | .vlane s o => some (encV s.toNat 0x46 o)
  | .qclr s o => some (encV s.toNat 0x50 o)
  | .qupd s o => some (encV s.toNat 0x51 o)
  | .qupw s o => some (encV s.toNat 0x52 o)
  | .qmrg s o => some (encV s.toNat 0x53 o)
  | .qred s o => some (encV s.toNat 0x54 o)
  | .qxc s o | .qxcMerge s o => some (encV s.toNat 0x55 o)
  | .qdrn s o => some (encV s.toNat 0x56 o)
  | .qld s o => some (encV s.toNat 0x57 o)
  | .qst s o => some (encV s.toNat 0x58 o)
  | .frcp o => some (encV 7 0x01 o)
  | .frsqrt o => some (encV 7 0x02 o)
  | .fsqrt o => some (encV 7 0x03 o)
  | .fdiv o => some (encV 7 0x04 o)
  | .fexp2 o => some (encV 7 0x05 o)
  | .flog2 o => some (encV 7 0x06 o)
  | .fsin o => some (encV 7 0x07 o)
  | .fcos o => some (encV 7 0x08 o)
  | .ftanh o => some (encV 7 0x09 o)
  | .ferf o => some (encV 7 0x0A o)
  | .fexp o => some (encV 7 0x0B o)
  | .perm o => some (encV 7 0x20 o)
  | .rev o => some (encV 7 0x21 o)
  | .rot o => some (encV 7 0x22 o)
  | .zip o => some (encV 7 0x23 o)
  | .unzip o => some (encV 7 0x24 o)
  | .xcopy o => some (encV 7 0x30 o)
  | .xbcast o => some (encV 7 0x31 o)
  | .cpush o => some (encV 7 0x38 o)
  | .cpop o | .cpopCnt o => some (encV 7 0x39 o)
  | .xroute o => some (encV 7 0x3A o)
  | _ => none

/-- The fields of a tile ISA instruction in its shortest length; `none` for the other levels. -/
def encodeRaw (i : Instr) : Option Raw := (encodeScalar i).or (encodeVector i)

/-- The 16 bytes of a bytecode operator as a number (R277). -/
def encodeBytecode : Instr → Option Nat
  | .lbNop o | .lbMatmul o | .lbEwise o | .lbUnary o | .lbCast o | .lbSoftmax o | .lbRstats o | .lbRdrain o | .lbNorm o | .lbAttn o
  | .lbCopy o | .lbTranspose o | .lbGather o | .lbScatter o | .lbView o | .lbConcat o | .lbFill o | .lbAllreduce o | .lbAllgather o
  | .lbRscatter o | .lbAlltoall o | .lbBcast o | .lbReshard o | .lbKvappend o | .lbKvtrunc o | .lbKvpromote o | .lbRngsave o
  | .lbRngset o | .lbRngfill o | .lbCkptsave o | .lbCkptload o | .lbDset o | .lbDop o | .lbDext o | .lbDld o | .lbBr o | .lbBrc o
  | .lbCall o | .lbRet o | .lbEnd o | .lbHbind o | .lbNotify o | .lbCustom o =>
    some (pack [(0, o.op.toNat), (8, o.md.toNat), (14, o.ln.toNat), (16, o.d.toNat), (28, o.a.toNat), (40, o.b.toNat), (52, o.c.toNat), (64, o.imm.toNat)])
  | _ => none

/-- A microcode word as a number (R295). -/
def encodeMicrocode : Instr → Option Nat
  | .ucOphdr rd wr nw opc => some (pack [(31, opc.toNat), (39, nw.toNat), (52, wr.toNat), (56, rd.toNat)])
  | .ucOshape n (.dim h e) => some (pack [(60, 1), (56, n.toNat), (52, h.toNat), (49, e.toNat)])
  | .ucOshape n (.reg r) => some (pack [(60, 1), (56, n.toNat), (54, 1), (43, r.toNat)])
  | .ucOshape n (.lit v) => some (pack [(60, 1), (56, n.toNat), (54, 2), (0, v.toNat)])
  | .ucTiledim n ts => some (pack [(60, 2), (56, n.toNat), (45, ts.toNat)])
  | .ucOrder perm cyclic => some (pack [(60, 3), (50, perm.toNat), (48, b2n cyclic)])
  | .ucBind h t tid g rows rowb8 k fx =>
    some (pack [(60, 4), (56, h.toNat), (50, t.toNat), (42, tid.toNat), (40, g.toNat), (28, rows.toNat), (14, rowb8.toNat), (4, k.toNat), (0, fx.toNat)])
  | .ucStage store t ch lay stg sreg h =>
    some (pack [(60, 5), (55, if store then 2 else 1), (49, t.toNat), (47, ch.toNat), (45, lay.toNat), (29, stg.toNat), (23, sreg.toNat), (21, h.toNat)])
  | .ucRoutine ssz lm koff eoff => some (pack [(60, 6), (50, ssz.toNat), (46, lm.toNat), (32, koff.toNat), (0, eoff.toNat)])
  | .ucFuse h t consumer => some (pack [(60, 7), (56, h.toNat), (50, t.toNat), (49, b2n consumer)])
  | .ucShard h act inst => some (pack [(60, 8), (56, h.toNat), (54, act.toNat), (44, inst.toNat)])
  | .ucDepend k => some (pack [(60, 9), (48, k.toNat)])
  | .ucEpilog merge k => some (pack [(60, 10), (56, b2n merge), (46, k.toNat)])
  | .ucOend => some (pack [(60, 11)])
  | _ => none

/-- The bytes of an instruction, a syllable with EOB = 0 and in its shortest length; events have none. -/
def encode (i : Instr) : List Byte :=
  match encodeRaw i with
  | some r => leBytes (4 * r.len) r.toNat
  | none =>
    match encodeBytecode i with
    | some w => leBytes 16 w
    | none =>
      match encodeMicrocode i with
      | some w => leBytes 8 w
      | none => []

/-- Decodes one instruction from its bytes by its level's decoder: a syllable, a 16-byte bytecode operator or a microcode word. -/
inductive Level where
  | tile (svc : Bool)
  | graph
  | micro
  deriving DecidableEq, Repr

/-- The instruction that the bytes `bs` hold at a level; total, and `none` where the level refuses them. -/
def decode (lv : Level) (bs : List Byte) : Option Instr :=
  match lv with
  | .tile svc => (decodeSyllable svc 0 (.ofNat (leNat (bs.take 12)))).toOption
  | .graph => decodeBytecode (leNat (bs.take 16))
  | .micro => decodeMicrocode (leNat (bs.take 8))

/-- The level of a table word of `nbits` bits: 128 bits are a bytecode operator, 64 bits whose LEN is not 0b01 a microcode
word, everything else a syllable. A syllable that only service code may hold decodes as service code reads it. -/
def decodeTableWord (nbits w : Nat) : Option Instr :=
  let bs := leBytes 16 w
  if 96 < nbits then decode .graph bs
  else if nbits = 64 ∧ bits w 0 2 ≠ 1 then decode .micro bs
  else (decode (.tile false) bs).or (decode (.tile true) bs)

end Sys2Proof
end

