-- ==== Sys2Proof/Machine/Fp.lean ====
section
/-! DEFINITION. Fp.lean: floating-point formats, values and the one rounding of every engine (02_number_formats.md R28-R36; 05_vector_lanes.md R125-R128, R139). -/

namespace Sys2Proof.Machine

/-- The floating-point formats (R28). -/
inductive Fp where
  | d | s | b | h | e4 | e5
  deriving DecidableEq, Repr

namespace Fp

def width : Fp → Nat
  | d => 64 | s => 32 | b => 16 | h => 16 | e4 => 8 | e5 => 8

/-- Fraction bits; the precision p of R28 is one more. -/
def frac : Fp → Nat
  | d => 52 | s => 23 | b => 7 | h => 10 | e4 => 3 | e5 => 2

def bias : Fp → Nat
  | d => 1023 | s => 127 | b => 127 | h => 15 | e4 => 7 | e5 => 15

def prec (f : Fp) : Nat := f.frac + 1
def expBits (f : Fp) : Nat := f.width - 1 - f.frac
def emin (f : Fp) : Int := 1 - (f.bias : Int)

/-- The exponent of the least subnormal. -/
def qmin (f : Fp) : Int := f.emin - f.frac

/-- The codes of infinity, of the greatest finite value and of the canonical NaN, sign clear (R28, R29). E4M3 has no infinity; its NaN stands there. -/
def infCode : Fp → Nat
  | d => 0x7FF0000000000000 | s => 0x7F800000 | b => 0x7F80 | h => 0x7C00 | e4 => 0x7F | e5 => 0x7C

def maxCode (f : Fp) : Nat := f.infCode - 1

def canonNan : Fp → Nat
  | d => 0x7FF8000000000000 | s => 0x7FC00000 | b => 0x7FC0 | h => 0x7E00 | e4 => 0x7F | e5 => 0x7E

/-- The quiet bit of a NaN; the FP8 formats have none (R29). -/
def quietBit : Fp → Nat
  | d => 2 ^ 51 | s => 2 ^ 22 | b => 2 ^ 6 | h => 2 ^ 9 | e4 => 0 | e5 => 0

def signBit (f : Fp) : Nat := 2 ^ (f.width - 1)

end Fp

/-- Rounding modes (R31). -/
inductive Rm where
  | rne | rtz | rdn | rup | rna
  deriving DecidableEq, Repr

def Rm.fromCode : Nat → Rm
  | 1 => .rtz | 2 => .rdn | 3 => .rup | 4 => .rna | _ => .rne

/-- Flags in the bit order of FLG (R32). -/
def fNV : Nat := 16
def fDZ : Nat := 8
def fOF : Nat := 4
def fUF : Nat := 2
def fNX : Nat := 1

/-- A value read from a floating-point code: `fin neg m e` is (−1)^neg × m × 2^e with m > 0. -/
inductive Val where
  | zero (neg : Bool)
  | inf (neg : Bool)
  | nan (neg signalling : Bool)
  | fin (neg : Bool) (m : Nat) (e : Int)
  deriving DecidableEq, Repr

/-- The rounding environment that an operation captures (R32, R33). -/
structure FEnv where
  rm : Rm := .rne
  ftz : Bool := false
  daz : Bool := false
  satf : Bool := false
  deriving DecidableEq, Repr

/-- A code and the flags raised for it. -/
abbrev FRes := Nat × Nat

def bitLen (x : Nat) : Nat := if x = 0 then 0 else x.log2 + 1

/-- The value of a code (R28, R29). -/
def Fp.unpack (f : Fp) (x : Nat) : Val :=
  let neg := bit x (f.width - 1)
  let ex := bits x f.frac f.expBits
  let fr := bits x 0 f.frac
  let ones := 2 ^ f.expBits - 1
  if f = .e4 ∧ ex = 15 ∧ fr = 7 then .nan neg false
  else if f ≠ .e4 ∧ ex = ones then
    if fr = 0 then .inf neg else .nan neg (f.quietBit ≠ 0 && fr / f.quietBit % 2 == 0)
  else if ex = 0 then if fr = 0 then .zero neg else .fin neg fr f.qmin
  else .fin neg (2 ^ f.frac + fr) (f.qmin + (ex : Int) - 1)

/-- The value of a source, a subnormal of a narrow format reading as zero under DAZ (R35). -/
def Fp.read (f : Fp) (env : FEnv) (x : Nat) : Val :=
  if env.daz ∧ f ≠ .d ∧ bits x f.frac f.expBits = 0 then .zero (bit x (f.width - 1)) else f.unpack x

def Fp.sign (f : Fp) (neg : Bool) (code : Nat) : Nat := if neg then f.signBit + code else code

/-- A magnitude of `m` and a possible remainder, whose last `sh` bits are cut off, rounded to an integer; and whether that is inexact. -/
def roundInt (rm : Rm) (neg : Bool) (m sh : Nat) (sticky : Bool) : Nat × Bool :=
  let n := m / 2 ^ sh
  let r := m % 2 ^ sh
  let inexact := r ≠ 0 ∨ sticky
  let twice := 2 * r
  let half := 2 ^ sh
  let up : Bool :=
    match rm with
    | .rtz => false
    | .rdn => neg && inexact
    | .rup => !neg && inexact
    | .rna => decide (half ≤ twice ∧ 0 < sh)
    | .rne => decide (0 < sh ∧ (half < twice ∨ (half = twice ∧ (sticky ∨ n % 2 = 1))))
  (if up then n + 1 else n, inexact)

/-- Overflow of R36. `sat` is SATF in a conversion or a bytecode operator. -/
def Fp.overflow (f : Fp) (sat : Bool) (rm : Rm) (neg : Bool) : FRes :=
  let toInf : Bool := match rm with
    | .rne | .rna => true
    | .rtz => false
    | .rup => !neg
    | .rdn => neg
  (f.sign neg (if toInf && !(sat && f != .s && f != .d) then f.infCode else f.maxCode), fOF + fNX)

/-- Round(fmt, x, mode) of R36 for a non-zero magnitude m × 2^e, or one strictly between that and (m + 1) × 2^e when `sticky`;
a sticky magnitude has at least two bits more than the format keeps. -/
def Fp.round (f : Fp) (env : FEnv) (sat : Bool) (neg : Bool) (m : Nat) (e : Int) (sticky : Bool) : FRes :=
  let top := e + (bitLen m : Int) - 1
  let cut (q : Int) : Nat × Bool :=
    if q ≤ e then (m * 2 ^ (e - q).toNat, sticky) else roundInt env.rm neg m (q - e).toNat sticky
  let q := max top f.emin - f.frac
  let (n, nx) := cut q
  let qt := top - f.frac
  let tiny := decide (((bitLen (cut qt).1 : Int) + qt - 1) < f.emin)
  let code := (q - f.qmin).toNat * 2 ^ f.frac + n
  if f.maxCode < code then f.overflow sat env.rm neg
  else if tiny ∧ env.ftz ∧ f ≠ .d then (f.sign neg 0, fUF + fNX)
  else (f.sign neg code, (if nx then fNX else 0) + (if tiny ∧ nx then fUF else 0))

/-- A quietened NaN code of the same format (R30). -/
def Fp.quiet (f : Fp) (x : Nat) : Nat := if f.quietBit ≠ 0 ∧ x / f.quietBit % 2 = 0 then x + f.quietBit else x

def Val.isNan : Val → Bool
  | .nan .. => true
  | _ => false

def Val.isSnan : Val → Bool
  | .nan _ s => s
  | _ => false

def Val.neg : Val → Bool
  | .zero n | .inf n | .nan n _ | .fin n .. => n

/-- The same value with its sign inverted when `c`; a NaN keeps its sign. -/
def Val.flip (c : Bool) : Val → Val
  | .zero n => .zero (n != c)
  | .inf n => .inf (n != c)
  | .fin n m e => .fin (n != c) m e
  | v => v

/-- The NaN rule of R30 over source codes of the result's format: the first NaN quietened, invalid for a signalling one. -/
def Fp.nans (f : Fp) (xs : List Nat) : Option FRes :=
  match xs.find? (fun x => (f.unpack x).isNan) with
  | none => none
  | some x => some (f.quiet x, if xs.any (fun y => (f.unpack y).isSnan) then fNV else 0)

/-- The default NaN with the invalid flag. -/
def Fp.invalid (f : Fp) : FRes := (f.canonNan, fNV)

/-- A non-zero or zero exact number n × 2^e as a code; a zero takes the sign `zneg`. -/
def Fp.ofInt (f : Fp) (env : FEnv) (sat zneg : Bool) (n e : Int) : FRes :=
  if n = 0 then (f.sign zneg 0, 0) else f.round env sat (decide (n < 0)) n.natAbs e false

/-- A value as n × 2^e; special values read as 0. -/
def Val.toDy : Val → Int × Int
  | .fin neg m e => (if neg then -(m : Int) else m, e)
  | _ => (0, 0)

/-- The exact sum of two numbers n × 2^e. -/
def dyAdd (x y : Int × Int) : Int × Int :=
  let e := min x.2 y.2
  (x.1 * 2 ^ (x.2 - e).toNat + y.1 * 2 ^ (y.2 - e).toNat, e)

def dyMul (x y : Int × Int) : Int × Int := (x.1 * y.1, x.2 + y.2)

/-- The order of two numbers n × 2^e. -/
def dyLt (x y : Int × Int) : Bool :=
  let e := min x.2 y.2
  decide (x.1 * 2 ^ (x.2 - e).toNat < y.1 * 2 ^ (y.2 - e).toNat)

def Val.isZero : Val → Bool
  | .zero _ => true
  | _ => false

def Val.isInf : Val → Bool
  | .inf _ => true
  | _ => false

/-- x + y of two values that are no NaN, rounded once (R125). -/
def Fp.addVal (f : Fp) (env : FEnv) (sat : Bool) (x y : Val) : FRes :=
  match x, y with
  | .inf n, .inf k => if n = k then (f.sign n f.infCode, 0) else f.invalid
  | .inf n, _ => (f.sign n f.infCode, 0)
  | _, .inf k => (f.sign k f.infCode, 0)
  | _, _ =>
    let s := dyAdd x.toDy y.toDy
    let zneg := if x.isZero ∧ y.isZero ∧ x.neg = y.neg then x.neg else decide (env.rm = .rdn)
    f.ofInt env sat zneg s.1 s.2

/-- The product of two values that are no NaN, exactly; `none` for 0 × ∞. -/
def mulVal (x y : Val) : Option Val :=
  let neg := x.neg != y.neg
  match x, y with
  | .inf _, .zero _ => none
  | .zero _, .inf _ => none
  | .inf _, _ => some (.inf neg)
  | _, .inf _ => some (.inf neg)
  | .fin _ m e, .fin _ k g => some (.fin neg (m * k) (e + g))
  | _, _ => some (.zero neg)

/-- A value as a code, rounded once. -/
def Fp.ofVal (f : Fp) (env : FEnv) (sat : Bool) (v : Val) : FRes :=
  match v with
  | .zero n => (f.sign n 0, 0)
  | .inf n => (f.sign n f.infCode, 0)
  | .nan n _ => (f.sign n f.canonNan, 0)
  | .fin n m e => f.round env sat n m e false

/-- `fadd` and, with `sub`, `fsub` (R125). -/
def Fp.add (f : Fp) (env : FEnv) (sub : Bool) (a b : Nat) : FRes :=
  (f.nans [a, b]).getD (f.addVal env false (f.read env a) ((f.read env b).flip sub))

/-- `fmul` (R125). -/
def Fp.mul (f : Fp) (env : FEnv) (a b : Nat) : FRes :=
  (f.nans [a, b]).getD
    (match mulVal (f.read env a) (f.read env b) with
      | none => f.invalid
      | some v => f.ofVal env false v)

/-- The FMA group: ±(a × b) ± c with one rounding; 0 × ∞ sets invalid even beside a quiet NaN (R125). -/
def Fp.fma (f : Fp) (env : FEnv) (negP negC : Bool) (a b c : Nat) : FRes :=
  let p := mulVal (f.read env a) (f.read env b)
  let bad := !(f.unpack a).isNan && !(f.unpack b).isNan && p.isNone
  match f.nans [a, b, c] with
  | some (x, fl) => (x, if bad then fNV else fl)
  | none =>
    match p with
    | none => f.invalid
    | some v => f.addVal env false (v.flip negP) ((f.read env c).flip negC)

/-- The order of two values that are no NaN, −0 below +0 when `zs`. -/
def valLt (zs : Bool) (x y : Val) : Bool :=
  match x, y with
  | .inf n, .inf k => n && !k
  | .inf n, _ => n
  | _, .inf k => !k
  | .zero n, .zero k => zs && n && !k
  | _, _ => dyLt x.toDy y.toDy

/-- `fmin` and `fmax` (R126): minimumNumber and maximumNumber (log 37, DEDUCED). -/
def Fp.minmax (f : Fp) (env : FEnv) (isMax : Bool) (a b : Nat) : FRes :=
  let x := f.read env a
  let y := f.read env b
  let out (v : Val) (c : Nat) : Nat := match v with
    | .zero n => f.sign n 0
    | _ => c
  let fl := if x.isSnan || y.isSnan then fNV else 0
  match x.isNan, y.isNan with
  | true, true => (f.nans [a, b]).getD (0, 0)
  | true, false => (out y b, fl)
  | false, true => (out x a, fl)
  | false, false => if (if isMax then valLt true x y else valLt true y x) then (out y b, 0) else (out x a, 0)

/-- `fcmp` (R127): the outcome and the flags. -/
def Fp.cmp (f : Fp) (env : FEnv) (cond : Nat) (a b : Nat) : Bool × Nat :=
  let x := f.read env a
  let y := f.read env b
  let un := x.isNan || y.isNan
  let lt := !un && valLt false x y
  let gt := !un && valLt false y x
  let eq := !un && !lt && !gt
  let r := match cond with
    | 0 => eq
    | 1 => !eq
    | 2 => lt
    | 3 => lt || eq
    | 4 => gt
    | 5 => gt || eq
    | 6 => un
    | _ => !un
  (r, if x.isSnan || y.isSnan || (un && 2 ≤ cond && cond ≤ 5) then fNV else 0)

/-- `fclass` (R128). -/
def Fp.classify (f : Fp) (a : Nat) : Nat :=
  let sub := bits a f.frac f.expBits = 0
  match f.unpack a with
  | .inf n => if n then 2 ^ 0 else 2 ^ 7
  | .fin n .. => if n then (if sub then 2 ^ 2 else 2 ^ 1) else if sub then 2 ^ 5 else 2 ^ 6
  | .zero n => if n then 2 ^ 3 else 2 ^ 4
  | .nan _ sig => if sig then 2 ^ 8 else 2 ^ 9

/-- ⌊√n⌋, bit by bit from 2^(k−1) down. -/
def isqrtGo (n : Nat) : Nat → Nat → Nat
  | 0, r => r
  | k + 1, r => isqrtGo n k (if (r + 2 ^ k) * (r + 2 ^ k) ≤ n then r + 2 ^ k else r)

def isqrt (n : Nat) : Nat := isqrtGo n (bitLen n / 2 + 1) 0

/-- num/den × 2^e, cut to at least 90 bits with one more bit that says whether something was cut off: it rounds as the exact number does into every format of R27. -/
def cutRatio (neg : Bool) (num den : Nat) (e : Int) : Val :=
  let t := 90 + bitLen den
  let n := num * 2 ^ t / den
  if num = 0 then .zero neg else .fin neg (2 * n + if n * den = num * 2 ^ t then 0 else 1) (e - t - 1)

/-- √(num/den × 2^e), e even, cut in the same way. -/
def cutSqrt (num den : Nat) (e : Int) : Val :=
  let t := 90 + bitLen den
  let n := isqrt (num * 2 ^ (2 * t) / den)
  if num = 0 then .zero false else .fin false (2 * n + if n * n * den = num * 2 ^ (2 * t) then 0 else 1) (e / 2 - t - 1)

/-- √(num/den × 2^e) as a rounded code, e even. -/
def Fp.ofSqrtRatio (f : Fp) (env : FEnv) (num den : Nat) (e : Int) : FRes := f.ofVal env false (cutSqrt num den e)

/-- A result that is no number, with the invalid flag. -/
def invalidVal : Val × Nat := (.nan false false, fNV)

/-- x / y of two values that are no NaN (R139). -/
def divReal (x y : Val) : Val × Nat :=
  let neg := x.neg != y.neg
  match x, y with
  | .zero _, .zero _ => invalidVal
  | .inf _, .inf _ => invalidVal
  | .inf _, _ => (.inf neg, 0)
  | _, .inf _ => (.zero neg, 0)
  | .zero _, _ => (.zero neg, 0)
  | .fin .., .zero _ => (.inf neg, fDZ)
  | .fin _ m e, .fin _ k g => (cutRatio neg m k (e - g), 0)
  | _, _ => invalidVal

/-- A value with its flags as a code, rounded once. -/
def Fp.ofReal (f : Fp) (env : FEnv) (sat : Bool) (v : Val × Nat) : FRes := let r := f.ofVal env sat v.1; (r.1, r.2 ||| v.2)

/-- The division of two values that are no NaN, rounded once. -/
def Fp.divVal (f : Fp) (env : FEnv) (sat : Bool) (x y : Val) : FRes := f.ofReal env sat (divReal x y)

/-- `fdiv` (R139). -/
def Fp.div (f : Fp) (env : FEnv) (a b : Nat) : FRes :=
  (f.nans [a, b]).getD (f.divVal env false (f.read env a) (f.read env b))

/-- √x of a value that is no NaN; with `recip`, 1/√x (R139). -/
def sqrtReal (recip : Bool) (x : Val) : Val × Nat :=
  match x with
  | .zero n => if recip then (.inf n, fDZ) else (.zero n, 0)
  | .inf false => (if recip then .zero false else .inf false, 0)
  | .fin false m e =>
    let odd := e % 2 = 1
    let m' := if odd then 2 * m else m
    let e' := if odd then e - 1 else e
    (if recip then cutSqrt 1 m' (-e') else cutSqrt m' 1 e', 0)
  | _ => invalidVal

def Fp.sqrtVal (f : Fp) (env : FEnv) (recip : Bool) (x : Val) : FRes := f.ofReal env false (sqrtReal recip x)

/-! Transcendental functions by enclosure. A fixed-point number is an integer in units of 2^−P; every evaluation below is
off by less than 2^24 units. -/

/-- Σ_{k<n} t(k) for the series of atanh or (with `alt`) atan of 1/q: terms 1/((2k+1) q^(2k+1)), `x` = 2^P / q^(2k+1). -/
def atanSeries (alt : Bool) (q : Nat) : Nat → Nat → Nat → Int
  | 0, _, _ => 0
  | n + 1, k, x =>
    (if alt ∧ k % 2 = 1 then -((x / (2 * k + 1) : Nat) : Int) else ((x / (2 * k + 1) : Nat) : Int)) + atanSeries alt q n (k + 1) (x / (q * q))

/-- ln 2 = 2 atanh(1/3). -/
def ln2Fix (p : Nat) : Int := 2 * atanSeries false 3 (p / 3 + 4) 0 (2 ^ p / 3)

/-- π = 16 atan(1/5) − 4 atan(1/239). -/
def piFix (p : Nat) : Int := 16 * atanSeries true 5 (p / 4 + 4) 0 (2 ^ p / 5) - 4 * atanSeries true 239 (p / 14 + 4) 0 (2 ^ p / 239)

/-- Σ of a Taylor series: each term is the previous times x / (k·step…), cut at P bits. -/
def expSeries (p : Nat) (x : Int) : Nat → Nat → Int → Int
  | 0, _, _ => 0
  | n + 1, k, t => t + expSeries p x n (k + 1) (t * x / 2 ^ p / (k + 1 : Nat))

/-- e^r for 0 ≤ r < 1 in units of 2^−p. -/
def expFix (p : Nat) (r : Int) : Int := expSeries p r (p / 3 + 8) 0 (2 ^ p)

/-- Σ (−1)^j x^(2j+i) / (2j+i)!: sin for i = 1, cos for i = 0, with `x2` = x². -/
def trigSeries (p : Nat) (x2 : Int) : Nat → Nat → Int → Int
  | 0, _, _ => 0
  | n + 1, k, t => t + trigSeries p x2 n (k + 2) (-(t * x2 / 2 ^ p / (((k + 1) * (k + 2) : Nat) : Int)))

/-- Σ (−1)^n x^(2n+1) / (n! (2n+1)), `t` = (−1)^n x^(2n+1) / n!. -/
def erfSeries (p : Nat) (x2 : Int) : Nat → Nat → Int → Int
  | 0, _, _ => 0
  | n + 1, k, t => t / ((2 * k + 1 : Nat) : Int) + erfSeries p x2 n (k + 1) (-(t * x2 / 2 ^ p / (k + 1 : Nat)))

/-- n × 2^e in units of 2^−p, toward −∞. -/
def fixOf (p : Nat) (n e : Int) : Int :=
  if 0 ≤ e + p then n * 2 ^ (e + p).toNat else n / 2 ^ (-(e + p)).toNat

/-- The transcendental functions of R139. -/
inductive Fn where
  | exp2 | exp | log2 | sin | cos | tanh | erf
  deriving DecidableEq, Repr

/-- ln((1 + z)/(1 − z)) / 2 for |z| ≤ 1/3: the series of atanh, `y` = z^(2k+1). -/
def atanhSeries (w : Nat) (z : Int) : Nat → Nat → Int → Int
  | 0, _, _ => 0
  | n + 1, k, y => y / ((2 * k + 1 : Nat) : Int) + atanhSeries w z n (k + 1) (y * z / 2 ^ w * z / 2 ^ w)

/-- f(n × 2^e) as v × 2^k in units of 2^−p, for arguments whose value is neither exact nor out of range. -/
def Fn.fix (fn : Fn) (p : Nat) (n e : Int) : Int × Int :=
  let w := p + 160 + (e + (bitLen n.natAbs : Int)).toNat
  let x := fixOf w n e
  let down (y : Int) : Int := y / 2 ^ (w - p)
  let ln2 := ln2Fix w
  let expOf (y : Int) : Int × Int := let k := y / ln2; (expFix w (y - k * ln2), k)
  match fn with
  | .exp => let r := expOf x; (down r.1, r.2)
  | .exp2 => let k := x / 2 ^ w; (down (expFix w ((x - k * 2 ^ w) * ln2 / 2 ^ w)), k)
  | .log2 =>
    let l := (bitLen n.natAbs : Int)
    let t := fixOf w n (1 - l)
    let z := (t - 2 ^ w) * 2 ^ w / (t + 2 ^ w)
    (down ((e + l - 1) * 2 ^ w + 2 * atanhSeries w z (w / 3 + 4) 0 z * 2 ^ w / ln2), 0)
  | .sin | .cos =>
    let h := piFix w / 2
    let k := x / h
    let r := x - k * h
    let r2 := r * r / 2 ^ w
    let sn := trigSeries w r2 (w / 4 + 8) 1 r
    let cs := trigSeries w r2 (w / 4 + 8) 0 (2 ^ w)
    let q := (k + if fn = .cos then 1 else 0) % 4
    (down (if q = 0 then sn else if q = 1 then cs else if q = 2 then -sn else -cs), 0)
  | .tanh =>
    let r := expOf (2 * x)
    let y := if 0 ≤ r.2 then r.1 * 2 ^ r.2.toNat else r.1 / 2 ^ (-r.2).toNat
    (down ((y - 2 ^ w) * 2 ^ w / (y + 2 ^ w)), 0)
  | .erf =>
    let s := erfSeries w (x * x / 2 ^ w) (w / 2 + 260) 0 x
    (down (2 * s * 2 ^ w / ((isqrt ((piFix w).toNat * 2 ^ w) : Nat) : Int)), 0)

/-- Enclosures at growing precision until one floor remains: |f(x)| lies strictly between `m` and `m + 1` times 2^e. -/
def Fn.enclose (fn : Fn) (need : Nat) (n e : Int) : Nat → Nat → Bool × Nat × Int
  | 0, p => (false, 1, -(p : Int))
  | k + 1, p =>
    let r := fn.fix (p + 64) n e
    let v := r.1
    let a := (v.natAbs - 2 ^ 28) / 2 ^ 64
    if a = (v.natAbs + 2 ^ 28) / 2 ^ 64 ∧ need ≤ bitLen a then (decide (v < 0), a, r.2 - (p : Int))
    else fn.enclose need n e k (2 * p)

/-- Log2 of a power of two, as an integer. -/
def powerOfTwo (m : Nat) : Bool := decide (m = 2 ^ (bitLen m - 1))

/-- An odd multiple of half of 2^e, which lies where no format rounds to or ties. -/
def oddVal (neg : Bool) (m : Nat) (e : Int) : Val × Nat := (.fin neg (2 * m + 1) (e - 1), 0)

/-- f(x) of n × 2^e, whose leading bit is that of 2^top, from an enclosure. -/
def Fn.general (fn : Fn) (n e top : Int) : Val × Nat :=
  let r := fn.enclose 80 n e 10 (160 + (-top).toNat)
  oddVal r.1 r.2.1 r.2.2

/-- f(x) of a value that is no NaN (R139), cut as `cutRatio` cuts. -/
def Fn.real (fn : Fn) (x : Val) : Val × Nat :=
  let one (neg : Bool) : Val × Nat := (.fin neg 1 0, 0)
  let below1 (neg : Bool) : Val × Nat := oddVal neg (2 ^ 100 - 1) (-100)
  match fn, x with
  | .exp, .zero _ | .exp2, .zero _ | .cos, .zero _ => one false
  | .exp, .inf n | .exp2, .inf n => (if n then .zero false else .inf false, 0)
  | .log2, .zero _ => (.inf true, fDZ)
  | .log2, .inf false => (.inf false, 0)
  | .log2, .inf true | .sin, .inf _ | .cos, .inf _ => invalidVal
  | .tanh, .inf n | .erf, .inf n => one n
  | .sin, .zero n | .tanh, .zero n | .erf, .zero n => (.zero n, 0)
  | .log2, .fin true _ _ => invalidVal
  | _, .fin neg m e =>
    let top := e + (bitLen m : Int) - 1
    let n := if neg then -(m : Int) else (m : Int)
    let near1 : Val × Nat := if neg then below1 false else oddVal false (2 ^ 100) (-100)
    let far : Val × Nat := oddVal false (2 ^ 80) (if neg then -5000 else 5000)
    let self : Val × Nat := oddVal neg (m * 2 ^ 200 - 1) (e - 200)
    match fn with
    | .log2 => if powerOfTwo m then (if top = 0 then .zero false else .fin (decide (top < 0)) top.natAbs 0, 0) else fn.general n e top
    | .exp2 =>
      if m % 2 ^ (-e).toNat = 0 ∧ top < 12 then (.fin false 1 (if 0 ≤ e then n * 2 ^ e.toNat else n / 2 ^ (-e).toNat), 0)
      else if 12 ≤ top then far else if top < -200 then near1 else fn.general n e top
    | .exp => if 12 ≤ top then far else if top < -200 then near1 else fn.general n e top
    | .cos => if top < -100 then below1 false else fn.general n e top
    | .sin => if top < -200 then self else fn.general n e top
    | .tanh => if 6 ≤ top then below1 neg else if top < -200 then self else fn.general n e top
    | .erf => if 3 ≤ top then below1 neg else fn.general n e top
  | _, .nan .. => (x, 0)

/-- f(x) of a value that is no NaN, rounded once into a format (R139). -/
def Fn.val (fn : Fn) (f : Fp) (env : FEnv) (x : Val) : FRes := f.ofReal env false (fn.real x)

/-- A single-source special function on a code (R139). -/
def Fn.run (fn : Fn) (f : Fp) (env : FEnv) (a : Nat) : FRes := (f.nans [a]).getD (fn.val f env (f.read env a))

/-- `frcp`, `fsqrt` and `frsqrt` on a code. -/
def Fp.rcp (f : Fp) (env : FEnv) (a : Nat) : FRes := (f.nans [a]).getD (f.divVal env false (.fin false 1 0) (f.read env a))
def Fp.sqrt (f : Fp) (env : FEnv) (a : Nat) : FRes := (f.nans [a]).getD (f.sqrtVal env false (f.read env a))
def Fp.rsqrt (f : Fp) (env : FEnv) (a : Nat) : FRes := (f.nans [a]).getD (f.sqrtVal env true (f.read env a))

end Sys2Proof.Machine
end

