-- ==== Sys2Proof/Machine/Elem.lean ====
section
/-! DEFINITION. Elem.lean: element formats, integer and narrow-integer codes, codebooks, block scales and every conversion (02_number_formats.md R26-R48). -/

namespace Sys2Proof.Machine

/-- The narrow-integer format `.n` as FMT defines it (R39). -/
structure NFmt where
  w : Nat := 8
  sgn : Bool := true
  sub : Nat := 0
  deriving DecidableEq, Repr

/-- WID codes (R39); an unassigned one is never in FMT. -/
def widthCode : Nat → Nat
  | 0 => 2 | 1 => 3 | 2 => 4 | 3 => 6 | _ => 8

def NFmt.ofFmt (x : Nat) : NFmt := { w := widthCode (bits x 0 3), sgn := bit x 3, sub := bits x 4 2 }

/-- The least and the greatest value of a narrow format (R40). -/
def NFmt.range (n : NFmt) : Int × Int :=
  if n.sgn then (if n.sub = 0 then -(2 ^ (n.w - 1) : Int) else -(2 ^ (n.w - 1) : Int) + 1, 2 ^ (n.w - 1) - 1) else (0, 2 ^ n.w - 1)

/-- The value of a narrow code, `none` for the reserved code under SUB = 0b11 (R41). -/
def NFmt.decode (n : NFmt) (x : Nat) : Option Int :=
  let y := x % 2 ^ n.w
  if !n.sgn then some y
  else if y = 2 ^ (n.w - 1) ∧ n.sub ≠ 0 then
    match n.sub with
    | 1 => some (-(2 ^ (n.w - 1) : Int) + 1)
    | 2 => some 0
    | _ => none
  else some (Sys2Proof.sgn n.w y)

/-- `x` moved into a range. -/
def clampInt (r : Int × Int) (x : Int) : Int := max r.1 (min r.2 x)

/-- Format codes of R27 that name a floating-point format. -/
def fpOfCode : Nat → Option Fp
  | 0 => some .d | 1 => some .s | 2 => some .b | 3 => some .h | 4 => some .e4 | 5 => some .e5 | _ => none

/-- The format code of a TY field (R60). -/
def tyCode (ty : Nat) : Nat :=
  match ty with
  | 0 => 0 | 1 => 1 | 2 => 3 | 3 => 2 | 4 => 6 | 5 => 7 | 6 => 8 | _ => 9

/-- The width of an element in bits (R27). -/
def codeWidth (n : NFmt) (code : Nat) : Nat :=
  match code with
  | 0 => 64 | 1 => 32 | 2 => 16 | 3 => 16 | 4 => 8 | 5 => 8 | 6 => 64 | 7 => 32 | 8 => 8 | 9 => n.w | 10 => 4 | _ => 192

/-- The range of an integer format (R38, R40). -/
def intRange (n : NFmt) (code : Nat) : Int × Int :=
  match code with
  | 6 => (-(2 ^ 63), 2 ^ 63 - 1) | 7 => (-(2 ^ 31), 2 ^ 31 - 1) | 8 => (-128, 127) | _ => n.range

/-- Whether a format is an integer format. -/
def isIntCode (code : Nat) : Bool := 6 ≤ code && code ≤ 9

/-- The value of an integer element. -/
def intDecode (n : NFmt) (code x : Nat) : Option Int :=
  match code with
  | 6 => some (sgn 64 x) | 7 => some (sgn 32 x) | 8 => some (sgn 8 x) | _ => n.decode x

/-- The preset table 0, the E2M1 table (R43). -/
def table0 : List Nat :=
  [0x0000, 0x3F00, 0x3F80, 0x3FC0, 0x4000, 0x4040, 0x4080, 0x40C0, 0x8000, 0xBF00, 0xBF80, 0xBFC0, 0xC000, 0xC040, 0xC080, 0xC0C0]

/-- A number × 2^k. -/
def Val.scale (k : Int) : Val → Val
  | .fin n m e => .fin n m (e + k)
  | v => v

/-- The value of an integer. -/
def Val.ofInt (x : Int) : Val := if x = 0 then .zero false else .fin (decide (x < 0)) x.natAbs 0

/-- The value of an element of any format but the triple; `none` for the reserved code under SUB = 0b11. -/
def elemVal (env : FEnv) (n : NFmt) (tbl : List Nat) (code x : Nat) : Option Val :=
  match fpOfCode code with
  | some f => some (f.read env x)
  | none => if code = 10 then some (Fp.b.unpack (tbl.getD (x % 16) 0)) else (intDecode n code x).map Val.ofInt

/-- A value rounded to an integer, with whether that was exact. -/
def Val.toIntRound (rm : Rm) : Val → Int × Bool
  | .fin neg m e =>
    let r := if 0 ≤ e then (m * 2 ^ e.toNat, false) else roundInt rm neg m (-e).toNat false
    (if neg then -(r.1 : Int) else r.1, r.2)
  | _ => (0, false)

/-- A floating-point value into an integer format (R37). The code is of the format's width. -/
def valToInt (rm : Rm) (n : NFmt) (code : Nat) (v : Val) : FRes :=
  let r := intRange n code
  let enc (x : Int) : Nat := wrap (codeWidth n code) x
  match v with
  | .nan .. => (0, fNV)
  | .inf neg => (enc (if neg then r.1 else r.2), fNV)
  | _ =>
    let (x, nx) := v.toIntRound rm
    if x < r.1 then (enc r.1, fNV) else if r.2 < x then (enc r.2, fNV) else (enc x, if nx then fNX else 0)

/-- The magnitude of a value as a number m × 2^e. -/
def Val.mag : Val → Int × Int
  | .fin _ m e => (m, e)
  | _ => (0, 0)

/-- Those candidates that a rule of R45 prefers, or all when it prefers none. -/
def narrow (p : Nat → Bool) (xs : List Nat) : List Nat := if (xs.filter p).isEmpty then xs else xs.filter p

/-- Those candidates at which a number is least. -/
def leastBy (g : Nat → Int × Int) (xs : List Nat) : List Nat := xs.filter (fun i => xs.all (fun j => !dyLt (g j) (g i)))

/-- |x| of a number n × 2^e. -/
def dyAbs (x : Int × Int) : Int × Int := (x.1.natAbs, x.2)

/-- The choice among candidates at equal distance (R45, rules 1 to 4). -/
def cb4Choose (entry : Nat → Val) (neg : Bool) (xs : List Nat) : Nat :=
  let a := narrow (fun i => i % 2 == 0) xs
  let b := leastBy (fun i => (entry i).mag) a
  let c := narrow (fun i => (entry i).neg == neg) b
  c.headD 0

/-- A conversion into CB4 under an ordered table (R45). -/
def cb4Encode (tbl : List Nat) (v : Val) : FRes :=
  let entry (i : Nat) : Val := Fp.b.unpack (tbl.getD i 0)
  let all := List.range 16
  match v with
  | .nan .. => (cb4Choose entry false (leastBy (fun i => (entry i).mag) all), fNV)
  | .inf neg => (cb4Choose entry neg (leastBy (fun i => if neg then (entry i).toDy else (-(entry i).toDy.1, (entry i).toDy.2)) all), fNV)
  | _ =>
    let dist (i : Nat) : Int × Int := let y := (entry i).toDy; dyAbs (dyAdd v.toDy (-y.1, y.2))
    let i := cb4Choose entry v.neg (leastBy dist all)
    (i, if (dist i).1 = 0 then 0 else fNX)

/-- A table is ordered (R44). -/
def cb4Ordered (tbl : List Nat) : Bool :=
  let entry (i : Nat) : Val := Fp.b.unpack (tbl.getD i 0)
  let fin := (List.range 16).all fun i => match entry i with
    | .zero _ | .fin .. => true
    | _ => false
  fin && (List.range 7).all (fun i => dyLt (entry i).toDy (entry (i + 1)).toDy) &&
    (List.range 7).all (fun i => dyLt (entry (9 + i)).toDy (entry (8 + i)).toDy) && !dyLt (entry 0).toDy (entry 8).toDy

/-- A NaN of one floating-point format in another (R30). -/
def nanConvert (src dst : Fp) (x : Nat) : Nat :=
  let neg := bit x (src.width - 1)
  match src, dst with
  | .d, .s => dst.sign neg (0x7FC00000 + bits x 29 22)
  | .s, .d => dst.sign neg (0x7FF8000000000000 + bits x 0 22 * 2 ^ 29)
  | _, _ => if src = dst then src.quiet x else dst.sign neg dst.canonNan

/-- An infinite source in a floating-point format (R36); the NaN that E4M3 takes has no NaN source, so it is canonical (R30). -/
def Fp.ofInf (f : Fp) (satf neg : Bool) : FRes :=
  if f = .e4 then (if satf then (f.sign neg f.maxCode, 0) else (f.canonNan, fNV)) else (f.sign neg f.infCode, 0)

/-- A value, no NaN, into an element format: R36, R37, R41 or R45. -/
def valToElem (env : FEnv) (n : NFmt) (tbl : List Nat) (dst : Nat) (v : Val) : FRes :=
  match fpOfCode dst with
  | some f =>
    match v with
    | .inf neg => f.ofInf env.satf neg
    | _ => f.ofVal env env.satf v
  | none => if dst = 10 then cb4Encode tbl v else valToInt env.rm n dst v

/-- A conversion between two element formats (R36, R37, R41, R45, R132); `none` for the reserved code under SUB = 0b11.
`tblS` and `tblD` are the codebook tables of the two sides. -/
def convert (env : FEnv) (n : NFmt) (tblS tblD : List Nat) (src dst x : Nat) : Option FRes :=
  if src = dst ∧ isIntCode src then some (x % 2 ^ codeWidth n src, 0)
  else
    match elemVal env n tblS src x with
    | none => none
    | some v =>
      if isIntCode src && isIntCode dst then
        some (wrap (codeWidth n dst) (clampInt (intRange n dst) ((intDecode n src x).getD 0)), 0)
      else
        match v, fpOfCode src, fpOfCode dst with
        | .nan _ sig, some f, some g => some (nanConvert f g x, if sig then fNV else 0)
        | .nan neg sig, none, some g => some (if g = .b then Fp.b.quiet (tblS.getD (x % 16) 0) else g.sign neg g.canonNan, if sig then fNV else 0)
        | _, _, _ => if src = dst ∧ src ≠ 10 then some (x % 2 ^ codeWidth n src, 0) else some (valToElem env n tblD dst v)

/-- A lane value from an element's code: sign-extended for signed integer types, else zero-extended (R120). -/
def laneOf (n : NFmt) (code x : Nat) : Word :=
  if code = 6 ∨ code = 7 ∨ code = 8 ∨ (code = 9 ∧ n.sgn) then word (sgn (codeWidth n code) x) else .ofNat 64 (x % 2 ^ codeWidth n code)

/-- The bits of a lane that a source of a format reads (R120). -/
def laneCode (n : NFmt) (code : Nat) (v : Word) : Nat := v.toNat % 2 ^ codeWidth n code

/-- The value of an element with its block scale (R47); a scale of 255 gives the canonical NaN. -/
def scaledVal (s : Option Nat) (v : Val) : Val :=
  match s with
  | none => v
  | some 255 => .nan false false
  | some k => v.scale ((k : Int) - 127)

/-- A value divided by its block scale before it is encoded (R47). -/
def unscaledVal (s : Option Nat) (v : Val) : Val :=
  match s with
  | none => v
  | some k => v.scale (127 - (k : Int))

/-- floor(log2 |v|) of a non-zero number. -/
def Val.ilog2 : Val → Int
  | .fin _ m e => e + (bitLen m : Int) - 1
  | _ => 0

/-- Emax of R48. -/
def scaleEmax (n : NFmt) (tbl : List Nat) (code : Nat) : Int :=
  match code with
  | 4 => 8 | 5 => 15 | 8 => 6
  | 10 => (tbl.map (fun e => match Fp.b.unpack e with
      | .fin s m g => (Val.fin s m g).ilog2
      | _ => (-200 : Int))).foldl max (-200)
  | _ => if n.range.2 ≤ 0 then 0 else ((bitLen n.range.2.toNat : Int) - 1)

/-- The computed scale of a block of values (R48). -/
def blockScale (n : NFmt) (tbl : List Nat) (code : Nat) (vs : List Val) : Nat :=
  let ls := vs.filterMap fun v => match v with
    | .fin .. => some v.ilog2
    | _ => none
  match ls with
  | [] => 127
  | x :: xs => (clampInt (0, 254) (xs.foldl max x - scaleEmax n tbl code + 127)).toNat

/-- Integer operations of the vector slots on decoded values (R129). -/
inductive IOp where
  | add | sub | mul | mulh | min | max | abs | neg | and | or | xor | andn | shl | shr | sra | sadd | ssub
  deriving DecidableEq, Repr

/-- Whether a `.n` operand of the operation is decoded (R129); the others act on the codes, the shifts among them (log 85, DESIGN CHOICE). -/
def IOp.decodes : IOp → Bool
  | .and | .or | .xor | .andn | .shl | .shr | .sra => false
  | _ => true

/-- One integer lane (R129): codes in, code out; `none` for the reserved code under SUB = 0b11. `uns` is function code 1. -/
def IOp.run (op : IOp) (n : NFmt) (code : Nat) (uns : Bool) (x y : Nat) : Option Nat :=
  let w := codeWidth n code
  let a := x % 2 ^ w
  let b := y % 2 ^ w
  let sh := y % w
  let bitwise : Nat := match op with
    | .and => a &&& b
    | .or => a ||| b
    | .xor => a ^^^ b
    | .andn => a &&& (2 ^ w - 1 - b)
    | .shl => a * 2 ^ sh % 2 ^ w
    | .shr => a / 2 ^ sh
    | _ => wrap w (sgn w a / 2 ^ sh)
  if !op.decodes then some bitwise
  else
    let val (c : Nat) : Option Int := if uns ∧ code ≠ 9 then some c else intDecode n code c
    match val a, (if op = .abs ∨ op = .neg then some 0 else val b) with
    | some p, some q =>
      let out (z : Int) : Nat := if code = 9 ∨ op = .sadd ∨ op = .ssub then wrap w (clampInt (intRange n code) z) else wrap w z
      some (match op with
        | .add | .sadd => out (p + q)
        | .sub | .ssub => out (p - q)
        | .mul => out (p * q)
        | .mulh => wrap w (p * q / 2 ^ w)
        | .min => if q < p then b else a
        | .max => if p < q then b else a
        | .abs => out p.natAbs
        | _ => out (-p))
    | _, _ => none

/-- A value in [0, 1) of `vrng`, the `.i64` form (R134). -/
def rngWord (key n g : Nat) : Nat :=
  let m := 2 ^ 64
  let z := ((n * 128 + g) % m) ^^^ key
  let z := (z ^^^ (z >>> 30)) * 0xBF58476D1CE4E5B9 % m
  let z := (z ^^^ (z >>> 27)) * 0x94D049BB133111EB % m
  z ^^^ (z >>> 31)

/-- The `vrng` value as the code of a type (R134). -/
def rngCode (code key n g : Nat) : Nat :=
  let z := rngWord key n g
  match code with
  | 6 => z
  | 7 => z % 2 ^ 32
  | 0 => (Fp.d.ofInt {} false false ((z >>> 11 : Nat) : Int) (-53)).1
  | _ => (Fp.s.ofInt {} false false ((z >>> 40 : Nat) : Int) (-24)).1

end Sys2Proof.Machine
end

