-- ==== Sys2Proof/Machine/Stat.lean ====
section
/-! DEFINITION. Stat.lean: statistics triples, their update, merge and drain, and the fixed reduction tree (02_number_formats.md R52-R54; 05_vector_lanes.md R135; 06_statistics_registers.md R155-R162). -/

namespace Sys2Proof.Machine

/-- A triple W, mean, M2 of FP64 codes (R52). -/
structure Triple where
  w : Nat
  mean : Nat
  m2 : Nat
  deriving DecidableEq, Repr

/-- The empty code (R53). -/
def emptyCode : Nat := 0x7FF80000000E0000

/-- The empty triple as the part writes it (R53). -/
def Triple.empty : Triple := ⟨0, emptyCode, emptyCode⟩

def Triple.isEmpty (t : Triple) : Bool := (Fp.d.unpack t.w).isZero

/-- A triple as the part writes it: an empty one in its one form (R53). -/
def Triple.written (t : Triple) : Triple := if t.isEmpty then .empty else t

/-- Bits [63:0] W, [127:64] mean, [191:128] M2 (R155). -/
def Triple.toNat (t : Triple) : Nat := t.w + t.mean * 2 ^ 64 + t.m2 * 2 ^ 128

def Triple.ofNat (x : Nat) : Triple := ⟨bits x 0 64, bits x 64 64, bits x 128 64⟩

/-- The value a lane of a statistics register holds when nothing was written (R155). -/
def emptyLane : BitVec 192 := .ofNat 192 Triple.empty.toNat

/-- A source triple is malformed (R156). -/
def Triple.malformed (t : Triple) : Bool :=
  !t.isEmpty &&
    ((match Fp.d.unpack t.w with
      | .nan .. => true
      | .inf _ => true
      | v => v.neg) ||
     (match Fp.d.unpack t.m2 with
      | .inf n | .fin n .. => n
      | _ => false))

def one64 : Nat := 0x3FF0000000000000

def rn (x : FRes) (fl : Nat) : Nat × Nat := (x.1, fl ||| x.2)

/-- RN64 operations that gather their flags. -/
def add64 (a b : Nat) : FRes := Fp.d.add {} false a b
def sub64 (a b : Nat) : FRes := Fp.d.add {} true a b
def mul64 (a b : Nat) : FRes := Fp.d.mul {} a b
def div64 (a b : Nat) : FRes := Fp.d.div {} a b
def fma64 (a b c : Nat) : FRes := Fp.d.fma {} false false a b c

def orFlags (xs : List FRes) : Nat := xs.foldl (fun f x => f ||| x.2) 0

/-- The first update of an empty triple: x quietened (R157, R158, R160). -/
def firstUpdate (w x : Nat) : Triple × Nat :=
  (⟨w, if (Fp.d.unpack x).isNan then Fp.d.quiet x else x, 0⟩, if (Fp.d.unpack x).isSnan then fNV else 0)

/-- Update(T, x): the steps of R157, although for n = 2 their M2 can leave the bound of R170 (log 101, DEDUCED). -/
def Triple.update (t : Triple) (x : Nat) : Triple × Nat :=
  if t.isEmpty then firstUpdate one64 x
  else
    let w := add64 t.w one64
    let d := sub64 x t.mean
    let r := div64 d.1 w.1
    let mean := add64 t.mean r.1
    let e := sub64 x mean.1
    let m2 := fma64 d.1 e.1 t.m2
    (⟨w.1, mean.1, m2.1⟩, orFlags [w, d, r, mean, e, m2])

/-- A weight that Update refuses (R158). -/
def badWeight (w : Nat) : Bool :=
  match Fp.d.unpack w with
  | .nan .. => true
  | .inf _ => true
  | .fin n .. => n
  | .zero _ => false

/-- Update(T, x, w) for an admitted weight (R158). Its steps can overflow W or leave M2 below zero; the result is then what they give,
although R156 says that the part makes no malformed triple (log 71, DESIGN CHOICE). -/
def Triple.updateW (t : Triple) (x w : Nat) : Triple × Nat :=
  if (Fp.d.unpack w).isZero then (t, 0)
  else if t.isEmpty then firstUpdate w x
  else
    let w' := add64 t.w w
    let d := sub64 x t.mean
    let g := div64 w w'.1
    let r := mul64 d.1 g.1
    let mean := add64 t.mean r.1
    let h := mul64 w d.1
    let e := sub64 x mean.1
    let m2 := fma64 h.1 e.1 t.m2
    (⟨w'.1, mean.1, m2.1⟩, orFlags [w', d, g, r, mean, h, e, m2])

/-- Merge(a, b) (R159). -/
def Triple.merge (a b : Triple) : Triple × Nat :=
  if a.isEmpty ∧ b.isEmpty then (.empty, 0)
  else if b.isEmpty then (a, 0)
  else if a.isEmpty then (b, 0)
  else
    let w := add64 a.w b.w
    let d := sub64 b.mean a.mean
    let f := div64 b.w w.1
    let mean := fma64 d.1 f.1 a.mean
    let p := mul64 a.w f.1
    let h := mul64 d.1 p.1
    let s := add64 a.m2 b.m2
    let m2 := fma64 h.1 d.1 s.1
    (⟨w.1, mean.1, m2.1⟩, orFlags [w, d, f, mean, p, h, s, m2])

/-- One level of the fixed tree (R135): neighbours combined, an absent one passed over. -/
def treeLevel {α : Type} (op : α → α → α) : List (Option α) → List (Option α)
  | x :: y :: xs =>
    (match x, y with
     | none, b => b
     | a, none => a
     | some a, some b => some (op a b)) :: treeLevel op xs
  | xs => xs

/-- Tree(op, x, present) of R135, over 2^k leaves. -/
def treeFold {α : Type} (op : α → α → α) : Nat → List (Option α) → Option α
  | 0, xs => xs.headD none
  | k + 1, xs => treeFold op k (treeLevel op xs)

/-- The least k with 2^k ≥ n. -/
def log2Up (n : Nat) : Nat := if n ≤ 1 then 0 else (n - 1).log2 + 1

/-- The tree over any number of leaves, widened with absent ones (R161). -/
def tree {α : Type} (op : α → α → α) (xs : List (Option α)) : Option α :=
  let k := log2Up xs.length
  treeFold op k (xs ++ List.replicate (2 ^ k - xs.length) none)

/-- An operation with flags lifted to values that carry flags. -/
def withFlags (op : Nat → Nat → FRes) (a b : FRes) : FRes := let r := op a.1 b.1; (r.1, a.2 ||| b.2 ||| r.2)

/-- Triples merged in index order (R161). -/
def mergeTree (xs : List (Option Triple)) : Triple × Nat :=
  (tree (fun (a b : Triple × Nat) => let r := a.1.merge b.1; (r.1, a.2 ||| b.2 ||| r.2)) (xs.map (·.map (·, 0)))).getD (.empty, 0)

/-- 1/√(M2/W + ε), evaluated exactly and rounded once under an environment into a format (R162, `rstd`). -/
def rstdVal (f : Fp) (env : FEnv) (t : Triple) (eps : Nat) : FRes :=
  match Fp.d.unpack t.m2, Fp.d.unpack t.w with
  | .nan .., _ => (f.canonNan, 0)
  | .inf _, _ => (0, 0)
  | m2, w =>
    let a := m2.toDy
    let b := w.toDy
    let c := (Fp.d.unpack eps).toDy
    let n := dyAdd a (dyMul b c)
    if n.1 = 0 then (f.infCode, fDZ)
    else
      let e := b.2 - n.2
      let num := if e % 2 = 0 then b.1.toNat else b.1.toNat * 2
      f.ofSqrtRatio env num n.1.toNat (e - e % 2)

/-- √(M2/W) (R162, `std`). -/
def stdVal (f : Fp) (env : FEnv) (t : Triple) : FRes :=
  match Fp.d.unpack t.m2, Fp.d.unpack t.w with
  | .inf _, _ => (f.infCode, 0)
  | .zero n, _ => (f.sign n 0, 0)
  | m2, w =>
    let a := m2.toDy
    let b := w.toDy
    let e := a.2 - b.2
    let num := if e % 2 = 0 then a.1.toNat else a.1.toNat * 2
    f.ofSqrtRatio env num b.1.toNat (e - e % 2)

/-- ε is refused by `rstd` and `norm` (R162). -/
def badEps (eps : Nat) : Bool :=
  match Fp.d.unpack eps with
  | .nan .. | .inf _ => true
  | .fin n .. => n
  | .zero _ => false

/-- A drain of R162 with every result in FP64. -/
def Triple.drain (t : Triple) (opt x eps : Nat) : FRes :=
  if t.isEmpty then (if opt = 0 ∨ opt = 6 then (0, 0) else (emptyCode, 0))
  else
    let nanOf (xs : List Nat) (r : FRes) : FRes := (Fp.d.nans xs).getD r
    match opt with
    | 0 => (t.w, 0)
    | 1 => nanOf [t.mean] (t.mean, 0)
    | 2 => div64 t.m2 t.w
    | 3 =>
      if valLt false (.fin false 1 0) (Fp.d.unpack t.w) then
        let k := sub64 t.w one64
        rn (div64 t.m2 k.1) k.2
      else (Fp.d.canonNan, fNV)
    | 4 => nanOf [t.m2] (stdVal .d {} t)
    | 5 => nanOf [t.m2] (rstdVal .d {} t eps)
    | 6 => mul64 t.w t.mean
    | _ =>
      let d := sub64 x t.mean
      let s := nanOf [t.m2] (rstdVal .d {} t eps)
      let r := mul64 d.1 s.1
      (r.1, orFlags [d, s, r])

end Sys2Proof.Machine
end

