-- ==== Sys2Proof/Machine/Codec.lean ====
section
/-! DEFINITION. Codec.lean: the codec of coded regions, bit by bit (17_coded_regions.md R344-R353, R358-R360). -/

namespace Sys2Proof.Machine

/-- Bits per value of a rate code (R345). -/
def codecRate : Nat → Option Nat
  | 0 => some 8 | 1 => some 12 | 2 => some 16 | 3 => some 20 | 4 => some 24 | 5 => some 32 | 6 => some 40 | 7 => some 48 | 8 => some 64 | _ => none

/-- The sequency table S (R349). -/
def seqTable : List Nat := [0, 1, 4, 2, 5, 8, 3, 6, 9, 12, 7, 10, 13, 11, 14, 15]

/-- The forward step (R348). -/
def fwd4 (a b c d : Int) : Int × Int × Int × Int :=
  let t1 := d - a
  let t0 := a + t1 / 2
  let u1 := c - b
  let u0 := b + u1 / 2
  let v1 := u0 - t0
  (t0 + v1 / 2, v1, t1, u1)

/-- The inverse step (R348). -/
def inv4 (v0 v1 t1 u1 : Int) : Int × Int × Int × Int :=
  let t0 := v0 - v1 / 2
  let u0 := t0 + v1
  let a := t0 - t1 / 2
  let b := u0 - u1 / 2
  (a, b, u1 + b, t1 + a)

/-- A step applied to the group of four at `start`, `start + stride`, … of a list of sixteen. -/
def onGroup (f : Int → Int → Int → Int → Int × Int × Int × Int) (stride start : Nat) (n : List Int) : List Int :=
  let g (i : Nat) : Int := n.getD (start + i * stride) 0
  let r := f (g 0) (g 1) (g 2) (g 3)
  (((n.set start r.1).set (start + stride) r.2.1).set (start + 2 * stride) r.2.2.1).set (start + 3 * stride) r.2.2.2

def rowsPass (f : Int → Int → Int → Int → Int × Int × Int × Int) (n : List Int) : List Int :=
  [0, 4, 8, 12].foldl (fun m i => onGroup f 1 i m) n

def colsPass (f : Int → Int → Int → Int → Int × Int × Int × Int) (n : List Int) : List Int :=
  [0, 1, 2, 3].foldl (fun m j => onGroup f 4 j m) n

/-- The frexp exponent of a value. -/
def frexpExp (v : Val) : Int := v.ilog2 + 1

/-- n × 2^e truncated toward zero. -/
def truncDy (x : Int × Int) : Int := if 0 ≤ x.2 then x.1 * 2 ^ x.2.toNat else x.1.tdiv (2 ^ (-x.2).toNat)

/-- One plane of R351 over the coefficients: the bits emitted and the new significance. -/
def emitPlane (q : Nat) (c : List Int) (sig : List Bool) : List Bool × List Bool :=
  let bq (p : Nat) : Bool := bit (c.getD p 0).natAbs q
  let known := (List.range 16).filterMap fun p => if sig.getD p false then some (bq p) else none
  let g := (List.range 16).any fun p => !sig.getD p false && bq p
  let fresh := (List.range 16).flatMap fun p =>
    if sig.getD p false then [] else if bq p then [true, decide (c.getD p 0 < 0)] else [false]
  if g then (known ++ [true] ++ fresh, (List.range 16).map fun p => sig.getD p false || bq p) else (known ++ [false], sig)

/-- Planes q−1 down to 0. -/
def emitPlanes (c : List Int) : Nat → List Bool → List Bool
  | 0, _ => []
  | q + 1, sig => let r := emitPlane q c sig; r.1 ++ emitPlanes c q r.2

/-- Bits, least significant first, as a number. -/
def ofBits : List Bool → Nat
  | [] => 0
  | b :: bs => (if b then 1 else 0) + 2 * ofBits bs

/-- The block of sixteen FP64 codes as a coded block of 2r bytes, given as a number (R346, R347, R350, R351). -/
def encodeBlock (r : Nat) (x : List Nat) : Nat :=
  if r = 64 then x.foldr (fun v n => v + 2 ^ 64 * n) 0
  else
    let vs := x.map Fp.d.unpack
    let nz := vs.filter (fun v => !v.isZero)
    match nz with
    | [] => 1
    | v :: rest =>
      let e := max (-1022) (rest.foldl (fun m w => max m (frexpExp w)) (frexpExp v))
      let n := vs.map fun w => truncDy (w.toDy.1, w.toDy.2 + 58 - e)
      let n := colsPass fwd4 (rowsPass fwd4 n)
      let c := seqTable.map fun i => n.getD i 0
      let p := bitLen (c.foldl (fun m z => max m z.natAbs) 0) - 1
      let head := p * 2 ^ 12 + (e + 1023).toNat * 2
      head + 2 ^ 18 * ofBits ((emitPlanes c (p + 1) (List.replicate 16 false)).take (16 * r - 18))

/-- The decoder's state of one coefficient: magnitude bits, sign once read, lowest plane read. -/
structure DecCoef where
  m : Nat := 0
  sig : Bool := false
  sign : Option Bool := none
  h : Nat := 0
  deriving DecidableEq, Repr

/-- Reads the next bit, if the budget has one. -/
def nextBit : List Bool → Option (Bool × List Bool)
  | [] => none
  | b :: bs => some (b, bs)

/-- The known coefficients' bits of plane `q`. -/
def readKnown (q : Nat) : List Nat → List DecCoef → List Bool → List DecCoef × List Bool
  | [], cs, bs => (cs, bs)
  | p :: ps, cs, bs =>
    match nextBit bs with
    | none => (cs, [])
    | some (b, bs') =>
      let k := cs.getD p {}
      readKnown q ps (cs.set p { k with m := k.m + (if b then 2 ^ q else 0), h := q }) bs'

/-- The insignificant coefficients' bits of plane `q` after a group bit of 1. -/
def readFresh (q : Nat) : List Nat → List DecCoef → List Bool → List DecCoef × List Bool
  | [], cs, bs => (cs, bs)
  | p :: ps, cs, bs =>
    match nextBit bs with
    | none => (cs, [])
    | some (b, bs') =>
      let k := { cs.getD p {} with h := q }
      if b then
        match nextBit bs' with
        | none => (cs.set p { k with m := 2 ^ q, sig := true }, [])
        | some (s, bs'') => readFresh q ps (cs.set p { k with m := 2 ^ q, sig := true, sign := some s }) bs''
      else readFresh q ps (cs.set p k) bs'

/-- Planes q−1 down to 0 (R352). -/
def readPlanes : Nat → List DecCoef → List Bool → List DecCoef
  | 0, cs, _ => cs
  | q + 1, cs, bs =>
    let known := (List.range 16).filter fun p => (cs.getD p {}).sig
    let fresh := (List.range 16).filter fun p => !(cs.getD p {}).sig
    let r := readKnown q known cs bs
    match nextBit r.2 with
    | none => r.1
    | some (g, bs') => if g then (let t := readFresh q fresh r.1 bs'; readPlanes q t.1 t.2) else readPlanes q r.1 bs'

/-- The bits of a number, least significant first. -/
def toBits : Nat → Nat → List Bool
  | 0, _ => []
  | n + 1, x => (x % 2 == 1) :: toBits n (x / 2)

/-- The sixteen values of a coded block; `none` for a reserved block (R350, R352). -/
def decodeBlock (r : Nat) (x : Nat) : Option (List Nat) :=
  if r = 64 then some ((List.range 16).map fun k => bits x (64 * k) 64)
  else if x % 2 = 1 then (if x % 2 ^ (16 * r) = 1 then some (List.replicate 16 0) else none)
  else
    let p := bits x 12 6
    let eb := bits x 1 11
    if eb = 0 ∨ 60 < p then none
    else
      let e : Int := (eb : Int) - 1023
      let cs := readPlanes (p + 1) (List.replicate 16 {}) (toBits (16 * r - 18) (x >>> 18))
      let c := cs.map fun k => match k.sign with
        | some s => let m : Int := k.m + (if 0 < k.h then 2 ^ (k.h - 1) else 0); if s then -m else m
        | none => 0
      let n := (List.range 16).foldl (fun a q => a.set (seqTable.getD q 0) (c.getD q 0)) (List.replicate 16 (0 : Int))
      let n := rowsPass inv4 (colsPass inv4 n)
      some (n.map fun z =>
        let y := Fp.d.ofInt {} false false z (e - 58)
        if y.1 % 2 ^ 63 = Fp.d.infCode then y.1 - 1 else y.1)

/-- A non-finite FP64 code. -/
def nonFinite (x : Nat) : Bool := bits x 52 11 == 0x7FF

/-- The substitution of R359 under policies 0b01 and 0b10. -/
def substitute (policy x : Nat) : Nat :=
  if !nonFinite x then x
  else if policy = 1 ∧ bits x 0 52 = 0 then x - 1
  else 0

/-- The counters that one home slice keeps for one region (R360). -/
structure CodecPart where
  nenc : Nat := 0
  nlossy : Nat := 0
  nsub : Nat := 0
  maxe : Int := -32768
  t : Triple := .empty
  deriving DecidableEq, Repr

/-- The counters after one encode of `y` that decodes as `x'` (R360), and whether it was lossy (R353). -/
def CodecPart.count (k : CodecPart) (subs : Nat) (y x' : List Nat) : CodecPart × Bool :=
  let errs := (y.zip x').map fun (a, b) => let u := (Fp.d.unpack a).toDy; dyAdd (Fp.d.unpack b).toDy (-u.1, u.2)
  let lossy := errs.any fun d => d.1 ≠ 0
  let k := { k with nenc := k.nenc + 1, nsub := k.nsub + subs }
  if lossy then
    let top := errs.foldl (fun m d => if d.1 = 0 then m else max m (d.2 + (bitLen d.1.natAbs : Int) - 1)) (-32768)
    let sq := errs.foldl (fun s d => dyAdd s (dyMul d d)) (0, 0)
    let e := if sq.2 % 2 = 0 then Fp.d.ofSqrtRatio {} sq.1.toNat 1 (sq.2 - 4) else Fp.d.ofSqrtRatio {} (2 * sq.1.toNat) 1 (sq.2 - 5)
    ({ k with nlossy := k.nlossy + 1, maxe := max k.maxe top, t := (k.t.update e.1).1 }, true)
  else (k, false)

end Sys2Proof.Machine
end

