-- ==== Sys2Proof/Machine/SMap.lean ====
section
/-! DEFINITION. SMap.lean: sparse data by key in one canonical form: keys strictly rising and no entry equal to what an unlisted key reads as. -/

namespace Sys2Proof.Machine

/-- A finite map from numbers, as its listed entries. -/
abbrev SMap (β : Type) := List (Nat × β)

namespace SMap

variable {β : Type} [DecidableEq β]

/-- The value at `k`; an unlisted key reads as `d`. -/
def get (d : β) : SMap β → Nat → β
  | [], _ => d
  | (i, v) :: m, k => if i = k then v else if k < i then d else get d m k

/-- The map with the value at `k` replaced. -/
def set (d : β) : SMap β → Nat → β → SMap β
  | [], k, x => if x = d then [] else [(k, x)]
  | (i, v) :: m, k, x =>
    if i < k then (i, v) :: set d m k x
    else if i = k then (if x = d then m else (k, x) :: m)
    else if x = d then (i, v) :: m else (k, x) :: (i, v) :: m

/-- Consecutive values from key `k` up, as entries. -/
def run (d : β) : Nat → List β → SMap β
  | _, [] => []
  | k, x :: xs => if x = d then run d (k + 1) xs else (k, x) :: run d (k + 1) xs

/-- The map with the values from `k` up replaced. -/
def setRun (d : β) : SMap β → Nat → List β → SMap β
  | [], k, xs => run d k xs
  | (i, v) :: m, k, xs =>
    if i < k then (i, v) :: setRun d m k xs
    else run d k xs ++ ((i, v) :: m).dropWhile fun p => p.1 < k + xs.length

/-- The canonical form from key `lo` up. -/
def wfFrom (d : β) : Nat → SMap β → Bool
  | _, [] => true
  | lo, (i, v) :: m => decide (lo ≤ i) && decide (v ≠ d) && wfFrom d (i + 1) m

/-- Keys strictly rising from `lo` up, whatever an unlisted key reads as. -/
def risingFrom : Nat → SMap β → Bool
  | _, [] => true
  | lo, (i, _) :: m => decide (lo ≤ i) && risingFrom (i + 1) m

/-- Keys strictly rising. -/
def rising (m : SMap β) : Bool := risingFrom 0 m

/-- The canonical form. -/
def wf (d : β) (m : SMap β) : Bool := wfFrom d 0 m

/-- Entries written one after another. -/
def setAll (d : β) (m : SMap β) (xs : List (Nat × β)) : SMap β := xs.foldl (fun a p => set d a p.1 p.2) m

end SMap

end Sys2Proof.Machine
end

