-- ==== Sys2Proof/Machine/State.lean ====
section
/-! DEFINITION. State.lean: everything the spec gives the machine, as plain data, and the machine right after reset (the rules that name each field stand beside it). -/

namespace Sys2Proof.Machine

/-- Reasons for which a step stops with a fault. -/
inductive Fault where
  /-- Raised by step when a turn names a context, queue or die that the package does not have; safe. -/
  | noSuchUnit
  deriving DecidableEq, Repr

/-- Reasons for which an instruction has no meaning. -/
inductive Refusal where
  /-- Raised by an arm of Dispatch.lean whose instruction has no meaning yet; safe. -/
  | notModelled (mnemonic : String)
  /-- Raised by step when State.agenda names a tile, bytecode or microcode instruction, which only a bundle, a graph or an image can issue; safe. -/
  | notAnEvent
  deriving DecidableEq, Repr

/-- The answer of a step. -/
abbrev Out (σ : Type) := Host.Outcome σ Fault Refusal

/-- The states of a context (10_contexts.md R240). -/
inductive CtxState where
  | free | bound | ready | running | switched | inService | preempted | checkpointed | retired
  deriving DecidableEq, Repr

/-- A cause with the values that its rule gives TRAPINFO0-3, none for one that it does not give (03 R77; 10 R256; log 33, DESIGN CHOICE). `kind` is TRAPCAUSE.KIND, `off` TRAPCAUSE.OFF, `lv` the service depth of
the level at which a pending one is due (R433). -/
structure Cause where
  code : Nat
  kind : Nat := 0
  off : Nat := 0
  i0 : Option Nat := none
  i1 : Option Nat := none
  i2 : Option Nat := none
  i3 : Option Nat := none
  lv : Nat := 0
  deriving DecidableEq, Repr

/-- The register files that an exposed result writes (10 R251). -/
inductive File where
  | s | v | m | q
  deriving DecidableEq, Repr

/-- A result that has not landed: `off` bundles of its level are still to issue (10 R243, R251). `writes` are keys of the
file with their values: s by number, v and q by 128 × number + lane, m by 128 × number + lane with one bit. -/
structure Pend where
  off : Nat
  file : File
  reg : Nat
  ce : Nat := 0
  fl : Nat := 0
  en : Nat := 0
  pc : Word := 0
  writes : List (Nat × Nat)
  deriving DecidableEq, Repr

/-- Kinds of transfer (08_copy_channels.md R205, R207; 20 R406, R408). `fire` is the copy of a `tfire` to its contribution area. -/
inductive XKind where
  | tld | tst | ttrans (out : Bool) | tred (op : RedOp) | fire (inst entry : Nat)
  deriving DecidableEq, Repr

/-- Kinds of matrix command (07 R185). -/
inductive MKind where
  | mma | mlatch | mlatchMem | mzero | mst | msv | mrst
  deriving DecidableEq, Repr

/-- An operand of a matrix command as captured at issue: register, descriptor, identifier entry, codebook table, and whether it is a latch (07 R186, R188). -/
structure MArg where
  reg : Nat := 0
  latch : Bool := false
  desc : Nat := 0
  ent : Nat := 0
  cb : Nat := 0
  deriving DecidableEq, Repr

/-- A matrix command with what it captured (07 R187, R188). `acc` is its accumulator, `lat` the latch that an `mlatch` loads, `clk` the core clock at which it was issued, `got` the pieces that an
`mlatch` from memory has read so far (16 R332). -/
structure MCmd where
  ctx : Nat
  kind : MKind
  acc : Nat := 0
  lat : Nat := 0
  a : MArg := {}
  b : MArg := {}
  rm : Nat := 0
  z0 : Bool := false
  clr : Bool := false
  fpc : Word := 0
  fmt : Word := 0x0C
  addr : Nat := 0
  pc : Nat := 0
  ti : Nat := 0
  clk : Nat := 0
  got : List (List Byte) := []
  deriving DecidableEq, Repr

/-- A stationary latch (07 R181): data in B layout, scale bytes, and the format record. -/
structure Latch where
  full : Bool := false
  data : List Byte := []
  scales : List Byte := []
  code : Nat := 0
  fmt : Nat := 0
  scaled : Bool := false
  cb : Nat := 0
  deriving DecidableEq, Repr

/-- What a started matrix command will write when it completes (07 R187): accumulator elements, scratchpad words and bytes, a latch, flags. -/
structure MOut where
  acc : List (Nat × Word) := []
  pad : List (Nat × Byte) := []
  lat : Option (Nat × Latch) := none
  fl : Nat := 0
  deriving DecidableEq, Repr

/-- A transfer that is not complete (08 R195). `prog` is the lowest element not yet transferred, `blocks` the coded blocks
touched by earlier elements and not yet written (R204), `follow` the follow-on command of a `tldm` (R205), `ti` the tile task that issued it, `seq` its place in the context's issue order. -/
structure Xfer where
  ch : Nat
  id : Nat
  kind : XKind
  reg : Nat
  lay : Nat := 0
  desc : Nat
  mEnt : Nat
  tEnt : Nat
  mCb : Nat := 0
  tCb : Nat := 0
  fpc : Word := 0
  fmt : Word := 0x0C
  base : Nat
  aux : Nat := 0
  pc : Nat := 0
  ti : Nat := 0
  seq : Nat := 0
  started : Bool := false
  prog : Nat := 0
  blocks : List Nat := []
  fl : Nat := 0
  fault : Option Cause := none
  raised : Bool := false
  follow : Option MCmd := none
  deriving DecidableEq, Repr

/-- Kinds of class 7 operation (18 R368, R377). -/
inductive KvKind where
  | attn | write | promote | demote
  deriving DecidableEq, Repr

/-- An `attn` or `kvmap` in flight (18 R370, R374, R377): its tiles as captured, the request area, the table's place, the
positions, the root and leaf entries as read, and for an `attn` the partials that have arrived and the failed blocks, each as 2 × block + TRAPINFO3. -/
structure KvOp where
  kind : KvKind
  src : MArg := {}
  dst : MArg := {}
  area : Nat := 0
  kroot : Nat
  lg : Nat
  root : Nat := 0
  leaves : List Nat := []
  layer : Nat := 0
  head : Nat := 0
  vals : Bool := false
  pos : Nat := 0
  len : Nat := 0
  scale : Nat := 0
  noMask : Bool := false
  tier : Nat := 0
  rm : Nat := 0
  fpc : Word := 0
  fmt : Word := 0x0C
  pc : Nat := 0
  ti : Nat := 0
  seq : Nat := 0
  parts : SMap (List Word) := []
  failed : List (Nat × Nat) := []
  done : Nat := 0
  fl : Nat := 0
  fault : Option Cause := none
  raised : Bool := false
  deriving DecidableEq, Repr

/-- A promotion (to tier 0) or a demotion of a block in progress (18 R366, R367): the block's owner and number, the frame taken for it (none: the replica becomes current), the key of the
leaf entry through which it was asked for, who asked (a context and its operation's number, 384 + queue, or 512 + package and transaction), and, of one that failed, how: 0 its tag did not match, 2 the expander. -/
structure KvMove where
  pkg : Nat
  gbn : Nat
  tier : Nat
  frame : Option Nat := none
  leaf : Option Nat := none
  who : Nat × Nat
  why : Option Nat := none
  deriving DecidableEq, Repr

/-- A `tsend` or `trecv` in flight (19 R391, R392). -/
structure Msg where
  send : Bool
  cn : Nat
  ent : Nat
  num : Nat
  tile : MArg
  obj : Nat := 0
  pc : Nat := 0
  ti : Nat := 0
  seq : Nat := 0
  slot : Nat := 0
  begun : Bool := false
  parked : Bool := false
  data : List Byte := []
  fault : Option Cause := none
  deriving DecidableEq, Repr

/-- A fire whose copy is complete and whose ring stage runs (20 R407): the ranks whose acknowledgement it awaits. -/
structure Fire where
  inst : Nat
  entry : Nat
  gen : Nat
  pc : Nat
  ti : Nat
  seq : Nat := 0
  acks : List Nat := []
  hopped : Bool := false
  fl : Nat := 0
  fault : Option Cause := none
  deriving DecidableEq, Repr

/-- A `bar` between arrival and departure (15 R319): object, generation, destination and scope. -/
structure Depart where
  key : Nat
  gen : Nat
  d : Reg
  sc : Scope
  pc : Word
  deriving DecidableEq, Repr

/-- An access whose result is interlocked (04 R84): the register it will write, the value, and for an access to memory its address and length (09 R221).
File c names a capability register, value 128 bits and V above them. -/
structure Interlock where
  cap : Bool := false
  reg : Nat
  value : Nat
  va : Nat := 0
  len : Nat := 0
  deriving DecidableEq, Repr

/-- What a held bundle waits for (04 R85; 05 R123). -/
inductive Hold where
  /-- `wait` on counts (R99). -/
  | count (n : Nat) (cls : Nat)
  /-- `wait` on a watermark (R99). -/
  | watermark (n : Nat) (ch : Nat)
  /-- `fence` (R106). -/
  | fence (cls : Nat) (sc : Scope)
  /-- `acq` until the word at a memory key reaches a version (R317). -/
  | version (key : Nat) (b : Nat)
  /-- `waitf` until the masked word meets a condition (R322). -/
  | word (key : Nat) (mask : Nat) (cond : Cond) (b : Nat)
  /-- `rel` or, with `arrives`, `bar` until earlier accesses to an object's regions are performed (R221; 14 R302). -/
  | regions (obj : Nat) (sc : Scope) (arrives : Bool)
  /-- `alloc` on an empty record (R340). -/
  | alloc (rec : Nat)
  /-- `end.nxt` until tc1 has landed (R98). -/
  | coord
  /-- A register that awaits an interlocked result (R84). -/
  | interlock
  /-- A popped load-queue entry that is not resolved (R123). -/
  | entry
  /-- An accumulator, a tile, a matrix queue, a channel or a count that earlier operations keep busy (R123, R177, R183, R187, R193). -/
  | busy
  /-- `macq` until the pool grants its tiles (R184). -/
  | grant (mask : Nat)
  /-- A scalar access over a tile operation that is not complete (R105). -/
  | tileOp (key : Nat) (len : Nat)
  /-- A connection register with unfinished operations, or a generation that is not closed (19 R391; 20 R406). -/
  | conn (r : Nat)
  | closed (inst : Nat)
  /-- An access to a package without a route (19 R387). -/
  | route (pkg : Nat)
  /-- A write that a group stages and that no grate line or spill entry can hold: record and line (14 R309). -/
  | stage (rec line : Nat)
  deriving DecidableEq, Repr

/-- States of a load-queue entry (05 R149); a popped entry is gone. -/
inductive LqState where
  | queued | performing | resolved
  deriving DecidableEq, Repr

/-- A load-queue entry (05 R149): addresses and data of 128 lanes (while it is performed or carries a tag, of those performed so far), the lanes accessed, a fault
tag and the package that refused it (19 R386), the tile task that pushed it, and whether it is performed again: in push order after a return, or for a tag whose cause was raised (R151, R152). -/
structure LqEntry where
  st : LqState := .queued
  sz : Nat
  ce : Nat
  lanes : Nat
  pc : Word
  ti : Nat := 0
  addrs : List Nat
  data : List Word := []
  tag : Option (Nat × Nat × Nat) := none
  tag3 : Option Nat := none
  again : Bool := false
  deriving DecidableEq, Repr

/-- A request of `nxt` in flight (04 R96, R97; 11 R265): its register, the coordinate or end code once one is taken, the core clock at which that lands, and the one of the request. -/
structure CoordReq where
  reg : Nat
  val : Option Word := none
  due : Word := 0
  asked : Word := 0
  deriving DecidableEq, Repr

/-- A store that waits in a core's store path (09 R212): its context, virtual address, memory key, bytes, the coded region of its leaf, the group record that
stages it (R236), and the STAGE_OVERFLOW causes it has raised, as 1 + TRAPINFO2 (14 R309). -/
structure StoreEntry where
  ctx : Nat
  va : Nat := 0
  key : Nat
  bytes : List Byte
  coded : Option Nat := none
  stage : Option Nat := none
  told : Nat := 0
  deriving DecidableEq, Repr

/-- A context (10 R240-R255). Register files are sparse: an unlisted register holds its value at binding. -/
structure Ctx where
  /-- R240 -/
  st : CtxState := .free
  /-- the reason a switched context waits for (R85, R123) -/
  hold : Option Hold := none
  /-- 03 R76 -/
  pc : Word := 0
  /-- s0-s63, s0 never listed (03 R65) -/
  s : SMap Word := []
  /-- tc0-tc3 (04 R95) -/
  tc : SMap Word := []
  /-- requests of `nxt` not yet landed, in order of request (04 R96, R97; 11 R265) -/
  nxt : List CoordReq := []
  /-- v0-v62 by 128 × register + lane (03 R65) -/
  v : SMap Word := []
  /-- m0-m15 by 128 × register + lane, m0 never listed (03 R65) -/
  mask : SMap Bool := []
  /-- q0-q15 by 128 × register + lane (06 R155) -/
  q : SMap (BitVec 192) := []
  /-- acc0-acc7 by 1024 × register + 32 × row + column (07 R183) -/
  acc : SMap Word := []
  /-- held accumulators beyond acc0-acc3, bit i for acc(4 + i) (07 R183) -/
  accHeld : BitVec 4 := 0
  /-- t0-t63 and their definition bits (07 R175) -/
  t : SMap (BitVec 128) := []
  tDef : BitVec 64 := 0
  /-- c0-c15 and V (04 R110) -/
  cap : SMap (BitVec 128) := []
  capV : BitVec 16 := 0
  /-- cn0-cn15: bit 62 open, [11:0] entry (19 R389) -/
  cn : SMap (BitVec 64) := []
  /-- tensor identifier entries (07 R171) -/
  tid : SMap (BitVec 1024) := []
  /-- codebook tables 1-15 (02 R42) -/
  cb : SMap (BitVec 256) := []
  /-- the constant store (03 R59) -/
  konst : SMap Word := []
  /-- the static copy schedule (08 R208) -/
  sched : List Nat := []
  /-- control registers by number, those with a store of their own (03 R76) -/
  csr : SMap Word := []
  /-- FPC and FMT in force, and the writes still to take effect with the bundles still to go (02 R33, 10 R250) -/
  fpc : Word := 0
  fpcW : List (Nat × Word) := []
  fmt : Word := 0x0C
  fmtW : List (Nat × Word) := []
  /-- exposed results in flight, in landing order among equals (10 R244) -/
  pend : List Pend := []
  /-- load-queue entries in push order (05 R149) -/
  lq : List LqEntry := []
  /-- interlocked results in flight (04 R84) -/
  intl : List Interlock := []
  /-- pending asynchronous causes but INTERRUPT (10 R246), and the ordered set of pending INTERRUPTs (R247) -/
  async : List Cause := []
  ints : List (Nat × Nat) := []
  /-- causes delivered after a bundle and not yet taken (10 R433), and causes deferred to the next bundle (07 R191) -/
  after : List Cause := []
  deferred : List Cause := []
  /-- service nesting depth, 0 in task code; STEP armed; the cause came in the retired state (10 R249, R250); the context was killed (R253) -/
  depth : Nat := 0
  stepArmed : Bool := false
  ret : Bool := false
  killed : Bool := false
  /-- latch mask (07 R181) -/
  lm : BitVec 4 := 0
  /-- transfers, class 7 operations, messages and fires not complete, oldest first (08 R195; 18 R370; 19 R391; 20 R407) -/
  xfers : List Xfer := []
  kvops : List KvOp := []
  msgs : List Msg := []
  opSeq : Nat := 0
  fires : List Fire := []
  /-- matrix commands retained after an operand-fetch cause (07 R191) -/
  retained : List MCmd := []
  /-- launch, queue and image index of the binding; the tile task in progress and those retired with operations outstanding (10 R241; 11 R261, R266) -/
  launch : Option Nat := none
  queue : Option Nat := none
  img : Nat := 0
  ti : Nat := 0
  tasks : List Nat := []
  /-- stage 0 of the copy schedule is still to issue in this task (08 R208); the fills of the binding are complete (10 R240; 07 R171) -/
  stage0 : Bool := false
  filled : Bool := true
  /-- a `bar` that has arrived (15 R320) -/
  dep : Option Depart := none
  /-- clocks without a selection while ready, and clocks that a `waitf` has held (11 R269, R270) -/
  aging : Nat := 0
  waitHeld : Nat := 0
  /-- the first value of the word that met the condition of the `waitf` that holds the context (15 R322) -/
  seen : Option Nat := none
  /-- the place in order of arrival of the `alloc` that holds the context, and its record (16 R339) -/
  asked : Option (Nat × Nat) := none
  /-- the issuing bundles of the results that each trap frame holds, in frame order, the latest frame first: a replay entry does not name its own (02 R34; 10 R251; log 5, DESIGN CHOICE) -/
  frames : List (List Word) := []
  /-- stores that a pre-emption found waiting for a route or a grate line: they go with the context (09 R212; log 90, DESIGN CHOICE) -/
  stores : List StoreEntry := []
  /-- packages whose lost route has raised LINK_DOWN here (19 R387), and as 512 + 2 × record + TRAPINFO2 the groups whose full grate has raised STAGE_OVERFLOW for a held write (14 R309) -/
  told : List Nat := []
  deriving DecidableEq, Repr

/-- A translation that a TLB keeps for one page of 2^shift bytes, whatever the leaf's size (16 R330): the page's number, its physical address, the leaf's bits,
and the host's ASID for a host-shared page. -/
structure TlbEntry where
  vpn : Nat
  shift : Nat := 12
  page : Nat
  leaf : Nat
  host : Option Nat := none
  deriving DecidableEq, Repr

/-- A non-leaf entry or host link that the walkers of a die keep (16 R330): die, root array and level of its walk, the range it covers as a page, and in `leaf` the entry. -/
structure WalkEntry where
  die : Nat
  root : Nat
  lvl : Nat
  t : TlbEntry
  deriving DecidableEq, Repr

/-- A core (01 R11-R19). -/
structure Core where
  /-- bank modes by 16 × cluster + bank (R16): 0 scratchpad, 1 L1 way, 2 FIFO -/
  bank : SMap Nat := []
  /-- scratchpad words by 2^18 × bank group + unit (R17) -/
  pad : SMap Word := []
  /-- FIFO banks by 16 × cluster + bank, oldest first (05 R142) -/
  fifo : SMap (List Word) := []
  /-- read copies of 128-byte lines by memory key / 128 (09 R212), and for those that lie in a bank in L1-way mode 1 + 16 × cluster + bank (01 R15, R16) -/
  l1 : SMap (List Byte) := []
  way : SMap Nat := []
  /-- stores not yet performed, oldest first (09 R212) -/
  path : List StoreEntry := []
  /-- the L1 TLB, at most 256 entries, and the L2 TLB, at most 4096 (16 R330) -/
  utlb : List TlbEntry := []
  tlb : List TlbEntry := []
  /-- revocation cache: segments of 128 bits by identifier bits [19:7] (16 R341) -/
  rev : List (Nat × BitVec 128) := []
  /-- latches (07 R181), the matrix queue and the running command (R187), and the pool requests in age order (R184) -/
  latch : SMap Latch := []
  /-- the launch that each latch is assigned to, as its number plus 1 (07 R181) -/
  owner : SMap Nat := []
  mq : List MCmd := []
  mrun : Option (MCmd × MOut) := none
  wants : List (Nat × Nat) := []
  /-- the expander does not complete the core's next access to tier 2 (16 R343) -/
  cxlBad : Bool := false
  /-- the unfinished `xroute`s: banks as a mask, and the core clock at which each ends (05 R123, R145) -/
  routing : List (Nat × Nat) := []
  /-- privileged transfers by channel, with their contexts (08 R209) -/
  priv : List (Nat × Xfer) := []
  /-- the context position that issued last (10 R242) and the core clocks since reset (03 R76) -/
  last : Nat := 3
  cycle : Word := 0
  /-- the clock in MHz that heat leaves the core, under the package's clock (21 R419) -/
  mhz : Nat := 3600
  deriving DecidableEq, Repr

/-- How the bundle being issued stands. -/
inductive BunState where
  | clean | trapped | held
  deriving DecidableEq, Repr

/-- The bundle being issued (03 R63, R67): its context, address, length in bytes, the offset and slot of the syllable in turn,
the next PC, what its syllables have done so far (`stage0`: stage 0 of the copy schedule has issued), whether it was an `rts` (R252), and how it stands. -/
structure Bun where
  ctx : Nat := 0
  pc : Word := 0
  len : Nat := 4
  off : Nat := 0
  slot : Nat := 0
  next : Option Word := none
  pops : Nat := 0
  pushed : Nat := 0
  vrngs : Nat := 0
  rngSet : Bool := false
  after : List Cause := []
  stage0 : Bool := false
  quiet : Bool := false
  status : BunState := .clean
  deriving DecidableEq, Repr

/-- A handle table entry (12 R290): descriptor, whether an operator wrote it, the launches that read it, the one that writes it and the last that did, and for a transient handle,
which no memory holds, its elements and scale bytes (R287). -/
structure Handle where
  desc : BitVec 512 := 0
  codes : List Nat := []
  scales : List Nat := []
  declared : Bool := false
  written : Bool := false
  readers : List Nat := []
  writer : Option Nat := none
  last : Option Nat := none
  deriving DecidableEq, Repr

/-- An operator of a Parser's store (13 R292): image identifier, first word, number of words, image base. -/
structure OpImage where
  ident : Nat
  opc : Nat
  first : Nat
  words : Nat
  base : Nat
  deriving DecidableEq, Repr

/-- A tile binding of an expansion (13 R296, R298). -/
structure BindRec where
  t : Nat
  tid : Nat
  g : Nat
  rows : Nat
  rowb : Nat
  k : Nat
  h : Nat
  deriving DecidableEq, Repr

/-- An expansion in progress (13 R296): the operator, its place in the store, and what its words have set. -/
structure Expansion where
  queue : Nat
  op : LbOp
  fofs : Nat
  image : OpImage
  pos : Nat := 0
  rd : Nat := 14
  wr : Nat := 1
  ext : SMap Nat := []
  follows : List (Nat × Nat × Nat) := []
  ts : SMap Nat := []
  perm : Nat := 0xE4
  cyclic : Bool := true
  binds : List BindRec := []
  sched : List Nat := []
  entry : Nat := 0
  koff : Nat := 0
  ssz : Nat := 0
  lm : Nat := 0
  fence : List (Nat × Nat) := []
  bank : SMap Word := []
  flags : Option Nat := none
  areas : Option Nat := none
  shards : List (Nat × Nat × Nat) := []
  fused : Option (Nat × Nat × Bool) := none
  adv : Nat := 0
  /-- the root entry whose TLEN the operator raises when its last tile is counted, and to what (18 R378) -/
  tlen : Option (Nat × Nat) := none
  deriving DecidableEq, Repr

/-- One entry of a collective that the Parser lowers (20 R409): operator, source and receiving ranks (none: every rank receives), its
number of elements, those of the source that this member contributes, those of the destination that the payload becomes, and RADDR. -/
structure CollPart where
  opr : Nat
  src : Nat
  dr : Option Nat := none
  n : Nat
  from_ : List Nat := []
  into : List Nat := []
  raddr : Nat := 0
  deriving DecidableEq, Repr

/-- A collective launch (20 R409; 13 R299): instance, group level and number, rounding mode, source and destination as handle key, extents and
resolved descriptor, the elements that stay on this package, its entries, the generation once it has opened, and COLL_OVERRUN. -/
structure CollJob where
  inst : Nat
  lvl : Nat
  grp : Nat
  rm : Nat
  src : Nat × List Nat × Nat
  dst : Nat × List Nat × Nat
  stay : List (Nat × Nat) := []
  parts : List CollPart
  gen : Option Nat := none
  overrun : Bool := false
  deriving DecidableEq, Repr

/-- A launch (11 R261, R263-R267): its record, origin, tables and progress. `coords` are the tables' entries by core, in
order, `heads` the first unread one of each, `todo` the coordinates not yet written to a table, `done` the tiles counted, `started` whether its record is checked and its declarations made, `bound` whether a context has been bound, `merge` the areas
of its `epilog`s with D's base, `open_` the
supersteps in which its contexts left staged lines, as record and number (12 R290), `ranges` the roots that it reads with base and length, `images` the user images whose words it runs (13 R294),
and `stolen` the coordinates that members of checkpointed groups have taken from other cores' tables since the last commit: image index, that core, the coordinate (14 R308). -/
structure Launch where
  lrec : Nat
  queue : Nat
  fofs : Nat := 0
  cores : List Nat := []
  ctxs : Nat := 15
  heads : SMap Nat := []
  coords : List (Nat × Word) := []
  todo : List (Nat × Word) := []
  done : Nat := 0
  started : Bool := false
  bound : Bool := false
  complete : Bool := false
  failed : Bool := false
  preempted : List (Nat × Nat) := []
  reads : List Nat := []
  ranges : List (Nat × Nat × Nat) := []
  writes : List Nat := []
  after : List Nat := []
  commits : List Nat := []
  heap : List (Nat × Nat) := []
  granules : List (Nat × Nat × Nat × Nat) := []
  binds : List BindRec := []
  merge : List (Nat × Nat × Nat) := []
  images : List Nat := []
  flg : Nat := 0
  open_ : List (Nat × Nat) := []
  stolen : List (Nat × Nat × Word) := []
  tlen : Option (Nat × Nat) := none
  coll : Option CollJob := none
  deriving DecidableEq, Repr

/-- What the directives of a routine declare for its launches (09 R220; 15 R312): the `.sob` images, address and EXP, and the `.region` bindings in order,
base, length, scope and object. -/
structure Declared where
  sobs : List (Nat × Nat) := []
  regions : List (Nat × Nat × Scope × Nat) := []
  deriving DecidableEq, Repr

/-- The walk of a queue's graph (12 R271-R276, R286, R288): the ring entry, the code place, the call stack, shape registers and RNG state. -/
structure Walk where
  slot : Nat
  pkg : Nat
  args : Nat
  tag : Nat
  coff : Nat
  clen : Nat
  xoff : Nat
  nx : Nat
  nh : Nat
  pos : Nat
  stack : List Nat := []
  dreg : SMap Word := []
  rngKey : Word := 0
  rngCtr : Word := 0
  flg : Nat := 0
  launches : List Nat := []
  ended : Bool := false
  deriving DecidableEq, Repr

/-- A Parser (13 R292): store, operator table, heap ranges in use (R296), the expansion in progress, and those, one for each queue at most, that wait for the operator fused to them (R300). -/
structure Parser where
  store : SMap Word := []
  ops : List OpImage := []
  builtin : List OpImage := []
  heap : List (Nat × Nat) := []
  exp : Option Expansion := none
  parked : List Expansion := []
  /-- the expander does not complete the Parser's next access to tier 2 (16 R343) -/
  cxlBad : Bool := false
  deriving DecidableEq, Repr

/-- A line staged for a checkpointed group (14 R305, R309): record, the context that stored last and where it found the line, line, the bytes written, the values, and its entry of the spill area if it lies there. -/
structure Staged where
  x : Nat
  ctx : Nat
  va : Nat := 0
  line : Nat
  mask : Nat
  data : List Byte
  coded : Option Nat := none
  spill : Option Nat := none
  deriving DecidableEq, Repr

/-- The progress of a checkpointed group (14 R304): the image indexes whose checkpoint of the open superstep is written, those with
a committed checkpoint in slot PAR, TRAPINFO2 of the rollback in progress (R308), the objects that the superstep has changed, as its members find them: key, bytes 8-31, regions (09 R236; 15 R313),
and a trigger that came while a commit was under way: cause and TRAPINFO2 (R306). -/
structure Group where
  arrived : List Nat := []
  saved : List Nat := []
  culprit : Nat := 0
  objs : List (Nat × Nat × List (Nat × Nat)) := []
  late : Option (Nat × Nat) := none
  deriving DecidableEq, Repr

/-- A collective entry at this package in the open generation (20 R401-R404). -/
structure CollState where
  partialIn : Bool := false
  contributed : Bool := false
  hopDone : Bool := false
  /-- a Parser's fire has completed (20 R407, R409) -/
  acked : Bool := false
  delivered : Bool := false
  ctx : Nat := 0
  pay : List Byte := []
  deriving DecidableEq, Repr

/-- A flow to a package from a port, or from port 18 the frames that no port carries (19 R383, R384): the next sequence number, the frames not acknowledged with the number that chose
their port (R385), the resends in a row, and the source port of the frames that arrive from that package. -/
structure Flow where
  next : Nat := 0
  unacked : List (BitVec 128 × List Byte × Nat) := []
  resends : Nat := 0
  peer : Nat := 0
  deriving DecidableEq, Repr

/-- What the part sends to the outside (15 R323; 16 R336; 19 R384, R392, R395; 20 R404; 21 R417). -/
inductive OutMsg where
  | frame (port : Nat) (hdr : BitVec 128) (flits : List Byte)
  | msix (v : Nat)
  | mgmt (port : Bool) (data : List Byte)
  | coll (dst : Nat) (a : CollMsg)
  | message (dst ent num : Nat) (rows rowb : Nat) (data : List Byte)
  | reply (dst txn : Nat) (ok : Bool) (data : List Byte)
  | freeBlock (dst gbn : Nat)
  | snoop (addr : Nat)
  deriving DecidableEq, Repr

/-- The boot ROM (21 R411): still to run, done, or halted after two bad images. -/
inductive Boot where
  | rom | running | halted
  deriving DecidableEq, Repr

/-- The architectural machine: one package and what it reaches. -/
structure Machine where
  /-- contexts by number, cores by number (01 R11) -/
  ctxs : SMap Ctx := []
  cores : SMap Core := []
  /-- memory bytes by space × 2^46 + address: space 0 local HBM4E, 1 CXL with the port in bits [43:42], 2 host, 3 + p package p (09 R211, 16 R328); host addresses of 2^46 and more from 2^56 up (16 R333); the
  frames that package p keeps on its expanders and host from 2^58 + 2 × p × 2^46 up (18 R365; log 21) -/
  mem : SMap Byte := []
  /-- read copies of tier 1 lines in this package's LLC, by memory key / 128 (09 R212) -/
  llc : SMap (List Byte) := []
  /-- the walker caches of the dies (16 R330) -/
  walkers : List WalkEntry := []
  /-- HDM decoder ranges: port, base, length, and whether the expander behind it is shared, HDM-DB (16 R342) (log 88, DESIGN CHOICE) -/
  hdm : List (Nat × Nat × Nat × Bool) := [(0, 0, 2 ^ 42, true), (1, 0, 2 ^ 42, true), (2, 0, 2 ^ 42, true), (3, 0, 2 ^ 42, true)]
  /-- capability tags set, by tier 0 address / 16 (16 R338) -/
  tags : SMap Bool := []
  /-- the system block's kept copy, a word per 8 bytes, and LOCK (21 R410, R414) -/
  sys : SMap Word := []
  locked : Bool := false
  /-- the limits in force, the 256 bytes of R415 as a number (21 R415) -/
  limits : Nat := 3600 * 2 ^ 784 + 4400 * 2 ^ 768
  /-- stores performed on words that the part acts on, in order, their event still to come: address and value (10 R421, 11 R258, 21 R413, R417, R418) -/
  watch : List (Nat × Word) := []
  /-- codec partial counters by 64 × slice + entry (17 R360) -/
  codec : SMap CodecPart := []
  /-- Parsers by die, walks by queue, launches by number, handles by number for shared ones of die d at 4096 × d and by 2^16 × (queue + 1) + number for local ones (12 R273, R290; 13 R292) -/
  parsers : SMap Parser := []
  walks : SMap (Option Walk) := []
  launches : SMap (Option Launch) := []
  nextLaunch : Nat := 1
  handles : SMap Handle := []
  /-- promotions and demotions of KV blocks in progress, and other packages' requests on blocks that wait (18 R365-R367) -/
  moves : List KvMove := []
  kvReqs : List RemoteReq := []
  /-- images that pre-emption and checkpoints wrote, by number, `savedKey` of a launch's image and `slotKey` of a group's slot: what their layout leaves to the part (10 R255) -/
  images : SMap Ctx := []
  /-- groups by record, and their staged lines (14 R304, R305) -/
  groups : SMap Group := []
  staged : List Staged := []
  /-- the atomic units' copies of bytes 8-31 of bound objects by key, and the binding table: object, base, length, with length 0 for the object's own place (15 R311, R315; log 14, DEDUCED) -/
  objs : SMap (BitVec 192) := []
  regions : List (Nat × Nat × Nat) := []
  /-- the declarations of routines by their entry addresses, loaded with the routines (09 R220; 15 R312; log 79, DESIGN CHOICE) -/
  decls : SMap Declared := []
  /-- flows by 512 × port + package, expected sequence numbers by 32 × package + flow, transactions performed by source package, the number of the next own one, failed bring-ups by port (19 R383-R385) -/
  nextTxn : Nat := 0
  flows : SMap Flow := []
  expect : SMap Nat := []
  txns : SMap (List Nat) := []
  attempts : SMap Nat := []
  /-- collective entries by 4096 × instance + entry, and claims of instances (20 R396, R401) -/
  colls : SMap CollState := []
  claims : List Nat := []
  /-- BAR 0 of the host port (19 R395) -/
  bar0 : SMap Byte := []
  /-- what has been sent to the outside, oldest first -/
  out : List OutMsg := []
  /-- positions of the management rings TX0, RX0, TX1, RX1 (21 R417) -/
  rings : SMap Nat := []
  /-- measurement registers, quotes signed, the public identity key (21 R413, R420) -/
  mr : SMap (BitVec 256) := []
  qcnt : Nat := 0
  idKey : BitVec 512 := 0
  /-- watchdog started, watchdog expired (21 R418), package clock in MHz (R419), boot flash of IO0 and IO1 and the boot ROM (R411) -/
  dog : Bool := false
  expired : Bool := false
  mhz : Nat := 3600
  flash : List (List Byte) := []
  boot : Boot := .rom
  /-- the bundle being issued, and the counter that names free values (log 5, DESIGN CHOICE) -/
  bun : Bun := {}
  fresh : Nat := 0
  /-- the `alloc`s that have been held so far (16 R339) -/
  arrivals : Nat := 0
  deriving DecidableEq, Repr

/-- Whose turn the next step runs (log 4, DESIGN CHOICE): a bundle of a context, a bytecode instruction of a queue, a microcode word of a die, or none. -/
inductive Turn where
  | none
  | bundle (c : Nat)
  | graph (q : Nat)
  | micro (d : Nat)
  deriving DecidableEq, Repr

/-- The state: the machine, the machine at the start of the bundle in progress, whose turn it is, the events to come in
their order, and the place that the rotation of idle steps reached (log 4, DESIGN CHOICE). -/
structure State where
  m : Machine := {}
  snap : Option Machine := none
  turn : Turn := .none
  agenda : List Instr := []
  rot : Nat := 0
  deriving DecidableEq, Repr

/-- The machine right after reset: every field at its reset value, the boot ROM still to run (21 R411); values that the spec does not state are those of log 2. -/
def State.reset : State := {}

end Sys2Proof.Machine
end

