-- ==== Sys2Proof/Machine/Flags.lean ====
section
/-! DEFINITION. Flags.lean: control registers as stored, FPC and FMT in force, and the landing of results with their flags (02_number_formats.md R32-R34, R39; 03 R67, R76; 10 R243, R433). -/

namespace Sys2Proof.Machine

/-- The reset value of a control register (R76, R78; R39). -/
def csrReset (n : Nat) : Word := if n = 0x02 then 0x0C else if n = 0x03 then 0xF else 0

/-- A control register as stored. -/
def Ctx.cr (x : Ctx) (n : Nat) : Word := SMap.get (csrReset n) x.csr n

def Ctx.setCr (x : Ctx) (n : Nat) (v : Word) : Ctx := { x with csr := SMap.set (csrReset n) x.csr n v }

/-- FPC.FLG with flags ORed in (R34). -/
def Ctx.orFlg (x : Ctx) (fl : Nat) : Ctx := x.setCr 0x01 (x.cr 0x01 ||| .ofNat 64 (fl * 2 ^ 16))

/-- The rounding environment in force (R32, R33). -/
def Ctx.env (x : Ctx) : FEnv :=
  let f := x.fpc.toNat
  { rm := .fromCode (bits f 0 3), ftz := bit f 3, daz := bit f 4, satf := bit f 5 }

/-- The trap enables in force (R32). -/
def Ctx.en (x : Ctx) : Nat := bits x.fpc.toNat 8 5

/-- The narrow format in force (R39). -/
def Ctx.nf (x : Ctx) : NFmt := .ofFmt x.fmt.toNat

/-- A rounding override of R31 over the environment. -/
def FEnv.override (e : FEnv) (f : Nat) : FEnv := if f = 7 then e else { e with rm := .fromCode f }

/-- The bundles still to go before the last of several pending writes takes effect. -/
def lastCount (w : List (Nat × Word)) : Nat := match w.getLast? with
  | some p => p.1
  | none => 0

/-- One bundle of the level less to go: the value in force and the writes still pending (R33). -/
def tickWrites (cur : Word) (w : List (Nat × Word)) : Word × List (Nat × Word) :=
  let w := w.map fun p => (p.1 - 1, p.2)
  ((w.filter (fun p => p.1 == 0)).foldl (fun _ p => p.2) cur, w.filter (fun p => p.1 != 0))

/-- One value written to a file; s0 and m0 discard writes (R65). -/
def Ctx.put (x : Ctx) (f : File) (k v : Nat) : Ctx :=
  match f with
  | .s => if k = 0 then x else { x with s := SMap.set 0 x.s k (.ofNat 64 v) }
  | .v => if 63 * 128 ≤ k then x else { x with v := SMap.set 0 x.v k (.ofNat 64 v) }
  | .m => if k < 128 then x else { x with mask := SMap.set false x.mask k (v == 1) }
  | .q => { x with q := SMap.set emptyLane x.q k (.ofNat 192 v) }

/-- A result lands: its flags are ORed into FLG, and its destination is written unless one of its flags is enabled (R34). -/
def Ctx.land (x : Ctx) (p : Pend) : Ctx :=
  let y := x.orFlg p.fl
  if p.fl &&& p.en ≠ 0 then y else p.writes.foldl (fun z w => z.put p.file w.1 w.2) y

/-- The FP_ENABLED_EXCEPTION of the results that land in one bundle (R34). -/
def enabledCause (ps : List Pend) : List Cause :=
  match ps.filter (fun p => p.fl &&& p.en ≠ 0) with
  | [] => []
  | p :: _ => [{ code := 0x1D, kind := 1, i0 := some (ps.foldl (fun f r => f ||| r.fl) 0), i1 := p.pc.toNat }]

/-- The results due at the end of a bundle land, in order of issue (R67, R243). -/
def Ctx.landDue (x : Ctx) : Ctx :=
  let due := x.pend.filter (fun p => p.off == 0)
  let y := due.foldl Ctx.land { x with pend := x.pend.filter (fun p => p.off != 0) }
  { y with after := y.after ++ (enabledCause due).map fun k => { k with lv := x.depth } }

/-- One bundle of the level less to go: for every pending result, and in task code for writes of FPC and FMT (R33, R243; 10 R250). -/
def Ctx.tickBundle (x : Ctx) : Ctx :=
  let y := { x with pend := x.pend.map fun p => { p with off := p.off - 1 } }
  if x.depth ≠ 0 then y
  else
    let f := tickWrites y.fpc y.fpcW
    let g := tickWrites y.fmt y.fmtW
    { y with fpc := f.1, fpcW := f.2, fmt := g.1, fmtW := g.2 }

/-- The end of a bundle of the context's level. -/
def Ctx.endBundle (x : Ctx) : Ctx := x.tickBundle.landDue

/-- A result of latency `lat` issued by the bundle in progress (R67, R121). -/
def Ctx.issue (x : Ctx) (p : Pend) : Ctx := { x with pend := x.pend ++ [p] }

/-- Results in flight that count as exposed (R244): every pending one but those that land in the bundle that issued them. -/
def Ctx.exposed (x : Ctx) (fresh : Nat) : Nat := (x.pend.filter (fun p => 1 < p.off)).length + fresh

/-- The conditions of R91. -/
def condHolds (c : Cond) (a b : Word) : Bool :=
  match c with
  | .eq => a == b
  | .ne => a != b
  | .lt => a.slt b
  | .ge => !a.slt b
  | .ltu => a.ult b
  | .geu => !a.ult b
  | .any => a &&& b != 0
  | .none => a &&& b == 0

end Sys2Proof.Machine
end

