-- ==== Sys2Proof/Machine/Ops.lean ====
section
/-! DEFINITION. Ops.lean: the named operations over registers, memory, translation and traps that the instructions share (03 R63-R79; 09 R211-R235; 10 R240-R256; 16 R324-R341; 17 R355-R359). -/

namespace Sys2Proof.Machine

/-! ### Contexts and cores -/

def Machine.ctx (m : Machine) (c : Nat) : Ctx := SMap.get {} m.ctxs c
def Machine.setCtx (m : Machine) (c : Nat) (x : Ctx) : Machine := { m with ctxs := SMap.set {} m.ctxs c x }
def Machine.onCtx (m : Machine) (c : Nat) (f : Ctx → Ctx) : Machine := m.setCtx c (f (m.ctx c))
def Machine.core (m : Machine) (n : Nat) : Core := SMap.get {} m.cores n
def Machine.setCore (m : Machine) (n : Nat) (k : Core) : Machine := { m with cores := SMap.set {} m.cores n k }
def Machine.onCore (m : Machine) (n : Nat) (f : Core → Core) : Machine := m.setCore n (f (m.core n))

/-- The core and the die of a context (01 R11). -/
def coreOf (c : Nat) : Nat := c / 4
def dieOf (c : Nat) : Nat := c / 48

/-- s0 reads zero (03 R65). -/
def Ctx.sreg (x : Ctx) (r : Reg) : Word := if r = 0 then 0 else SMap.get 0 x.s r.toNat
def Ctx.vreg (x : Ctx) (r g : Nat) : Word := SMap.get 0 x.v (128 * r + g)
/-- m0 reads as all ones (03 R65). -/
def Ctx.mbit (x : Ctx) (r g : Nat) : Bool := if r = 0 then true else SMap.get false x.mask (128 * r + g)
def Ctx.qlane (x : Ctx) (r g : Nat) : Triple := .ofNat (SMap.get emptyLane x.q (128 * r + g)).toNat
def Ctx.accv (x : Ctx) (a i j : Nat) : Word := SMap.get 0 x.acc (1024 * a + 32 * i + j)
/-- The empty and the end code of a coordinate register (04 R95). -/
def tcEmpty : Word := 0xC000000000000000
def tcEnd : Word := 0x8000000000000000
def Ctx.tcreg (x : Ctx) (n : Nat) : Word := SMap.get tcEmpty x.tc n
def Ctx.setTc (x : Ctx) (n : Nat) (v : Word) : Ctx := { x with tc := SMap.set tcEmpty x.tc n v }
def Ctx.konstAt (x : Ctx) (i : Nat) : Word := SMap.get 0 x.konst (i % 1024)

/-- DMR.IN: the context is a member of a group at level i; bit 0 reads as 1 (03 R78). -/
def Ctx.inLevel (x : Ctx) (i : Nat) : Bool := i == 0 || bit (x.cr 0x03).toNat i

/-! ### Bytes of memory -/

/-- The value that a byte never written reads as (log 1, DESIGN CHOICE). -/
def freshByte : Byte := 0

def Machine.byte (m : Machine) (k : Nat) : Byte := SMap.get freshByte m.mem k
def Machine.setByte (m : Machine) (k : Nat) (b : Byte) : Machine := { m with mem := SMap.set freshByte m.mem k b }

/-- `n` bytes from key `k`. -/
def Machine.bytes (m : Machine) (k n : Nat) : List Byte := (List.range n).map fun i => m.byte (k + i)

/-- Bytes written from key `k` up; a write of memory clears the tags of the granules it touches (16 R338). -/
def Machine.setBytes (m : Machine) (k : Nat) (bs : List Byte) : Machine :=
  let w := { m with mem := SMap.setRun freshByte m.mem k bs }
  if m.tags = [] then w
  else (List.range (bs.length / 16 + 2)).foldl (fun (a : Machine) i =>
    if (k / 16 + i) * 16 < k + bs.length then { a with tags := SMap.set false a.tags (k / 16 + i) false } else a) w

def Machine.nat (m : Machine) (k n : Nat) : Nat := leNat (m.bytes k n)
def Machine.setNat (m : Machine) (k n x : Nat) : Machine := m.setBytes k (leBytes n x)
def Machine.word (m : Machine) (k : Nat) : Nat := m.nat k 8
def Machine.setWord (m : Machine) (k x : Nat) : Machine := m.setNat k 8 x

/-- Memory in its canonical form. -/
def Memory.wf (mem : List Host.Cell) : Bool := SMap.wf freshByte mem

/-- A word of the system block as the part keeps it (21 R410). -/
def Machine.sysWord (m : Machine) (off : Nat) : Nat := (SMap.get 0 m.sys (off / 8)).toNat

def qtb (m : Machine) : Nat := m.sysWord 0x20
def pcb (m : Machine) (d : Nat) : Nat := m.sysWord 0x28 + 4096 * d
def grb (m : Machine) : Nat := m.sysWord 0x30
def crtb (m : Machine) : Nat := m.sysWord 0x38
def cdir (m : Machine) : Nat := m.sysWord 0x40
def lcb (m : Machine) : Nat := m.sysWord 0x48
def tcb (m : Machine) : Nat := m.sysWord 0x50
def cab (m : Machine) : Nat := m.sysWord 0x58
def rvb (m : Machine) : Nat := m.sysWord 0x60
def kvsb (m : Machine) : Nat := m.sysWord 0x68
def kvrb (m : Machine) : Nat := m.sysWord 0x70
def heapBase (m : Machine) : Nat := m.sysWord 0x78
def heapLen (m : Machine) : Nat := m.sysWord 0x80
def ucodeBase (m : Machine) : Nat := m.sysWord 0x88
def irqCtx (m : Machine) : Nat := m.sysWord 0x10 % 512
/-- Core n runs Rianami (21 R410). -/
def isRcore (m : Machine) (n : Nat) : Bool := if n < 64 then bit (m.sysWord 0) n else bit (m.sysWord 8) (n - 64)
/-- This package's number (19 R380). -/
def selfPkg (m : Machine) : Nat := m.word (lcb m) % 512
/-- Package p belongs to the domain (19 R379). -/
def inDomain (m : Machine) (p : Nat) : Bool := p < 432 && bit (m.byte (lcb m + 0x40 + p / 8)).toNat (p % 8)

/-! ### Traps -/

/-- Why a syllable does not take effect: a cause, or a hold (04 R85, R86; 05 R122, R123). -/
inductive Stop where
  | trap (k : Cause)
  | hold (h : Hold)
  deriving DecidableEq, Repr

abbrev Res (α : Type) := Except Stop α

def raise {α : Type} (code i0 : Nat) (i1 i2 : Option Nat := none) : Res α := .error (.trap { code, i0, i1, i2 })

/-- Raises a cause when a check fails. -/
def check (ok : Bool) (code i0 : Nat) (i1 i2 : Option Nat := none) : Res Unit :=
  if ok then .ok () else raise code i0 i1 i2

/-- A value that the spec leaves open (log 5, DESIGN CHOICE). -/
def Machine.free (m : Machine) : Machine × Word := ({ m with fresh := m.fresh + 1 }, Config.freeValue m.fresh)

/-! ### Translation -/

/-- Kinds of access (16 R329); `rmwLoad` is that of `acq` and `waitf`, which need both rights and raise the causes of a load (15 R316). -/
inductive Acc where
  | fetch | load | store | rmw | rmwLoad
  deriving DecidableEq, Repr

/-- The translation and permission causes of an access (04 R105; 16 R327, R333). -/
def Acc.transCause : Acc → Nat
  | .fetch => 0x05 | .load | .rmwLoad => 0x0B | .store | .rmw => 0x0C

def Acc.permCause : Acc → Nat
  | .fetch => 0x06 | .load | .rmwLoad => 0x0D | .store | .rmw => 0x0E

/-- Fields of a leaf (R326). -/
def leafPA (e : Nat) : Nat := bits e 12 34 * 4096
def leafTier (e : Nat) : Nat := bits e 46 2
def leafPkg (e : Nat) : Nat := bits e 48 9
def leafCD (e : Nat) : Bool := bit e 57
def leafCRI (e : Nat) : Nat := bits e 58 6
def leafPIN (e : Nat) : Bool := bit e 9
def leafCAP (e : Nat) : Bool := bit e 8
def leafEX (e : Nat) : Bool := bit e 7
def leafWR (e : Nat) : Bool := bit e 6
def leafRD (e : Nat) : Bool := bit e 5

/-- The size of local HBM4E (00 R3, 01 R12). -/
def hbmSize : Nat := 2 ^ 40

/-- Everything R327 asks of a leaf at a level whose pages hold 2^shift bytes (log 30, DESIGN CHOICE). -/
def leafOk (m : Machine) (lvl shift e : Nat) : Bool :=
  let t := leafTier e
  (bits e 10 2 == 0 && bits e 3 2 == 0 && !bit e 2) && (lvl ≤ 3) &&
    (t == 1 || leafPkg e == 0) && (leafPA e % 2 ^ shift == 0) && (!leafWR e || leafRD e) &&
    !(leafCAP e && (t != 0 || leafCD e || leafEX e)) && !(leafCD e && t == 3) && !(leafPIN e && (t != 0 || leafCD e)) &&
    !(t == 1 && (leafPkg e == selfPkg m || !inDomain m (leafPkg e))) && !(t == 2 && bits (leafPA e) 44 2 != 0) &&
    (t != 0 || leafPA e < hbmSize)

/-- A table entry below the root level (R327). -/
def tableOk (e : Nat) : Bool := bits e 46 18 == 0 && bits e 5 7 == 0 && bits e 3 2 == 0 && !bit e 12

/-- The memory key of a host-physical address, of up to 56 bits (R333): space 2 for those below 2^46, and above 2^56 the others; and the tests of a key. -/
def hostKey (pa : Nat) : Nat := if pa < 2 ^ 46 then 2 * 2 ^ 46 + pa else 2 ^ 56 + pa % 2 ^ 56
def isHost (key : Nat) : Bool := key / 2 ^ 46 == 2 || 2 ^ 56 ≤ key
def hostAddr (key : Nat) : Nat := if 2 ^ 56 ≤ key then key - 2 ^ 56 else key % 2 ^ 46
/-- A key names memory of another package. -/
def isFar (key : Nat) : Bool := 3 * 2 ^ 46 ≤ key && key < 2 ^ 56
/-- The space of the package that owns a key's memory, 0 for this one's (09 R211). -/
def ownerOf (key : Nat) : Nat := if isFar key then key / 2 ^ 46 else 0

/-- A Sv57 walk in the host's tables from level `n` − 1 (R333, R334): the host page's leaf in the part's form, without WR while D is 0 (log 31, PRESUMED). -/
def hostWalk (m : Machine) (va : Nat) (st : Bool) : Nat → Nat → Option TlbEntry
  | 0, _ => none
  | n + 1, base =>
    let e := m.word (hostKey (base + 8 * bits va (12 + 9 * n) 9))
    let r := bit e 1
    let w := bit e 2
    let x := bit e 3
    if !bit e 0 || (w && !r) || bits e 54 10 ≠ 0 then none
    else if r || x then
      let ppn := bits e 10 44
      if !bit e 4 || !bit e 6 || (st && !bit e 7) || ppn % 2 ^ (9 * n) ≠ 0 then none
      else some { vpn := va / 2 ^ (12 + 9 * n), shift := 12 + 9 * n, page := ppn * 4096,
                  leaf := 1 + 2 + 3 * 2 ^ 46 + (if r then 2 ^ 5 else 0) + (if w && bit e 7 then 2 ^ 6 else 0) + (if x then 2 ^ 7 else 0) }
    else hostWalk m va st n (bits e 10 44 * 4096)

/-- The damper's windows (21 R415, R416), shut after the watchdog (R418): whether an access to a key may pass. -/
def damperAllows (m : Machine) (key : Nat) : Bool :=
  let a := key % 2 ^ 46
  if m.expired && (key / 2 ^ 46 == 1 || isHost key) then false
  else if key / 2 ^ 46 = 1 then bits a 0 42 / 2 ^ 30 < bits m.limits (832 + 16 * bits a 42 2) 16
  else if isHost key then bits m.limits 896 64 ≤ hostAddr key && hostAddr key < bits m.limits 960 64
  else if isFar key then bit m.limits (1536 + (key / 2 ^ 46 - 3))
  else true

/-- A host-table walk reads outside the damper's window (21 R416). -/
def hostBlocked (m : Machine) (va : Nat) : Nat → Nat → Bool
  | 0, _ => false
  | n + 1, base =>
    let key := hostKey (base + 8 * bits va (12 + 9 * n) 9)
    let e := m.word key
    !damperAllows m key || (bit e 0 && !bit e 1 && !bit e 3 && !bit e 2 && bits e 54 10 == 0 && hostBlocked m va n (bits e 10 44 * 4096))

/-- A page holds an address; it meets a range of addresses; and the physical address of an address in it. -/
def TlbEntry.holds (t : TlbEntry) (va : Nat) : Bool := t.vpn == va / 2 ^ t.shift
def TlbEntry.meets (t : TlbEntry) (lo len : Nat) : Bool := 0 < len && lo < (t.vpn + 1) * 2 ^ t.shift && t.vpn * 2 ^ t.shift < lo + len
def TlbEntry.pa (t : TlbEntry) (va : Nat) : Nat := t.page + va % 2 ^ t.shift

/-- A page with an address in it, cut to the range of 2^shift bytes that a host link covers (R333). -/
def TlbEntry.within (t : TlbEntry) (va shift : Nat) : TlbEntry :=
  if t.shift ≤ shift then t else { t with vpn := va / 2 ^ shift, shift, page := t.page + va % 2 ^ t.shift / 2 ^ shift * 2 ^ shift }

/-- What the walkers of a die keep of a walk from a root array at a level (R330). -/
def Machine.walker (m : Machine) (d root lvl va : Nat) : Option WalkEntry :=
  m.walkers.find? fun w => w.die == d && w.root == root && w.lvl == lvl && w.t.holds va

/-- The levels of the part's own table: number, shift and index width (R325). -/
def walkLevels : List (Nat × Nat × Nat) := [(6, 62, 2), (5, 52, 10), (4, 42, 10), (3, 32, 10), (2, 22, 10), (1, 12, 10)]

/-- A walk from a node of the table at a root array, by the walkers of a die (R325-R327, R330, R333): the page's translation with the entries above its leaf, which the walkers keep, or none when it fails; the number
is 1 once a host link was reached, 2 when the damper stopped the host's walk. -/
def walk (m : Machine) (d root va : Nat) (st : Bool) : List (Nat × Nat × Nat) → Nat → Nat × Option (TlbEntry × List WalkEntry)
  | [], _ => (0, none)
  | (lvl, shift, w) :: ls, node =>
    if hbmSize ≤ node then (0, none)
    else
      let e := match m.walker d root lvl va with
        | some k => k.t.leaf
        | none => m.word (node + 8 * bits va shift w)
      let kept (host : Option Nat) : WalkEntry := { die := d, root, lvl, t := { vpn := va / 2 ^ shift, shift, page := node, leaf := e, host } }
      if !bit e 0 then (0, none)
      else if bit e 2 then
        if bit e 1 || bit e 3 || lvl = 6 || lvl ≤ 3 || !(bits va 56 8 == 0 || bits va 56 8 == 255) then (0, none)
        else if hostBlocked m va 5 (bits e 4 44 * 4096) then (2, none)
        else (1, (hostWalk m va st 5 (bits e 4 44 * 4096)).map fun t => ({ t.within va shift with host := some (bits e 48 16) }, [kept (some (bits e 48 16))]))
      else if bit e 1 then
        if lvl = 6 || !leafOk m lvl shift e then (0, none)
        else (0, some ({ vpn := va / 2 ^ shift, shift, page := leafPA e, leaf := e }, []))
      else if !tableOk e then (0, none)
      else
        let r := walk m d root va st ls (bits e 12 34 * 4096)
        (r.1, r.2.map fun t => (t.1, kept none :: t.2))

/-- Before the lock no table is known to the part: every address names the same address of local memory, with every right, pinned (log 12, DESIGN CHOICE). -/
def bootLeaf (va : Nat) : Nat × Option (TlbEntry × List WalkEntry) :=
  (0, if va < hbmSize then some ({ vpn := va / 4096, page := va / 4096 * 4096, leaf := 0x2E3 }, []) else none)

/-- The selector of a core's address space, and the root array that it selects (R324). -/
def selector (m : Machine) (n : Nat) : Nat := (m.byte (tcb m + 0x200 + n)).toNat % 16
def rootOf (m : Machine) (n : Nat) : Nat := tcb m + 32 * selector m n

/-- Address 0 of a core's space among the addresses of all spaces: 2^64 × its selector (R324); before the lock there is one space. -/
def spaceBase (m : Machine) (n : Nat) : Nat := if m.locked then selector m n * 2 ^ 64 else 0

/-- The rights of an access (R329). -/
def Acc.granted (a : Acc) (e : Nat) : Bool :=
  match a with
  | .fetch => leafEX e && !leafCD e
  | .load => leafRD e
  | .store => leafWR e
  | .rmw | .rmwLoad => leafRD e && leafWR e

/-- The cause of a refused host-shared access (R333). -/
def hostCause (a : Acc) (perm : Bool) : Nat := if a = .fetch then (if perm then 0x06 else 0x05) else 0x30

/-- The walk of an address for a core (R324, R325). -/
def Machine.walkFor (m : Machine) (n va : Nat) (st : Bool) : Nat × Option (TlbEntry × List WalkEntry) :=
  if m.locked then walk m (n / 12) (rootOf m n) va st walkLevels (rootOf m n) else bootLeaf va

/-- A TLB of `cap` entries takes a translation for the page that holds `va`: with it full the oldest entry that is not pinned makes room (R330, R337) (log 9, DESIGN CHOICE). -/
def tlbFill (cap va : Nat) (t : TlbEntry) (ts : List TlbEntry) : List TlbEntry :=
  let ts := ts.filter fun x => !x.holds va
  if ts.length < cap then ts ++ [t]
  else match ts.find? fun x => !leafPIN x.leaf with
    | some x => ts.erase x ++ [t]
    | none => ts

/-- What a core's TLBs hold for an address, the L1 TLB's first; a translation that both take; and the entries that meet a condition removed. -/
def Core.cached (k : Core) (va : Nat) : Option TlbEntry := (k.utlb.find? (·.holds va)).or (k.tlb.find? (·.holds va))
def Core.keep (k : Core) (va : Nat) (t : TlbEntry) : Core := { k with utlb := tlbFill 256 va t k.utlb, tlb := tlbFill 4096 va t k.tlb }
def Core.dropPages (k : Core) (hit : TlbEntry → Bool) : Core := { k with utlb := k.utlb.filter fun t => !hit t, tlb := k.tlb.filter fun t => !hit t }

/-- The entries of the walker caches of some dies that meet a condition are removed (R116, R336). -/
def Machine.dropWalkers (m : Machine) (die : Nat → Bool) (hit : TlbEntry → Bool) : Machine :=
  { m with walkers := m.walkers.filter fun w => !(die w.die && hit w.t) }

/-- A walk's entries enter the walker cache, each in place of the one for its range. -/
def Machine.keepWalk (m : Machine) (ws : List WalkEntry) : Machine :=
  { m with walkers := ws.foldl (fun a w => if a.contains w then a else a ++ [w]) m.walkers }

/-- The translation of one address for a core (R330, R331): from its TLBs, or by a walk whose result they keep. A cached
entry that does not give the right, or that `ok` refuses, is walked again (log 9, DESIGN CHOICE). -/
def Machine.lookup (m : Machine) (n va : Nat) (a : Acc) (ok : Nat → Bool := fun _ => true) : Res (Machine × TlbEntry) :=
  let k := m.core n
  let st := a = .store ∨ a = .rmw ∨ a = .rmwLoad
  let fresh : Res (Machine × TlbEntry) :=
    match m.walkFor n va st with
    | (h, none) => raise (if h = 2 then 0x3B else if h = 1 then hostCause a false else a.transCause) va
    | (h, some (e, ws)) =>
      if a.granted e.leaf && ok e.leaf then .ok ((m.setCore n (k.keep va e)).keepWalk ws, e) else raise (if h = 1 then hostCause a true else a.permCause) va
  match k.cached va with
  | some e => if a.granted e.leaf && ok e.leaf then .ok (if k.utlb.any (·.holds va) then m else m.setCore n (k.keep va e), e) else fresh
  | none => fresh

/-- The physical address of a byte in a pinned service page (R253, 16 R337); `none` outside them. -/
def Machine.pinned (m : Machine) (n va : Nat) : Option Nat :=
  match m.lookup n va .rmw with
  | .ok (_, e) => if leafPIN e.leaf ∧ leafTier e.leaf = 0 ∧ !leafCAP e.leaf then some (e.pa va) else none
  | .error _ => none

/-- A refused access leaves no translation of its address in its core's TLBs (R331). -/
def Machine.discard (m : Machine) (n : Nat) (k : Cause) : Machine :=
  match k.i0 with
  | some va => if [0x05, 0x06, 0x0B, 0x0C, 0x0D, 0x0E, 0x30].contains k.code && ((m.core n).cached va).isSome then m.onCore n fun q => q.dropPages (·.holds va) else m
  | none => m

/-- The translation of one address of code, whatever rights it gives (03 R64). -/
def Machine.mapped (m : Machine) (n va : Nat) : Res TlbEntry :=
  match (m.core n).cached va with
  | some e => .ok e
  | none => match m.walkFor n va false with
    | (_, some (e, _)) => .ok e
    | (h, none) => raise (if h = 2 then 0x3B else if h = 1 then hostCause .fetch false else Acc.fetch.transCause) va

/-- The pages of 4 KiB that a range meets. -/
def pagesOf (base len : Nat) : List Nat := ((List.range (len / 4096 + 2)).map (base / 4096 + ·)).filter fun p => p * 4096 < base + len

/-- A translated access: memory key, the coded region of its page, and the leaf. -/
structure Phys where
  key : Nat
  cri : Option Nat := none
  leaf : Nat
  deriving DecidableEq, Repr

/-- The memory key that a leaf's tier and physical address name (R328). -/
def physKey (leaf pa : Nat) : Nat :=
  match leafTier leaf with
  | 0 => pa
  | 1 => (3 + leafPkg leaf) * 2 ^ 46 + pa
  | 2 => 2 ^ 46 + pa
  | _ => hostKey pa

/-- The memory under a page, numbered among the pages of all spaces (R324): as the tables of its space stand in memory. -/
def Machine.pageKey (m : Machine) (pg : Nat) : Option Nat :=
  let va := pg % 2 ^ 52 * 4096
  let root := tcb m + 32 * (pg / 2 ^ 52)
  (if m.locked then walk m 8 root va false walkLevels root else bootLeaf va).2.map fun t => physKey t.1.leaf (t.1.pa va)

/-- The memory under a range of the addresses of all spaces, page by page: keys and lengths. -/
def Machine.spanKeys (m : Machine) (base len : Nat) : List (Nat × Nat) :=
  (pagesOf base len).filterMap fun pg => (m.pageKey pg).map fun k =>
    (k + max base (pg * 4096) % 4096, min (base + len) ((pg + 1) * 4096) - max base (pg * 4096))

/-- The Coded Region Table that serves a memory key: this package's, or for tier 1 the owning package's (R328; 17 R354). -/
def crtAt (m : Machine) (key : Nat) : Nat :=
  let far := key / 2 ^ 46 * 2 ^ 46
  if isFar key then far + m.word (far + 0x38) else crtb m

/-- An entry of the Coded Region Table that serves a key, and a field of it (17 R354) (log 69, DEDUCED). -/
def crtEntry (m : Machine) (key cri : Nat) : Nat := m.nat (crtAt m key + 128 * cri) 128
def crtField (m : Machine) (key cri lo w : Nat) : Nat := bits (crtEntry m key cri) lo w

/-- The checks of R355 on the entry that an access to a key names. -/
def codedOk (m : Machine) (key cri pa : Nat) : Bool :=
  let e := crtEntry m key cri
  bit e 63 && bits e 64 256 == 0 && bits e 12 50 == 0 && bits e 0 6 == 0 && bits e 720 48 == 0 && bits e 960 64 == 0 &&
    (codecRate (bits e 8 4)).isSome && bits e 6 2 != 3 && bits e 384 64 ≤ pa && pa < bits e 384 64 + bits e 320 64

/-- The HDM decoder range of a tier 2 address (R328, R342). -/
def Machine.hdmAt (m : Machine) (key : Nat) : Option (Nat × Nat × Nat × Bool) :=
  m.hdm.find? fun r => r.1 == bits key 42 2 && r.2.1 ≤ key % 2 ^ 42 && key % 2 ^ 42 < r.2.1 + r.2.2.1

/-- The translation of an address with every check but the capability page's (R105, R329, R355); an access that no expander completes, outside its port's HDM ranges too, raises CXL_ERROR (R328, R343) (log 88, DESIGN CHOICE). -/
def Machine.translate (m : Machine) (n va : Nat) (a : Acc) (ok : Nat → Bool := fun _ => true) : Res (Machine × Phys) := do
  let (m, e) ← m.lookup n va a ok
  let pa := e.pa va
  check (leafTier e.leaf != 2 || (!(m.core n).cxlBad && (m.hdmAt (2 ^ 46 + pa)).isSome)) 0x31 va
  if leafCD e.leaf then
    check (codedOk m (physKey e.leaf pa) (leafCRI e.leaf) pa) 0x20 va
    .ok (m, { key := physKey e.leaf pa, cri := some (leafCRI e.leaf), leaf := e.leaf })
  else .ok (m, { key := physKey e.leaf pa, leaf := e.leaf })

/-- The ports of a package's route word that carry traffic (19 R380, R382, R385), of a package of the domain map (R381); none before the lock or after the watchdog (21 R412, R418). -/
def linkState (m : Machine) (p : Nat) : Nat := bits (m.word (lcb m + 0x880 + 64 * p)) 20 3
def routes (m : Machine) (pkg : Nat) : List Nat :=
  if !m.locked || m.expired || !inDomain m pkg then [] else
  (List.range 18).filter fun p => bit (m.nat (lcb m + 0x80 + 4 * pkg) 4) p && (linkState m p == 2 || linkState m p == 3)

/-- Bytes lie in an inbound window of the package whose link control block stands at a key (19 R386). -/
def inWindow (m : Machine) (block pa len : Nat) : Bool :=
  (List.range 8).any fun w =>
    let b := m.word (block + 0xD00 + 16 * w)
    let n := m.word (block + 0xD08 + 16 * w)
    b ≤ pa && pa + len ≤ b + n

/-- A tier 1 access waits for a route, and the other package's windows must admit it (19 R386, R387). -/
def Machine.farCheck (m : Machine) (va len : Nat) (a : Acc) (key : Nat) : Res Unit :=
  if !isFar key then .ok ()
  else
    let pkg := key / 2 ^ 46 - 3
    if routes m pkg = [] then .error (.hold (.route pkg))
    else if inWindow m ((3 + pkg) * 2 ^ 46 + m.word ((3 + pkg) * 2 ^ 46 + 0x48)) (key % 2 ^ 46) len then .ok ()
    else .error (.trap { code := a.permCause, i0 := va, i3 := pkg })

/-- An ordinary access of `size` bytes (R105): alignment, translation, permission, and no capability page. -/
def Machine.access (m : Machine) (n va size : Nat) (a : Acc) : Res (Machine × Phys) := do
  check (va % size == 0) 0x0A va
  let (m, p) ← m.translate n va a fun e => !leafCAP e
  check (damperAllows m p.key) 0x3B va
  m.farCheck va size a p.key
  .ok (m, p)

/-! ### Coded blocks -/

/-- The memory key of the coded block of a decoded line, of tier 2 on the same port, and its bits per value (17 R355). -/
def codedSite (m : Machine) (cri key : Nat) : Nat × Nat :=
  let r := (codecRate (crtField m key cri 8 4)).getD 64
  let x := key % 2 ^ 46
  let at_ := crtField m key cri 448 64 + (x - crtField m key cri 384 64) / 128 * (2 * r)
  (if key / 2 ^ 46 = 1 then key / 2 ^ 42 * 2 ^ 42 + at_ % 2 ^ 42 else key / 2 ^ 46 * 2 ^ 46 + at_, r)

/-- The sixteen values of the decoded line at a key; `none` for a reserved block (R350, R352). -/
def codedLine (m : Machine) (cri key : Nat) : Option (List Nat) :=
  let s := codedSite m cri (key / 128 * 128)
  decodeBlock s.2 (m.nat s.1 (2 * s.2))

/-- The home slice of a decoded line (01 R12). -/
def homeSlice (key : Nat) : Nat := 12 * (bits key 12 4 / 2) + bits key 7 33 % 12

/-! ### Frames to other packages -/

/-- One header of a frame (19 R384). -/
def frameHdr (seq ack src dst flow nf type : Nat) : BitVec 128 :=
  .ofNat 128 (pack [(112, seq % 2 ^ 16), (96, ack % 2 ^ 16), (87, src), (78, dst), (73, flow), (68, nf), (65, type)])

def Machine.flow (m : Machine) (port pkg : Nat) : Flow := SMap.get {} m.flows (512 * port + pkg)
def Machine.setFlow (m : Machine) (port pkg : Nat) (f : Flow) : Machine := { m with flows := SMap.set {} m.flows (512 * port + pkg) f }

/-- A data frame takes the next number of its flow, acknowledges the frames of the reverse flow, and is kept until it is acknowledged, with what chose its port (19 R384, R385). -/
def Machine.sendFrame (m : Machine) (port pkg j : Nat) (flits : List Byte) : Machine :=
  let f := m.flow port pkg
  let h := frameHdr f.next (SMap.get 0 m.expect (32 * pkg + f.peer)) (selfPkg m) pkg port (flits.length / 64 - 1) 0
  { m.setFlow port pkg { f with next := (f.next + 1) % 2 ^ 16, unacked := f.unacked ++ [(h, flits, j)] } with out := m.out ++ [.frame port h flits] }

/-- The port of a request or message: the j-th that carries traffic to the package (19 R385). -/
def portFor (m : Machine) (pkg j : Nat) : Option Nat :=
  let ps := routes m pkg
  if ps = [] then none else ps[j % ps.length]?

/-- Bytes as frames of at most 22 flits (19 R384); what else the flits of a message carry the spec does not say (log 22, DESIGN CHOICE). -/
def Machine.sendBytes (m : Machine) (port pkg j : Nat) (bs : List Byte) : Nat → Machine
  | 0 => m
  | fuel + 1 =>
    if bs = [] then m
    else
      let now := bs.take 1408
      Machine.sendBytes (m.sendFrame port pkg j (now ++ List.replicate (roundUp now.length 64 - now.length) 0)) port pkg j (bs.drop 1408) fuel

def Machine.transmit (m : Machine) (pkg j : Nat) (bs : List Byte) : Machine :=
  match portFor m pkg j with
  | some p => m.sendBytes p pkg j bs (bs.length / 1408 + 1)
  | none => m

/-- A tier 1 request of core `n` leaves, through the port that its core and home choose, with the next transaction number (19 R385); the form of its flits is the model's (log 22, DESIGN CHOICE). -/
def Machine.farRequest (m : Machine) (n key len : Nat) (data : List Byte := []) : Machine :=
  if !isFar key then m
  else { m with nextTxn := (m.nextTxn + 1) % 2 ^ 24 }.transmit (key / 2 ^ 46 - 3) (n + homeSlice key) (leBytes 3 m.nextTxn ++ leBytes 8 (key % 2 ^ 46) ++ leBytes 4 len ++ data)

/-- Where the partial counters of an entry for a line's slice stand: those of a line of another package, which are that package's, apart from this one's (17 R356, R360). -/
def codecSlot (key cri : Nat) : Nat := 2 ^ 13 * ownerOf key + 64 * homeSlice key + cri

/-- The outcome of a coded store: the machine with block and counters written and the flags for the storing context, or the cause (R358-R360). -/
def codedStore (m : Machine) (cri key : Nat) (new : List Nat) : Except Nat (Machine × Nat) :=
  let s := codedSite m cri (key / 128 * 128)
  if s.2 = 64 then .ok (m.setNat s.1 128 (encodeBlock 64 new), 0)
  else
    let policy := crtField m key cri 6 2
    if policy = 0 ∧ new.any nonFinite then .error 0x1F
    else
      let subs := (new.filter nonFinite).length
      let y := new.map (substitute policy)
      let code := encodeBlock s.2 y
      let x' := (decodeBlock s.2 code).getD []
      let slot := codecSlot key cri
      let k := (SMap.get {} m.codec slot).count subs y x'
      .ok ({ m.setNat s.1 (2 * s.2) code with codec := SMap.set {} m.codec slot k.1 },
        (if k.2 then fNX else 0) ||| (if subs = 0 then 0 else fNV))

/-- Sixteen values as the 128 bytes of a line, and back. -/
def lineBytes (xs : List Nat) : List Byte := xs.flatMap (leBytes 8)
def lineWords (bs : List Byte) : List Nat := (List.range 16).map fun i => leNat ((bs.drop (8 * i)).take 8)

/-- Bytes at a key as a home read returns them (09 R214); ECC_UNCORRECTED for a reserved coded block. The bytes lie in one line. -/
def Machine.homeRead (m : Machine) (p : Phys) (n : Nat) : Except Nat (List Byte) :=
  match p.cri with
  | none => .ok (m.bytes p.key n)
  | some cri =>
    match codedLine m cri p.key with
    | none => .error 0x33
    | some xs => .ok (((lineBytes xs).drop (p.key % 128)).take n)

/-! ### The store path and L1 copies -/

/-- The words by which Rianami's cores post INTERRUPT (10 R421): offsets 0x100-0x27F of a Parser control block. -/
def postWord (m : Machine) (key : Nat) : Bool :=
  pcb m 0 ≤ key && key < pcb m 8 && (0x100 ≤ (key - pcb m 0) % 4096 && (key - pcb m 0) % 4096 < 0x280)

/-- A word of a group record (14 R303). -/
def groupWord (m : Machine) (key : Nat) : Bool := grb m != 0 && grb m ≤ key && key < grb m + 64 * 896

/-- The table through which Rianami writes the descriptors of the shared handles: it lies behind the Parser control blocks, 16 KiB for each die, entry `n` at 64 `n` (12 R273) (log 43, DESIGN CHOICE). -/
def sharedTable (m : Machine) (die : Nat) : Nat := pcb m 8 + 0x4000 * die
def sharedWord (m : Machine) (key : Nat) : Bool := pcb m 0 != 0 && sharedTable m 0 ≤ key && key < sharedTable m 8

/-- A word of the domain map or of the route table (19 R379, R380). -/
def routeWord (m : Machine) (key : Nat) : Bool := lcb m != 0 && lcb m + 0x40 ≤ key && key < lcb m + 0x740

/-- Words that the part acts on when a store to them is performed (10 R421; 11 R258; 13 R294; 14 R304; 19 R395; 21 R410). -/
def watched (m : Machine) (key : Nat) : Bool :=
  (0xC0 ≤ key && key < 0xE0) || key == 0x100 || key == 0x110 ||
    (m.locked &&
      (postWord m key || (pcb m 0 ≤ key && key < pcb m 8 && ((key - pcb m 0) % 4096 == 0 || (key - pcb m 0) % 4096 == 0x10)) ||
        (qtb m ≤ key && key < qtb m + 8192 && (key - qtb m) % 64 == 48) || key == lcb m + 0x10 || groupWord m key || sharedWord m key || routeWord m key))

/-! ### Groups and sync objects as memory sees them -/

/-- The level at which a DMR value is checkpointed (14 R301). -/
def ckLevel (dmr : Nat) : Option Nat := (List.range 7).find? fun i => bit dmr (40 + i)

/-- The group record of a context at a level (14 R303). -/
def groupRecord (c dmr lvl : Nat) : Nat :=
  match lvl with
  | 1 => coreOf c
  | 2 => 96 + dieOf c
  | 3 => 104
  | 4 => 128 + bits dmr 16 8
  | 5 => 384 + bits dmr 24 8
  | _ => 640 + bits dmr 32 8

/-- STATE of a group's record (14 R303, R304). -/
def groupStage (m : Machine) (x : Nat) : Nat := bits (m.nat (grb m + 64 * x) 64) 0 4

/-- The record of the checkpointed group of a context, and the group's level. -/
def Machine.ckGroup (m : Machine) (c : Nat) : Option (Nat × Nat) :=
  let dmr := ((m.ctx c).cr 0x03).toNat
  (ckLevel dmr).map fun i => (groupRecord c dmr i, i)

/-- Bytes 8-31 of a bound object, as its atomic unit holds them (15 R311). -/
def Machine.object (m : Machine) (key : Nat) : Option Nat :=
  let v := (SMap.get 0 m.objs key).toNat
  if bit v 191 then some v else none

/-- An object that the open superstep of a group has changed: bytes 8-31 and regions, as the group's members find them (09 R236). -/
def Machine.stagedObject (m : Machine) (x key : Nat) : Option (Nat × List (Nat × Nat)) := ((SMap.get {} m.groups x).objs.find? fun o => o.1 == key).map (·.2)

/-- Bytes 8-31 of a bound object as the members of a group find them, and as a context does. -/
def Machine.objectIn (m : Machine) (x key : Nat) : Option Nat :=
  match m.stagedObject x key with
  | some o => if bit o.1 191 then some o.1 else none
  | none => m.object key
def Machine.objectOf (m : Machine) (c key : Nat) : Option Nat :=
  match m.ckGroup c with
  | some (x, _) => m.objectIn x key
  | none => m.object key

/-- The binding table as a context finds it (15 R315; 09 R236). -/
def Machine.bindings (m : Machine) (c : Nat) : List (Nat × Nat × Nat) :=
  match m.ckGroup c with
  | some (x, _) =>
    let os := (SMap.get {} m.groups x).objs
    (m.regions.filter fun r => !os.any fun o => o.1 == r.1) ++ os.flatMap fun o => o.2.2.map fun r => (o.1, r)
  | none => m.regions

/-- The SCOPE code of a bound object (15 R310). -/
def objScope (v : Nat) : Nat := bits v 188 3

/-- The group record that stages a write of a context at a virtual address and memory key (09 R236): while a superstep is open, of memory in a region, or of the
words of an object, whose scope is the group's or wider. -/
def Machine.stageOf (m : Machine) (c va key : Nat) : Option Nat :=
  match m.ckGroup c with
  | none => none
  | some (x, lvl) =>
    let wide (obj : Nat) : Bool := match m.objectOf c obj with
      | some v => lvl ≤ objScope v
      | none => false
    let at_ := spaceBase m (coreOf c) + va
    let held (r : Nat × Nat × Nat) : Bool := (r.2.1 ≤ at_ && at_ < r.2.1 + r.2.2) || (m.spanKeys r.2.1 r.2.2).any fun p => p.1 ≤ key && key < p.1 + p.2
    if 1 ≤ groupStage m x && groupStage m x ≤ 3 && ((m.bindings c).any (fun r => wide r.1 && held r) || wide (key / 32 * 32)) then some x else none

/-- Bytes as a member reads them: staged values over memory's (09 R236; 14 R305). -/
def Machine.stagedOver (m : Machine) (c key : Nat) (bs : List Byte) : List Byte :=
  match m.ckGroup c with
  | none => bs
  | some (x, _) =>
    (bs.zipIdx).map fun p =>
      match m.staged.find? (fun l => l.x == x && l.line == (key + p.2) / 128 && bit l.mask ((key + p.2) % 128)) with
      | some l => l.data.getD ((key + p.2) % 128) 0
      | none => p.1

/-- The grate lines of a slice that are in use, and their limit (14 R305; 01 R12): ways of 512 KiB, lines of 128 bytes. -/
def Machine.grateFull (m : Machine) (line : Nat) : Bool :=
  bits (m.sysWord 0x18) 0 4 * 4096 ≤ (m.staged.filter fun l => l.spill.isNone && homeSlice (l.line * 128) == homeSlice (line * 128)).length

/-- Spill entries in use and allowed (14 R303, R309). -/
def spillUsed (m : Machine) (x : Nat) : Nat := bits (m.nat (grb m + 64 * x) 64) 328 28
def spillLimit (m : Machine) (x : Nat) : Nat := bits (m.nat (grb m + 64 * x) 64) 356 28

/-- A line in which a store can be staged: one already staged, a free grate line, or a spill entry (14 R305, R309). -/
def Machine.canStage (m : Machine) (x line : Nat) : Bool :=
  m.staged.any (fun l => l.x == x && l.line == line) || !m.grateFull line || spillUsed m x < spillLimit m x

/-- An asynchronous cause becomes pending (10 R246), one of each code, as an image records them (R255) (log 24, DEDUCED). -/
def Machine.async (m : Machine) (c : Nat) (k : Cause) : Machine :=
  m.onCtx c fun x => { x with async := x.async.filter (fun j => j.code != k.code) ++ [{ k with kind := 2 }] }

/-- A record that the part keeps for a context does not lie in pinned service pages: the context is killed at its next boundary (10 R253; 16 R337) (log 32, DESIGN CHOICE). -/
def Machine.serviceFault (m : Machine) (c : Nat) : Machine := if c < 384 then m.async c { code := 0x37 } else m

/-- An entry of a group's spill area, 256 bytes: line, mask, address and tag in the order of R309 (14 R303, R309) (log 80, DESIGN CHOICE). The area is addressed in the space of
the core whose store it holds, and lies in pinned pages (16 R337) (log 32, DESIGN CHOICE). -/
def Machine.writeSpill (m : Machine) (l : Staged) : Machine :=
  let r := m.nat (grb m + 64 * l.x) 64
  match l.spill with
  | some i => match m.pinned (coreOf l.ctx) (bits r 384 64 + 256 * i) with
    | some k => m.setBytes k
        (l.data ++ leBytes 16 l.mask ++ leBytes 8 (l.line * 128) ++ leBytes 8 (l.x + 2 ^ 32 * (bits r 224 32 + 1)) ++ List.replicate 96 0)
    | none => m.serviceFault l.ctx
  | none => m

/-- A store staged in its line, in a grate way or, where its slice has none free, in an entry of the spill area (14 R305, R309). -/
def Machine.stage (m : Machine) (x : Nat) (e : StoreEntry) : Machine :=
  let line := e.key / 128
  let o := e.key % 128
  let put (l : Staged) : Staged :=
    { l with ctx := e.ctx, va := e.va - o, mask := (List.range e.bytes.length).foldl (fun k i => k ||| 2 ^ (o + i)) l.mask,
             data := l.data.take o ++ e.bytes ++ l.data.drop (o + e.bytes.length) }
  match m.staged.find? fun (l : Staged) => l.x == x && l.line == line with
  | some l => { m with staged := m.staged.map fun (l : Staged) => if l.x == x && l.line == line then put l else l }.writeSpill (put l)
  | none =>
    let full := m.grateFull line
    let l := put { x, ctx := e.ctx, line, mask := 0, data := List.replicate 128 0, coded := e.coded, spill := if full then some (spillUsed m x) else none }
    let m := { m with staged := m.staged ++ [l] }.writeSpill l
    if full then m.setNat (grb m + 64 * x) 64 (m.nat (grb m + 64 * x) 64 + 2 ^ 328) else m

/-- A line of another package that this one writes leaves its LLC: its own later reads never find the older copy (09 R212, R228). -/
def Machine.dropLlc (m : Machine) (key : Nat) : Machine := if !isFar key then m else { m with llc := SMap.set [] m.llc (key / 128) [] }

/-- A store written at its serialising point (09 R211). The flags of a completed store reach FLG of the storing context (17 R358). One of a whole block does not read
the old block (R234); of one that does, a reserved old block stays, and the storing context is told of it (17 R350) (log 73, DESIGN CHOICE). -/
def Machine.writeHome (m : Machine) (e : StoreEntry) : Machine :=
  let m := (m.dropLlc e.key).farRequest (coreOf e.ctx) e.key e.bytes.length e.bytes
  match e.coded with
  | none =>
    let m := m.setBytes e.key e.bytes
    let hit := ((List.range ((e.key % 8 + e.bytes.length + 7) / 8)).map fun i => e.key / 8 * 8 + 8 * i).filter fun k =>
      watched m k && (!postWord m k || isRcore m (coreOf e.ctx))
    if hit = [] then m else { m with watch := m.watch ++ hit.map fun k => (k, .ofNat 64 (m.word k)) }
  | some cri =>
    match if e.bytes.length = 128 then some [] else codedLine m cri e.key with
    | none => if e.ctx < 384 then m.async e.ctx { code := 0x33, i0 := e.va } else m
    | some old =>
      let bs := lineBytes old
      let o := e.key % 128
      let new := lineWords (bs.take o ++ e.bytes ++ bs.drop (o + e.bytes.length))
      match codedStore m cri e.key new with
      | .error _ => m
      | .ok (m, fl) => if e.ctx < 384 then m.onCtx e.ctx (fun x => x.orFlg fl) else m

/-- A store of the path is seen by a context of its core: always, but a staged one only by the members of its group (R212, R236). -/
def Machine.sees (m : Machine) (c : Nat) (e : StoreEntry) : Bool := e.stage.isNone || e.stage == (m.ckGroup c).map (·.1)

/-- Bytes overlaid by those of a store-path entry that meet them. -/
def overlay (key : Nat) (bs : List Byte) (e : StoreEntry) : List Byte :=
  (List.range bs.length).map fun i =>
    if e.key ≤ key + i ∧ key + i < e.key + e.bytes.length then e.bytes.getD (key + i - e.key) 0 else bs.getD i 0

/-- Bytes as a context reads them: memory's, then the lines staged for its group, then the stores still in the path of its core (R212, R228, R236). -/
def Machine.seen (m : Machine) (c key : Nat) (bs : List Byte) : List Byte :=
  ((m.core (coreOf c)).path.filter (m.sees c)).foldl (overlay key) (m.stagedOver c key bs)

/-- The word that an `acq` or a `waitf` watches, as its context reads it, and whether it meets the condition (15 R322). -/
def Machine.wordNow (m : Machine) (c key : Nat) : Nat := leNat (m.seen c key (m.bytes key 8))
def Machine.wordMeets (m : Machine) (c key mask : Nat) (cond : Cond) (b : Nat) : Bool :=
  condHolds cond (.ofNat 64 (m.wordNow c key) &&& .ofNat 64 mask) (.ofNat 64 b)

/-- The word that an `acq` or a `waitf` watches meets its condition (15 R317, R322). -/
def Machine.holdMeets (m : Machine) (c : Nat) : Hold → Option Nat
  | .version key b => if b ≤ m.wordNow c key then some (m.wordNow c key) else none
  | .word key mask cond b => if m.wordMeets c key mask cond b then some (m.wordNow c key) else none
  | _ => none

/-- Each `acq` and `waitf` that holds a context sees its word: the first value that meets its condition is kept (15 R317, R322). -/
def Machine.noteWaits (m : Machine) : Machine :=
  m.ctxs.foldl (fun m p => match p.2.hold, p.2.seen with
    | some h, none => match m.holdMeets p.1 h with
      | some v => m.onCtx p.1 fun x => { x with seen := some v }
      | none => m
    | _, _ => m) m

/-- The roots that a store of a task reaches through an input handle of its operator, which a graph declares as read only (09 R239); a KV table's range is not known. -/
def Machine.inputRoots (m : Machine) (e : StoreEntry) (l : Launch) : List Nat :=
  ((l.ranges.filter fun r => r.2.1 < e.va + e.bytes.length && e.va < r.2.1 + r.2.2).map (·.1)).filter fun k =>
    !l.writes.contains k && bits (SMap.get {} m.handles k).desc.toNat 16 2 == 0

/-- Such a store makes its launch a writer of the root: operators that follow and are not bound yet wait for it, and drop their copies (09 R237, R239; 12 R290). -/
def Machine.noteInput (m : Machine) (e : StoreEntry) : Machine :=
  match (if 384 ≤ e.ctx then none else (m.ctx e.ctx).launch) with
  | none => m
  | some li =>
    match SMap.get none m.launches li with
    | none => m
    | some l =>
      let roots := m.inputRoots e l
      if roots = [] then m
      else
        let mark (h : Handle) : Handle := if h.writer.any (· != li) then { h with written := true } else { h with written := true, last := some li, writer := some li }
        let hs := roots.foldl (fun a k => SMap.set {} a k (mark (SMap.get {} a k))) m.handles
        let later (p : Nat × Option Launch) : Nat × Option Launch := (p.1, p.2.map fun b =>
          if li < p.1 ∧ b.started = false ∧ b.reads.any roots.contains ∧ !b.after.contains li then { b with after := b.after ++ [li], commits := b.commits ++ [li] } else b)
        { m with handles := hs, launches := m.launches.map later }

/-- A store is performed at its serialising point (09 R211): no value of the word is missed by those who wait on it (15 R322). -/
def Machine.performPlain (m : Machine) (e : StoreEntry) : Machine := ((m.noteInput e).writeHome e).noteWaits

/-- A store staged for its group (09 R236). -/
def Machine.performStaged (m : Machine) (x : Nat) (e : StoreEntry) : Machine := ((m.noteInput e).stage x e).noteWaits

/-- A write that its group stages needs a line for it, or waits (14 R309). -/
def Machine.needLine (m : Machine) (stage : Option Nat) (key : Nat) : Except Stop Unit :=
  match stage with
  | some x => if m.canStage x (key / 128) then .ok () else .error (.hold (.stage x (key / 128)))
  | none => .ok ()

/-- A store performed at its serialising point, or staged for its group (09 R236). -/
def Machine.performStore (m : Machine) (e : StoreEntry) : Machine :=
  match e.stage with
  | some x => m.performStaged x e
  | none => m.performPlain e

/-- Two ranges of keys meet. -/
def overlaps (a n b k : Nat) : Bool := a < b + k && b < a + n

/-- Two keys have one home slice: requests of one core to it arrive in the order in which they were sent (01 R12, R22). Lines of tiers 2 and 3 have a local home slice as those of tier 0 have (09 R211);
which one it is the spec does not say, and the model takes the one of their address (log 89, DESIGN CHOICE). -/
def sameHome (a b : Nat) : Bool := ownerOf a == ownerOf b && homeSlice a == homeSlice b

/-- The lines that a range of keys touches. -/
def linesOf (key len : Nat) : List Nat := (List.range ((key % 128 + len + 127) / 128)).map (key / 128 + ·)

/-- A request of a core to a home: the stores of its path that were sent there before it are performed first, oldest first, but those that no
grate line can hold yet (R212, R215; 01 R22; 14 R309). -/
def Machine.drain (m : Machine) (n key len : Nat) : Machine :=
  let k := m.core n
  let hit (e : StoreEntry) : Bool := (sameHome e.key key || (linesOf key len).any (fun l => sameHome e.key (l * 128))) && match e.stage with
    | some x => m.canStage x (e.key / 128)
    | none => true
  (k.path.filter hit).foldl Machine.performStore (m.setCore n { k with path := k.path.filter (fun e => !hit e) })

/-- The stores of a core's path that can be performed now are performed, in order: those to other packages that have a route, those that their group can stage (R215). -/
def Machine.drainAll (m : Machine) (n : Nat) : Machine :=
  let k := m.core n
  let ready (m : Machine) (e : StoreEntry) : Bool := match e.stage with
    | some x => m.canStage x (e.key / 128)
    | none => !isFar e.key || routes m (e.key / 2 ^ 46 - 3) != []
  let behind (f e : StoreEntry) : Bool := (f.stage.isNone && sameHome f.key e.key) || overlaps f.key f.bytes.length e.key e.bytes.length
  let r := k.path.foldl (fun (a : Machine × List StoreEntry) e => if ready a.1 e && !a.2.any (behind · e) then (a.1.performStore e, a.2) else (a.1, a.2 ++ [e])) (m, [])
  r.1.onCore n fun k => { k with path := r.2 }

/-- A cause of an access gives TRAPINFO0 its virtual address (R105). -/
def atAddress {α : Type} (va : Nat) (v : Res α) : Res α :=
  match v with
  | .error (.trap k) => .error (.trap { k with i0 := va })
  | v => v

/-- Every byte of a range is staged for the group of a context: a read of them asks nothing of the line beneath (14 R305). -/
def Machine.allStaged (m : Machine) (c key len : Nat) : Bool :=
  match m.ckGroup c with
  | none => false
  | some (x, _) => (List.range len).all fun i => m.staged.any fun l => l.x == x && l.line == (key + i) / 128 && bit l.mask ((key + i) % 128)

/-- A home read by a context, after its core's earlier stores to that home (R212, R214). -/
def Machine.readHome (m : Machine) (c : Nat) (p : Phys) (len : Nat) : Res (Machine × List Byte) :=
  let m := (m.drain (coreOf c) (if p.cri.isSome then p.key / 128 * 128 else p.key) (if p.cri.isSome then 128 else len)).farRequest (coreOf c) p.key len
  match m.homeRead p len with
  | .ok bs => .ok (m, m.seen c p.key bs)
  | .error code => if m.allStaged c p.key len then .ok (m, m.seen c p.key (List.replicate len 0)) else .error (.trap { code })

/-- Drops L1 lines of a core that meet a condition. -/
def Core.dropLines (k : Core) (f : Nat → Bool) : Core := { k with l1 := k.l1.filter (fun e => !f e.1), way := k.way.filter (fun e => !f e.1) }

/-- Drops the L1 copies of a core that meet a range of keys (R218). -/
def Core.dropRange (k : Core) (key len : Nat) : Core := k.dropLines fun l => overlaps (l * 128) 128 key len

/-- Lines of the fixed L1 ways, 16 of 128 KiB, and of a bank in L1-way mode, 64 KiB (01 R15). -/
def l1Lines : Nat := 16384
def wayLines : Nat := 512

/-- A line enters a core's L1 (01 R15, R16): the fixed ways, then the banks in L1-way mode; with all full another line makes room (log 10, DESIGN CHOICE). -/
def Core.fillLine (k : Core) (line : Nat) (bs : List Byte) : Core :=
  let put (k : Core) (w : Nat) : Core := { k with l1 := SMap.set [] k.l1 line bs, way := SMap.set 0 k.way line w }
  if k.l1.length - k.way.length < l1Lines then put k 0
  else
    match (List.range 128).find? fun b => SMap.get 0 k.bank b == 1 && (k.way.filter fun p => p.2 == b + 1).length < wayLines with
    | some b => put k (b + 1)
    | none => match k.l1 with
      | p :: _ => put (k.dropLines (· == p.1)) (SMap.get 0 k.way p.1)
      | [] => k

/-- Tier 1 lines that an LLC slice has room for: 8 MiB less its grate ways of 512 KiB (01 R21; 14 R305). -/
def llcLines (m : Machine) : Nat := (16 - bits (m.sysWord 0x18) 0 4) * 4096

/-- A copy of a tier 1 line enters its slice of the LLC, the one of the line's address, which the spec does not name (log 89, DESIGN CHOICE); with the slice full another copy of the slice makes room (log 10, DESIGN CHOICE). -/
def Machine.fillLlc (m : Machine) (line : Nat) (bs : List Byte) : Machine :=
  let mine := m.llc.filter fun p => homeSlice (p.1 * 128) == homeSlice (line * 128)
  let llc := if mine.length < llcLines m then m.llc else match mine with
    | p :: _ => SMap.set [] m.llc p.1 []
    | [] => m.llc
  if llcLines m = 0 then m else { m with llc := SMap.set [] llc line bs }

/-- A line read for a core: at its home, or for tier 1 an LLC copy, or a read that leaves one (R212, R214). -/
def Machine.lineRead (m : Machine) (n : Nat) (p : Phys) : Except Nat (Machine × List Byte) :=
  let line := p.key / 128
  let far := isFar p.key
  match if far then SMap.get [] m.llc line else [] with
  | [] => (m.homeRead { p with key := line * 128 } 128).map fun bs => (if far then (m.farRequest n (line * 128) 128).fillLlc line bs else m, bs)
  | bs => .ok (m, bs)

/-- A read of `len` bytes of one line by a context that is no S-slot or A-slot load: a tile load, an `mlatch`, a fill (R212, R214). -/
def Machine.readLine (m : Machine) (c : Nat) (p : Phys) (len : Nat) : Res (Machine × List Byte) :=
  if !isFar p.key then m.readHome c p len
  else
    let m := m.drain (coreOf c) (p.key / 128 * 128) 128
    match m.lineRead (coreOf c) p with
    | .ok (m, bs) => .ok (m, m.seen c p.key ((bs.drop (p.key % 128)).take len))
    | .error code => .error (.trap { code })

/-- A load of the S or A slot: an L1 copy of the line, or a read that leaves one (R212, R214); then what its context sees over it. -/
def Machine.readCached (m : Machine) (c : Nat) (p : Phys) (len : Nat) : Res (Machine × List Byte) :=
  let n := coreOf c
  let line := p.key / 128
  match SMap.get [] (m.core n).l1 line with
  | [] =>
    let m := m.drain n (line * 128) 128
    match m.lineRead n p with
    | .ok (m, bs) =>
      .ok (m.onCore n fun k => k.fillLine line ((k.path.filter fun e => e.stage.isNone && e.coded.isNone).foldl (overlay (line * 128)) bs),
        m.seen c p.key ((bs.drop (p.key % 128)).take len))
    | .error code => .error (.trap { code })
  | bs => .ok (m, m.seen c p.key ((bs.drop (p.key % 128)).take len))

/-- A store enters the store path; a copy of its line in the core's L1 is updated, or dropped in a coded region (R212, R235). One that is
staged leaves the copy alone, which contexts outside its group read too (R236). -/
def Machine.store (m : Machine) (c va : Nat) (p : Phys) (bs : List Byte) (stage : Option Nat := none) : Machine :=
  let n := coreOf c
  let k := m.core n
  let line := p.key / 128
  let old := SMap.get [] k.l1 line
  let o := p.key % 128
  let k := if old = [] ∨ stage.isSome then k
    else if p.cri.isSome then k.dropLines (· == line)
    else { k with l1 := SMap.set [] k.l1 line (old.take o ++ bs ++ old.drop (o + bs.length)) }
  m.setCore n { k with path := k.path ++ [{ ctx := c, va, key := p.key, bytes := bs, coded := p.cri, stage }] }

/-- The coded block of a line can be read: it is no reserved one (17 R350). -/
def Machine.blockReads (m : Machine) (key cri : Nat) : Bool := (codedLine m cri key).isSome

/-- A store to the system block by a core outside RCORES is dropped and raises DAMPER (21 R410). -/
def sysBlockRefused (m : Machine) (n : Nat) (p : Phys) : Bool := m.locked && p.key < 0x10000 && !isRcore m n

/-- A store of R105 with the rules of coded regions: width 8 only, no reserved block, which the store would read, and the policy on a non-finite value (R350, R358, R359). -/
def Machine.storeChecked (m : Machine) (c va size x : Nat) : Res Machine := do
  let n := coreOf c
  let (m, p) ← m.access n va size .store
  check (!sysBlockRefused m n p) 0x3B va
  check (p.cri.isNone || size == 8) 0x20 va
  match p.cri with
  | some cri =>
    check (m.blockReads p.key cri) 0x33 va
    check (!(nonFinite x && (codecRate (crtField m p.key cri 8 4)).getD 64 != 64 && crtField m p.key cri 6 2 == 0)) 0x1F va
  | none => .ok ()
  .ok (m.store c va p (leBytes size x) (m.stageOf c va p.key))

/-- A load of R105: the bytes as a number. -/
def Machine.loadChecked (m : Machine) (c va size : Nat) : Res (Machine × Nat) := do
  let (m, p) ← m.access (coreOf c) va size .load
  let (m, bs) ← atAddress va (m.readCached c p size)
  .ok (m, leNat bs)

/-! ### Taking a cause -/

/-- The payload of a replay entry (R251), as bytes. -/
def pendPayload (p : Pend) : List Byte :=
  let at_ (k : Nat) : Nat := ((p.writes.find? (fun w => w.1 == k)).map (·.2)).getD 0
  let cs := (List.range 8).filter (bit p.ce)
  let g (c l : Nat) : Nat := at_ (128 * p.reg + 16 * c + l)
  match p.file with
  | .s => leBytes 8 (at_ p.reg)
  | .v => cs.flatMap fun c => (List.range 16).flatMap fun l => leBytes 8 (g c l)
  | .m => let bs := cs.flatMap fun c => leBytes 2 (ofBits ((List.range 16).map fun l => g c l == 1))
          bs ++ List.replicate (32 - bs.length) 0
  | .q => cs.flatMap fun c => (List.range 16).flatMap fun l => leBytes 24 (g c l)

def File.code : File → Nat
  | .s => 0 | .v => 1 | .m => 2 | .q => 3

/-- The lanes that a result writes (R251). -/
def pendLanes (p : Pend) : Nat :=
  if p.file = .s then 0 else p.writes.foldl (fun n w => n + 2 ^ (w.1 % 128)) 0

/-- A replay entry: its header and payload, padded to 32 bytes (R249, R251). -/
def replayEntry (p : Pend) : List Byte :=
  let pay := pendPayload p
  leBytes 32 (pack [(0, p.file.code), (8, p.reg), (32, p.off), (56, p.ce), (64, p.fl), (72, p.en), (96, pay.length), (128, pendLanes p)]) ++
    pay ++ List.replicate (roundUp pay.length 32 - pay.length) 0

/-- Results in ascending OFF, those of equal OFF in their order (R249). -/
def insertPend (p : Pend) : List Pend → List Pend
  | [] => [p]
  | x :: xs => if p.off < x.off then p :: x :: xs else x :: insertPend p xs

def sortPend (ps : List Pend) : List Pend := ps.foldl (fun a p => insertPend p a) []

/-- TRAPCAUSE of a cause (R77). -/
def Cause.word (k : Cause) : Nat := pack [(0, k.code), (6, k.kind), (8, k.off)]

/-- STATE of a frame (R250). -/
def frameState (x : Ctx) : Nat :=
  pack [(0, if x.depth = 0 then 1 else 0), (2, if x.st = .retired then 1 else 0), (4, lastCount x.fpcW), (6, lastCount x.fmtW),
        (24, x.depth + 1), (32, x.pend.length)]

/-- TRAPINFO0-3 of a cause that is taken: the values that its rule gives, and a free value for each that it does not give (log 33, DESIGN CHOICE). -/
def Machine.trapInfo (m : Machine) (k : Cause) : List Nat :=
  [k.i0, k.i1, k.i2, k.i3].zipIdx.map fun p => p.1.getD (Config.freeValue (m.fresh + p.2)).toNat

/-- The bytes of a trap frame whose fault record holds TRAPCAUSE, TRAPPC and TRAPINFO0-3 (R249). -/
def frameBytes (x : Ctx) (cause : Nat) (info : List Nat) (tpc size : Nat) : List Byte :=
  let words := [cause, tpc] ++ info ++ [size, frameState x, x.fpc.toNat, x.fmt.toNat, 0, 0, 0, 0, 0, 0, (x.cr 0x17).toNat]
  words.flatMap (leBytes 8) ++ (List.range 63).flatMap (fun i => leBytes 8 (x.sreg (.ofNat 6 (i + 1))).toNat) ++
    (sortPend x.pend).flatMap replayEntry

/-- Bytes written through pinned pages, page by page; `none` when one is not pinned. -/
def Machine.writePinned (m : Machine) (n va : Nat) (bs : List Byte) : Nat → Option Machine
  | 0 => if bs = [] then some m else none
  | fuel + 1 =>
    if bs = [] then some m
    else
      let len := min bs.length (4096 - va % 4096)
      match m.pinned n va with
      | none => none
      | some k => Machine.writePinned (((m.drain n k len).setBytes k (bs.take len)).onCore n fun q => q.dropRange k len) n (va + len) (bs.drop len) fuel

/-- Bytes read through pinned pages. -/
def Machine.readPinned (m : Machine) (n va len : Nat) : Nat → Option (List Byte)
  | 0 => if len = 0 then some [] else none
  | fuel + 1 =>
    if len = 0 then some []
    else
      let now := min len (4096 - va % 4096)
      match m.pinned n va with
      | none => none
      | some k => (Machine.readPinned m n (va + now) (len - now) fuel).map (fun r => (m.drain n k now).bytes k now ++ r)

/-- The value of bytes in pinned pages, 0 where they cannot be read; and whether a whole area can (16 R337). -/
def Machine.pinnedNat (m : Machine) (n va len : Nat) : Nat := leNat ((m.readPinned n va len (len / 4096 + 2)).getD [])
def Machine.areaPinned (m : Machine) (n va len : Nat) : Bool := (pagesOf va len).all fun p => (m.pinned n (p * 4096)).isSome

/-- SERVICE_FAULT kills the context: it is retired and its results in flight are discarded (R253). -/
def Ctx.kill (x : Ctx) : Ctx :=
  { x with st := .retired, pend := [], frames := [], after := [], deferred := [], async := [], stepArmed := false, hold := none, asked := none, depth := 0, dep := none, killed := true }

/-- Every interlocked result of a context lands (04 R84; log 13, DEDUCED). -/
def Ctx.landInterlocks (x : Ctx) : Ctx :=
  x.intl.foldl (fun y i =>
    if i.cap then { y with cap := SMap.set 0 y.cap i.reg (.ofNat 128 i.value), capV := .ofNat 16 (if bit i.value 128 then y.capV.toNat ||| 2 ^ i.reg else y.capV.toNat &&& (0xFFFF - 2 ^ i.reg)) }
    else y.put .s i.reg i.value) { x with intl := [] }

/-- A load-queue entry as a trap or a pre-emption saves it (05 R152): one that is not resolved is performed again, from its addresses. -/
def LqEntry.saved (q : LqEntry) : LqEntry := if q.st = .resolved then q else { q with st := .queued, data := [], again := true }

/-- Taking a cause at the boundary before `tpc` (R245, R249, R253): the frame is written below SVCSTACK, the trap registers
and SVCSTACK are set, and service code starts at SVCBASE, one level deeper. An armed STEP stays armed (R250) (log 17, DEDUCED). -/
def Machine.takeCause (m : Machine) (c : Nat) (k : Cause) (tpc : Word) : Machine :=
  let m := (m.discard (coreOf c) k).onCore (coreOf c) fun q => { q with wants := q.wants.filter (fun p => p.1 != c), cxlBad := q.cxlBad && k.code != 0x31 }
  let x := (m.ctx c).landInterlocks
  let stack := (x.cr 0x17).toNat
  let size := roundUp (0x280 + (x.pend.map fun p => (replayEntry p).length).sum) 128
  let base := wrap 64 ((stack : Int) - size)
  if 8 ≤ x.depth ∨ stack % 128 ≠ 0 then m.setCtx c x.kill
  else
    let info := m.trapInfo k
    match { m with fresh := m.fresh + 4 }.writePinned (coreOf c) base (frameBytes x k.word info tpc.toNat size) 40 with
    | none => m.setCtx c x.kill
    | some m =>
      let y := info.zipIdx.foldl (fun (x : Ctx) p => x.setCr (0x11 + p.2) (.ofNat 64 p.1)) (((x.setCr 0x10 (.ofNat 64 k.word)).setCr 0x15 tpc).setCr 0x17 (.ofNat 64 base))
      m.setCtx c { y with pend := [], frames := (sortPend x.pend).map (·.pc) :: x.frames, depth := x.depth + 1, st := .inService, hold := none,
                          ret := x.st = .retired, pc := x.cr 0x16, seen := none, asked := none, waitHeld := 0, lq := y.lq.map LqEntry.saved }

/-! ### Coordinates -/

/-- A launch by number (11 R261). -/
def Machine.launch (m : Machine) (l : Nat) : Option Launch := SMap.get none m.launches l
def Machine.setLaunch (m : Machine) (l : Nat) (v : Launch) : Machine := { m with launches := SMap.set none m.launches l (some v) }

/-- Fields of a launch record (11 R261). -/
def Launch.entry (l : Launch) : Nat := bits l.lrec 0 64
def Launch.tidbase (l : Launch) : Nat := bits l.lrec 64 64
def Launch.kbase (l : Launch) : Nat := bits l.lrec 128 64
def Launch.svcbase (l : Launch) : Nat := bits l.lrec 192 64
def Launch.sstk (l : Launch) : Nat := bits l.lrec 256 64
def Launch.img (l : Launch) : Nat := bits l.lrec 320 64
def Launch.csch (l : Launch) : Nat := bits l.lrec 384 64
def Launch.scnt (l : Launch) : Nat := bits l.lrec 448 16
def Launch.lm (l : Launch) : Nat := bits l.lrec 468 4
def Launch.ssz (l : Launch) : Nat := bits l.lrec 472 8
/-- A context is free for the next saved task of a launch. -/
def Machine.freeFor (m : Machine) (c : Nat) (l : Launch) : Bool :=
  (m.ctx c).st == .free && l.cores.contains (coreOf c) && bit l.ctxs (c % 4)

/-- The number by which the part knows the saved state of a launch's task, and the address of its image area (10 R254; 11 R261). -/
def savedKey (li i : Nat) : Nat := 2 * (1024 * li + i)
def Launch.area (l : Launch) (i : Nat) : Nat := l.img + 2 ^ 19 * i

/-- The requests of a core's pool that still stand: those of contexts, and from 384 up those of saved tasks that wait for the pool at a free context of the core (07 R184, R192). -/
def Machine.poolWants (m : Machine) (n : Nat) : List (Nat × Nat) :=
  (m.core n).wants.filter fun p => p.1 < 384 || m.launches.any fun q => match q.2 with
    | some l => l.preempted.any (fun s => 384 + savedKey q.1 s.1 == p.1) && (List.range 4).any fun j => m.freeFor (4 * n + j) l
    | none => false

def Launch.prio (l : Launch) : Nat := bits l.lrec 1088 6
def Launch.stab (l : Launch) : Nat := bits l.lrec 1152 64
def Launch.ntile (l : Launch) : Nat := bits l.lrec 1216 23

/-- The entries of a core's table, and its unread part (11 R263, R265). -/
def Launch.table (l : Launch) (n : Nat) : List Word := (l.coords.filter fun p => p.1 == n).map (·.2)
def Launch.head (l : Launch) (n : Nat) : Nat := SMap.get 0 l.heads n
def Launch.unread (l : Launch) (n : Nat) : List Word := (l.table n).drop (l.head n)
def Launch.setHead (l : Launch) (n h : Nat) : Launch := { l with heads := SMap.set 0 l.heads n h }

/-- The Parser writes coordinates, in memory and in the sequencer's view, while a table has fewer than 8192 unread ones (R263, R297; log 19, DESIGN CHOICE). -/
def Machine.deal (m : Machine) (li : Nat) (l : Launch) : Machine :=
  let r := l.todo.foldl (fun (a : Machine × Launch) (p : Nat × Word) =>
    if (a.2.unread p.1).length < 8192 then
      (a.1.setWord (a.2.stab + 65536 * (p.1 % 12) + 8 * ((a.2.table p.1).length % 8192)) p.2.toNat, { a.2 with coords := a.2.coords ++ [p] })
    else (a.1, { a.2 with todo := a.2.todo ++ [p] })) (m, { l with todo := [] })
  r.1.setLaunch li r.2

/-- Removes the tail entry of a core's table, which is unread. -/
def Launch.dropTail (l : Launch) (n : Nat) : Launch :=
  let other (ps : List (Nat × Word)) : List (Nat × Word) := (ps.takeWhile fun p => p.1 != n)
  let r := l.coords.reverse
  { l with coords := (other r ++ r.drop ((other r).length + 1)).reverse }

/-- Puts a coordinate at the head of a core's table, in the place last read, or in front of a table that nothing was read from (04 R98). -/
def Machine.giveBack (m : Machine) (li n : Nat) (w : Word) : Machine :=
  match m.launch li with
  | none => m
  | some l =>
    let t := l.table n
    let h := l.head n
    let t : List Word := t.take (h - 1) ++ w :: t.drop h
    let l' : Launch := { l with coords := (l.coords.filter fun p => p.1 != n) ++ t.map fun v => (n, v) }
    (m.setWord (l.stab + 65536 * (n % 12) + 8 * ((h - 1) % 8192)) w.toNat).setLaunch li (l'.setHead n (h - 1))

/-- A request served for a context (R265): the coordinate or end code with the clocks until it lands, or nothing while tiles are
still to be written. A coordinate of the core's own table takes six clocks (04 R97); one stolen takes 24, as does the end code (log 15, DESIGN CHOICE). -/
def Machine.request (m : Machine) (c : Nat) : Machine × Option (Word × Nat) :=
  let n := coreOf c
  match (m.ctx c).launch with
  | none => (m, some (tcEnd, 24))
  | some li =>
    match m.launch li with
    | none => (m, some (tcEnd, 24))
    | some l =>
      match l.unread n with
      | w :: _ => (m.deal li (l.setHead n (l.head n + 1)), some (w, 6))
      | [] =>
        if l.failed then (m, some (tcEnd, 24))
        else if l.todo ≠ [] then (m, none)
        else
          let order := (List.range 11).map fun i => n / 12 * 12 + (n % 12 + 1 + i) % 12
          match order.find? (fun v => l.cores.contains v && 2 ≤ (l.unread v).length) with
          | some v =>
            let w := (l.unread v).getLast?
            let taken := if (m.ckGroup c).isSome then w.toList.map fun w => ((m.ctx c).img, v, w) else []
            (m.setLaunch li { l.dropTail v with stolen := l.stolen ++ taken }, w.map fun w => (w, 24))
          | none => (m, some (tcEnd, 24))

/-- A request of some context of a core still waits: later ones of the core stand behind it (11 R265). -/
def Machine.asking (m : Machine) (n : Nat) : Bool := (List.range 4).any fun j => (m.ctx (4 * n + j)).nxt.any fun q => q.val.isNone

/-- A request that has been served: its coordinate or end code, which lands some clocks later. -/
def Machine.served (m : Machine) (n reg : Nat) (p : Word × Nat) : CoordReq :=
  { reg, val := some p.1, due := (m.core n).cycle + .ofNat 64 p.2, asked := (m.core n).cycle }

/-- A request of `nxt` for register `n` joins those in flight, behind any of the core that still waits (R96; 11 R265). -/
def Machine.requestFor (m : Machine) (c n : Nat) : Machine :=
  let wait : CoordReq := { reg := n, asked := (m.core (coreOf c)).cycle }
  if m.asking (coreOf c) then m.onCtx c fun x => { x with nxt := x.nxt ++ [wait] }
  else
    let r := m.request c
    r.1.onCtx c fun x => { x with nxt := x.nxt ++ [r.2.elim wait (m.served (coreOf c) n)] }

/-- `nxt` has an effect only on an empty register without a request (R96). -/
def Ctx.wantsCoord (x : Ctx) (n : Nat) : Bool := x.tcreg n == tcEmpty && !x.nxt.any (fun p => p.reg == n)

/-- The privileged transfers of every core, changed (08 R209). -/
def Machine.onPriv (m : Machine) (f : List (Nat × Xfer) → List (Nat × Xfer)) : Machine :=
  (m.cores.map (·.1)).foldl (fun m n => if (m.core n).priv = [] then m else m.onCore n fun k => { k with priv := f k.priv }) m

/-! ### Syllables -/

/-- The oldest load-queue entry whose tag is the cause is performed again on return (05 R151): it need not head the queue, as the pops of the bundle that raised it take no effect. -/
def markTag (k : Cause) : List LqEntry → List LqEntry
  | q :: qs => if q.tag.any fun t => k.code == t.1 && k.i0 == some t.2.1 && k.i1 == some q.pc.toNat && k.i2 == some t.2.2 then { q with again := true } :: qs else q :: markTag k qs
  | [] => []

/-- A cause of an operation counts as raised once (04 R99): the operation is marked, or leaves the list when it counts as completed. -/
def Ctx.markRaised (x : Ctx) (k : Cause) : Ctx :=
  if k.kind ≠ 1 then x
  else
    { x with
      lq := markTag k x.lq
      xfers := x.xfers.map fun t => if t.fault = some k then { t with raised := true } else t
      kvops := x.kvops.map fun t => if t.fault = some k then { t with raised := true } else t
      msgs := x.msgs.filter fun t => t.fault ≠ some k
      fires := x.fires.filter fun t => t.fault ≠ some k
      deferred := x.deferred.erase k }

/-- A cause of an operation is raised in a context: the operation is marked, a privileged transfer of the context too (04 R99; 08 R209). -/
def Machine.markRaised (m : Machine) (c : Nat) (k : Cause) : Machine :=
  (m.onCtx c fun x => x.markRaised k).onPriv fun ps => if k.kind ≠ 1 then ps else ps.map fun p => if p.1 = c ∧ p.2.fault = some k then (p.1, { p.2 with raised := true }) else p

/-- An access of a context waits for a route, or for a line to stage it: LINK_DOWN or STAGE_OVERFLOW is raised, once while that lasts (14 R309; 19 R387) (log 56, DEDUCED). -/
def Machine.lostRoute (m : Machine) (c : Nat) (h : Hold) : Machine :=
  let tell (mark : Nat) (k : Cause) : Machine :=
    if 384 ≤ c ∨ (m.ctx c).told.contains mark then m
    else (m.async c k).onCtx c fun x => { x with told := x.told ++ [mark] }
  match h with
  | .route pkg => tell pkg { code := 0x32, i0 := pkg }
  | .stage x line =>
    let why := if spillLimit m x = 0 then 0 else 1
    tell (512 + 2 * x + why) { code := 0x28, i0 := homeSlice (line * 128), i1 := x, i2 := why }
  | _ => m

/-- What a held bundle leaves behind (R98; 07 R184; 19 R387): the request of `end.nxt`, the age of a `macq`, and LINK_DOWN. -/
def Machine.enterHold (m : Machine) (c : Nat) (h : Hold) : Machine :=
  let m := m.onCtx c fun x => { x with st := if x.depth = 0 then .switched else x.st, hold := some h }
  match h with
  | .coord => if (m.ctx c).wantsCoord 1 then m.requestFor c 1 else m
  | .grant mask => m.onCore (coreOf c) fun k => if k.wants.any (fun p => p.1 == c) then k else { k with wants := k.wants ++ [(c, mask)] }
  | .route _ | .stage _ _ => m.lostRoute c h
  | .alloc rec =>
    let at_ := ((m.ctx c).asked.map (·.1)).getD m.arrivals
    { m.onCtx c fun x => { x with asked := some (at_, rec) } with arrivals := max m.arrivals (at_ + 1) }
  | _ => m

/-- No `alloc` that arrived before that of a context waits for a record (16 R339). -/
def Machine.allocTurn (m : Machine) (c rec : Nat) : Bool :=
  let at_ := ((m.ctx c).asked.map (·.1)).getD m.arrivals
  !m.ctxs.any fun p => p.1 != c && p.2.asked.any fun a => a.2 == rec && a.1 < at_

/-- What a syllable sees (R67): the machine at the start of its bundle, its context's number and registers there, and the bundle. -/
structure Env where
  m0 : Machine
  c : Nat
  x : Ctx
  deriving DecidableEq, Repr

/-- An access outside the damper's windows has completed without effect; DAMPER is raised before the next bundle (10 R256; 21 R416). -/
def Machine.deferDamper (m : Machine) (c : Nat) (k : Cause) : Machine := m.onCtx c fun x => { x with deferred := x.deferred ++ [{ k with kind := 1 }] }

/-- The cause of an access of the bundle itself that the damper has blocked. -/
def Cause.blocked (k : Cause) : Bool := k.code == 0x3B && k.kind == 0

/-- Runs a syllable: its effect on the machine, or the cause or hold for which no syllable of the bundle takes effect
(R86, R122, R123). A bundle that already stopped is left as it is, and a blocked access leaves the machine as it is. -/
def syllable (f : Env → Machine → Res Machine) (s : State) : Out State :=
  if s.m.bun.status ≠ .clean then .next s
  else
    let m0 := s.snap.getD s.m
    let b := s.m.bun
    match f { m0, c := b.ctx, x := m0.ctx b.ctx } s.m with
    | .ok m => .next { s with m }
    | .error (.trap k) =>
      if k.blocked then .next { s with m := s.m.deferDamper b.ctx k }
      else
      let m := (m0.markRaised b.ctx k).takeCause b.ctx { k with off := if b.slot = 0 then 0 else b.off } b.pc
      .next { s with m := { m with bun := { b with status := .trapped } } }
    | .error (.hold h) =>
      .next { s with m := { m0.enterHold b.ctx h with bun := { b with status := .held } } }

/-- A result issued by the bundle in progress (R67), `quiet` when it never raises FP_ENABLED_EXCEPTION (R34); more than 32 exposed results raise ILLEGAL_SYLLABLE with TRAPINFO0 = 9 (R244). -/
def Machine.push (e : Env) (m : Machine) (p : Pend) (quiet : Bool := false) : Res Machine :=
  let x := m.ctx e.c
  let mine := (x.pend.drop e.x.pend.length).filter (fun r => 1 < r.off)
  if 1 < p.off ∧ 32 ≤ e.x.pend.length + mine.length then raise 0x01 9
  else .ok (m.setCtx e.c (x.issue { p with pc := m.bun.pc, en := if quiet then 0 else e.x.en }))

/-- A scalar result of latency `lat` (R67, R83). -/
def Machine.result (e : Env) (m : Machine) (lat : Nat) (d : Reg) (v : Word) : Res Machine :=
  m.push e { off := lat, file := .s, reg := d.toNat, writes := [(d.toNat, v.toNat)] }

/-- A syllable whose one effect is a scalar result of latency `lat`, computed from the start of the bundle. -/
def scalarResult (lat : Nat) (d : Reg) (f : Env → Res Word) (s : State) : Out State :=
  syllable (fun e m => do let v ← f e; m.result e lat d v) s


/-- The privileged transfers that a context has issued and that are not complete (R209). -/
def Machine.privOf (m : Machine) (c : Nat) : List Xfer := m.cores.flatMap fun k => (k.2.priv.filter fun p => p.1 == c).map (·.2)

/-- The transfers of a context that are not complete, privileged ones included. -/
def Machine.xfersOf (m : Machine) (c : Nat) : List Xfer := (m.ctx c).xfers ++ m.privOf c

/-- The causes, not yet raised, of transfers of a context that meet a condition; that of a privileged one is raised in service code only (08 R209). -/
def Machine.causesOf (m : Machine) (c : Nat) (f : Xfer → Bool) : List Cause :=
  (((m.ctx c).xfers ++ if (m.ctx c).depth = 0 then [] else m.privOf c).filter fun t => f t && !t.raised).filterMap (·.fault)

/-- An interlocked result (R84), for an access to memory with its address and length. -/
def Machine.interlock (m : Machine) (c : Nat) (d : Reg) (v : Nat) (va len : Nat := 0) : Machine :=
  m.onCtx c fun x => { x with intl := x.intl ++ [{ reg := d.toNat, value := v, va, len }] }

end Sys2Proof.Machine
end

