-- ==== Sys2Proof/Machine/Operands.lean ====
section
/-! DEFINITION. Operands.lean: every operand form: scalar sources, elements and literals, counts, the load-data queue's pops, lanes in use (03 R58-R65; 05 R120-R124, R151). -/

namespace Sys2Proof.Machine

/-- A source of the S or A slot, and a count, index or distance of the vector slots: a literal is sign-extended (R60, R89). -/
def Ctx.src (x : Ctx) (a : Src) : Word :=
  match a with
  | .r0 n | .r1 n => x.sreg n
  | .k i => x.konstAt i.toNat
  | .l6 v => v.signExtend 64
  | .l32 v => v.signExtend 64

/-- A 6-bit literal as an element's code (R60). Its rounding raises no flag (log 83, DESIGN CHOICE). -/
def literal6 (n : NFmt) (code : Nat) (v : BitVec 6) : Nat :=
  match fpOfCode code with
  | some f => (f.ofInt {} false false v.toInt 0).1
  | none => wrap (codeWidth n code) (clampInt (intRange n code) v.toInt)

/-- A 32-bit literal as an element's code (R60), without flags (log 83, DESIGN CHOICE). -/
def literal32 (n : NFmt) (code : Nat) (v : BitVec 32) : Nat :=
  match code with
  | 0 => ((convert {} n [] [] 1 0 v.toNat).getD (0, 0)).1
  | 6 => wrap 64 v.toInt
  | _ => v.toNat % 2 ^ codeWidth n code

/-- The sources of a vector syllable name v63 (R65). -/
def isV63 (a : Src) : Bool := decide (a = .r0 63)

/-- The lane values of the entry that a syllable pops, and the machine without that entry (R65, R151). What the bundle itself pushes is
not there to be popped. -/
def Machine.popLoad (e : Env) (m : Machine) : Res (Machine × List Word) :=
  let x := m.ctx e.c
  match x.lq with
  | [] => raise 0x1B 1
  | q :: rest =>
    if x.lq.length ≤ m.bun.pushed then raise 0x1B 1
    else if q.st ≠ .resolved then .error (.hold .entry)
    else
      match q.tag with
      | some (code, va, g) => .error (.trap { code, kind := 1, i0 := va, i1 := q.pc.toNat, i2 := g, i3 := q.tag3 })
      | none => .ok (m.setCtx e.c { x with lq := rest }, q.data)

/-- Pops when some source names v63. -/
def Machine.popIf (e : Env) (m : Machine) (named : Bool) : Res (Machine × List Word) :=
  if named then m.popLoad e else .ok (m, [])

/-- A vector register's lane as a source, v63 being the popped entry (R65). -/
def Ctx.vsrc (x : Ctx) (pop : List Word) (r : Reg) (g : Nat) : Word :=
  if r = 63 then pop.getD g 0 else x.vreg r.toNat g

/-- The code that a source gives lane `g` for an element of a format (R58-R60, R120). -/
def Ctx.elem (x : Ctx) (pop : List Word) (n : NFmt) (code : Nat) (a : Src) (g : Nat) : Nat :=
  match a with
  | .r0 r => laneCode n code (x.vsrc pop r g)
  | .r1 r => laneCode n code (x.sreg r)
  | .k i => laneCode n code (x.konstAt i.toNat)
  | .l6 v => literal6 n code v
  | .l32 v => literal32 n code v

/-- The lanes in use: those of enabled clusters whose bit of the lane mask is set (R61). -/
def Ctx.lanes (x : Ctx) (ms : BitVec 4) (ce : BitVec 8) : List Nat :=
  (List.range 128).filter fun g => bit ce.toNat (g / 16) && x.mbit ms.toNat g

/-- The enabled clusters. -/
def clusters (ce : BitVec 8) : List Nat := (List.range 8).filter (bit ce.toNat)

/-- Lanes computed one by one, in ascending g, up to the first that stops. -/
def forLanes {α : Type} (f : Nat → Res α) : List Nat → Res (List (Nat × α))
  | [] => .ok []
  | g :: gs => do
    let a ← f g
    let rest ← forLanes f gs
    .ok ((g, a) :: rest)

/-- FORMAT_REG for a reserved narrow code in lane `g` (R122). -/
def laneFormat (g : Nat) : Res α := raise 0x19 1 (some 0) (some g)

/-- A lane's result or FORMAT_REG. -/
def laneRes (g : Nat) (r : Option FRes) : Res FRes :=
  match r with
  | some x => .ok x
  | none => laneFormat g

/-- The environment of a vector operation: rounding under F or FPC.RM (R31, R125). -/
def vecEnv (x : Ctx) (o : VOp) : FEnv := x.env.override o.f.toNat

/-- A vector result of a syllable: lanes of register D with their codes and flags (R67, R120, R121). -/
def Machine.vecResult (e : Env) (m : Machine) (o : VOp) (lat code : Nat) (rs : List (Nat × FRes)) : Res Machine :=
  if o.ce = 0 then .ok m
  else m.push e { off := lat, file := .v, reg := o.d.toNat, ce := o.ce.toNat, fl := orFlags (rs.map (·.2)),
                  writes := rs.map fun p => (128 * o.d.toNat + p.1, (laneOf e.x.nf code p.2.1).toNat) }

/-- The shape of every vector instruction that computes a lane from up to three sources: pops, lanes, result. `useB` and
`useC` say which sources the instruction has; a source may name v63 only where it is used. -/
def laneOp (lat : Nat) (src dst : NFmt → VOp → Nat) (useB useC : Bool)
    (f : Env → VOp → Nat → Nat → Nat → Nat → Option FRes) (o : VOp) (s : State) : Out State :=
  syllable (fun e m => do
    let (m, pop) ← m.popIf e (isV63 o.a || (useB && isV63 o.b) || (useC && o.c == 63))
    let n := e.x.nf
    let code := src n o
    let rs ← forLanes (fun g =>
      laneRes g (f e o g (e.x.elem pop n code o.a g) (if useB then e.x.elem pop n code o.b g else 0)
        (if useC then laneCode n code (e.x.vsrc pop o.c g) else 0))) (e.x.lanes o.ms o.ce)
    m.vecResult e o lat (dst n o) rs) s

/-- The element format of a syllable's TY (R60). -/
def tyOf (_ : NFmt) (o : VOp) : Nat := tyCode o.ty.toNat

/-- A floating-point lane operation with its result in the same type. -/
def fpLaneOp (lat : Nat) (useB useC : Bool) (f : Fp → FEnv → Nat → Nat → Nat → FRes) (o : VOp) (s : State) : Out State :=
  laneOp lat tyOf tyOf useB useC (fun e o _ a b c =>
    match fpOfCode (tyCode o.ty.toNat) with
    | some p => some (f p (vecEnv e.x o) a b c)
    | none => none) o s

/-- A mask written lane by lane in the enabled clusters (R127). -/
def Machine.maskResult (e : Env) (m : Machine) (d : Nat) (ce : Nat) (fl : Nat) (rs : List (Nat × Bool)) : Res Machine :=
  if ce = 0 then .ok m
  else m.push e { off := 1, file := .m, reg := d, ce, fl, writes := rs.map fun p => (128 * d + p.1, if p.2 then 1 else 0) }

end Sys2Proof.Machine
end

