-- ==== Sys2Proof/Machine/Mask.lean ====
section
/-! DEFINITION. Mask.lean: the P slot (05_vector_lanes.md R138). -/

namespace Sys2Proof.Machine

/-- A mask computed bit by bit in the enabled clusters; m0 is never written (R138). -/
def maskLogic (f : Env → Nat → Nat → Bool) (ce : BitVec 8) (d : BitVec 4) (s : State) : Out State :=
  syllable (fun e m => m.maskResult e d.toNat ce.toNat 0 ((e.x.lanes 0 ce).map fun g => (g, f e (g / 16) (g % 16)))) s

def bitOf (e : Env) (a : BitVec 4) (c l : Nat) : Bool := e.x.mbit a.toNat (16 * c + l)

def execMand (ce : BitVec 8) (d a b : BitVec 4) (s : State) : Out State := maskLogic (fun e c l => bitOf e a c l && bitOf e b c l) ce d s
def execMor (ce : BitVec 8) (d a b : BitVec 4) (s : State) : Out State := maskLogic (fun e c l => bitOf e a c l || bitOf e b c l) ce d s
def execMxor (ce : BitVec 8) (d a b : BitVec 4) (s : State) : Out State := maskLogic (fun e c l => bitOf e a c l != bitOf e b c l) ce d s
def execMandn (ce : BitVec 8) (d a b : BitVec 4) (s : State) : Out State := maskLogic (fun e c l => bitOf e a c l && !bitOf e b c l) ce d s
def execMnot (ce : BitVec 8) (d a : BitVec 4) (s : State) : Out State := maskLogic (fun e c l => !bitOf e a c l) ce d s
def execMmov (ce : BitVec 8) (d a : BitVec 4) (s : State) : Out State := maskLogic (fun e c l => bitOf e a c l) ce d s

def execMset (ce : BitVec 8) (d : BitVec 4) (v : MaskLit) (s : State) : Out State :=
  maskLogic (fun _ _ l => match v with
    | .upto n => decide (l < n.toNat)
    | .mask w => bit w.toNat l) ce d s

/-- The set lanes of a mask in the enabled clusters, ascending. -/
def setLanes (e : Env) (ce : BitVec 8) (a : BitVec 4) : List Nat := (e.x.lanes 0 ce).filter fun g => e.x.mbit a.toNat g

/-- A scalar result of the P slot, latency 1; with CE = 0 the syllable is a no-op (R61, R121). -/
def maskScalar (ce : BitVec 8) (d : Reg) (f : Env → Nat) (s : State) : Out State :=
  syllable (fun e m => if ce = 0 then .ok m else m.result e 1 d (.ofNat 64 (f e))) s

def execMcnt (ce : BitVec 8) (d : Reg) (a : BitVec 4) (s : State) : Out State := maskScalar ce d (fun e => (setLanes e ce a).length) s
def execMfst (ce : BitVec 8) (d : Reg) (a : BitVec 4) (s : State) : Out State := maskScalar ce d (fun e => (setLanes e ce a).headD 128) s

def execMlim (ce : BitVec 8) (d : BitVec 4) (a : Reg) (perCluster : Bool) (s : State) : Out State :=
  maskLogic (fun e c l => decide ((if perCluster then l else 16 * c + l) < (e.x.sreg a).toNat)) ce d s

end Sys2Proof.Machine
end

