-- ==== Sys2Proof/Machine/Special.lean ====
section
/-! DEFINITION. Special.lean: the X slot's functions, permutes, cross-cluster copies and streams (05_vector_lanes.md R139-R145). -/

namespace Sys2Proof.Machine

/-- A single-source special function (R139). -/
def fnOp (fn : Fn) (o : VOp) (s : State) : Out State := fpLaneOp 8 false false (fun p v a _ _ => fn.run p v a) o s

/-- 16 bundles for `fdiv.d` and `fsqrt.d`, otherwise 8 (R121). -/
def divLat (o : VOp) : Nat := if o.ty = 0 then 16 else 8

def execFrcp (o : VOp) (s : State) : Out State := fpLaneOp 8 false false (fun p v a _ _ => p.rcp v a) o s
def execFrsqrt (o : VOp) (s : State) : Out State := fpLaneOp 8 false false (fun p v a _ _ => p.rsqrt v a) o s
def execFsqrt (o : VOp) (s : State) : Out State := fpLaneOp (divLat o) false false (fun p v a _ _ => p.sqrt v a) o s
def execFdiv (o : VOp) (s : State) : Out State := fpLaneOp (divLat o) true false (fun p v a b _ => p.div v a b) o s
def execFexp2 (o : VOp) (s : State) : Out State := fnOp .exp2 o s
def execFlog2 (o : VOp) (s : State) : Out State := fnOp .log2 o s
def execFsin (o : VOp) (s : State) : Out State := fnOp .sin o s
def execFcos (o : VOp) (s : State) : Out State := fnOp .cos o s
def execFtanh (o : VOp) (s : State) : Out State := fnOp .tanh o s
def execFerf (o : VOp) (s : State) : Out State := fnOp .erf o s
def execFexp (o : VOp) (s : State) : Out State := fnOp .exp o s

/-- Whole lanes written to register D (R140, R141). -/
def Machine.rawResult (e : Env) (m : Machine) (o : VOp) (lat : Nat) (rs : List (Nat × Word)) : Res Machine :=
  if o.ce = 0 then .ok m
  else m.push e { off := lat, file := .v, reg := o.d.toNat, ce := o.ce.toNat, writes := rs.map fun p => (128 * o.d.toNat + p.1, p.2.toNat) }

/-- The vector register that a register source names. -/
def srcReg (a : Src) : Reg := match a with
  | .r0 n | .r1 n => n
  | _ => 0

/-- A permute: the lane that each written lane takes, from A (`false`) or B (R140). -/
def permuteOp (pick : Env → List Word → VOp → Nat → Nat → Bool × Nat) (o : VOp) (s : State) : Out State :=
  syllable (fun e m => do
    let (m, pop) ← m.popIf e (isV63 o.a || isV63 o.b)
    m.rawResult e o 2 ((e.x.lanes o.ms o.ce).map fun g =>
      let c := g / 16
      let r := pick e pop o c (g % 16)
      (g, e.x.vsrc pop (srcReg (if r.1 then o.b else o.a)) (16 * c + r.2)))) s

/-- The index of `perm`: the low four bits of lane l of B, or of a scalar, constant or literal B (R140). -/
def permIndex (e : Env) (pop : List Word) (b : Src) (g : Nat) : Nat :=
  (match b with
   | .r0 r => e.x.vsrc pop r g
   | _ => e.x.src b).toNat % 16

def execPerm (o : VOp) (s : State) : Out State := permuteOp (fun e pop o c l => (false, permIndex e pop o.b (16 * c + l))) o s
def execRev (o : VOp) (s : State) : Out State := permuteOp (fun _ _ _ _ l => (false, 15 - l)) o s
def execRot (o : VOp) (s : State) : Out State := permuteOp (fun e _ o _ l => (false, (l + (e.x.src o.b).toNat) % 16)) o s
def execZip (o : VOp) (s : State) : Out State :=
  permuteOp (fun _ _ o _ l => (l % 2 == 1, (if o.f = 1 then 8 else 0) + l / 2)) o s
def execUnzip (o : VOp) (s : State) : Out State :=
  permuteOp (fun _ _ o _ l => (8 ≤ l, 2 * (l % 8) + (if o.f = 1 then 1 else 0))) o s

/-- A copy across clusters, its source cluster from the destination's (R141). -/
def crossOp (from_ : Nat → Nat → Nat) (o : VOp) (s : State) : Out State :=
  syllable (fun e m => do
    let (m, pop) ← m.popIf e (isV63 o.a)
    let k := (e.x.src o.b).toNat % 8
    m.rawResult e o 2 ((e.x.lanes o.ms o.ce).map fun g => (g, e.x.vsrc pop (srcReg o.a) (16 * from_ (g / 16) k + g % 16)))) s

def execXcopy (o : VOp) (s : State) : Out State := crossOp (fun c k => (c + k) % 8) o s
def execXbcast (o : VOp) (s : State) : Out State := crossOp (fun _ k => k) o s

/-- The mode of a bank (01 R16). -/
def Core.bankMode (k : Core) (cluster bank : Nat) : Nat := SMap.get 0 k.bank (16 * cluster + bank)

/-- A stream bank (R142). -/
def Core.stream (k : Core) (cluster bank : Nat) : List Word := SMap.get [] k.fifo (16 * cluster + bank)
def Core.setStream (k : Core) (cluster bank : Nat) (xs : List Word) : Core := { k with fifo := SMap.set [] k.fifo (16 * cluster + bank) xs }

/-- An unfinished `xroute` of the core uses one of the banks of a mask (R123). -/
def Core.routed (k : Core) (mask : Nat) : Bool := k.routing.any fun r => r.1 &&& mask != 0 && k.cycle.toNat < r.2

/-- The hold of a bundle that names such a bank (R123, R145). -/
def routeHold (e : Env) (mask : Nat) : Res Unit := if (e.m0.core (coreOf e.c)).routed mask then .error (.hold .busy) else .ok ()

/-- The unfinished `xroute`s of a core end, when no context of it can issue in the meantime: its clocks pass (log 39, DEDUCED). -/
def Machine.endRoutes (m : Machine) (n : Nat) : Machine :=
  m.onCore n fun k => { k with routing := [], cycle := k.routing.foldl (fun (t : Word) r => if t.toNat < r.2 then .ofNat 64 r.2 else t) k.cycle }

/-- The bank operand of a stream instruction: at most 15 and in FIFO mode in every enabled cluster (R142), and in no unfinished `xroute` (R123). -/
def streamBank (e : Env) (o : VOp) : Res Nat :=
  let b := (e.x.src o.b).toNat
  let k := e.m0.core (coreOf e.c)
  match (clusters o.ce).find? (fun c => 15 < b || k.bankMode c b != 2) with
  | some c => raise 0x14 (16 * c + b % 16)
  | none => do
    routeHold e (2 ^ b)
    .ok b

/-- `cpush` (R143). -/
def execCpush (o : VOp) (s : State) : Out State :=
  syllable (fun e m => do
    let (m, pop) ← m.popIf e (isV63 o.a)
    let b ← streamBank e o
    let k := m.core (coreOf e.c)
    let new (c : Nat) : List Word := ((List.range 16).filter fun l => e.x.mbit o.ms.toNat (16 * c + l)).map fun l =>
      match o.a with
      | .r0 r => e.x.vsrc pop r (16 * c + l)
      | .r1 r => e.x.sreg r
      | .k i => e.x.konstAt i.toNat
      | a => laneOf e.x.nf (tyCode o.ty.toNat) (e.x.elem pop e.x.nf (tyCode o.ty.toNat) a (16 * c + l))
    match (clusters o.ce).find? (fun c => 8192 < (k.stream c b).length + (new c).length) with
    | some c => raise 0x1C (16 * c + b)
    | none => .ok (m.setCore (coreOf e.c) ((clusters o.ce).foldl (fun k c => k.setStream c b (k.stream c b ++ new c)) k))) s

/-- `cpop` (R144). -/
def execCpop (o : VOp) (s : State) : Out State :=
  syllable (fun e m => do
    let b ← streamBank e o
    let k := m.core (coreOf e.c)
    let on (c : Nat) : List Nat := (List.range 16).filter fun l => e.x.mbit o.ms.toNat (16 * c + l)
    let rs := (clusters o.ce).flatMap fun c => ((on c).zip (k.stream c b)).map fun p => (16 * c + p.1, p.2)
    let k' := (clusters o.ce).foldl (fun k c => k.setStream c b ((k.stream c b).drop (on c).length)) k
    (m.setCore (coreOf e.c) k').rawResult e o 2 rs) s

/-- `cpop.cnt` (R144). -/
def execCpopCnt (o : VOp) (s : State) : Out State :=
  syllable (fun e m => do
    let b ← streamBank e o
    let k := e.m0.core (coreOf e.c)
    m.rawResult e o 1 ((e.x.lanes o.ms o.ce).map fun g => (g, .ofNat 64 (k.stream (g / 16) b).length))) s

/-- Records in batches of 16, dealt to the eight clusters in rotation (R145). -/
def dealBatches {α : Type} (rs : List α) (c : Nat) : List α :=
  (List.range (rs.length / 128 + 1)).flatMap fun j => (rs.drop (16 * (8 * j + c))).take 16

/-- `xroute` (R145). The records move at once, and its ⌈N / 16⌉ + 4 bundles are clocks of the core, in which no bundle that names its banks issues (log 39, DEDUCED).
TILE_SHAPE carries 16 × cluster + bank of the lowest place that fails (log 84, DESIGN CHOICE). -/
def execXroute (o : VOp) (s : State) : Out State :=
  syllable (fun e m => do
    let v := (e.x.src o.b).toNat
    check (v < 2 ^ 16 && v != 0) 0x03 16
    let banks := (List.range 16).filter (bit v)
    let k := m.core (coreOf e.c)
    let all := List.range 8
    match (all.flatMap fun c => banks.map fun b => (c, b)).find? (fun p => (e.m0.core (coreOf e.c)).bankMode p.1 p.2 != 2) with
    | some p => raise 0x14 (16 * p.1 + p.2)
    | none => do
      routeHold e v
      let cnt (c : Nat) : Nat := (k.stream c (banks.headD 0)).length
      match all.find? (fun c => banks.any fun b => (k.stream c b).length != cnt c) with
      | some c => raise 0x1C (128 + c)
      | none =>
        let go (k : Core) (b : Nat) : Core :=
          let rs := all.flatMap fun c => k.stream c b
          all.foldl (fun k' c => k'.setStream c b (dealBatches rs c)) k
        let n := (all.map cnt).sum
        let ends := k.cycle.toNat + ceilDiv n 16 + 4
        .ok (m.setCore (coreOf e.c) { banks.foldl go k with routing := (k.routing.filter fun r => k.cycle.toNat < r.2) ++ [(v, ends)] })) s

end Sys2Proof.Machine
end

