-- ==== Sys2Proof/Machine/Stats.lean ====
section
/-! DEFINITION. Stats.lean: statistics registers and the scratchpad planes they use (06_statistics_registers.md R155-R167; 05 R147; 01 R17, R18). -/

namespace Sys2Proof.Machine

/-- Lanes of a statistics register written by a syllable as they are (R67, R163, R166). -/
def Machine.laneResult (e : Env) (m : Machine) (o : VOp) (lat : Nat) (rs : List (Nat × Triple × Nat)) : Res Machine :=
  if o.ce = 0 then .ok m
  else m.push e { off := lat, file := .q, reg := o.d.toNat, ce := o.ce.toNat, fl := rs.foldl (fun f p => f ||| p.2.2) 0,
                  writes := rs.map fun p => (128 * o.d.toNat + p.1, p.2.1.toNat) }

/-- Triples that a statistics instruction computes, empty ones in their one form (R53). -/
def Machine.statResult (e : Env) (m : Machine) (o : VOp) (lat : Nat) (rs : List (Nat × Triple × Nat)) : Res Machine :=
  m.laneResult e o lat (rs.map fun p => (p.1, p.2.1.written, p.2.2))

/-- A triple that an instruction reads in a lane it uses (R156). -/
def readTriple (e : Env) (q g : Nat) : Res Triple :=
  let t := e.x.qlane q g
  if t.malformed then raise 0x1E 1 q g else .ok t

/-- A source of an update, converted exactly to FP64 (R163); the reserved narrow code raises FORMAT_REG. -/
def updateSource (e : Env) (pop : List Word) (o : VOp) (a : Src) (g : Nat) : Res Nat := do
  let code := tyCode o.ty.toNat
  let x := e.x.elem pop e.x.nf code a g
  match fpOfCode code with
  | some .d => .ok x
  | some f => .ok (match f.read e.x.env x with
      | .nan _ _ => nanConvert f .d x
      | v => (Fp.d.ofVal {} false v).1)
  | none =>
    match intDecode e.x.nf code x with
    | some z => .ok (Fp.d.ofInt {} false false z 0).1
    | none => laneFormat g

/-- A signalling narrow source sets invalid when it is converted or quietened (R160). -/
def updateFlags (e : Env) (pop : List Word) (o : VOp) (a : Src) (g : Nat) : Nat :=
  match fpOfCode (tyCode o.ty.toNat) with
  | some f => if (f.unpack (e.x.elem pop e.x.nf (tyCode o.ty.toNat) a g)).isSnan then fNV else 0
  | none => 0

def execQclr (_ : VSlot) (o : VOp) (s : State) : Out State :=
  syllable (fun e m => m.statResult e o 1 ((e.x.lanes o.ms o.ce).map fun g => (g, .empty, 0))) s

def execQupd (_ : VSlot) (o : VOp) (s : State) : Out State :=
  syllable (fun e m => do
    let (m, pop) ← m.popIf e (isV63 o.a)
    let rs ← forLanes (fun g => do
      let t ← readTriple e o.d.toNat g
      let x ← updateSource e pop o o.a g
      let r := t.update x
      Except.ok (r.1, r.2 ||| updateFlags e pop o o.a g)) (e.x.lanes o.ms o.ce)
    m.statResult e o 16 rs) s

/-- `qupw` in one lane (R158): the weight is tested before x is examined. -/
def weighLane (e : Env) (pop : List Word) (o : VOp) (g : Nat) : Res (Triple × Nat) := do
  let t ← readTriple e o.d.toNat g
  let w ← updateSource e pop o o.b g
  check (!badWeight w) 0x1E 2 none (some g)
  if (Fp.d.unpack w).isZero then .ok (t, 0)
  else
    let x ← updateSource e pop o o.a g
    let r := t.updateW x w
    .ok (r.1, r.2 ||| updateFlags e pop o o.a g)

/-- `qupw` (R164). The lanes are taken in ascending order, each with all its checks, as in every statistics instruction (log 72, DESIGN CHOICE). -/
def execQupw (_ : VSlot) (o : VOp) (s : State) : Out State :=
  syllable (fun e m => do
    let (m, pop) ← m.popIf e (isV63 o.a || isV63 o.b)
    let rs ← forLanes (weighLane e pop o) (e.x.lanes o.ms o.ce)
    m.statResult e o 20 rs) s

/-- The q register that a field names. -/
def qNum (a : Src) : Nat := (srcReg a).toNat

def execQmrg (_ : VSlot) (o : VOp) (s : State) : Out State :=
  syllable (fun e m => do
    let rs ← forLanes (fun g => do
      let a ← readTriple e (qNum o.a) g
      let b ← readTriple e (qNum o.b) g
      Except.ok (a.merge b)) (e.x.lanes o.ms o.ce)
    m.statResult e o 16 rs) s

def execQred (_ : VSlot) (o : VOp) (s : State) : Out State :=
  syllable (fun e m => do
    let _ ← forLanes (fun g => readTriple e (qNum o.a) g) (e.x.lanes o.ms o.ce)
    let rs := (clusters o.ce).flatMap fun c =>
      let on (l : Nat) : Bool := e.x.mbit o.ms.toNat (16 * c + l)
      let r := mergeTree ((List.range 16).map fun l => if on l then some (e.x.qlane (qNum o.a) (16 * c + l)) else none)
      ((List.range 16).filter on).map fun l => (16 * c + l, r)
    m.statResult e o 64 rs) s

/-- `qxc` (R165): the triples of cluster c XOR k, copied or merged, the lower cluster as operand a. -/
def exchange (merge : Bool) (o : VOp) (s : State) : Out State :=
  syllable (fun e m => do
    let k := (e.x.src o.b).toNat % 8
    let q := qNum o.a
    let on := e.x.lanes o.ms o.ce
    let partner (g : Nat) : Nat := 16 * ((g / 16) ^^^ k) + g % 16
    let read := (List.range 128).filter fun g => on.contains g || on.any (fun h => partner h == g)
    let _ ← forLanes (fun g => readTriple e q g) read
    let rs := on.map fun g =>
      let p := partner g
      if !merge then (g, e.x.qlane q p, 0)
      else if k = 0 then (g, e.x.qlane q g, 0)
      else (g, (e.x.qlane q (min g p)).merge (e.x.qlane q (max g p)))
    m.statResult e o 18 rs) s

def execQxc (_ : VSlot) (o : VOp) (s : State) : Out State := exchange false o s
def execQxcMerge (_ : VSlot) (o : VOp) (s : State) : Out State := exchange true o s

/-- `qdrn` (R162, R164): 4 bundles for `cnt`, `mean` and `sum`, 16 for the others. -/
def execQdrn (_ : VSlot) (o : VOp) (s : State) : Out State :=
  syllable (fun e m => do
    let f := o.f.toNat
    let (m, pop) ← m.popIf e (((f == 5 || f == 7) && isV63 o.b) || (f == 7 && o.c == 63))
    let rs ← forLanes (fun g => do
      let t ← readTriple e (qNum o.a) g
      let b := if f = 5 ∨ f = 7 then e.x.elem pop e.x.nf 0 o.b g else 0
      let eps := if f = 5 then b else if f = 7 then (e.x.vsrc pop o.c g).toNat else 0
      check (!((f == 5 || f == 7) && badEps eps)) 0x1E 3 none (some g)
      Except.ok (t.drain f b eps)) (e.x.lanes o.ms o.ce)
    m.vecResult e o (if f = 0 ∨ f = 1 ∨ f = 6 then 4 else 16) 0 rs) s

/-! ### Scratchpad words -/

/-- The cluster and bank of the unit at a group offset (01 R17). -/
def unitCluster (off : Nat) : Nat := off / 8 / 4 % 8
def unitBank (g off : Nat) : Nat := 4 * g + off / 8 % 4

/-- A group offset lies in a bank in scratchpad mode (01 R18); offsets end at 2 MiB (log 38, DEDUCED). -/
def Core.padOk (k : Core) (g off : Nat) : Bool := off < 2 ^ 21 && k.bankMode (unitCluster off) (unitBank g off) == 0

/-- The 8-byte word at a group offset. -/
def Core.padWord (k : Core) (g off : Nat) : Word := SMap.get 0 k.pad (2 ^ 18 * g + off / 8)
def Core.setPadWord (k : Core) (g off : Nat) (v : Word) : Core := { k with pad := SMap.set 0 k.pad (2 ^ 18 * g + off / 8) v }

/-- The group offset that lane g of a vector access at `o` uses (R147). -/
def laneOffset (o g : Nat) : Nat := o + 256 * (g % 16 / 4) + 32 * (g / 16) + 8 * (g % 4)

/-- Every offset lies in scratchpad, or TILE_SHAPE with the lowest that does not (R147). -/
def padCheck (k : Core) (g : Nat) (offs : List Nat) : Res Unit :=
  match (offs.filter (fun a => !k.padOk g a)).min? with
  | some a => raise 0x14 a
  | none => .ok ()

/-- The three planes of a statistics register in scratchpad (R166). -/
def planes (o : Nat) : List Nat := [o, o + 1024, o + 2048]

/-- The address of `qld` and `qst`, with the checks of R147 on each plane; a syllable with CE = 0 makes none (R61).
A literal or constant B is read by the `.i64` rule, although R60 does not list it (log 100, DEDUCED). -/
def planeBase (e : Env) (o : VOp) : Res Nat := do
  let b := (e.x.src o.a + e.x.src o.b).toNat
  let k := e.m0.core (coreOf e.c)
  check (o.ce == 0 || b % 256 == 0) 0x0A b
  match (planes b).find? (fun p => ((e.x.lanes o.ms o.ce).any fun g => !k.padOk o.f.toNat (laneOffset p g))) with
  | some p => raise 0x14 p
  | none => .ok b

def execQld (_ : VSlot) (o : VOp) (s : State) : Out State :=
  syllable (fun e m => do
    let b ← planeBase e o
    let k := e.m0.core (coreOf e.c)
    let at_ (p g : Nat) : Nat := (k.padWord o.f.toNat (laneOffset p g)).toNat
    m.laneResult e o 3 ((e.x.lanes o.ms o.ce).map fun g => (g, ⟨at_ b g, at_ (b + 1024) g, at_ (b + 2048) g⟩, 0))) s

def execQst (_ : VSlot) (o : VOp) (s : State) : Out State :=
  syllable (fun e m => do
    let b ← planeBase e o
    let _ ← forLanes (fun g => readTriple e o.d.toNat g) (e.x.lanes o.ms o.ce)
    let put (k : Core) (g : Nat) : Core :=
      let t := e.x.qlane o.d.toNat g
      ((k.setPadWord o.f.toNat (laneOffset b g) (.ofNat 64 t.w)).setPadWord o.f.toNat (laneOffset (b + 1024) g) (.ofNat 64 t.mean)).setPadWord
        o.f.toNat (laneOffset (b + 2048) g) (.ofNat 64 t.m2)
    .ok (m.onCore (coreOf e.c) fun k => (e.x.lanes o.ms o.ce).foldl put k)) s

end Sys2Proof.Machine
end

