-- ==== Sys2Proof/Machine/Waits.lean ====
section
/-! DEFINITION. Waits.lean: `wait`, its class counters and watermarks, and the causes it delivers (04_scalar_control_system.md R99; 08 R193, R203, R204). -/

namespace Sys2Proof.Machine

/-- The least identifier of a channel whose transfer has not completed, or XNEXT (08 R193). -/
def Ctx.xwm (x : Ctx) (ch : Nat) : Nat :=
  match ((x.xfers.filter fun t => t.ch == ch && match t.kind with
      | .fire _ _ => false
      | _ => true).map (·.id)).min? with
  | some i => i
  | none => (x.cr (0x34 + ch)).toNat

/-- The matrix commands of a context, follow-on commands included (07 R187, R191; 08 R205). -/
def Machine.matrixCount (m : Machine) (c : Nat) : Nat :=
  let k := m.core (coreOf c)
  (k.mq.filter fun q => q.ctx == c).length + (match k.mrun with
    | some r => if r.1.ctx = c then 1 else 0
    | none => 0) + (m.ctx c).retained.length + ((m.xfersOf c).filter fun t => t.follow.isSome).length

/-- The transfer copies a tile to a contribution area (20 R406). -/
def Xfer.isFire (t : Xfer) : Bool := match t.kind with
  | .fire _ _ => true
  | _ => false

/-- A class counter (R99). -/
def Machine.classCount (m : Machine) (c cls : Nat) : Nat :=
  let x := m.ctx c
  match cls with
  | 4 => m.matrixCount c
  | 5 => (x.msgs.filter fun t => t.send && t.fault.isNone).length + (x.fires.filter fun t => t.fault.isNone).length + (x.xfers.filter Xfer.isFire).length
  | 6 => (x.msgs.filter fun t => !t.send && t.fault.isNone).length
  | 7 => x.kvops.length
  | _ => (x.xfers.filter fun t => t.ch == cls && !t.isFire).length

/-- The causes of a context's operations that are not yet raised, by class and, for transfers, channel and identifier, in issue order. -/
def Ctx.unraised (x : Ctx) : List (Nat × Nat × Nat × Cause) :=
  (x.xfers.filterMap fun t => if t.raised then none else t.fault.map fun k => (t.seq, if t.isFire then 5 else t.ch, t.id, k)) ++
    (x.kvops.filterMap fun t => if t.raised then none else t.fault.map fun k => (t.seq, 7, 0, k)) ++
    (x.msgs.filterMap fun t => t.fault.map fun k => (t.seq, if t.send then 5 else 6, 0, k)) ++
    x.fires.filterMap fun t => t.fault.map fun k => (t.seq, 5, 0, k)

/-- The oldest unraised cause among those that a predicate on class and identifier covers. -/
def Ctx.oldestCause (x : Ctx) (cover : Nat → Nat → Bool) : Option Cause :=
  let ks := x.unraised.filter fun t => cover t.2.1 t.2.2.1
  match (ks.map (·.1)).min? with
  | some i => (ks.find? fun t => t.1 == i).map (·.2.2.2)
  | none => none

/-- Raises the oldest covered cause, if any. -/
def Ctx.raiseCovered (x : Ctx) (cover : Nat → Nat → Bool) : Res Unit :=
  match x.oldestCause cover with
  | some k => .error (.trap k)
  | none => .ok ()

/-- Every selected class counts at most `n`. -/
def Machine.classesDone (m : Machine) (c n cls : Nat) : Bool := (List.range 8).all fun i => !bit cls i || m.classCount c i ≤ n

def execWaitCount (a : Src) (cls : BitVec 8) (s : State) : Out State :=
  syllable (fun e m => do
    e.x.raiseCovered fun k _ => bit cls.toNat k
    if e.m0.classesDone e.c (e.x.src a).toNat cls.toNat then .ok m else .error (.hold (.count (e.x.src a).toNat cls.toNat))) s

def execWaitWatermark (a : Src) (ch : BitVec 2) (s : State) : Out State :=
  syllable (fun e m => do
    let n := (e.x.src a).toNat
    e.x.raiseCovered fun k i => k == ch.toNat && i ≤ n
    if n < e.x.xwm ch.toNat then .ok m else .error (.hold (.watermark n ch.toNat))) s

end Sys2Proof.Machine
end

