-- ==== Sys2Proof/Machine/Sched.lean ====
section
/-! DEFINITION. Sched.lean: `nxt`, `end.nxt`, and the landing of coordinates (04_scalar_control_system.md R95-R98; 11 R262-R266). -/

namespace Sys2Proof.Machine

def execNxt (n : BitVec 2) (s : State) : Out State :=
  syllable (fun e m => .ok (if e.x.wantsCoord n.toNat then m.requestFor e.c n.toNat else m)) s

/-- Coordinates of cancelled requests go back to the head of the core's own table (R98). -/
def Machine.cancelRequests (m : Machine) (c : Nat) : Machine :=
  let x := m.ctx c
  let back := x.nxt.filterMap fun p => p.val.bind fun w => if bit w.toNat 63 then none else some w
  let m := m.setCtx c { x with nxt := [] }
  match x.launch with
  | none => m
  | some li => back.reverse.foldl (fun m w => m.giveBack li (coreOf c) w) m

/-- A context leaves its operator (11 R266; 07 R177, R183): its flags join the graph's (26 R431). -/
def Machine.leave (m : Machine) (c : Nat) : Machine :=
  let m := m.cancelRequests c
  let x := m.ctx c
  let m := m.setCtx c { x with st := .retired, tDef := 0, accHeld := 0, lq := [] }
  match x.launch with
  | none => m
  | some li =>
    match m.launch li with
    | none => m
    | some l =>
      let open_ := match m.ckGroup c with
        | some (r, _) => if m.staged.any (fun t => t.x == r) || m.cores.any (fun k => k.2.path.any fun e => e.stage == some r) then [(r, bits (m.nat (grb m + 64 * r) 64) 224 32 + 1)] else []
        | none => []
      m.setLaunch li { l with flg := l.flg ||| bits (x.cr 0x01).toNat 16 5, open_ := l.open_ ++ open_ }

/-- `end.nxt` (R98). Of a failed launch only the task in progress runs out: the context then leaves, whatever tc1 holds (11 R260). -/
def execEndNxt (s : State) : Out State :=
  syllable (fun e m => do
    let failed := ((e.x.launch.bind m.launch).map Launch.failed).getD false
    if e.x.tcreg 1 = tcEmpty ∧ failed = false then .error (.hold .coord)
    else
      let x := m.ctx e.c
      let t0 := e.x.tcreg 1
      let x := (((x.setTc 0 t0).setTc 1 (e.x.tcreg 2)).setTc 2 (e.x.tcreg 3)).setTc 3 tcEmpty
      let x := { x with nxt := x.nxt.map fun p => { p with reg := p.reg - 1 }, tasks := x.tasks ++ [x.ti] }
      if t0 = tcEnd ∨ failed = true then .ok ((m.setCtx e.c x).leave e.c)
      else
        let entry := ((x.launch.bind m.launch).map Launch.entry).getD m.bun.pc.toNat
        let x := { x.setCr 0x24 0 with ti := bits t0.toNat 40 23, stage0 := true }
        .ok { (m.setCtx e.c x) with bun := { m.bun with next := some (.ofNat 64 entry) } }) s

/-- A waiting request is the first of its core, in the order in which the core made them (11 R265). -/
def Machine.firstAsked (m : Machine) (c : Nat) (q : CoordReq) : Bool :=
  (List.range 4).all fun j =>
    let d := 4 * coreOf c + j
    match (m.ctx d).nxt.find? fun q => q.val.isNone with
    | some r => if d = c then r == q else q.asked.toNat < r.asked.toNat || (q.asked == r.asked && c < d)
    | none => true

/-- A bound context whose fills are complete is ready once tc0 has landed (10 R240). -/
def Ctx.bindDone (x : Ctx) : Ctx := if x.st = .bound ∧ x.filled = true ∧ x.tcreg 0 ≠ tcEmpty then { x with st := .ready } else x

/-- The coordinate that a context's request for tcN has taken lands; core clocks pass until it is due (R97). A request that still
waits is tried again, the first of its core first. -/
def Machine.landCoord (m : Machine) (c n : Nat) : Machine :=
  let x := m.ctx c
  match x.nxt.find? fun q => q.reg == n with
  | none => m
  | some q =>
    match q.val with
    | some w =>
      let m := m.setCtx c ({ x with nxt := x.nxt.erase q }.setTc n w).bindDone
      m.onCore (coreOf c) fun k => { k with cycle := if k.cycle.toNat < q.due.toNat then q.due else k.cycle }
    | none =>
      if m.firstAsked c q then
        let r := m.request c
        match r.2 with
        | none => m
        | some p => r.1.onCtx c fun x => { x with nxt := x.nxt.map fun r => if r = q then m.served (coreOf c) q.reg p else r }
      else m

def execCoordLanding (c : Nat) (n : BitVec 2) (s : State) : Out State := .next { s with m := s.m.landCoord c n.toNat }

end Sys2Proof.Machine
end

