-- ==== Sys2Proof/Machine/Tens.lean ====
section
/-! DEFINITION. Tens.lean: tensor identifier entries, codebook tables, and ranges of virtual memory that an instruction reads or writes whole (07_tiles_and_matrix_array.md R171-R174; 02 R26, R42, R47; 03 R59). -/

namespace Sys2Proof.Machine

/-- Fields of a tensor identifier entry (R172). -/
def entScale (e : Nat) : Nat := bits e 0 64
def entFmt (e : Nat) : Nat := bits e 64 4
def entRank (e : Nat) : Nat := bits e 68 5
def entV (e : Nat) : Bool := bit e 75
def entCb (e : Nat) : Nat := bits e 76 4
def entExt (e i : Nat) : Nat := bits e (128 + 56 * i) 24
def entStr (e i : Nat) : Int := sgn 32 (bits e (152 + 56 * i) 32)
def entScaled (e : Nat) : Bool := entScale e != 0

/-- The stride rule of packed formats for a width (R26). -/
def strideOk (w e : Nat) : Bool := (List.range (entRank e)).all fun i => i == 0 || (w * entStr e i) % 8 == 0

/-- What a `tidw` of an entry with V = 1 asks for (R173). -/
def entOk (e : Nat) : Bool :=
  !entV e ||
    (entFmt e < 12 && 1 ≤ entRank e && entRank e ≤ 16 && bits e 73 2 == 0 && bits e 80 48 == 0 && (entCb e == 0 || entFmt e == 10) &&
      ((List.range 16).all fun i => if i < entRank e then entExt e i != 0 else bits e (128 + 56 * i) 56 == 0) &&
      (entFmt e != 10 || strideOk 4 e) &&
      (!entScaled e || ([4, 5, 8, 9, 10].contains (entFmt e) && entExt e 0 % 32 == 0)))

/-- An entry of the context's table. -/
def Ctx.entry (x : Ctx) (n : Nat) : Nat := (SMap.get 0 x.tid n).toNat

/-- An entry that an instruction uses: valid, and its strides whole bytes under the FMT captured (R174; R26). -/
def Ctx.useEntry (x : Ctx) (n : Nat) : Res Nat := do
  let e := x.entry n
  check (entV e && (entFmt e != 9 || strideOk x.nf.w e)) 0x16 n
  .ok e

/-- A codebook table as its 32 bytes, table 0 being preset (R42, R43). -/
def Ctx.codebook (x : Ctx) (t : Nat) : Nat :=
  if t = 0 then leNat (table0.flatMap fun c => leBytes 2 c) else (SMap.get 0 x.cb t).toNat

/-- The sixteen BF16 codes of a table. -/
def tableCodes (t : Nat) : List Nat := (List.range 16).map fun i => bits t (16 * i) 16

/-- A table's entries when it is used by a CB4 entry. -/
def Ctx.entryTable (x : Ctx) (e : Nat) : Nat := if entFmt e = 10 then x.codebook (entCb e) else 0

/-! ### Ranges of virtual memory -/

/-- `n` bytes at a virtual address, read at home in pieces that lie in one line; ordinary load checks (04 R105). -/
def Machine.readRange (m : Machine) (c va n : Nat) : Nat → Res (Machine × List Byte)
  | 0 => .ok (m, [])
  | fuel + 1 => do
    if n = 0 then return (m, [])
    let len := min n (128 - va % 128)
    let (m, p) ← m.access (coreOf c) va 1 .load
    let (m, bs) ← atAddress va (m.readLine c p len)
    let (m, rest) ← Machine.readRange m c (va + len) (n - len) fuel
    .ok (m, bs ++ rest)

/-- The same read for a fill (07 R171): bytes outside the damper's window are not filled, and DAMPER is raised at the context's first bundle (10 R256; 21 R416). -/
def Machine.fillRange (m : Machine) (c va n : Nat) : Nat → Res (Machine × List Byte)
  | 0 => .ok (m, [])
  | fuel + 1 => do
    if n = 0 then return (m, [])
    let len := min n (128 - va % 128)
    let (m, bs) ← match m.readRange c va len 2 with
      | .error (.trap k) => if k.blocked then .ok (m.deferDamper c k, List.replicate len 0) else .error (.trap k)
      | r => r
    let (m, rest) ← Machine.fillRange m c (va + len) (n - len) fuel
    .ok (m, bs ++ rest)

/-- The translations of a range for stores, in the pieces of its lines. -/
def Machine.storeRange (m : Machine) (c va n : Nat) : Nat → Res (Machine × List (Phys × Nat))
  | 0 => .ok (m, [])
  | fuel + 1 => do
    if n = 0 then return (m, [])
    let len := min n (128 - va % 128)
    let (m, p) ← m.access (coreOf c) va 1 .store
    check p.cri.isNone 0x20 va
    let (m, rest) ← Machine.storeRange m c (va + len) (n - len) fuel
    .ok (m, (p, len) :: rest)

/-- Bytes stored to a range, which is checked whole before any byte is written. -/
def Machine.writeRange (m : Machine) (c va : Nat) (bs : List Byte) : Res Machine := do
  let (m, ps) ← m.storeRange c va bs.length (bs.length / 128 + 2)
  .ok (ps.foldl (fun (a : Machine × List Byte × Nat) p =>
    (a.1.store c a.2.2 p.1 (a.2.1.take p.2) (a.1.stageOf c a.2.2 p.1.key), a.2.1.drop p.2, a.2.2 + p.2)) (m, bs, va)).1

/-- The 8 KiB at KBASE in the constant store (03 R59). -/
def Machine.fillKonst (m : Machine) (c kbase : Nat) : Res Machine := do
  let (m, bs) ← m.fillRange c kbase 8192 130
  .ok (m.onCtx c fun x => { x with konst := SMap.setAll 0 [] ((List.range 1024).map fun i => (i, .ofNat 64 (leNat ((bs.drop (8 * i)).take 8)))) })

end Sys2Proof.Machine
end

