-- ==== Sys2Proof/Machine/Window.lean ====
section
/-! DEFINITION. Window.lean: the memory window of a transfer and the layouts of its elements in a tile (08_copy_channels.md R199, R200, R207; 07 R175, R180). -/

namespace Sys2Proof.Machine

/-- Fields of a tile descriptor (07 R175). -/
def tdOff (d : Nat) : Nat := bits d 0 21
def tdRowb (d : Nat) : Nat := bits d 42 22
def tdPitch (d : Nat) : Nat := bits d 74 22
def tdRows (d : Nat) : Nat := bits d 96 16
def tdG (d : Nat) : Nat := bits d 118 2
def tdTid (d : Nat) : Nat := bits d 120 8

/-- A well-formed descriptor (07 R176). -/
def tdOk (d : Nat) : Bool :=
  bits d 21 21 == 0 && bits d 64 10 == 0 && bits d 112 6 == 0 && 1 ≤ tdRows d && tdRowb d % 8 == 0 && tdPitch d % 8 == 0 && tdOff d % 8 == 0 &&
    8 ≤ tdRowb d && (tdRows d ≤ 1 || tdRowb d ≤ tdPitch d) && tdOff d + (tdRows d - 1) * tdPitch d + tdRowb d ≤ 2 ^ 21

/-- A descriptor covers scratchpad banks only (01 R18). -/
def Core.tileOk (k : Core) (d : Nat) : Bool :=
  (List.range 128).all fun i =>
    k.bank == [] || SMap.get 0 k.bank (16 * (i / 16) + i % 16) == 0 ||
      !((List.range (tdRows d)).any fun r => (List.range (tdRowb d / 8)).any fun j =>
        let u := (tdOff d + r * tdPitch d) / 8 + j
        tdG d == i % 16 / 4 && u / 4 % 8 == i / 16 && u % 4 == i % 4)

/-- A byte of a bank group. -/
def Core.padByte (k : Core) (g off : Nat) : Byte := .ofNat 8 (bits (SMap.get 0 k.pad (2 ^ 18 * g + off / 8)).toNat (8 * (off % 8)) 8)
def Core.setPadByte (k : Core) (g off : Nat) (b : Byte) : Core :=
  let i := 2 ^ 18 * g + off / 8
  let w := (SMap.get 0 k.pad i).toNat
  { k with pad := SMap.set 0 k.pad i (.ofNat 64 (w - bits w (8 * (off % 8)) 8 * 2 ^ (8 * (off % 8)) + b.toNat * 2 ^ (8 * (off % 8)))) }

/-- `w` bits of a bank group at a bit offset, and their replacement. -/
def Core.padBits (k : Core) (g bitOff w : Nat) : Nat :=
  let lo := bitOff / 8
  let n := (bitOff % 8 + w + 7) / 8
  bits (leNat ((List.range n).map fun i => k.padByte g (lo + i))) (bitOff % 8) w

def Core.setPadBits (k : Core) (g bitOff w v : Nat) : Core :=
  let lo := bitOff / 8
  let n := (bitOff % 8 + w + 7) / 8
  let old := leNat ((List.range n).map fun i => k.padByte g (lo + i))
  let new := old - bits old (bitOff % 8) w * 2 ^ (bitOff % 8) + v % 2 ^ w * 2 ^ (bitOff % 8)
  ((leBytes n new).zipIdx).foldl (fun k p => k.setPadByte g (lo + p.2) p.1) k

/-- Products per PE per cycle of a format (02 R50; 07 R180). -/
def pePer (code : Nat) : Nat :=
  if code = 0 then 1 else if code = 1 then 2 else if code = 2 ∨ code = 3 then 4 else if code = 10 then 16 else 8

/-- An entry's dimensions P and Q exchanged (R207). -/
def entSwap (e p q : Nat) : Nat :=
  let dp := bits e (128 + 56 * p) 56
  let dq := bits e (128 + 56 * q) 56
  e - dp * 2 ^ (128 + 56 * p) - dq * 2 ^ (128 + 56 * q) + dq * 2 ^ (128 + 56 * p) + dp * 2 ^ (128 + 56 * q)

/-- Elements of an entry's window. -/
def entCount (e : Nat) : Nat := (List.range (entRank e)).foldl (fun n i => n * entExt e i) 1

/-- The element position of logical element `i` (R199). -/
def entPos (e : Nat) : Nat → Nat → Nat → Int
  | 0, _, _ => 0
  | n + 1, d, i => entStr e d * (i % entExt e d : Nat) + entPos e n (d + 1) (i / entExt e d)

/-- The bit position of a window's element from bit 0 of the base byte (R199). -/
def elemBit (w e i : Nat) : Int := w * entPos e (entRank e) 0 i

/-- The virtual address of a window's element. -/
def elemAddr (base w e i : Nat) : Nat := wrap 64 (base + (elemBit w e i) / 8)

/-- The least and the greatest position of a window's elements. -/
def entSpan (e : Nat) : Int × Int :=
  (List.range (entRank e)).foldl (fun r i =>
    let t := entStr e i * (entExt e i - 1 : Nat)
    (r.1 + min 0 t, r.2 + max 0 t)) (0, 0)

/-- A window touches a byte range of virtual memory: within its span, and then element by element. -/
def windowTouches (base w e va len : Nat) : Bool :=
  let s := entSpan e
  let lo : Int := base + w * s.1 / 8
  let hi : Int := base + (w * (s.2 + 1) + 7) / 8
  (decide (lo < va + len) && decide ((va : Int) < hi)) &&
    (List.range (entCount e)).any fun i =>
      let b : Int := base * 8 + elemBit w e i
      decide (b < 8 * (va + len)) && decide ((8 * va : Int) < b + w)

/-- The scale bytes of a transfer's window: their address and number (R200). -/
def Xfer.scaleSpan (t : Xfer) : Nat × Nat :=
  if entScaled t.mEnt then ((entScale t.mEnt + t.aux / 2 ^ 32) % 2 ^ 64, ceilDiv (entCount t.mEnt) 32) else (0, 0)

/-- A transfer touches a byte range of virtual memory: elements of its window, or its scale bytes (R199, R200). -/
def Xfer.touches (t : Xfer) (va len : Nat) : Bool :=
  windowTouches t.base (codeWidth (.ofFmt t.fmt.toNat) (entFmt t.mEnt)) t.mEnt va len ||
    (t.scaleSpan.1 < va + len && va < t.scaleSpan.1 + t.scaleSpan.2)


/-- The width of a transfer's elements in memory (R198). -/
def Xfer.mw (t : Xfer) : Nat := codeWidth (.ofFmt t.fmt.toNat) (entFmt t.mEnt)

/-- The ranges of virtual memory that a transfer touches: the span of its window, and its scale bytes (R200, R202). -/
def Xfer.spans (t : Xfer) : List (Int × Int) :=
  let s := entSpan t.mEnt
  [((t.base : Int) + t.mw * s.1 / 8, (t.base : Int) + (t.mw * (s.2 + 1) + 7) / 8), ((t.scaleSpan.1 : Int), (t.scaleSpan.1 : Int) + t.scaleSpan.2)]

/-- The contribution area that a fire copies its tile to: physical bytes in local memory (20 R406). -/
def Xfer.area (t : Xfer) : Nat × Nat := (t.base, if t.lay = 2 then 3072 else tdRows t.desc * tdRowb t.desc)

/-- The memory that a transfer of a context touches, as keys and lengths. -/
def Machine.keysOf (m : Machine) (c : Nat) (t : Xfer) : List (Nat × Nat) := match t.kind with
  | .fire _ _ => [t.area]
  | _ => (t.spans.filter fun s => decide (s.1 < s.2)).flatMap fun s => m.spanKeys (spaceBase m (coreOf c) + s.1.toNat) (s.2 - s.1).toNat

/-- A fire's copy and another transfer of its context, the later of which waits, meet in memory (R202; 20 R406). -/
def Machine.fireMeets (m : Machine) (c : Nat) (t u : Xfer) : Bool :=
  let fire (t : Xfer) : Bool := match t.kind with
    | .fire _ _ => true
    | _ => false
  (fire t || fire u) && (m.keysOf c t).any fun a => (m.keysOf c u).any fun b => overlaps a.1 a.2 b.1 b.2

/-- A transfer of the context over bytes of an access, not complete: a scalar access waits for every such transfer (R105), a queued load for those that write memory (05 R153). -/
def Machine.tileOver (m : Machine) (c : Nat) (every : Bool) (va len : Nat) : Bool :=
  (m.xfersOf c).any fun t => match t.kind with
    | .fire _ _ => (m.spanKeys (spaceBase m (coreOf c) + va) len).any fun p => overlaps p.1 p.2 t.area.1 t.area.2
    | .tst | .ttrans true => t.touches va len
    | _ => every && t.touches va len

/-- The group bit offset of window element `i` in a tile under a layout (R199): rows of EXT_0 elements, the B layout, or a plane of a triple. -/
def tileBit (lay desc m w i : Nat) : Nat :=
  let x0 := entExt m 0
  if lay = 1 then
    let n := x0 / 32
    let k := i % x0
    let j := i / x0
    8 * (tdOff desc + k / n * tdPitch desc) + w * (n * j + k % n)
  else 8 * (tdOff desc + i / x0 * tdPitch desc) + w * (i % x0)

/-- The group offsets of the three words of triple `g` (06 R166). -/
def tripleOffs (off g : Nat) : List Nat :=
  let o := off + 256 * (g % 16 / 4) + 32 * (g / 16) + 8 * (g % 4)
  [o, o + 1024, o + 2048]

/-- Data rows of a window in a tile (R199). -/
def dataRows (lay m : Nat) : Nat := if lay = 1 then 32 else if lay = 2 then 12 else entCount m / entExt m 0

/-- The group offset of scale byte β, after the data rows (R200). -/
def scaleOff (lay desc m beta : Nat) : Nat := tdOff desc + (dataRows lay m + beta / 256) * tdPitch desc + beta % 256

end Sys2Proof.Machine
end

