-- ==== Sys2Proof/Machine/LoadQ.lean ====
section
/-! DEFINITION. LoadQ.lean: the address slot: load queues, scratchpad access and strided stores (05_vector_lanes.md R146-R154). -/

namespace Sys2Proof.Machine

/-- Bytes and sign of an SZ code (04 R104). -/
def szBytes (sz : Nat) : Nat := if sz = 3 then 8 else 2 ^ (sz % 4)
def szExtend (sz x : Nat) : Word := if sz < 4 then word (sgn (8 * szBytes sz) x) else .ofNat 64 x

/-- A push of the load-address queue (R149, R150). Pops of the same bundle make room. -/
def pushLoad (sz : BitVec 3) (ms : BitVec 4) (ce : BitVec 8) (addr : Env → Nat → Int) (s : State) : Out State :=
  syllable (fun e m => do
    check (decide (e.x.lq.length < 64 + m.bun.pops)) 0x1B 0
    let on := e.x.lanes ms ce
    let q : LqEntry := { sz := sz.toNat, ce := ce.toNat, lanes := on.foldl (fun n g => n + 2 ^ g) 0, pc := m.bun.pc, ti := e.x.ti,
                         addrs := (List.range 128).map fun g => wrap 64 (addr e g),
                         st := if on = [] then .resolved else .queued, data := if on = [] then List.replicate 128 0 else [] }
    .ok { (m.onCtx e.c fun x => { x with lq := x.lq ++ [q] }) with bun := { m.bun with pushed := 1 } }) s

/-- base = s[A] + B. -/
def lqBase (e : Env) (a : Reg) (b : Src) : Int := (e.x.sreg a + e.x.src b).toNat

def execLq (sz : BitVec 3) (ms : BitVec 4) (ce : BitVec 8) (a : Reg) (b : Src) (s : State) : Out State :=
  pushLoad sz ms ce (fun e g => lqBase e a b + szBytes sz.toNat * g) s
def execLqs (sz : BitVec 3) (ms : BitVec 4) (ce : BitVec 8) (a : Reg) (b : Src) (c : Reg) (s : State) : Out State :=
  pushLoad sz ms ce (fun e g => lqBase e a b + (e.x.sreg c).toNat * g) s
def execLqg (sz : BitVec 3) (ms : BitVec 4) (ce : BitVec 8) (a : Reg) (b : Src) (c : Reg) (s : State) : Out State :=
  pushLoad sz ms ce (fun e g => lqBase e a b + szBytes sz.toNat * (e.x.vreg c.toNat g).toInt) s

/-- A lane's cause becomes the entry's tag, and the lanes before it keep their data (16 R332); a hold leaves the entry as it is. -/
def Machine.lqStop (m : Machine) (c : Nat) (q : LqEntry) (g : Nat) : Stop → Machine × LqEntry
  | .trap k => (m.discard (coreOf c) k, { q with st := .resolved, tag := some (k.code, k.i0.getD 0, g), tag3 := k.i3, again := false })
  | .hold h => (m.lostRoute c h, q)

/-- The checks of R105 on the accessed lanes of a queued entry that have no data yet, in ascending g: it is performed next, or the first failing lane sets its tag (R149, R150; 16 R332). -/
def lqTranslate (c : Nat) (q : LqEntry) : List Nat → Machine → Machine × LqEntry
  | [], m => (m, { q with st := .performing })
  | g :: gs, m =>
    if bit q.lanes g then
      match m.access (coreOf c) (q.addrs.getD g 0) (szBytes q.sz) .load with
      | .ok (m, _) => lqTranslate c q gs m
      | .error s => m.lqStop c q g s
    else lqTranslate c q gs m

/-- Data of further lanes of an entry that is performed (R149, R150). -/
def lqLanes (c : Nat) (q : LqEntry) : List Nat → Machine → Machine × LqEntry
  | [], m => (m, if q.data.length = 128 then { q with st := .resolved, tag := none, again := false } else q)
  | g :: gs, m =>
    if bit q.lanes g then
      match m.loadChecked c (q.addrs.getD g 0) (szBytes q.sz) with
      | .ok (m, v) => lqLanes c { q with data := q.data ++ [szExtend q.sz v] } gs m
      | .error s => m.lqStop c q g s
    else lqLanes c { q with data := q.data ++ [0] } gs m

/-- An entry goes on (R149, R153), but not while its context is in service (R152), nor while a tile store of the context over one of its lanes is incomplete, nor, when it is performed again, before the
earlier ones that are (R152): the event lqEntryResolve. It is translated whole; then each event returns the data of one cluster (log 75, DESIGN CHOICE). -/
def Machine.resolveEntry (m : Machine) (c i : Nat) : Machine :=
  let x := m.ctx c
  match x.lq[i]? with
  | some q =>
    if x.depth ≠ 0 ∨ q.st = .resolved ∨ (q.again = true ∧ (x.lq.take i).any (fun p => p.again && p.st != .resolved)) ∨
        (List.range 128).any (fun g => bit q.lanes g && m.tileOver c false (q.addrs.getD g 0) (szBytes q.sz)) then m
    else
      let r := if q.st = .queued then lqTranslate c q ((List.range 128).drop q.data.length) m
        else lqLanes c q ((List.range (16 - q.data.length % 16)).map (q.data.length + ·)) m
      r.1.onCtx c fun y => { y with lq := y.lq.set i r.2 }
  | none => m

def execLqEntryResolve (c i : Nat) (s : State) : Out State := .next { s with m := s.m.resolveEntry c i }

/-- The offset s[A] + B of a scratchpad access, a multiple of 256 (R147) unless CE = 0 makes the syllable a no-op (R146; 03 R61). -/
def padBase (e : Env) (ce : BitVec 8) (a : Reg) (b : Src) : Res Nat := do
  let o := (e.x.sreg a + e.x.src b).toNat
  check (ce == 0 || o % 256 == 0) 0x0A o
  .ok o

/-- Lanes read from scratchpad into a vector register, landing 3 bundles after issue. -/
def Machine.padLoad (e : Env) (m : Machine) (g : BitVec 2) (ce : BitVec 8) (d : Reg) (offs : List (Nat × Nat)) : Res Machine := do
  let k := e.m0.core (coreOf e.c)
  padCheck k g.toNat (offs.map (·.2))
  if ce = 0 then .ok m
  else m.push e { off := 3, file := .v, reg := d.toNat, ce := ce.toNat, writes := offs.map fun p => (128 * d.toNat + p.1, (k.padWord g.toNat p.2).toNat) }

def execVld (g : BitVec 2) (ms : BitVec 4) (ce : BitVec 8) (d a : Reg) (b : Src) (s : State) : Out State :=
  syllable (fun e m => do
    let o ← padBase e ce a b
    m.padLoad e g ce d ((e.x.lanes ms ce).map fun l => (l, laneOffset o l))) s

def execVst (g : BitVec 2) (ms : BitVec 4) (ce : BitVec 8) (d a : Reg) (b : Src) (s : State) : Out State :=
  syllable (fun e m => do
    let o ← padBase e ce a b
    let on := e.x.lanes ms ce
    padCheck (e.m0.core (coreOf e.c)) g.toNat (on.map (laneOffset o))
    .ok (m.onCore (coreOf e.c) fun k => on.foldl (fun k l => k.setPadWord g.toNat (laneOffset o l) (e.x.vreg d.toNat l)) k)) s

/-- `vldg` (R147). The lanes are checked in ascending order, each for ALIGNMENT, whose TRAPINFO0 is the lane's offset, and then for its cluster (log 76, DESIGN CHOICE). -/
def execVldg (g : BitVec 2) (ms : BitVec 4) (ce : BitVec 8) (d a : Reg) (b : Src) (c : Reg) (s : State) : Out State :=
  syllable (fun e m => do
    let o := e.x.sreg a + e.x.src b
    let offs := (e.x.lanes ms ce).map fun l => (l, (o + e.x.vreg c.toNat l).toNat)
    let _ ← forLanes (fun l => do
      let off := (o + e.x.vreg c.toNat l).toNat
      check (off % 8 == 0) 0x0A off
      check (unitCluster off == l / 16) 0x14 off) (e.x.lanes ms ce)
    m.padLoad e g ce d offs) s

/-- `vsts` (R154): every lane is checked before any byte is stored; lanes are stored in ascending g. Like a scalar store it is held behind the
context's earlier tile operations on the same bytes (04 R105; 08 R202). -/
def execVsts (sz : BitVec 2) (ms : BitVec 4) (ce : BitVec 8) (d a : Reg) (b : Src) (c : Reg) (s : State) : Out State :=
  syllable (fun e m => do
    let n := szBytes sz.toNat
    let addr (g : Nat) : Nat := wrap 64 (lqBase e a b + (e.x.sreg c).toNat * g)
    match (e.x.lanes ms ce).find? fun g => e.m0.tileOver e.c true (addr g) n with
    | some g => .error (.hold (.tileOp (addr g) n))
    | none => (e.x.lanes ms ce).foldlM (fun m g =>
      match m.storeChecked e.c (addr g) n (e.x.vreg d.toNat g).toNat with
      | .error (.trap k) => if k.blocked then Except.ok (m.deferDamper e.c { k with i1 := g }) else Except.error (.trap { k with i1 := g })
      | r => r) m) s

end Sys2Proof.Machine
end

