-- ==== Sys2Proof/Machine/Mem.lean ====
section
/-! DEFINITION. Mem.lean: scalar loads and stores, fences and atomics, and the scopes they name (04_scalar_control_system.md R104-R108; 09 R216-R231). -/

namespace Sys2Proof.Machine

/-! ### Scopes and instances -/

/-- An instance as R217 compares them: a context, a core, a die, the contexts of some packages, or everything. -/
inductive Inst where
  | ctx (c : Nat)
  | core (n : Nat)
  | die (p d : Nat)
  | pkgs (ps : List Nat)
  | sys
  deriving DecidableEq, Repr

/-- The packages that a domain group's record lists (14 R303). -/
def Machine.groupPkgs (m : Machine) (x : Nat) : List Nat :=
  let r := m.nat (grb m + 64 * x) 64
  (List.range (bits r 185 9)).map fun k => m.nat (bits r 64 64 + 2 * k) 2 % 512

/-- The instance of a scope code for a context with a DMR value (R216). -/
def Machine.instanceOf (m : Machine) (c dmr sc : Nat) : Inst :=
  match sc with
  | 0 => .ctx c
  | 1 => .core (coreOf c)
  | 2 => .die (selfPkg m) (dieOf c)
  | 3 => .pkgs [selfPkg m]
  | 7 => .sys
  | i => .pkgs (m.groupPkgs (groupRecord c dmr i))

/-- The instance of a bound object, from bytes 8-31 (15 R310). -/
def Machine.objInstance (m : Machine) (v : Nat) : Inst :=
  match objScope v with
  | 2 => .die (bits v 179 9) (bits v 176 3)
  | 3 => .pkgs [bits v 179 9]
  | 4 => .pkgs (m.groupPkgs (128 + bits v 168 8))
  | 5 => .pkgs (m.groupPkgs (384 + bits v 168 8))
  | 6 => .pkgs (m.groupPkgs (640 + bits v 168 8))
  | 7 => .sys
  | _ => .ctx 0

/-- One instance contains another (R217). -/
def Inst.covers : Inst → Inst → Bool
  | .sys, _ => true
  | _, .sys => false
  | .pkgs ps, .pkgs qs => qs.all fun p => ps.contains p
  | .pkgs ps, .die p _ => ps.contains p
  | .die p d, .die q e => p == q && d == e
  | _, _ => false

/-- A domain scope needs its level in DMR.IN (03 R68). -/
def Ctx.scopeOk (x : Ctx) (sc : Nat) : Bool := !(4 ≤ sc && sc ≤ 6) || x.inLevel sc

/-- SCOPE_MISMATCH for a domain scope that the context does not have. -/
def needScope (e : Env) (sc : Scope) : Res Unit := if e.x.scopeOk sc.toNat then .ok () else .error (.trap { code := 0x24 })

/-- An operation at a scope covers a bound object. -/
def Machine.coversObj (m : Machine) (e : Env) (sc : Nat) (v : Nat) : Bool :=
  (m.instanceOf e.c (e.x.cr 0x03).toNat sc).covers (m.objInstance v)

/-! ### Scalar accesses -/

/-- `ld` (R104, R105): performed at issue, landing as an interlocked result. -/
def execLd (sz : BitVec 3) (d a : Reg) (b : Src) (s : State) : Out State :=
  syllable (fun e m => do
    let va := (e.x.sreg a + e.x.src b).toNat
    let n := szBytes sz.toNat
    if e.m0.tileOver e.c true va n then .error (.hold (.tileOp va n))
    else
      let (m, v) ← m.loadChecked e.c va n
      .ok (m.interlock e.c d (szExtend sz.toNat v).toNat va n)) s

def execSt (sz : BitVec 2) (d a : Reg) (b : Src) (s : State) : Out State :=
  syllable (fun e m => do
    let va := (e.x.sreg a + e.x.src b).toNat
    let n := 2 ^ sz.toNat
    if e.m0.tileOver e.c true va n then .error (.hold (.tileOp va n))
    else m.storeChecked e.c va n (bits (e.x.sreg d).toNat 0 (8 * n))) s

/-! ### Fences -/

/-- A transfer that writes memory. -/
def Xfer.writesMem (t : Xfer) : Bool := match t.kind with
  | .tst | .ttrans true => true
  | _ => false

/-- The stores of a context are all performed: none in the store path, no tile store incomplete. Loads are performed at issue, but for queued ones
(R106, R218), of which a resolved one counts as performed even when it holds a fault tag (log 77, DESIGN CHOICE). -/
def Machine.fenceDone (m : Machine) (c cls : Nat) : Bool :=
  let x := m.ctx c
  (cls == 2 || (!(m.core (coreOf c)).path.any (fun p => p.ctx == c) && !(m.xfersOf c).any Xfer.writesMem)) &&
    (cls == 1 || (x.intl == [] && !x.lq.any fun q => q.st != .resolved))

/-- `fence` (R106; 09 R230): a faulted tile store that it waits for delivers its cause. -/
def execFence (cls : BitVec 2) (sc : Scope) (s : State) : Out State :=
  syllable (fun e m => do
    needScope e sc
    if cls ≠ 2 then
      match e.m0.causesOf e.c Xfer.writesMem with
      | k :: _ => .error (.trap k)
      | [] => pure ()
    if e.m0.fenceDone e.c cls.toNat then .ok m else .error (.hold (.fence cls.toNat sc))) s

/-! ### Atomics -/

/-- A write at a serialising point by an atomic step of a context: the core's copy of the line is dropped (09 R211, R231). One that a group stages
waits while no line can hold it (14 R309). -/
def Machine.stagedWrite (m : Machine) (c va : Nat) (p : Phys) (size v : Nat) (stage : Option Nat) : Res Machine := do
  m.needLine stage p.key
  let m := m.performStore { ctx := c, va, key := p.key, bytes := leBytes size v, stage }
  .ok (m.onCore (coreOf c) fun k => k.dropRange p.key size)

/-- One that its group stages where R236 says so. -/
def Machine.atomicWrite (m : Machine) (c va : Nat) (p : Phys) (size v : Nat) : Res Machine := m.stagedWrite c va p size v (m.stageOf c va p.key)

/-- A home read by a context for an atomic step, staged values included (09 R214, R236). -/
def Machine.atomicRead (m : Machine) (c : Nat) (p : Phys) (size : Nat) : Res (Machine × Nat) := do
  let (m, bs) ← m.readHome c p size
  .ok (m, leNat bs)

/-- One atomic step on `size` bytes (R107, R108): the old value, and the new one if the step writes. -/
def Machine.rmw (m : Machine) (e : Env) (sc : Scope) (va size : Nat) (f : Nat → Option Nat) : Res (Machine × Nat) := do
  let n := coreOf e.c
  needScope e sc
  let (m, p) ← m.access n va size .rmw
  check p.cri.isNone 0x20 va
  check (!sysBlockRefused m n p) 0x3B va
  match m.objectOf e.c (p.key / 32 * 32) with
  | some v => if 8 ≤ p.key % 32 || m.coversObj e sc.toNat v then .ok () else .error (.trap { code := 0x24 })
  | none => .ok ()
  let (m, old) ← m.atomicRead e.c p size
  match f old with
  | some v => do
    let m ← m.atomicWrite e.c va p size (v % 2 ^ (8 * size))
    .ok (m, old)
  | none => .ok (m, old)

/-- The new value of an `amo` on a width, and the flags of `fadd` (R107). -/
def amoNew (op : AmoOp) (env : FEnv) (w old b : Nat) : Nat × Nat :=
  let b := b % 2 ^ w
  match op with
  | .add => ((old + b) % 2 ^ w, 0)
  | .and => (old &&& b, 0)
  | .or => (old ||| b, 0)
  | .xor => (old ^^^ b, 0)
  | .min => (if sgn w b < sgn w old then b else old, 0)
  | .max => (if sgn w old < sgn w b then b else old, 0)
  | .minu => (min old b, 0)
  | .maxu => (max old b, 0)
  | .swap => (b, 0)
  | .fadd => Fp.d.add { env with ftz := false, daz := false } false old b

/-- The value that D receives: sign-extended from 32 bits, or 64 bits. -/
def amoOld (w : Bool) (old : Nat) : Nat := if w then (word (sgn 32 old)).toNat else old

def execAmo (op : AmoOp) (w : Bool) (sc : Scope) (d a : Reg) (b : Src) (off : BitVec 32) (s : State) : Out State :=
  syllable (fun e m => do
    let va := (e.x.sreg a + off.signExtend 64).toNat
    let size := if w then 4 else 8
    let b := (e.x.src b).toNat
    if e.m0.tileOver e.c true va size then .error (.hold (.tileOp va size))
    else
      let (m, old) ← m.rmw e sc va size fun old => some (amoNew op e.x.env (8 * size) old b).1
      .ok ((m.onCtx e.c fun x => x.orFlg (amoNew op e.x.env (8 * size) old b).2).interlock e.c d (amoOld w old) va size)) s

def execCas (w : Bool) (sc : Scope) (d a b c : Reg) (off : BitVec 32) (s : State) : Out State :=
  syllable (fun e m => do
    let va := (e.x.sreg a + off.signExtend 64).toNat
    let size := if w then 4 else 8
    if e.m0.tileOver e.c true va size then .error (.hold (.tileOp va size))
    else
      let (m, old) ← m.rmw e sc va size fun old =>
        if old = (e.x.sreg b).toNat % 2 ^ (8 * size) then some (e.x.sreg c).toNat else none
      .ok (m.interlock e.c d (amoOld w old) va size)) s

/-- An interlocked result lands (R84): the event interlockedLanding (log 28, DEDUCED). -/
def Machine.landInterlock (m : Machine) (c i : Nat) : Machine :=
  m.onCtx c fun x =>
    match x.intl[i]? with
    | some k => { ({ x with intl := [k] }.landInterlocks) with intl := x.intl.eraseIdx i }
    | none => x

def execInterlockedLanding (c i : Nat) (s : State) : Out State := .next { s with m := s.m.landInterlock c i }

end Sys2Proof.Machine
end

