-- ==== Sys2Proof/Machine/Scalar.lean ====
section
/-! DEFINITION. Scalar.lean: scalar arithmetic, selection, literals and coordinates (04_scalar_control_system.md R83, R89-R93; 05 R146). -/

namespace Sys2Proof.Machine

/-- A two-source scalar operation (R83, R89). -/
def scalar2 (lat : Nat) (f : Word → Word → Word) (d : Reg) (a b : Src) (s : State) : Out State :=
  scalarResult lat d (fun e => .ok (f (e.x.src a) (e.x.src b))) s

/-- `nop` has no effect (03 R69). -/
def execNop (_ : Slot) (s : State) : Out State := syllable (fun _ m => .ok m) s

def execSAdd (d : Reg) (a b : Src) (s : State) : Out State := scalar2 1 (· + ·) d a b s
def execSSub (d : Reg) (a b : Src) (s : State) : Out State := scalar2 1 (· - ·) d a b s
def execSMul (d : Reg) (a b : Src) (s : State) : Out State := scalar2 2 (· * ·) d a b s

/-- The high half of the signed product. -/
def mulHigh (a b : Word) : Word := word (a.toInt * b.toInt / 2 ^ 64)

/-- The high half of the unsigned product. -/
def mulHighU (a b : Word) : Word := .ofNat 64 (a.toNat * b.toNat / 2 ^ 64)

def execSMulh (d : Reg) (a b : Src) (s : State) : Out State := scalar2 2 mulHigh d a b s
def execSMulhu (d : Reg) (a b : Src) (s : State) : Out State := scalar2 2 mulHighU d a b s

/-- A division: DIV_ZERO for a divisor of 0 (R90). The quotient of −2^63 and −1 wraps to −2^63 and its remainder is 0. -/
def divide (f : Word → Word → Word) (d : Reg) (a b : Src) (s : State) : Out State :=
  scalarResult 16 d (fun e => if e.x.src b = 0 then raise 0x09 0 else .ok (f (e.x.src a) (e.x.src b))) s

def execSDiv (d : Reg) (a b : Src) (s : State) : Out State := divide (fun x y => word (x.toInt.tdiv y.toInt)) d a b s
def execSDivu (d : Reg) (a b : Src) (s : State) : Out State := divide (fun x y => .ofNat 64 (x.toNat / y.toNat)) d a b s
def execSRem (d : Reg) (a b : Src) (s : State) : Out State := divide (fun x y => word (x.toInt.tmod y.toInt)) d a b s
def execSRemu (d : Reg) (a b : Src) (s : State) : Out State := divide (fun x y => .ofNat 64 (x.toNat % y.toNat)) d a b s
def execSAnd (d : Reg) (a b : Src) (s : State) : Out State := scalar2 1 (· &&& ·) d a b s
def execSOr (d : Reg) (a b : Src) (s : State) : Out State := scalar2 1 (· ||| ·) d a b s
def execSXor (d : Reg) (a b : Src) (s : State) : Out State := scalar2 1 (· ^^^ ·) d a b s
def execSAndn (d : Reg) (a b : Src) (s : State) : Out State := scalar2 1 (fun x y => x &&& ~~~y) d a b s
def execSShl (d : Reg) (a b : Src) (s : State) : Out State := scalar2 1 (fun x y => x <<< (y.toNat % 64)) d a b s
def execSShr (d : Reg) (a b : Src) (s : State) : Out State := scalar2 1 (fun x y => x >>> (y.toNat % 64)) d a b s
def execSSra (d : Reg) (a b : Src) (s : State) : Out State := scalar2 1 (fun x y => x.sshiftRight (y.toNat % 64)) d a b s
def execSMin (d : Reg) (a b : Src) (s : State) : Out State := scalar2 1 (fun x y => if y.slt x then y else x) d a b s
def execSMax (d : Reg) (a b : Src) (s : State) : Out State := scalar2 1 (fun x y => if x.slt y then y else x) d a b s
def execSMinu (d : Reg) (a b : Src) (s : State) : Out State := scalar2 1 (fun x y => if y.ult x then y else x) d a b s
def execSMaxu (d : Reg) (a b : Src) (s : State) : Out State := scalar2 1 (fun x y => if x.ult y then y else x) d a b s


def execSCmp (c : Cond) (d : Reg) (a b : Src) (s : State) : Out State :=
  scalar2 1 (fun x y => if condHolds c x y then 1 else 0) d a b s

def execSSel (d : Reg) (a b : Src) (c : Reg) (s : State) : Out State :=
  scalarResult 1 d (fun e => .ok (if e.x.sreg c ≠ 0 then e.x.src a else e.x.src b)) s

def execLi (d : Reg) (a : Src) (s : State) : Out State := scalarResult 1 d (fun e => .ok (e.x.src a)) s

/-- `li.hi`: D := (A[31:0] << 32) OR D[31:0] (R92). -/
def execLiHi (d : Reg) (a : Src) (s : State) : Out State :=
  scalarResult 1 d (fun e => .ok ((e.x.src a <<< 32) ||| (e.x.sreg d &&& 0xFFFFFFFF))) s

/-- `lk` reads the constant store (R92). -/
def execLk (d : Reg) (ix : LkIndex) (s : State) : Out State :=
  scalarResult 1 d (fun e => .ok (match ix with
    | .num i => e.x.konstAt i.toNat
    | .reg r imm => e.x.konstAt (e.x.sreg r + imm.setWidth 64).toNat)) s

/-- `tcrd` reads a coordinate register, or a field of it (R93). -/
def execTcrd (d : Reg) (n : BitVec 2) (f : Option BitField) (s : State) : Out State :=
  scalarResult 1 d (fun e =>
    let t := e.x.tcreg n.toNat
    .ok (match f with
      | none => t
      | some g => .ofNat 64 (bits t.toNat g.lo.toNat (g.wm1.toNat + 1)))) s

def execAadd (d : Reg) (a b : Src) (s : State) : Out State := scalar2 1 (· + ·) d a b s
def execAsub (d : Reg) (a b : Src) (s : State) : Out State := scalar2 1 (· - ·) d a b s
def execAshl (d : Reg) (a b : Src) (s : State) : Out State := scalar2 1 (fun x y => x <<< (y.toNat % 64)) d a b s

end Sys2Proof.Machine
end

