-- ==== Sys2Proof/Machine/Sync.lean ====
section
/-! DEFINITION. Sync.lean: sync objects: binding, acquire, release, barriers and waits on a word (15_barriers_and_sync_objects.md R310-R323; 09 R217-R224). -/

namespace Sys2Proof.Machine

/-- Fields of bytes 8-31 of an object (R310). -/
def objGen (v : Nat) : Nat := bits v 0 64
def objArr (v : Nat) : Nat := bits v 64 24
def objExp (v : Nat) : Nat := bits v 88 24
def objNreg (v : Nat) : Nat := bits v 160 5

/-- A field of a number replaced. -/
def setBits (x lo w v : Nat) : Nat := x - bits x lo w * 2 ^ lo + v % 2 ^ w * 2 ^ lo

/-- The copy of an object that its atomic unit holds, while it is bound (R311). -/
def Machine.holdObject (m : Machine) (key v : Nat) : Machine :=
  { m with objs := SMap.set 0 m.objs key (if bit v 191 then .ofNat 192 v else 0) }

/-- The atomic unit changes an object: its copy, and the memory copy, which a group may stage (R311; 09 R236). -/
def Machine.setObject (m : Machine) (key v : Nat) (stage : Option Nat := none) : Machine :=
  (m.holdObject key v).performStore { ctx := 384, key := key + 8, bytes := leBytes 24 v, stage }

/-- An object changed, and the regions bound: by the open superstep of a group, whose members alone find it so until the commit (09 R236), or for everyone (log 48, DEDUCED). -/
def Machine.putObject (m : Machine) (stage : Option Nat) (key v : Nat) (regions : List (Nat × Nat × Nat)) : Machine :=
  match stage with
  | none => { m with regions }.setObject key v
  | some x =>
    let g := SMap.get {} m.groups x
    let o := (key, v, (regions.filter fun r => r.1 == key).map (·.2))
    { m with groups := SMap.set {} m.groups x { g with objs := (g.objs.filter fun (b : Nat × Nat × List (Nat × Nat)) => b.1 != key) ++ [o] } }.performStore { ctx := 384, key := key + 8, bytes := leBytes 24 v, stage }

/-- The group record that stages a context's change of an object of a scope, while a superstep is open (09 R236). -/
def Machine.stageObject (m : Machine) (c scope : Nat) : Option Nat :=
  (m.ckGroup c).bind fun g => if g.2 ≤ scope ∧ 1 ≤ groupStage m g.1 ∧ groupStage m g.1 ≤ 3 then some g.1 else none

/-- A context's change of an object, and of the regions bound. One that its group stages waits while no line can hold it (14 R309). -/
def Machine.changeObject (m : Machine) (c key v : Nat) (regions : List (Nat × Nat × Nat)) : Res Machine := do
  let stage := m.stageObject c (objScope v)
  m.needLine stage key
  .ok ((m.putObject stage key v regions).onCore (coreOf c) fun k => k.dropRange key 32)

/-- TRAPINFO1 is the object's address (R316). -/
def atObject {α : Type} (va : Nat) (r : Res α) : Res α :=
  match r with
  | .error (.trap k) => .error (.trap { k with i1 := va })
  | r => r

/-- Checks 1, 3 and 4 of R316 on an object's words. -/
def Machine.syncWord (m : Machine) (e : Env) (va align : Nat) (a : Acc) : Res (Machine × Phys) :=
  atObject va do
    check (va % align == 0) 0x0A va
    let (m, p) ← m.access (coreOf e.c) va 8 a
    check p.cri.isNone 0x20 va
    check (a != .rmw || !sysBlockRefused m (coreOf e.c) p) 0x3B va
    .ok (m, p)

/-- Checks 5 and 6 of R316 for an operation at a scope: the object is bound and covered. -/
def Machine.boundAt (m : Machine) (e : Env) (sc : Scope) (va key : Nat) : Res Nat :=
  atObject va (match m.objectOf e.c key with
    | none => raise 0x25 0
    | some v => do
      check (e.x.scopeOk sc.toNat && m.coversObj e sc.toNat v) 0x24 (objScope v)
      .ok v)

/-- The number of a context's group at a domain level, in its DMR (03 R78). -/
def dmrGroup (dmr sc : Nat) : Nat := if 4 ≤ sc ∧ sc ≤ 6 then bits dmr (8 * sc - 16) 8 else 0

/-- A context of a die, with its DMR, lies in the instance of an object (R216). -/
def Machine.inInstanceOf (m : Machine) (die dmr v : Nat) : Bool :=
  let sc := objScope v
  if sc = 2 then bits v 179 9 == selfPkg m && bits v 176 3 == die
  else if sc = 3 then bits v 179 9 == selfPkg m
  else if 4 ≤ sc ∧ sc ≤ 6 then bit dmr sc && dmrGroup dmr sc == bits v 168 8
  else true

def Machine.inInstance (m : Machine) (c : Nat) (v : Nat) : Bool := m.inInstanceOf (dieOf c) ((m.ctx c).cr 0x03).toNat v

/-- The regions bound to an object, as a context finds them: ranges of the addresses of all spaces (R219; 16 R324) (log 14, DEDUCED). -/
def Machine.regionsOf (m : Machine) (c key : Nat) : List (Nat × Nat) :=
  ((m.bindings c).filter fun r => r.1 == key && r.2.2 != 0).map (·.2)

/-- Two ranges of addresses hold one byte of memory: they meet, or their pages map the same memory (R219). -/
def Machine.shares (m : Machine) (a la b lb : Nat) : Bool :=
  overlaps a la b lb || (m.spanKeys a la).any fun p => (m.spanKeys b lb).any fun q => overlaps p.1 p.2 q.1 q.2

/-- The copies of ranges leave a core's L1, and where `far` holds the package's LLC as well: by address range, or all of them above 2 MiB (09 R218). -/
def Machine.dropSpans (m : Machine) (n : Nat) (far : Bool) (rs : List (Nat × Nat)) : Machine :=
  let away (m : Machine) (f : Nat → Bool) : Machine := if far then { m with llc := m.llc.filter fun l => !f l.1 } else m
  if 2 ^ 21 < (rs.map (·.2)).sum then away (m.onCore n fun k => { k with l1 := [], way := [] }) fun _ => true
  else
    rs.foldl (fun m r => (m.spanKeys r.1 r.2).foldl (fun m p => away (m.onCore n fun k => k.dropRange p.1 p.2) fun l => overlaps (l * 128) 128 p.1 p.2) m) m

/-- The copies that an acquire at a scope drops for an object's regions (09 R218). -/
def Machine.dropCopies (m : Machine) (c : Nat) (sc : Nat) (key : Nat) : Machine :=
  if sc < 2 then m else m.dropSpans (coreOf c) (4 ≤ sc) (m.regionsOf c key)

/-- A transfer of a context touches one of some regions: elements or scale bytes of its window lie there, or under other addresses of the same memory its span does. -/
def Machine.inRegions (m : Machine) (c : Nat) (rs : List (Nat × Nat)) (t : Xfer) : Bool :=
  let at_ := spaceBase m (coreOf c)
  !t.isFire && rs.any fun r =>
    if r.1 / 2 ^ 64 = at_ / 2 ^ 64 ∧ t.touches (r.1 % 2 ^ 64) r.2 = true then true
    else (m.spanKeys r.1 r.2).any fun q => t.spans.any fun s => decide (s.1 < s.2) &&
      (pagesOf (at_ + s.1.toNat) (s.2 - s.1).toNat).any fun pg => (pg < r.1 / 4096 || (r.1 + r.2 - 1) / 4096 < pg) && (m.pageKey pg).any fun k => overlaps k 4096 q.1 q.2

/-- A scalar access, a queued load or a store of a context to some regions is not performed (R221). -/
def Machine.regionBusy (m : Machine) (c : Nat) (rs : List (Nat × Nat)) : Bool :=
  let inside (va len : Nat) : Bool := len != 0 && rs.any fun r => m.shares (spaceBase m (coreOf c) + va) len r.1 r.2
  let x := m.ctx c
  (m.core (coreOf c)).path.any (fun p => p.ctx == c && inside p.va p.bytes.length) || x.intl.any (fun i => inside i.va i.len) ||
    x.lq.any fun q => q.st != .resolved && (List.range 128).any fun g => bit q.lanes g && inside (q.addrs.getD g 0) (szBytes q.sz)

/-- R221: a cause of a transfer that a release waits for is delivered; otherwise the release holds until the context's earlier accesses to the object's
regions are performed (log 41, DEDUCED). -/
def Machine.releaseReady (m : Machine) (c key : Nat) (sc : Scope) (arrives : Bool := false) : Res Unit :=
  let rs := m.regionsOf c key
  match m.causesOf c (m.inRegions c rs) with
  | k :: _ => .error (.trap k)
  | [] => if (m.xfersOf c).any (m.inRegions c rs) ∨ m.regionBusy c rs = true then .error (.hold (.regions key sc arrives)) else .ok ()

/-- The value that met the condition of an `acq` or a `waitf` while it was held, or else the one just read (R317, R322). -/
def Ctx.wordSeen (x : Ctx) (v : Nat) : Nat := x.seen.getD v

/-- An `acq` or `waitf` returns: what it saw while it was held is forgotten. -/
def Machine.forgetSeen (m : Machine) (e : Env) : Machine := if e.x.seen.isNone then m else m.onCtx e.c fun x => { x with seen := none }

def execAcq (sc : Scope) (d a : Reg) (b : Src) (s : State) : Out State :=
  syllable (fun e m => do
    let va := (e.x.sreg a).toNat
    let (m, p) ← m.syncWord e va 32 .rmwLoad
    let _ ← m.boundAt e sc va p.key
    let (m, v) ← m.atomicRead e.c p 8
    let v := e.x.wordSeen v
    let b := (e.x.src b).toNat
    if b ≤ v then .ok (((m.forgetSeen e).dropCopies e.c sc.toNat p.key).interlock e.c d v)
    else do
      check (b - v ≤ 2 ^ 32) 0x26 v va
      .error (.hold (.version p.key b))) s

/-- `rel` (R318): in a checkpointed group the new version is staged, whether the group's level is the object's scope, wider or, by 09 R236, narrower. -/
def execRel (sc : Scope) (d a : Reg) (s : State) : Out State :=
  syllable (fun e m => do
    let va := (e.x.sreg a).toNat
    let (m, p) ← m.syncWord e va 32 .rmw
    let _ ← m.boundAt e sc va p.key
    m.releaseReady e.c p.key sc
    let (m, v) ← m.atomicRead e.c p 8
    check (v != 2 ^ 64 - 1) 0x26 v va
    let m ← m.stagedWrite e.c va p 8 (v + 1) (m.stageObject e.c 7)
    .ok (m.interlock e.c d (v + 1))) s

/-- The keys that the BAR of a group's record can name: that address in local memory or, for a domain group, in the memory of another member package (14 R303) (log 32, DESIGN CHOICE). -/
def Machine.barKeys (m : Machine) (x : Nat) : List Nat :=
  let b := m.word (grb m + 64 * x + 32)
  b :: if x < 128 then [] else ((m.groupPkgs x).filter (· != selfPkg m)).map fun p => (3 + p) * 2 ^ 46 + b

/-- The barrier object is the one named by the checkpointed group of a context (14 R302). -/
def Machine.isGroupBar (m : Machine) (c key : Nat) : Bool :=
  match m.ckGroup c with
  | some (x, _) => (m.barKeys x).contains key
  | none => false

/-- A `bar` at a scope is the barrier of a group of its context (14 R302): of a checkpointed one only on the object that its record names. -/
def Machine.endsSuperstep (m : Machine) (c key : Nat) (sc : Scope) : Bool :=
  m.isGroupBar c key || (1 ≤ sc.toNat && sc.toNat ≤ 6 && (m.ctx c).inLevel sc.toNat && (m.ckGroup c).map (·.2) != some sc.toNat)

/-- What the arrival at a barrier waits for (R221), and at a group's barrier (14 R302) all transfers, sends, fires and stores of the context: a covered cause is raised before it holds. -/
def Machine.barReady (m : Machine) (c key : Nat) (sc : Scope) : Res Unit :=
  if m.endsSuperstep c key sc then do
    (m.ctx c).raiseCovered fun k _ => k < 4 || k == 5
    m.releaseReady c key sc true
    if m.classesDone c 0 0x2F && !((m.core (coreOf c)).path.any fun p => p.ctx == c) then .ok () else .error (.hold (.regions key sc true))
  else m.releaseReady c key sc true

/-- The barrier whose departure is the commit of a context's group (R319; 14 R302): that of a group that has not failed (14 R304). -/
def Machine.commitsAt (m : Machine) (c key : Nat) : Bool := m.isGroupBar c key && (m.ckGroup c).any fun g => groupStage m g.1 != 6

/-- `bar` (R319): the arrival; the context then stays in departure (R320). The last arrival at a checkpointed group's barrier
leaves VER and GEN to the commit (14 R306). -/
def execBar (sc : Scope) (d a : Reg) (s : State) : Out State :=
  syllable (fun e m => do
    let va := (e.x.sreg a).toNat
    let (m, p) ← m.syncWord e va 32 .rmw
    check (!(m.objectOf e.c p.key).any fun o => objExp o == 0) 0x25 5 va
    let o ← m.boundAt e sc va p.key
    m.barReady e.c p.key sc
    let grp := m.commitsAt e.c p.key
    let (m, v) ← m.atomicRead e.c p 8
    let last := objArr o + 1 == objExp o
    check (!(last && v == 2 ^ 64 - 1)) 0x26 v va
    let m := m.onCtx e.c fun x => { x with dep := some { key := p.key, gen := objGen o, d, sc, pc := m.bun.pc } }
    if last && !grp then do
      let m ← m.changeObject e.c p.key (setBits (setBits o 64 24 0) 0 64 (objGen o + 1)) (m.bindings e.c)
      m.atomicWrite e.c va p 8 (v + 1)
    else m.changeObject e.c p.key (setBits o 64 24 (objArr o + 1)) (m.bindings e.c)) s

/-- A context in departure may depart (R319): the generation has advanced, after which another context may have unbound the object; and it does not await its group's commit. -/
def Machine.mayDepart (m : Machine) (c : Nat) (t : Depart) : Bool := (m.ctx c).st != .checkpointed && (m.objectOf c t.key).all fun o => objGen o != t.gen

/-- Departure (R319): copies are dropped and D receives g. -/
def Machine.depart (m : Machine) (c : Nat) : Machine :=
  match (m.ctx c).dep with
  | some t =>
    if m.mayDepart c t then (m.dropCopies c t.sc.toNat t.key).onCtx c fun x => { (x.put .s t.d.toNat t.gen) with dep := none }
    else m
  | none => m

def execBarrierDeparture (c : Nat) (s : State) : Out State := .next { s with m := s.m.depart c }

/-- The contexts on other packages that are able for an object: no more than they have (R321). How many they are is a free value (log 95, DESIGN CHOICE). -/
def Machine.ableAway (m : Machine) (v : Nat) : Nat :=
  let away := match m.objInstance v with
    | .pkgs ps => (ps.filter (· != selfPkg m)).length
    | _ => 0
  if away = 0 then 0 else (Config.freeValue m.fresh).toNat % (384 * away + 1)

/-- The contexts that are able for an object (R321), pre-empted tasks by their images. -/
def Machine.ableCount (m : Machine) (key v : Nat) : Nat :=
  let lvl := objScope v
  let waiting (x : Ctx) : Bool := match x.dep with
    | some t => t.key == key && t.gen == objGen v
    | none => false
  let live := (List.range 384).filter fun c =>
    let x := m.ctx c
    m.inInstance c v && x.inLevel lvl && x.st != .free && x.st != .retired && !waiting x
  let saved := (m.launches.filterMap fun q => q.2.map fun l => (q.1, l)).flatMap fun q => q.2.preempted.filter fun p =>
    let x := SMap.get {} m.images (savedKey q.1 p.1)
    m.inInstanceOf (dieOf p.1) (x.cr 0x03).toNat v && x.inLevel lvl
  live.length + saved.length + m.ableAway v

/-- An object has arrivals that can no longer be joined by enough contexts (R321). -/
def Machine.outOfReach (m : Machine) (key v : Nat) : Bool := objScope v != 7 && objArr v != 0 && objArr v + m.ableCount key v < objExp v

/-- The contexts held in departure of an object's open generation that find it as a group `x` has staged it, or with none as it stands for everyone. -/
def Machine.departing (m : Machine) (x : Option Nat) (key v : Nat) : List Nat :=
  (List.range 384).filter fun c => (m.ctx c).dep.any (fun t => t.key == key && t.gen == objGen v) &&
    ((m.ckGroup c).bind fun g => if (m.stagedObject g.1 key).isSome then some g.1 else none) == x

/-- BARRIER_UNREACHABLE (R321): the arrivals are withdrawn and every context in departure takes the cause at its `bar`, but at a checkpointed group's barrier. -/
def Machine.withdraw (m : Machine) (x : Option Nat) (key : Nat) : Machine :=
  match (match x with | some g => (m.stagedObject g key).bind fun _ => m.objectIn g key | none => m.object key) with
  | none => m
  | some v =>
    let held := m.departing x key v
    let able := m.ableCount key v
    if !m.outOfReach key v ∨ held.any (fun c => m.commitsAt c key) then m
    else
      held.foldl (fun m c =>
        match (m.ctx c).dep with
        | some t => (m.onCtx c fun x => { x with dep := none }).takeCause c { code := 0x27, i0 := objExp v, i1 := objArr v, i2 := able } t.pc
        | none => m) ({ m with fresh := m.fresh + 1 }.putObject x key (setBits v 64 24 0) (match x with
          | some g => ((m.stagedObject g key).elim [] (·.2)).map fun r => (key, r)
          | none => m.regions))

/-- The object as it stands, and as the open supersteps of groups have it. -/
def Machine.unreachable (m : Machine) (key : Nat) : Machine := (m.groups.map fun g => some g.1).foldl (fun m x => m.withdraw x key) (m.withdraw none key)

def execBarrierUnreachable (obj : Nat) (s : State) : Out State := .next { s with m := s.m.unreachable obj }


/-- `waitf` (R322). -/
def execWaitf (cond : Cond) (sc : Scope) (d a : Reg) (b : Src) (c : Reg) (s : State) : Out State :=
  syllable (fun e m => do
    let va := (e.x.sreg a).toNat
    let (m, p) ← m.syncWord e va 8 .rmwLoad
    if p.key % 32 = 0 ∧ (m.objectOf e.c p.key).isSome then
      let _ ← m.boundAt e sc va p.key
    let (m, v) ← m.atomicRead e.c p 8
    let v := e.x.wordSeen v
    let b := e.x.src b
    let mask := e.x.sreg c
    if condHolds cond (.ofNat 64 v &&& mask) b then
      .ok ((m.forgetSeen e).interlock e.c d v)
    else .error (.hold (.word p.key mask.toNat cond b.toNat))) s

/-- Reserved bits of an object's bytes 8-31 (R310). -/
def objReserved (v : Nat) : Bool := bits v 112 48 != 0 || bits v 165 3 != 0

/-- Two objects have one homing package, whose binding table holds both (R315). -/
def oneTable (a b : Nat) : Bool := (if a < 3 * 2 ^ 46 then 0 else a / 2 ^ 46) == if b < 3 * 2 ^ 46 then 0 else b / 2 ^ 46

/-- The lowest sub-code of SYNC_UNBOUND that an `sbind` meets (R316): against the binding table of the package that homes the object (R315), with bytes 8-31 as
they are before a first binding, and the object's and the region's place in the binder's space (log 14, DEDUCED). -/
def Machine.sbindBad (m : Machine) (c key mem va base len : Nat) : Option Nat :=
  let bound := m.objectOf c key
  let table := (m.bindings c).filter fun r => oneTable r.1 key
  let real := table.filter fun r => r.2.2 != 0
  let objs := (table.filter fun r => r.2.2 == 0).map (fun r => r.2.1) ++ [va]
  if len ≠ 0 ∧ 4096 ≤ real.length then some 2
  else if len ≠ 0 ∧ 16 ≤ objNreg (bound.getD 0) then some 3
  else if len ≠ 0 ∧ (real.any (fun r => m.shares base len r.2.1 r.2.2) ∨ objs.any fun o => m.shares base len o 32) then some 4
  else
    match bound with
    | none => if objReserved mem ∨ objArr mem ≠ 0 then some 5 else none
    | some v => if objArr v ≠ 0 then some 6 else none

/-- Who binds a region: a core, its die and its DMR, and the context, or 384 for the launch itself (R314; 09 R220). -/
structure Binder where
  core : Nat
  die : Nat
  dmr : Nat
  ctx : Nat := 384
  deriving DecidableEq, Repr

/-- Checks 5 and 6 of an `sbind`, and its effect, on the object at a key (R314, R316). -/
def Machine.bindAt (m : Machine) (b : Binder) (sc va key base len : Nat) : Res Machine := do
  let m := m.drain b.core key 32
  let at_ := spaceBase m b.core
  let mem := leNat (m.seen b.ctx (key + 8) (m.bytes (key + 8) 24))
  match m.sbindBad b.ctx key mem (at_ + va) (at_ + base) len with
  | some i => raise 0x25 i va
  | none => .ok ()
  let old := m.objectOf b.ctx key
  check ((!(4 ≤ sc && sc ≤ 6) || bit b.dmr sc) && old.all fun v => objScope v == sc && m.inInstanceOf b.die b.dmr v) 0x24 (old.elim sc objScope) va
  let o := old.getD (setBits mem 160 32 (pack [(8, dmrGroup b.dmr sc), (16, b.die), (19, selfPkg m), (28, sc), (31, 1)]))
  let rs := if old.isSome then m.bindings b.ctx else m.bindings b.ctx ++ [(key, at_ + va, 0)]
  if len = 0 then m.changeObject b.ctx key o rs
  else m.changeObject b.ctx key (setBits o 160 5 (objNreg o + 1)) (rs ++ [(key, at_ + base, len)])

/-- `.region` of a launch: an `sbind` by the launch itself (09 R220). -/
def Machine.bindRegion (m : Machine) (b : Binder) (sc : Scope) (va base len : Nat) : Res Machine := do
  check (2 ≤ sc.toNat) 0x03 46
  check (va % 32 == 0) 0x0A va va
  check (base % 128 == 0) 0x0A base va
  check (len % 128 == 0 && len ≤ 2 ^ 40) 0x0A len va
  let (m, p) ← m.access b.core va 8 .rmw
  check p.cri.isNone 0x20 va
  m.bindAt b sc.toNat va p.key base len

/-- The image that `.sob` with a count writes to an object that is not bound (R312). -/
def Machine.writeSob (m : Machine) (n va exp : Nat) : Res Machine := do
  let (m, p) ← m.access n va 32 .store
  check p.cri.isNone 0x20 va
  .ok (if (m.object p.key).isSome then m else m.performPlain { ctx := 384, va, key := p.key, bytes := leBytes 32 (exp * 2 ^ 152) })

/-- `sbind` (R314). -/
def execSbind (sc : Scope) (a b c : Reg) (s : State) : Out State :=
  syllable (fun e m => do
    let va := (e.x.sreg a).toNat
    let base := (e.x.sreg b).toNat
    let len := (e.x.sreg c).toNat
    check (2 ≤ sc.toNat) 0x03 46
    check (va % 32 == 0) 0x0A va va
    check (base % 128 == 0) 0x0A base va
    check (len % 128 == 0 && len ≤ 2 ^ 40) 0x0A len va
    let (m, p) ← m.syncWord e va 32 .rmw
    m.bindAt { core := coreOf e.c, die := dieOf e.c, dmr := (e.x.cr 0x03).toNat, ctx := e.c } sc.toNat va p.key base len) s

/-- `sunbind` (R314). -/
def execSunbind (a b : Reg) (s : State) : Out State :=
  syllable (fun e m => do
    let va := (e.x.sreg a).toNat
    let base := (e.x.sreg b).toNat
    let (m, p) ← m.syncWord e va 32 .rmw
    let at_ := spaceBase m (coreOf e.c) + base
    match m.objectOf e.c p.key with
    | none => raise 0x25 0 va
    | some v =>
      check (base == 0 || (m.bindings e.c).any fun r => r.1 == p.key && r.2.1 == at_ && r.2.2 != 0) 0x25 1 va
      check (objArr v == 0) 0x25 6 va
      check (m.inInstance e.c v) 0x24 (objScope v) va
      let m := m.drain (coreOf e.c) p.key 32
      if base = 0 then
        m.changeObject e.c p.key (setBits (setBits v 160 5 0) 191 1 0) ((m.bindings e.c).filter fun r => r.1 != p.key)
      else
        m.changeObject e.c p.key (setBits v 160 5 (objNreg v - 1)) ((m.bindings e.c).filter fun r => !(r.1 == p.key && r.2.1 == at_ && r.2.2 != 0))) s

/-! ### Completion objects -/

/-- The checks of R323 on a completion object. -/
def Machine.completionCheck (m : Machine) (e : Env) (va : Nat) : Res (Machine × Nat) := do
  let (m, p) ← m.syncWord e va 32 .rmw
  match m.objectOf e.c p.key with
  | none => raise 0x25 0 va
  | some v =>
    check (m.inInstance e.c v) 0x24 (objScope v) va
    .ok (m, p.key)

/-- A completion release: VER := VER + 1 (R323). -/
def Machine.completionRelease (m : Machine) (key : Nat) : Machine := if key = 0 then m else m.setWord key ((m.word key + 1) % 2 ^ 64)

end Sys2Proof.Machine
end

