-- ==== Sys2Proof/Machine/Caps.lean ====
section
/-! DEFINITION. Caps.lean: interrupts to a context, capabilities and the allocator (04_scalar_control_system.md R110-R115; 10 R247; 16 R338-R341). -/

namespace Sys2Proof.Machine

/-- A post of INTERRUPT (10 R247): it replaces TRAPINFO1 of a pending member with its TRAPINFO0, or joins the set at its end. -/
def Machine.post (m : Machine) (c i0 i1 : Nat) : Machine :=
  m.onCtx c fun x =>
    if x.ints.any fun p => p.1 == i0 then { x with ints := x.ints.map fun p => if p.1 == i0 then (i0, i1) else p }
    else { x with ints := x.ints ++ [(i0, i1)] }

/-- An interrupt to Rianami's context (21 R410); a free TRAPINFO1 where its source gives none (log 33, DESIGN CHOICE). -/
def Machine.irq (m : Machine) (i0 : Nat) (i1 : Option Nat := none) : Machine :=
  match i1 with
  | some v => m.post (irqCtx m) i0 v
  | none => let r := m.free; r.1.post (irqCtx m) i0 r.2.toNat

/-- Fields of a capability (R110). -/
def capBase (v : Nat) : Nat := bits v 0 64
def capLen (v : Nat) : Nat := bits v 64 40
def capLoad (v : Nat) : Bool := bit v 104
def capStore (v : Nat) : Bool := bit v 105
def capDerive (v : Nat) : Bool := bit v 106
def capFree (v : Nat) : Bool := bit v 107
def capId (v : Nat) : Nat := bits v 108 20

/-- A capability register's bits and V; with V = 0 every field reads zero. -/
def Ctx.capV? (x : Ctx) (r : BitVec 4) : Bool := x.capV.getLsbD r.toNat
def Ctx.capRaw (x : Ctx) (r : BitVec 4) : Nat := (SMap.get 0 x.cap r.toNat).toNat
def Ctx.capBits (x : Ctx) (r : BitVec 4) : Nat := if x.capV? r then x.capRaw r else 0

def Ctx.setCap (x : Ctx) (r : BitVec 4) (v : Nat) (valid : Bool) : Ctx :=
  { x with cap := SMap.set 0 x.cap r.toNat (.ofNat 128 v),
           capV := if valid then x.capV ||| ((1 : BitVec 16) <<< r.toNat) else x.capV &&& ~~~((1 : BitVec 16) <<< r.toNat) }

/-! ### The revocation bitmap -/

/-- A segment of the bitmap in memory (16 R341). -/
def Machine.revSegment (m : Machine) (seg : Nat) : Nat := m.nat (rvb m + 16 * seg) 16

/-- A core's copy of a segment, fetched on a miss; of 32 segments the oldest leaves (log 44, DESIGN CHOICE). -/
def Machine.revCached (m : Machine) (n seg : Nat) : Machine × Nat :=
  let k := m.core n
  match k.rev.find? fun p => p.1 == seg with
  | some p => (m, p.2.toNat)
  | none =>
    let v := m.revSegment seg
    let keep := if k.rev.length < 32 then k.rev else k.rev.drop 1
    (m.setCore n { k with rev := keep ++ [(seg, .ofNat 128 v)] }, v)

/-- A bit of the bitmap written, in memory and in every core's copy (16 R341). -/
def Machine.setRevoked (m : Machine) (id : Nat) (v : Bool) : Machine :=
  let seg := id / 128
  let x := setBits (m.revSegment seg) (id % 128) 1 (if v then 1 else 0)
  (List.range 96).foldl (fun m n =>
    if (m.core n).rev.any fun p => p.1 == seg then m.onCore n fun k => { k with rev := k.rev.map fun p => if p.1 == seg then (seg, .ofNat 128 x) else p } else m)
    (m.setNat (rvb m + 16 * seg) 16 x)

/-- A bit of the bitmap written by a core, after its earlier stores to that home (01 R22). -/
def Machine.revoke (m : Machine) (n id : Nat) (v : Bool) : Machine := (m.drain n (rvb m + 16 * (id / 128)) 16).setRevoked id v

/-- Checks 1 and 2 of R113. -/
def Machine.capLive (m : Machine) (e : Env) (a : BitVec 4) (invalid : Nat) : Res Machine := do
  let v := e.x.capBits a
  check (e.x.capV? a) 0x12 invalid
  let r := m.revCached (coreOf e.c) (capId v / 128)
  check (!bit r.2 (capId v % 128)) 0x10 (capId v)
  .ok r.1

/-! ### Allocation -/

/-- An allocator record: class k, or 26 for identifiers (16 R339). -/
def allocRecord (m : Machine) (k : Nat) : Nat := cab m + 64 * k
def recStk (r : Nat) : Nat := bits r 448 64
def recNfree (r : Nat) : Nat := bits r 416 32
def recScap (r : Nat) : Nat := bits r 384 32
def recLow (r : Nat) : Nat := bits r 352 32
def recRfa (r : Nat) : Nat := bits r 288 64
def recRfn (r : Nat) : Nat := bits r 256 32

/-- The refill of a record (16 R340): RFN entries move onto the stack, up to SCAP, and RFN is cleared; `space` is where the addresses of a record of another package count from (18 R365). -/
def Machine.refill (m : Machine) (rec : Nat) (space : Nat := 0) : Machine :=
  let r := m.nat rec 64
  if recRfn r = 0 ∨ recRfn r = 0xFFFFFFFF then m
  else
    let n := min (recRfn r) (recScap r - recNfree r)
    let m := (List.range n).foldl (fun m i => m.setWord (space + recStk r + 8 * (recNfree r + i)) (m.word (space + recRfa r + 8 * i))) m
    m.setNat rec 64 (setBits (setBits r 416 32 (recNfree r + n)) 256 32 0)

/-- One entry popped from a record that has one; at LOW an interrupt goes to Rianami (16 R340), of another package to its own. -/
def Machine.popRecord (m : Machine) (rec info : Nat) (space : Nat := 0) : Machine × Nat :=
  let r := m.nat rec 64
  let v := m.word (space + recStk r + 8 * (recNfree r - 1))
  let m := m.setNat rec 64 (setBits r 416 32 (recNfree r - 1))
  (if recNfree r - 1 = recLow r ∧ space = 0 then m.irq info else m, v)

/-- The size class of a request (R111). -/
def allocClass (s : Nat) : Nat := ((List.range 26).find? fun k => decide (s ≤ 128 * 2 ^ k)).getD 25

/-- A record that has nothing and will get nothing, or one that waits (16 R340). -/
def recDry (r : Nat) : Bool := recNfree r == 0
/-- The record never completes an `alloc` (log 68, DEDUCED). -/
def recNever (r : Nat) : Bool := recDry r && recRfn r == 0xFFFFFFFF

/-- `alloc` (R111): its requests reach the two records after the core's earlier stores to them (01 R22), and those for one record are served in order of arrival (16 R339) (log 16, DESIGN CHOICE). -/
def execAlloc (d : BitVec 4) (a : Src) (s : State) : Out State :=
  syllable (fun e m => do
    let n := (e.x.src a).toNat
    check (n != 0 && n ≤ 2 ^ 32) 0x0F n
    let k := allocClass n
    let m := (m.drain (coreOf e.c) (allocRecord m k) 64).drain (coreOf e.c) (allocRecord m 26) 64
    let m := (m.refill (allocRecord m k)).refill (allocRecord m 26)
    let rk := m.nat (allocRecord m k) 64
    let ri := m.nat (allocRecord m 26) 64
    let land (m : Machine) (v : Nat) : Machine := m.onCtx e.c fun x => { x with asked := none, intl := x.intl ++ [{ cap := true, reg := d.toNat, value := v }] }
    if recNever rk || recNever ri then .ok (land m 0)
    else if recDry rk || !e.m0.allocTurn e.c k then .error (.hold (.alloc k))
    else if recDry ri || !e.m0.allocTurn e.c 26 then .error (.hold (.alloc 26))
    else
      let b := m.popRecord (allocRecord m k) (0x0300 + k)
      let i := b.1.popRecord (allocRecord m 26) (0x0300 + 26)
      let id := i.2 % 2 ^ 20
      .ok (land (i.1.revoke (coreOf e.c) id false) (pack [(0, b.2), (64, 128 * 2 ^ k), (104, 15), (108, id), (128, 1)]))) s

/-- The event allocRefill (16 R340). -/
def execAllocRefill (rec : Nat) (s : State) : Out State := .next { s with m := s.m.refill (allocRecord s.m rec) }

/-- `free` (R112) (log 26, DEDUCED). -/
def execFree (a : BitVec 4) (s : State) : Out State :=
  syllable (fun e m => do
    let v := e.x.capBits a
    let m ← m.capLive e a (capId v)
    check (capFree v) 0x11 (capId v)
    .ok ((m.revoke (coreOf e.c) (capId v) true).onCtx e.c fun x => x.setCap a (x.capRaw a) false)) s

/-- The checks of R113 and the address. -/
def Machine.capAddress (m : Machine) (e : Env) (a : BitVec 4) (b : Src) (size : Nat) (st : Bool) : Res (Machine × Nat) := do
  let v := e.x.capBits a
  let o := (e.x.src b).toNat
  let m ← m.capLive e a a.toNat
  check (if st then capStore v else capLoad v) 0x11 (capId v)
  check (o + size ≤ capLen v) 0x0F o
  .ok (m, (capBase v + o) % 2 ^ 64)

def execCld (sz : BitVec 3) (d : Reg) (a : BitVec 4) (b : Src) (s : State) : Out State :=
  syllable (fun e m => do
    let n := szBytes sz.toNat
    let (m, va) ← m.capAddress e a b n false
    if e.m0.tileOver e.c true va n then .error (.hold (.tileOp va n))
    else
      let (m, v) ← m.loadChecked e.c va n
      .ok (m.interlock e.c d (szExtend sz.toNat v).toNat va n)) s

def execCst (sz : BitVec 2) (d : Reg) (a : BitVec 4) (b : Src) (s : State) : Out State :=
  syllable (fun e m => do
    let n := 2 ^ sz.toNat
    let (m, va) ← m.capAddress e a b n true
    if e.m0.tileOver e.c true va n then .error (.hold (.tileOp va n))
    else m.storeChecked e.c va n (bits (e.x.sreg d).toNat 0 (8 * n))) s

/-- `cderive` (R114); the result lands at the end of its bundle. -/
def execCderive (d a : BitVec 4) (b : Src) (c : Reg) (pm : BitVec 4) (s : State) : Out State :=
  syllable (fun e m => do
    let v := e.x.capBits a
    let o := (e.x.src b).toNat
    let len := (e.x.sreg c).toNat
    let m ← m.capLive e a a.toNat
    check (capDerive v) 0x11 (capId v)
    check (o + len ≤ capLen v) 0x0F o
    .ok (m.onCtx e.c fun x => x.setCap d (pack [(0, (capBase v + o) % 2 ^ 64), (64, len), (104, bits v 104 3 &&& (pm.toNat &&& 7)), (108, capId v)]) true)) s

/-- `cget` (R114). -/
def execCget (d : Reg) (a : BitVec 4) (fld : CapField) (s : State) : Out State :=
  scalarResult 1 d (fun e =>
    let v := e.x.capBits a
    .ok (.ofNat 64 (match fld with
      | .base => capBase v
      | .length => capLen v
      | .perms => bits v 104 4
      | .id => capId v
      | .v => if e.x.capV? a then 1 else 0))) s

/-- The granule of a capability access (R115): 16-byte aligned, on a capability page, reached after the core's earlier stores to its home (01 R22). -/
def Machine.capGranule (m : Machine) (e : Env) (va : Nat) (a : Acc) : Res (Machine × Phys) := do
  check (va % 16 == 0) 0x0A va
  let (m, p) ← m.translate (coreOf e.c) va a leafCAP
  .ok (m.drain (coreOf e.c) p.key 16, p)

/-- `ldc`: bits and tag, as an interlocked result (R115). -/
def execLdc (d : BitVec 4) (a : Reg) (b : Src) (s : State) : Out State :=
  syllable (fun e m => do
    let (m, p) ← m.capGranule e (e.x.sreg a + e.x.src b).toNat .load
    let tag := SMap.get false m.tags (p.key / 16)
    .ok (m.onCtx e.c fun x => { x with intl := x.intl ++ [{ cap := true, reg := d.toNat, value := m.nat p.key 16 + (if tag then 2 ^ 128 else 0) }] })) s

/-- `stc`: the register's bits, and V as the tag (R115; 16 R338). -/
def execStc (d : BitVec 4) (a : Reg) (b : Src) (s : State) : Out State :=
  syllable (fun e m => do
    let (m, p) ← m.capGranule e (e.x.sreg a + e.x.src b).toNat .store
    let m := m.setNat p.key 16 (e.x.capBits d)
    .ok { m with tags := SMap.set false m.tags (p.key / 16) (e.x.capV? d) }) s

end Sys2Proof.Machine
end

