-- ==== Sys2Proof/Machine/Matrix.lean ====
section
/-! DEFINITION. Matrix.lean: tile registers, the scoreboard, the matrix array and its queue, `vacc` and `mq` (07_tiles_and_matrix_array.md R175-R192; 02 R47-R51; 05 R137; 06 R168, R169). -/

namespace Sys2Proof.Machine

/-! ### Tile registers and the scoreboard -/

/-- The descriptor of a tile register that an instruction names (R176). -/
def Ctx.tile (x : Ctx) (r : Nat) : Res Nat := do
  check (x.tDef.getLsbD r) 0x15 r
  .ok (SMap.get 0 x.t r).toNat

/-- The tile registers that a matrix command reads and writes (R179). -/
def MCmd.reads (q : MCmd) : List Nat :=
  match q.kind with
  | .mma => [q.a.reg] ++ if q.b.latch then [] else [q.b.reg]
  | .mlatch | .mrst => [q.a.reg]
  | _ => []

def MCmd.writes (q : MCmd) : List Nat :=
  match q.kind with
  | .mst | .msv => [q.a.reg]
  | _ => []

/-- The matrix commands of a context, in the queue, running or retained. -/
def Machine.commands (m : Machine) (c : Nat) : List MCmd :=
  let k := m.core (coreOf c)
  ((match k.mrun with
    | some r => [r.1]
    | none => []) ++ k.mq).filter (fun q => q.ctx == c) ++ (m.ctx c).retained

/-- A transfer writes its tile register (R179). -/
def Xfer.writesTile (t : Xfer) : Bool := match t.kind with
  | .tld | .tred _ | .ttrans false => true
  | _ => false

/-- A tile register has a pending reader; it has a pending writer (R179). -/
def Machine.pendingRead (m : Machine) (c r : Nat) : Bool :=
  let x := m.ctx c
  (m.commands c).any (fun q => q.reads.contains r) || (m.xfersOf c).any (fun t => (t.reg == r && !t.writesTile) || match t.follow with
    | some q => q.reads.contains r && r != t.reg
    | none => false) || x.msgs.any (fun t => t.send && t.tile.reg == r && t.fault.isNone) ||
    x.kvops.any fun t => (t.kind == .attn || t.kind == .write) && t.src.reg == r

def Machine.pendingWrite (m : Machine) (c r : Nat) : Bool :=
  let x := m.ctx c
  (m.commands c).any (fun q => q.writes.contains r) || (m.xfersOf c).any (fun t => t.reg == r && t.writesTile) ||
    x.msgs.any (fun t => !t.send && t.tile.reg == r && t.fault.isNone) || x.kvops.any fun t => t.kind == .attn && t.dst.reg == r

/-- A bundle is held while a role conflicts with what is pending (R179). -/
def Machine.scoreboard (m : Machine) (c : Nat) (reads writes : List Nat) : Res Unit :=
  if reads.any (m.pendingWrite c) || writes.any (fun r => m.pendingRead c r || m.pendingWrite c r) then .error (.hold .busy) else .ok ()

/-- A tile register takes a descriptor, or becomes undefined, at the end of the bundle (R178). -/
def Machine.setTile (m : Machine) (c : Nat) (r : Reg) (v : Option Nat) : Machine :=
  m.onCtx c fun x =>
    match v with
    | some d => { x with t := SMap.set 0 x.t r.toNat (.ofNat 128 d), tDef := x.tDef ||| ((1 : BitVec 64) <<< r.toNat) }
    | none => { x with t := SMap.set 0 x.t r.toNat 0, tDef := x.tDef &&& ~~~((1 : BitVec 64) <<< r.toNat) }

def execTdef (d a b : Reg) (s : State) : Out State :=
  syllable (fun e m => do
    let v := (e.x.sreg b).toNat * 2 ^ 64 + (e.x.sreg a).toNat
    check (tdOk v) 0x14 0
    e.m0.scoreboard e.c [] [d.toNat]
    .ok (m.setTile e.c d (some v))) s

/-- `trel` of a register that is undefined already leaves it so and raises nothing (log 93, DESIGN CHOICE). -/
def execTrel (d : Reg) (s : State) : Out State :=
  syllable (fun e m => do
    e.m0.scoreboard e.c [] [d.toNat]
    .ok (m.setTile e.c d none)) s

def execTmov (d a : Reg) (tid : Option (BitVec 8)) (s : State) : Out State :=
  syllable (fun e m => do
    let v ← e.x.tile a.toNat
    let v := match tid with
      | some t => setLow v t.toNat
      | none => v
    check (tdOk v) 0x14 0
    e.m0.scoreboard e.c [] [d.toNat]
    .ok (m.setTile e.c d (some v))) s
where
  /-- TID replaced. -/
  setLow (v t : Nat) : Nat := v % 2 ^ 120 + t * 2 ^ 120

/-! ### Issue -/

/-- The context holds an accumulator (R183). -/
def Ctx.holdsAcc (x : Ctx) (a : Nat) : Bool := a < 4 || x.accHeld.getLsbD (a - 4)

/-- The first check of R186 that fails gives TRAPINFO1 the register concerned; where a check concerns both operands, as 5 and 7 of `mma` do, it is A's (log 33, DESIGN CHOICE). -/
def concerning {α : Type} (r : Nat) (v : Res α) : Res α :=
  match v with
  | .error (.trap k) => .error (.trap { k with i1 := r })
  | v => v

/-- Check 1 of R186. -/
def needAcc (x : Ctx) (a : Nat) : Res Unit := check (x.holdsAcc a) 0x18 a a

/-- The rounding mode that a matrix command captures. -/
def capturedRm (x : Ctx) (rm : BitVec 3) : Nat := if rm = 7 then bits x.fpc.toNat 0 3 else rm.toNat

/-- A tile operand captured with the entry its descriptor names (check 4 of R186). -/
def Ctx.captureTile (x : Ctx) (r : Nat) (withEntry : Bool) : Res MArg := do
  let d ← x.tile r
  if withEntry then
    let t ← x.useEntry (tdTid d)
    .ok { reg := r, desc := d, ent := t, cb := x.entryTable t }
  else .ok { reg := r, desc := d }

/-- The format pairs of an `mma` (R188). -/
def pairOk (a b : Nat) : Bool :=
  (a == b && a < 11 && a != 6 && a != 7) || (a == 4 && b == 5) || (a == 5 && b == 4) || (a == 8 && b == 9) || (a == 9 && b == 8)

/-- The element width of a format for a captured FMT. -/
def widthOf (fmt : Word) (code : Nat) : Nat := codeWidth (.ofFmt fmt.toNat) code

/-- Bytes of an operand row (R180). -/
def rowBytes (fmt : Word) (code : Nat) : Nat := 4 * pePer code * widthOf fmt code

/-- Geometry of an `mma` operand (R180). -/
def operandShape (fmt : Word) (a : MArg) : Bool :=
  let code := entFmt a.ent
  let sc := entScaled a.ent
  32 + (if sc then pePer code / 8 else 0) ≤ tdRows a.desc && rowBytes fmt code ≤ tdRowb a.desc && (!sc || 256 ≤ tdRowb a.desc)

/-- Check 6 of R186: geometry, then banks. -/
def shapeCheck (k : Core) (ok : Bool) (a : MArg) : Res Unit := do
  check ok 0x14 3 a.reg
  check (k.tileOk a.desc) 0x14 1 a.reg

/-- The format that the latch will hold for a command issued now: that of the `mlatch` into it which was issued last and is pending (check 5 of R186). -/
def Machine.latchCode (m : Machine) (c l : Nat) : Option Nat :=
  let k := m.core (coreOf c)
  let pend := ((match k.mrun with
    | some r => [r.1]
    | none => []) ++ k.mq ++ (List.range 4).flatMap fun j => (m.ctx (4 * coreOf c + j)).retained).filter
      fun q => (q.kind == .mlatch || q.kind == .mlatchMem) && q.lat == l
  match pend.foldl (fun (a : Option MCmd) q => if a.any fun p => q.clk < p.clk then a else some q) none with
  | some q => some (entFmt q.a.ent)
  | none =>
    let t := SMap.get {} k.latch l
    if t.full then some t.code else none

/-- The checks of R186 on `mma`, and the command. The register concerned in checks 5 and 7, which name no operand, is tile A (log 33, DESIGN CHOICE). -/
def Machine.mmaCheck (m : Machine) (c : Nat) (x : Ctx) (acc a b : Nat) (latch : Bool) (rm : Nat) (z0 : Bool) (pc : Nat) : Res MCmd := do
  needAcc x acc
  let _ ← concerning a (x.tile a)
  if !latch then
    let _ ← concerning b (x.tile b)
  check (!latch || x.lm.getLsbD b) 0x17 (0x10 + b) b
  let ta ← concerning a (x.captureTile a true)
  let tb ← if latch then Except.ok { reg := b, latch := true } else concerning b (x.captureTile b true)
  let cb := if latch then m.latchCode c b else some (entFmt tb.ent)
  check (match cb with
    | some cb => pairOk (entFmt ta.ent) cb
    | none => true) 0x14 2 a
  let k := m.core (coreOf c)
  shapeCheck k (operandShape x.fmt ta) ta
  if !latch then
    shapeCheck k (operandShape x.fmt tb) tb
    check (tdG ta.desc != tdG tb.desc) 0x13 (tdG ta.desc) a
  .ok { ctx := c, kind := .mma, acc, a := ta, b := tb, rm, z0, fpc := x.fpc, fmt := x.fmt, pc, ti := x.ti }

/-- A follow-on command into an accumulator has not entered the queue (08 R205). -/
def Machine.followInto (m : Machine) (c acc : Nat) : Bool := (m.xfersOf c).any fun t => match t.follow with
  | some q => q.acc == acc
  | none => false

/-- A command enters the queue of its core, which holds 16 (R187). -/
def Machine.enqueue (e : Env) (m : Machine) (q : MCmd) (usesAcc : Bool) : Res Machine := do
  e.m0.scoreboard e.c q.reads q.writes
  if (usesAcc && e.m0.followInto e.c q.acc) || 16 ≤ (e.m0.core (coreOf e.c)).mq.length then .error (.hold .busy)
  else .ok (m.onCore (coreOf e.c) fun k => { k with mq := k.mq ++ [q] })

/-- What every command captures (R33). -/
def Env.cmd (e : Env) (m : Machine) (kind : MKind) : MCmd :=
  { ctx := e.c, kind, fpc := e.x.fpc, fmt := e.x.fmt, pc := m.bun.pc.toNat, ti := e.x.ti, clk := (e.m0.core (coreOf e.c)).cycle.toNat }

def execMma (d : BitVec 3) (a : Reg) (b : MatB) (rm : BitVec 3) (z0 : Bool) (s : State) : Out State :=
  syllable (fun e m => do
    let q ← match b with
      | .tile t => e.m0.mmaCheck e.c e.x d.toNat a.toNat t.toNat false (capturedRm e.x rm) z0 m.bun.pc.toNat
      | .latch l => e.m0.mmaCheck e.c e.x d.toNat a.toNat l.toNat true (capturedRm e.x rm) z0 m.bun.pc.toNat
    m.enqueue e { q with clk := (e.m0.core (coreOf e.c)).cycle.toNat } true) s

/-- `mlatch` from a tile (R182). -/
def execMlatch (d : BitVec 2) (a : Reg) (s : State) : Out State :=
  syllable (fun e m => do
    let _ ← concerning a.toNat (e.x.tile a.toNat)
    check (e.x.lm.getLsbD d.toNat) 0x17 (0x10 + d.toNat) d.toNat
    let t ← concerning a.toNat (e.x.captureTile a.toNat true)
    check (pairOk (entFmt t.ent) (entFmt t.ent)) 0x14 2 a.toNat
    shapeCheck (e.m0.core (coreOf e.c)) (operandShape e.x.fmt t) t
    m.enqueue e { e.cmd m .mlatch with lat := d.toNat, a := t } false) s

/-- `mlatch` from memory (R182). -/
def execMlatchMem (d : BitVec 2) (a : Reg) (tid : BitVec 8) (s : State) : Out State :=
  syllable (fun e m => do
    check (e.x.lm.getLsbD d.toNat) 0x17 (0x10 + d.toNat) d.toNat
    let t ← concerning d.toNat (e.x.useEntry tid.toNat)
    check (pairOk (entFmt t) (entFmt t)) 0x14 2 d.toNat
    let va := (e.x.sreg a).toNat
    check (va % 256 == 0) 0x0A va a.toNat
    m.enqueue e { e.cmd m .mlatchMem with lat := d.toNat, a := { ent := t, cb := e.x.entryTable t }, addr := va } false) s

def execMzero (d : BitVec 3) (s : State) : Out State :=
  syllable (fun e m => do
    needAcc e.x d.toNat
    m.enqueue e { e.cmd m .mzero with acc := d.toNat } true) s

/-- `mst` (R190). CODEBOOK_ORDER follows the checks of R186 (log 45, DEDUCED). -/
def execMst (d : Reg) (a : BitVec 3) (rm : BitVec 3) (clr : Bool) (s : State) : Out State :=
  syllable (fun e m => do
    needAcc e.x a.toNat
    let t ← concerning d.toNat (e.x.captureTile d.toNat true)
    let code := entFmt t.ent
    check (code != 11) 0x14 2 d.toNat
    let sc := entScaled t.ent
    shapeCheck (e.m0.core (coreOf e.c)) (32 + (if sc then 1 else 0) ≤ tdRows t.desc && 4 * widthOf e.x.fmt code ≤ tdRowb t.desc && (!sc || 32 ≤ tdRowb t.desc)) t
    check (code != 10 || cb4Ordered (tableCodes t.cb)) 0x1A (entCb t.ent)
    m.enqueue e { e.cmd m .mst with acc := a.toNat, a := t, rm := capturedRm e.x rm, clr } true) s

/-- `msv` and `mrst` ignore the entry (R189). -/
def stateTile (e : Env) (r : Nat) : Res MArg := do
  let t ← concerning r (e.x.captureTile r false)
  shapeCheck (e.m0.core (coreOf e.c)) (32 ≤ tdRows t.desc && 256 ≤ tdRowb t.desc) t
  .ok t

def execMsv (d : Reg) (a : BitVec 3) (s : State) : Out State :=
  syllable (fun e m => do
    needAcc e.x a.toNat
    let t ← stateTile e d.toNat
    m.enqueue e { e.cmd m .msv with acc := a.toNat, a := t } true) s

def execMrst (d : BitVec 3) (a : Reg) (s : State) : Out State :=
  syllable (fun e m => do
    needAcc e.x d.toNat
    let t ← stateTile e a.toNat
    m.enqueue e { e.cmd m .mrst with acc := d.toNat, a := t } true) s

/-! ### Grants -/

/-- Bits set in a 4-bit mask. -/
def popcount4 (x : BitVec 4) : Nat := ((List.range 4).filter fun i => x.getLsbD i).length

/-- Free tiles of a core's shared pool (R183). -/
def Machine.poolFree (m : Machine) (n : Nat) : Nat := 8 - ((List.range 4).map fun j => popcount4 (m.ctx (4 * n + j)).accHeld).sum

/-- The contents of acc4-acc7 named by a mask become +0 or are lost (R184). -/
def Ctx.clearShared (x : Ctx) (mask : BitVec 4) : Ctx := { x with acc := x.acc.filter fun p => !(4 ≤ p.1 / 1024 && mask.getLsbD (p.1 / 1024 - 4)) }

def execMacq (mask : BitVec 4) (s : State) : Out State :=
  syllable (fun e m => do
    let held := e.x.accHeld
    let need := mask &&& ~~~held
    if need = 0 then .ok m
    else do
      check (held == 0) 0x18 8 held.toNat
      let n := coreOf e.c
      let older := (e.m0.poolWants n).takeWhile fun p => p.1 != e.c
      if older ≠ [] ∨ e.m0.poolFree n < popcount4 need then .error (.hold (.grant mask.toNat))
      else
        let m := m.onCore n fun k => { k with wants := k.wants.filter fun p => p.1 != e.c }
        .ok (m.onCtx e.c fun x => { x.clearShared need with accHeld := held ||| need })) s

/-- A command of the context on an accumulator is not complete. -/
def Machine.accBusy (m : Machine) (c acc : Nat) : Bool :=
  (m.commands c).any (fun q => q.acc == acc && q.kind != .mlatch && q.kind != .mlatchMem) || m.followInto c acc

def execMrls (mask : BitVec 4) (s : State) : Out State :=
  syllable (fun e m => do
    if (List.range 4).any fun i => mask.getLsbD i && e.m0.accBusy e.c (4 + i) then .error (.hold .busy)
    else .ok (m.onCtx e.c fun x => { x.clearShared mask with accHeld := x.accHeld &&& ~~~mask })) s

/-! ### Readers of accumulators -/

/-- An earlier command that writes an accumulator is not complete (05 R137). -/
def Machine.accWriting (m : Machine) (c acc : Nat) : Bool :=
  (m.commands c).any (fun q => q.acc == acc && (q.kind == .mma || q.kind == .mzero || q.kind == .mrst || (q.kind == .mst && q.clr))) || m.followInto c acc

/-- The checks of `vacc` and `mq` on a row block and an accumulator (05 R137; 06 R169). -/
def accCheck (e : Env) (acc b : Nat) : Res Unit := do
  check (b ≤ 7) 0x14 b
  check (e.x.holdsAcc acc) 0x18 acc

/-- The hold of `vacc` and `mq` for the earlier commands into an accumulator (05 R137; 06 R169). -/
def accIdle (e : Env) (acc : Nat) : Res Unit := if e.m0.accWriting e.c acc then .error (.hold .busy) else .ok ()

/-- `vacc` (05 R137); with CE = 0 it is a no-op, before any of its checks (03 R61). -/
def execVacc (_ : VSlot) (o : VOp) (s : State) : Out State :=
  syllable (fun e m =>
    if o.ce = 0 then .ok m
    else do
      let acc := (srcReg o.a).toNat % 8
      let b := (e.x.src o.b).toNat
      accCheck e acc b
      accIdle e acc
      m.rawResult e o 4 ((e.x.lanes o.ms o.ce).map fun g =>
        let c := g / 16
        (g, e.x.accv acc (4 * b + c / 2) (16 * (c % 2) + g % 16)))) s

/-- A row or column of an accumulator as a triple, with its flags (06 R169). -/
def accTriple (xs : List Word) : Triple × Nat :=
  xs.foldl (fun t x => let r := t.1.update x.toNat; (r.1, t.2 ||| r.2)) (.empty, 0)

/-- `mq` (06 R168, R169). -/
def execMq (d : BitVec 4) (a : BitVec 3) (merge : Bool) (blk : MqBlock) (ms : BitVec 4) (ce : BitVec 8) (s : State) : Out State :=
  syllable (fun e m => do
    let acc := a.toNat
    let b := match blk with
      | .row b => (e.x.src b).toNat
      | .col => 0
    accCheck e acc b
    let rs ← forLanes (fun g => do
      let c := g / 16
      let xs := match blk with
        | .row _ => (List.range 32).map fun j => e.x.accv acc (4 * b + c / 2) j
        | .col => (List.range 32).map fun i => e.x.accv acc i (16 * (c % 2) + g % 16)
      let t := accTriple xs
      if merge then
        let old ← readTriple e d.toNat g
        let r := old.merge t.1
        Except.ok (r.1, t.2 ||| r.2)
      else Except.ok t) (e.x.lanes ms ce)
    accIdle e acc
    if ce = 0 then .ok m
    else m.push e { off := 40, file := .q, reg := d.toNat, ce := ce.toNat, fl := rs.foldl (fun f p => f ||| p.2.2) 0,
                    writes := rs.map fun p => (128 * d.toNat + p.1, p.2.1.toNat) } true) s

/-! ### Operand fetch and the arithmetic -/

/-- A matrix operand at the array: element codes by row and index, scale bytes, format, FMT and table (R180). -/
structure Operand where
  code : Nat
  nf : NFmt
  cb : List Nat
  elem : Nat → Nat → Nat
  scale : Nat → Nat
  scaled : Bool

/-- A tile operand in a bank group (R180). -/
def tileOperand (k : Core) (fmt : Word) (a : MArg) : Operand :=
  let code := entFmt a.ent
  let w := widthOf fmt code
  { code, nf := .ofFmt fmt.toNat, cb := tableCodes a.cb, scaled := entScaled a.ent,
    elem := fun row i => k.padBits (tdG a.desc) (8 * (tdOff a.desc + row * tdPitch a.desc) + w * i) w,
    scale := fun i => (k.padByte (tdG a.desc) (tdOff a.desc + (32 + i / 256) * tdPitch a.desc + i % 256)).toNat }

/-- A latch as operand B (R188). -/
def latchOperand (l : Latch) : Operand :=
  let nf := NFmt.ofFmt l.fmt
  let w := codeWidth nf l.code
  let data := leNat l.data
  { code := l.code, nf, cb := tableCodes l.cb, scaled := l.scaled, elem := fun row i => bits data (8 * 256 * row + w * i) w,
    scale := fun i => (l.scales.getD i 127).toNat }

/-- The value of an operand's element, in the k-block of a scale byte (R47, R180); none for the reserved narrow code. -/
def Operand.val (o : Operand) (env : FEnv) (row i sc : Nat) : Option Val :=
  (elemVal env o.nf o.cb o.code (o.elem row i)).map (scaledVal (if o.scaled then some (o.scale sc) else none))

/-- One cycle's sum of products: its value, or none for a NaN, and the flags that the operands call for (R50, R51). -/
def cycleSum (rm : Rm) (ps : List (Val × Val)) : Option Val × Nat :=
  let nan := ps.any fun p => p.1.isNan || p.2.isNan
  let snan := ps.any fun p => p.1.isSnan || p.2.isSnan
  let vs := ps.map fun p => if p.1.isNan || p.2.isNan then some (.zero false) else mulVal p.1 p.2
  let bad := vs.any (·.isNone)
  let vs := vs.map (·.getD (.zero false))
  let pinf := vs.any fun v => v == .inf false
  let ninf := vs.any fun v => v == .inf true
  let fl := if snan || bad || (pinf && ninf) then fNV else 0
  if nan || bad || (pinf && ninf) then (none, fl)
  else if pinf then (some (.inf false), fl)
  else if ninf then (some (.inf true), fl)
  else
    let s := vs.foldl (fun a v => dyAdd a v.toDy) (0, 0)
    if s.1 ≠ 0 then (some (.fin (decide (s.1 < 0)) s.1.natAbs s.2), fl)
    else
      let allNeg := vs.all fun v => v == .zero true
      let mixed := !(vs.all fun v => v == .zero false)
      (some (.zero (allNeg || (rm == .rdn && mixed))), fl)

/-- An accumulator element after one cycle: a NaN in it stays (R51). -/
def accStep (rm : Rm) (acc : Nat) (s : Option Val × Nat) : Nat × Nat :=
  match Fp.d.unpack acc with
  | .nan _ _ => (acc, s.2)
  | v =>
    match s.1 with
    | none => (Fp.d.canonNan, s.2)
    | some x =>
      let r := Fp.d.addVal { rm } false v x
      (r.1, s.2 ||| r.2)

/-- Element (i, j) of an `mma` (R49, R50): `none` when an operand holds the reserved narrow code. -/
def mmaElem (env : FEnv) (a b : Operand) (i j acc : Nat) : Option (Nat × Nat) :=
  let n := pePer a.code
  (List.range 32).foldlM (fun (r : Nat × Nat) c => do
    let ps ← (List.range n).mapM fun t => do
      let k := n * c + t
      let x ← a.val env i k (n * i + k / 32)
      let y ← b.val env c (n * j + t) (n * j + k / 32)
      some (x, y)
    let s := accStep env.rm r.1 (cycleSum env.rm ps)
    some (s.1, r.2 ||| s.2)) (acc, 0)

/-- The TRAPINFO0 of a reserved narrow code in an operand (R191), its first one by row. -/
def reservedAtOperand (env : FEnv) (o : Operand) (tag : Nat) : Option Nat :=
  if o.code ≠ 9 then none
  else
    let per := 32 * pePer o.code
    ((List.range (32 * per)).find? fun t => (o.val env (t / per) (t % per) 0).isNone).map fun t =>
      2 ^ 63 + tag + t / per * 2 ^ 10 + t % per

/-- The environment that a command captured. -/
def MCmd.env (q : MCmd) : FEnv :=
  let f := q.fpc.toNat
  { rm := .fromCode q.rm, ftz := bit f 3, daz := bit f 4, satf := bit f 5 }

/-- M-slot opcode of a command (R185). -/
def MKind.op : MKind → Nat
  | .mma => 1 | .mlatch | .mlatchMem => 2 | .mzero => 3 | .mst => 4 | .msv => 5 | .mrst => 6

/-- A value encoded into an element of a scaled or unscaled destination (R37, R41, R45, R47). -/
def encodeElem (env : FEnv) (n : NFmt) (tblS tblD : List Nat) (src dst : Nat) (scale : Option Nat) (x : Nat) (v : Val) : FRes :=
  match scale, v with
  | none, _ | _, .nan _ _ => (convert env n tblS tblD src dst x).getD (0, 0)
  | _, _ => valToElem env n tblD dst (unscaledVal scale v)

/-- Bytes with their keys in a bank group: 2^21 × group + offset. -/
def padKeys (g off : Nat) (bs : List Byte) : List (Nat × Byte) := (bs.zipIdx).map fun p => (2 ^ 21 * g + off + p.2, p.1)

/-- What `mst` writes (R190). -/
def mstOut (x : Ctx) (q : MCmd) : MOut :=
  let code := entFmt q.a.ent
  let n := NFmt.ofFmt q.fmt.toNat
  let w := codeWidth n code
  let tbl := tableCodes q.a.cb
  let g := tdG q.a.desc
  let rows := (List.range 32).map fun i =>
    let xs := (List.range 32).map fun j => (x.accv q.acc i j).toNat
    let vs := xs.map Fp.d.unpack
    let sc := if entScaled q.a.ent then some (blockScale n tbl code vs) else none
    let es := xs.map fun v => encodeElem q.env n [] tbl 0 code sc v (Fp.d.unpack v)
    (i, sc, es)
  { pad := rows.flatMap (fun r =>
      padKeys g (tdOff q.a.desc + r.1 * tdPitch q.a.desc) (leBytes (4 * w) ((r.2.2.zipIdx).foldl (fun a p => a + p.1.1 * 2 ^ (w * p.2)) 0)) ++
        match r.2.1 with
        | some s => padKeys g (tdOff q.a.desc + 32 * tdPitch q.a.desc + r.1) [.ofNat 8 s]
        | none => []),
    acc := if q.clr then (List.range 1024).map fun i => (1024 * q.acc + i, 0) else [],
    fl := rows.foldl (fun f r => f ||| orFlags r.2.2) 0 }

/-- A latch loaded from a tile or from memory (R182). -/
def latchFrom (q : MCmd) (data scales : List Byte) : Latch :=
  { full := true, data, scales, code := entFmt q.a.ent, fmt := q.fmt.toNat, scaled := entScaled q.a.ent, cb := q.a.cb }

/-- The pieces of memory, each in one line, that an `mlatch` from memory reads: its rows, then its scales (R182). -/
def MCmd.pieces (q : MCmd) : List (Nat × Nat) :=
  let cut (va n : Nat) : List (Nat × Nat) := ((List.range (n / 128 + 2)).map fun i =>
    let lo := if i = 0 then va else (va / 128 + i) * 128
    (lo, min (va + n) ((va / 128 + i + 1) * 128) - lo)).filter (·.2 != 0)
  ((List.range 32).flatMap fun i => cut (q.addr + 256 * i) (rowBytes q.fmt (entFmt q.a.ent))) ++
    if entScaled q.a.ent then cut (q.addr + 8192) (32 * pePer (entFmt q.a.ent)) else []

/-- The pieces that a command has still to read are read, up to one that stops; those already read are kept (16 R332). -/
def Machine.gather (m : Machine) (q : MCmd) : List (Nat × Nat) → Machine × MCmd × Option Stop
  | [] => (m, q, none)
  | p :: ps =>
    match m.readRange q.ctx p.1 p.2 2 with
    | .ok (m, bs) => Machine.gather m { q with got := q.got ++ [bs] } ps
    | .error (.trap k) => (m.discard (coreOf q.ctx) k, q, some (.trap k))
    | .error s => (m, q, some s)

/-- The memory operand of a command, read as far as it can be (R191; 16 R332). -/
def Machine.gatherAll (m : Machine) (q : MCmd) : Machine × MCmd × Option Stop :=
  if q.kind = .mlatchMem then m.gather q (q.pieces.drop q.got.length) else (m, q, none)

/-- What a command writes, or the cause of its operand fetch (R187-R191). -/
def Machine.fetchCmd (m : Machine) (q : MCmd) : Machine × Except Cause MOut :=
  let n := coreOf q.ctx
  let k := m.core n
  let x := m.ctx q.ctx
  let fail (code i0 : Nat) : Machine × Except Cause MOut :=
    (m, .error { code, kind := 1, i0, i1 := q.pc, i2 := q.kind.op })
  let rb := rowBytes q.fmt (entFmt q.a.ent)
  let sb := 32 * pePer (entFmt q.a.ent)
  match q.kind with
  | .mzero => (m, .ok { acc := (List.range 1024).map fun i => (1024 * q.acc + i, 0) })
  | .msv =>
    (m, .ok { pad := (List.range 32).flatMap fun i => padKeys (tdG q.a.desc) (tdOff q.a.desc + i * tdPitch q.a.desc)
                ((List.range 32).flatMap fun j => leBytes 8 (x.accv q.acc i j).toNat) })
  | .mrst =>
    (m, .ok { acc := (List.range 1024).map fun t =>
                (1024 * q.acc + t, .ofNat 64 (k.padBits (tdG q.a.desc) (8 * (tdOff q.a.desc + t / 32 * tdPitch q.a.desc + 8 * (t % 32))) 64)) })
  | .mst => (m, .ok (mstOut x q))
  | .mlatch =>
    let row (i : Nat) : List Byte := ((List.range 256).map fun j => if j < rb then k.padByte (tdG q.a.desc) (tdOff q.a.desc + i * tdPitch q.a.desc + j) else 0)
    let scales := if entScaled q.a.ent then (List.range sb).map fun i => k.padByte (tdG q.a.desc) (tdOff q.a.desc + (32 + i / 256) * tdPitch q.a.desc + i % 256) else []
    (m, .ok { lat := some (q.lat, latchFrom q ((List.range 32).flatMap row) scales) })
  | .mlatchMem =>
    let bs := q.got.flatten
    let row (i : Nat) : List Byte := (bs.drop (rb * i)).take rb ++ List.replicate (256 - rb) 0
    (m, .ok { lat := some (q.lat, latchFrom q ((List.range 32).flatMap row) ((bs.drop (32 * rb)).take (if entScaled q.a.ent then sb else 0))) })
  | .mma =>
    let l := SMap.get {} k.latch q.b.reg
    if q.b.latch ∧ !l.full then fail 0x17 q.b.reg
    else if q.b.latch ∧ !pairOk (entFmt q.a.ent) l.code then fail 0x14 2
    else
      let a := tileOperand k q.fmt q.a
      let b := if q.b.latch then latchOperand l else tileOperand k q.fmt q.b
      match (reservedAtOperand q.env a 0).or (reservedAtOperand q.env b (if q.b.latch then 2 ^ 35 + q.b.reg * 2 ^ 32 else 2 ^ 32)) with
      | some loc => fail 0x19 loc
      | none =>
        let rs := (List.range 1024).map fun t =>
          (mmaElem q.env a b (t / 32) (t % 32) (if q.z0 then 0 else (x.accv q.acc (t / 32) (t % 32)).toNat)).getD (0, 0)
        (m, .ok { acc := (rs.zipIdx).map fun p => (1024 * q.acc + p.2, .ofNat 64 p.1.1), fl := orFlags rs })

/-- A cause of the operand fetch of the command at the head of a core's queue: it and the context's later commands are retained (R191) (log 42, DESIGN CHOICE). One that the damper
blocked leaves the queue without effect (10 R256; 21 R416). -/
def Machine.retain (m : Machine) (n : Nat) (q : MCmd) (rest : List MCmd) (k : Cause) : Machine :=
  if k.code = 0x3B then (m.onCore n fun c => { c with mq := rest }).onCtx q.ctx fun x => { x with deferred := x.deferred ++ [k] }
  else
    let mine := rest.filter fun r => r.ctx == q.ctx
    (m.onCore n fun c => { c with mq := rest.filter fun r => r.ctx != q.ctx }).onCtx q.ctx fun x =>
      { x with retained := x.retained ++ q :: mine, deferred := x.deferred ++ [k] }

/-- The next queued command starts (R187), once its memory operand has been read; with a cause of its operand fetch it is retained (R191). -/
def Machine.startCmd (m : Machine) (n : Nat) : Machine :=
  match (m.core n).mrun, (m.core n).mq with
  | none, q :: rest =>
    match m.gatherAll q with
    | (m, q, some (.hold h)) => (m.onCore n fun k => { k with mq := q :: rest }).lostRoute q.ctx h
    | (m, q, some (.trap t)) => m.retain n q rest { t with kind := 1, i1 := q.pc, i2 := q.kind.op }
    | (m, q, none) =>
      match m.fetchCmd q with
      | (m, .ok o) => m.onCore n fun k => { k with mq := rest, mrun := some (q, o) }
      | (m, .error c) => m.retain n q rest c
  | _, _ => m

def execMatrixCmdStart (core : Nat) (s : State) : Out State := .next { s with m := s.m.startCmd core }

/-- The running command completes: results, and flags into FLG (R187; 02 R34). -/
def Machine.completeCmd (m : Machine) (n : Nat) : Machine :=
  match (m.core n).mrun with
  | none => m
  | some (q, o) =>
    let m := m.onCore n fun k =>
      let k := { k with mrun := none, latch := match o.lat with
        | some (l, v) => SMap.set {} k.latch l v
        | none => k.latch }
      o.pad.foldl (fun k p => k.setPadByte (p.1 / 2 ^ 21) (p.1 % 2 ^ 21) p.2) k
    m.onCtx q.ctx fun x => ({ x with acc := SMap.setAll 0 x.acc o.acc }).orFlg o.fl

def execMatrixCmdComplete (core : Nat) (s : State) : Out State := .next { s with m := s.m.completeCmd core }

end Sys2Proof.Machine
end

