-- ==== Sys2Proof/Machine/Copy.lean ====
section
/-! DEFINITION. Copy.lean: the copy channels: transfers at issue and at work, follow-on commands, static schedules and privileged channels (08_copy_channels.md R193-R210; 20_collective_instances.md R400, R408; 17 R432). -/

namespace Sys2Proof.Machine

/-! ### Combining (20 R400) -/

/-- Formats that an operator accepts (R400). -/
def redAccepts (op : RedOp) (code : Nat) : Bool :=
  match op with
  | .sum => code ≤ 3 || code == 6 || code == 7
  | .max | .min => code ≤ 8
  | .merge => code == 11

/-- Op(a, b) of R400 on element codes: FTZ, DAZ and SATF never apply. -/
def redRun (op : RedOp) (code rm a b : Nat) : FRes :=
  let env : FEnv := { rm := .fromCode rm }
  match op, fpOfCode code with
  | .merge, _ => let r := (Triple.ofNat a).merge (Triple.ofNat b); (r.1.toNat, r.2)
  | .sum, some f => f.add env false a b
  | .max, some f => f.minmax env true a b
  | .min, some f => f.minmax env false a b
  | .sum, none => ((a + b) % 2 ^ codeWidth {} code, 0)
  | .max, none => ((IOp.run .max {} code false a b).getD 0, 0)
  | .min, none => ((IOp.run .min {} code false a b).getD 0, 0)

/-! ### Issue -/

/-- What a copy syllable or a schedule entry asks for. -/
structure CopyReq where
  kind : XKind
  follow : Bool := false
  d : Nat
  tid : Nat
  ch : Nat
  lay : Nat
  base : Nat
  aux : Nat
  pc : Nat
  deriving DecidableEq, Repr

/-- SPEC of an aux word (R197). -/
def CopyReq.spec (r : CopyReq) : Nat := r.aux % 2 ^ 32

/-- Offences of SPEC for `tldm` (R205) and `ttrans` (R207), as TRAPINFO0 values. -/
def CopyReq.specBad (r : CopyReq) : List Nat :=
  let s := r.spec
  if r.follow then
    (mustZero 128 (bits s 0 16)) ++
      (if bit s 26 ∧ bits s 22 4 ≠ 0 then [128 + 22 + lowBit 4 (bits s 22 4)] else []) ++
      (if bits s 28 3 = 5 ∨ bits s 28 3 = 6 then [128 + 28] else []) ++ (if bit s 26 ∧ bit s 16 then [128 + 16] else [])
  else
    match r.kind with
    | .ttrans _ => mustZero (128 + 9) (bits s 9 23)
    | _ => []

/-- Check 3 of R204 with the pairs of R199, R201, R207 and R408: 0, or TRAPINFO0 of COPY_DIM. -/
def CopyReq.pairBad (r : CopyReq) (mE tE : Nat) : Nat :=
  let fm := entFmt mE
  let ft := entFmt tE
  match r.kind with
  | .tred op =>
    if fm ≠ ft ∨ !redAccepts op fm ∨ r.lay ≠ (if op = .merge then 2 else 0) then 1 else if entScaled mE ∨ entScaled tE then 3 else 0
  | .ttrans _ =>
    let p := bits r.spec 4 4
    let q := bits r.spec 0 4
    if r.lay = 0 ∧ (fm = 11 ∨ ft = 11) then 1
    else if r.lay ≠ 0 ∨ entRank mE ≤ p ∨ entRank mE ≤ q ∨ p = q ∨ entScaled mE ∨ entScaled tE then 3 else 0
  | _ => if (fm == 11) != (ft == 11) ∨ (fm == 11) != (r.lay == 2) then 1 else 0

/-- Blocks of 32 elements of a window, and the scale rows of a scaled tile (R200). -/
def blocksOf (mE : Nat) : Nat := ceilDiv (entCount mE) 32
def scaleRows (mE tE : Nat) : Nat := if entScaled tE then ceilDiv (blocksOf mE) 256 else 0

/-- Check 4 of R204: window and tile shape. -/
def tileFits (lay desc mE tE wt : Nat) : Bool :=
  let x0 := entExt mE 0
  let sr := scaleRows mE tE
  dataRows lay mE + sr ≤ tdRows desc && (sr == 0 || min 256 (blocksOf mE) ≤ tdRowb desc) &&
    (match lay with
      | 0 => x0 * wt % 8 == 0 && x0 * wt / 8 ≤ tdRowb desc
      | 1 => entRank mE == 2 && x0 == 32 * pePer (entFmt tE) && entExt mE 1 == 32 && 4 * pePer (entFmt tE) * wt ≤ tdRowb desc
      | _ => entRank mE == 1 && x0 == 128 && tdRowb desc == 256 && tdPitch desc == 256 && 12 ≤ tdRows desc)

/-- Checks 5 and 6 of R204 on the base address: the limit of 2^32 elements is one on the window's number of elements (log 45, DEDUCED). -/
def baseOk (base w mE : Nat) : Bool :=
  let s := entSpan mE
  (w < 8 || base % min 8 (w / 8) == 0) && entCount mE ≤ 2 ^ 32 && 0 ≤ (8 * base : Int) + w * s.1 && (8 * base : Int) + w * (s.2 + 1) ≤ 2 ^ 67

/-- The checks of R204 at issue, with the transfer that a request becomes (R205) (log 45, DEDUCED). -/
def Machine.copyCheck (m : Machine) (c : Nat) (x : Ctx) (r : CopyReq) : Res Xfer := do
  match r.specBad.min? with
  | some i => raise 0x03 i
  | none => pure ()
  let desc ← x.tile r.d
  let m0 ← x.useEntry r.tid
  let tE ← x.useEntry (tdTid desc)
  check (r.pairBad m0 tE == 0) 0x21 (r.pairBad m0 tE)
  let mE := match r.kind with
    | .ttrans _ => entSwap m0 (bits r.spec 4 4) (bits r.spec 0 4)
    | _ => m0
  let wt := widthOf x.fmt (entFmt tE)
  check (tileFits r.lay desc mE tE wt) 0x21 2
  check ((m.core (coreOf c)).tileOk desc) 0x14 1
  check (baseOk r.base (widthOf x.fmt (entFmt mE)) mE) 0x22 r.base
  let out := r.kind == .tst || r.kind == .ttrans true
  let dst := if out then mE else tE
  check (entFmt dst != 10 || cb4Ordered (tableCodes (x.entryTable dst))) 0x1A (entCb dst)
  let s := r.spec
  let follow ← if r.follow ∧ bit s 31 then do
      let ot := bits s 20 6
      let rm := if bits s 28 3 = 7 then bits x.fpc.toNat 0 3 else bits s 28 3
      let q ← if bit s 16 then m.mmaCheck c x (bits s 17 3) ot r.d false rm (bit s 27) r.pc
              else m.mmaCheck c x (bits s 17 3) r.d (if bit s 26 then ot % 4 else ot) (bit s 26) rm (bit s 27) r.pc
      Except.ok (some q)
    else Except.ok none
  .ok { ch := r.ch, id := 0, kind := r.kind, reg := r.d, lay := r.lay, desc, mEnt := mE, tEnt := tE, mCb := x.entryTable mE, tCb := x.entryTable tE,
        fpc := x.fpc, fmt := x.fmt, base := r.base, aux := r.aux, pc := r.pc, ti := x.ti, follow }

/-- Tile registers that a transfer reads and writes at issue: its own, and the other operand of a follow-on command (R202, R205). -/
def Xfer.roles (t : Xfer) : List Nat × List Nat :=
  let other := match t.follow with
    | some q => q.reads.filter (· != t.reg)
    | none => []
  if t.writesTile then (other, [t.reg]) else (t.reg :: other, [])

/-- A checked transfer joins its channel (R193, R194), once no role conflicts with what was pending when its bundle began (07 R179); what the same bundle or stage issues beside it holds nothing (log 94, DESIGN CHOICE). -/
def Machine.issueXfer (m0 m : Machine) (c : Nat) (t : Xfer) : Res Machine := do
  m0.scoreboard c t.roles.1 t.roles.2
  let x := m.ctx c
  if 64 ≤ (x.xfers.filter fun u => u.ch == t.ch && !u.isFire).length then .error (.hold .busy)
  else
    let id := x.cr (0x34 + t.ch)
    .ok (m.setCtx c { x.setCr (0x34 + t.ch) (id + 1) with xfers := x.xfers ++ [{ t with id := id.toNat, seq := x.opSeq }], opSeq := x.opSeq + 1 })

/-- The owner of a fire or of a privileged transfer: a context, or from 384 up the image of a pre-empted one by its number (R209; 20 R407). -/
def Machine.owner (m : Machine) (c : Nat) : Ctx := if c < 384 then m.ctx c else SMap.get {} m.images (c - 384)
def Machine.onOwner (m : Machine) (c : Nat) (f : Ctx → Ctx) : Machine :=
  if c < 384 then m.onCtx c f else { m with images := SMap.set {} m.images (c - 384) (f (m.owner c)) }

/-- The core through whose space an owner's image area is addressed, and its address: the context's, or the first of the launch for a saved task (11 R261) (log 32, DESIGN CHOICE). -/
def Machine.imageArea (m : Machine) (c : Nat) : Option (Nat × Nat) :=
  if 384 ≤ c then (m.launch ((c - 384) / 2048)).map fun l => ((l.cores.head?).getD 0, l.area ((c - 384) / 2 % 1024))
  else ((m.ctx c).launch.bind m.launch).map fun l => (coreOf c, l.area (m.ctx c).img)

/-- The memory key of a word of an owner's image (10 R255; 11 R261), which lies in pinned service pages (16 R337). -/
def Machine.imageKey (m : Machine) (c off : Nat) : Option Nat := (m.imageArea c).bind fun a => m.pinned a.1 (a.2 + off)

/-- Flags reach FPC.FLG of its owner, for an image in its control state (10 R255). -/
def Machine.ownerFlags (m : Machine) (c fl : Nat) : Machine :=
  if c < 384 then m.onCtx c fun x => x.orFlg fl
  else match m.imageKey c 0x280 with
    | some k => m.setWord k (m.word k ||| fl * 2 ^ 16)
    | none => m

/-- A privileged count in a context's image advances (R209); the context is killed where the image is not in pinned pages (16 R337). -/
def Machine.bumpCount (m : Machine) (c off : Nat) : Machine :=
  match m.imageKey c off with
  | some k => m.setWord k ((m.word k + 1) % 2 ^ 64)
  | none => if (m.imageArea c).isSome then m.serviceFault c else m

/-- A checked transfer joins a privileged channel of its core, which has the limit of R194 too (R209). -/
def Machine.issuePriv (m0 m : Machine) (c : Nat) (t : Xfer) : Res Machine := do
  m0.scoreboard c t.roles.1 t.roles.2
  if 64 ≤ ((m.core (coreOf c)).priv.filter fun p => p.2.ch == t.ch).length then .error (.hold .busy)
  else
    let m := m.onCtx c fun x => { x with opSeq := x.opSeq + 1 }
    .ok ((m.onCore (coreOf c) fun k => { k with priv := k.priv ++ [(c, { t with seq := (m.ctx c).opSeq - 1 })] }).bumpCount c (0x380 + 16 * t.ch))

/-- A copy instruction: a transfer on a channel of the context, or on a privileged channel of its core (R205, R209). -/
def copyOp (kind : CopyOp → Word → XKind) (follow : Bool) (o : CopyOp) (s : State) : Out State :=
  syllable (fun e m => do
    let aux := e.x.sreg o.c
    let t ← e.m0.copyCheck e.c e.x { kind := kind o aux, follow, d := o.d.toNat, tid := o.tid.toNat, ch := o.ch.toNat, lay := o.lay.toNat,
                                     base := (e.x.sreg o.a + e.x.src o.b).toNat, aux := aux.toNat, pc := m.bun.pc.toNat }
    if o.prv then Machine.issuePriv e.m0 m e.c t else Machine.issueXfer e.m0 m e.c t) s

def execTld (o : CopyOp) (s : State) : Out State := copyOp (fun _ _ => .tld) false o s
def execTst (o : CopyOp) (s : State) : Out State := copyOp (fun _ _ => .tst) false o s
def execTldm (o : CopyOp) (s : State) : Out State := copyOp (fun _ _ => .tld) true o s
def execTtrans (o : CopyOp) (s : State) : Out State := copyOp (fun _ aux => .ttrans (bit aux.toNat 8)) false o s
def execTred (opr : RedOp) (o : CopyOp) (s : State) : Out State := copyOp (fun _ _ => .tred opr) false o s

/-! ### Static schedules -/

/-- Fields of a schedule entry (R208). -/
def schedStg (w : Nat) : Nat := bits w 48 16

def schedReq (x : Ctx) (i w : Nat) : CopyReq :=
  let op := bits w 40 8
  { kind := if op = 2 then .tst else if op = 5 then .ttrans (bit (bits w 128 64) 8) else .tld, follow := op == 3,
    d := bits w 34 6, ch := bits w 32 2, tid := bits w 24 8, lay := bits w 22 2,
    base := (x.sreg (.ofNat 6 (bits w 16 6)) + .ofNat 64 (bits w 64 64)).toNat, aux := bits w 128 64, pc := 2 ^ 63 + i }

/-- The form of a schedule entry after the entry before it (R208). -/
def schedOk (prev w : Nat) : Bool :=
  [1, 2, 3, 5].contains (bits w 40 8) && bits w 192 64 == 0 && bits w 0 16 == 0 && bits w 22 2 != 3 && prev ≤ schedStg w

/-- The schedule's entries of the stages that a predicate names, in table order: all are checked before any of them issues (R208). -/
def Machine.runSchedule (m0 m : Machine) (c : Nat) (x : Ctx) (now : Nat → Bool) : Res Machine := do
  let todo := x.sched.zipIdx.filter fun p => now (schedStg p.1)
  let ts ← todo.mapM fun p =>
    if !schedOk (if p.2 = 0 then 0 else schedStg (x.sched.getD (p.2 - 1) 0)) p.1 then (raise 0x23 p.2 : Res Xfer)
    else
      match m0.copyCheck c x (schedReq x p.2 p.1) with
      | .error (.trap _) => raise 0x23 p.2
      | r => r
  ts.foldlM (fun (m : Machine) t => Machine.issueXfer m0 m c t) m

/-- Stage 0 of the copy schedule issues with the bundle in progress: the first of its tile task, with STAGE 0 (R208; 04 R98). -/
def Ctx.stageZeroDue (x : Ctx) : Bool := x.stage0 && x.depth == 0 && x.cr 0x24 == 0

/-- `tstage` (R206): the entries of the stages above the old value of STAGE and at or below the new one, and ahead of them stage 0 where it is due. -/
def execTstage (b : Src) (s : State) : Out State :=
  syllable (fun e m => do
    let n := (e.x.cr 0x24).toNat + (e.x.src b).toNat
    check (n ≤ 65535) 0x23 n
    if e.x.src b = 0 then .ok m
    else
      let m ← Machine.runSchedule e.m0 m e.c e.x fun g => g ≤ n && (decide ((e.x.cr 0x24).toNat < g) || (g == 0 && e.x.stageZeroDue))
      .ok { (m.onCtx e.c fun x => x.setCr 0x24 (.ofNat 64 n)) with bun := { m.bun with stage0 := true } }) s

/-! ### Elements -/

def Xfer.nf (t : Xfer) : NFmt := .ofFmt t.fmt.toNat
def Xfer.tw (t : Xfer) : Nat := widthOf t.fmt (entFmt t.tEnt)
def Xfer.va (t : Xfer) (i : Nat) : Nat := elemAddr t.base t.mw t.mEnt i

/-- The environment that a transfer captured. -/
def Xfer.env (t : Xfer) : FEnv :=
  let f := t.fpc.toNat
  { rm := .fromCode (bits f 0 3), ftz := bit f 3, daz := bit f 4, satf := bit f 5 }

/-- One access of a transfer (R204) (log 40, DEDUCED). -/
def Machine.xferAccess (m : Machine) (n va : Nat) (a : Acc) : Res (Machine × Phys) := do
  let (m, p) ← match m.translate n va a fun e => !leafCAP e with
    | .ok r => Except.ok r
    | .error (.trap k) => if k.code = a.permCause ∧ (match (m.discard n k).translate n va a with | .ok (_, p) => leafCAP p.leaf | .error _ => false) = true then raise 0x22 va else .error (.trap k)
    | .error h => .error h
  check (damperAllows m p.key && !(a != .load && sysBlockRefused m n p)) 0x3B va
  m.farCheck va 1 a p.key
  .ok (m, p)

/-- `n` bytes read in pieces that lie in one line (09 R214). -/
def Machine.xferRead (m : Machine) (c va n : Nat) : Nat → Res (Machine × List Byte)
  | 0 => .ok (m, [])
  | fuel + 1 => do
    if n = 0 then return (m, [])
    let len := min n (128 - va % 128)
    let (m, p) ← m.xferAccess (coreOf c) va .load
    let (m, bs) ← m.readLine c p len
    let (m, rest) ← Machine.xferRead m c (va + len) (n - len) fuel
    .ok (m, bs ++ rest)

/-- `n` bits of memory from a bit offset in the byte at `va`. -/
def Machine.readBits (m : Machine) (c va sh w : Nat) : Res (Machine × Nat) := do
  let (m, bs) ← m.xferRead c va ((sh + w + 7) / 8) 3
  .ok (m, bits (leNat bs) sh w)

/-- Bytes written at their home, in pieces that lie in one line, none of them coded (17 R358); the core's copies of them go. -/
def Machine.xferWrite (m : Machine) (c va : Nat) (bs : List Byte) : Nat → Res Machine
  | 0 => .ok m
  | fuel + 1 => do
    if bs = [] then return m
    let len := min bs.length (128 - va % 128)
    let (m, p) ← m.xferAccess (coreOf c) va .store
    check p.cri.isNone 0x20 va
    let m := m.drain (coreOf c) p.key len
    m.needLine (m.stageOf c va p.key) p.key
    let m := m.performStore { ctx := c, va, key := p.key, bytes := bs.take len, stage := m.stageOf c va p.key }
    Machine.xferWrite (m.onCore (coreOf c) fun k => k.dropRange p.key len) c (va + len) (bs.drop len) fuel

/-- `w` bits written from a bit offset in the byte at `va`; the other bits of the bytes keep their values. -/
def Machine.writeBits (m : Machine) (c va sh w v : Nat) : Res Machine := do
  let n := (sh + w + 7) / 8
  if sh = 0 ∧ w % 8 = 0 then m.xferWrite c va (leBytes n v) 3
  else
    let old := (List.range n).map fun i => match m.xferAccess (coreOf c) (va + i) .store with
      | .ok (m, p) => let m := m.drain (coreOf c) p.key 1; (m.seen c p.key (m.bytes p.key 1)).headD 0
      | .error _ => 0
    m.xferWrite c va (leBytes n (setBits (leNat old) sh w v)) 3

/-- The bit offset of element `i` in its first byte. -/
def Xfer.sh (t : Xfer) (i : Nat) : Nat := ((elemBit t.mw t.mEnt i) % 8).toNat

/-- The tile's code of element `i`, and its replacement. -/
def Xfer.tileGet (t : Xfer) (k : Core) (i : Nat) : Nat :=
  let g := tdG t.desc
  if t.lay = 2 then (tripleOffs (tdOff t.desc) i).foldr (fun o n => k.padBits g (8 * o) 64 + 2 ^ 64 * n) 0
  else k.padBits g (tileBit t.lay t.desc t.mEnt t.tw i) t.tw

def Xfer.tileSet (t : Xfer) (k : Core) (i v : Nat) : Core :=
  let g := tdG t.desc
  if t.lay = 2 then ((tripleOffs (tdOff t.desc) i).zipIdx).foldl (fun k p => k.setPadBits g (8 * p.1) 64 (bits v (64 * p.2) 64)) k
  else k.setPadBits g (tileBit t.lay t.desc t.mEnt t.tw i) t.tw v

/-- The scale byte of block `b` in memory and in the tile (R200). -/
def Xfer.scaleVa (t : Xfer) (b : Nat) : Nat := (entScale t.mEnt + t.aux / 2 ^ 32 + b) % 2 ^ 64
def Xfer.scalePad (t : Xfer) (b : Nat) : Nat := scaleOff t.lay t.desc t.mEnt b

/-- A transfer writes memory; its two sides as formats with codebooks: source, then destination. -/
def Xfer.out (t : Xfer) : Bool := t.kind == .tst || t.kind == .ttrans true
def Xfer.srcEnt (t : Xfer) : Nat := if t.out then t.tEnt else t.mEnt
def Xfer.dstEnt (t : Xfer) : Nat := if t.out then t.mEnt else t.tEnt

/-- Scale bytes are copied; scales are computed (R200, R201). -/
def Xfer.copiesScales (t : Xfer) : Bool := entScaled t.mEnt && entScaled t.tEnt && entFmt t.mEnt == entFmt t.tEnt
def Xfer.computes (t : Xfer) : Bool := entScaled t.dstEnt && !t.copiesScales

/-- Elements move bit for bit (R201). -/
def Xfer.bitwise (t : Xfer) : Bool := entFmt t.mEnt == entFmt t.tEnt && entScaled t.mEnt == entScaled t.tEnt

/-- One element's conversion under its scales (R47, R201); `none` for the reserved narrow code. -/
def Xfer.conv (t : Xfer) (ss sd : Option Nat) (x : Nat) : Option FRes :=
  let sf := entFmt t.srcEnt
  let df := entFmt t.dstEnt
  let ts := tableCodes (if t.out then t.tCb else t.mCb)
  let td := tableCodes (if t.out then t.mCb else t.tCb)
  if t.bitwise then some (x, 0)
  else if ss.isNone ∧ sd.isNone then convert t.env t.nf ts td sf df x
  else
    match elemVal t.env t.nf ts sf x with
    | none => none
    | some v =>
      if ss = some 255 then convert t.env t.nf ts td 0 df Fp.d.canonNan
      else if v.isNan then convert t.env t.nf ts td sf df x
      else some (valToElem t.env t.nf td df (unscaledVal sd (scaledVal ss v)))

/-- The source of element `i`: its code and its scale byte. -/
def Machine.xferSource (m : Machine) (c : Nat) (t : Xfer) (i : Nat) : Res (Machine × Nat × Option Nat) := do
  let k := m.core (coreOf c)
  let use := entScaled t.srcEnt && !t.bitwise
  if t.out then .ok (m, t.tileGet k i, if use then some (k.padByte (tdG t.desc) (t.scalePad (i / 32))).toNat else none)
  else
    let (m, x) ← m.readBits c (t.va i) (t.sh i) t.mw
    if use then
      let (m, s) ← m.readBits c (t.scaleVa (i / 32)) 0 8
      .ok (m, x, some s)
    else .ok (m, x, none)

/-- A value for a coded block: virtual line, region, memory key of the line, place in it, code (R432). -/
structure CodedPut where
  vline : Nat
  cri : Nat
  key : Nat
  slot : Nat
  code : Nat
  deriving DecidableEq, Repr

/-- The window covers a decoded line wholly (R432). -/
def Xfer.covers (t : Xfer) (vline : Nat) : Bool :=
  (List.range 16).all fun s => (List.range (entCount t.mEnt)).any fun i => t.va i == 128 * vline + 8 * s

/-- The code of element `i` at its destination: the scratchpad, memory, or a place in a coded block that waits to be written. -/
def Machine.xferPut (m : Machine) (c : Nat) (t : Xfer) (i v : Nat) : Res (Machine × List CodedPut) := do
  let n := coreOf c
  if !t.out then .ok (m.onCore n fun k => t.tileSet k i v, [])
  else
    let va := t.va i
    let (m, p) ← m.xferAccess n va .store
    match p.cri with
    | none => do
      let m ← m.writeBits c va (t.sh i) t.mw v
      .ok (m, [])
    | some cri =>
      check (entFmt t.mEnt == 0 && va % 8 == 0) 0x20 va
      check (!(nonFinite v && (codecRate (crtField m p.key cri 8 4)).getD 64 != 64 && crtField m p.key cri 6 2 == 0)) 0x1F va
      check (t.covers (va / 128) || (codedLine m cri p.key).isSome) 0x33 va
      m.needLine (m.stageOf c va p.key) p.key
      .ok (m, [{ vline := va / 128, cri, key := p.key / 128 * 128, slot := va % 128 / 8, code := v }])

/-- One element moved or combined, with its flags (R199-R201, R408); a cause names the element's address, whichever byte of it faulted (R204).
`sd` is the scale of a scaled destination. -/
def Machine.xferElem (m : Machine) (c : Nat) (t : Xfer) (sd : Option Nat) (i : Nat) : Res (Machine × Nat × List CodedPut) := atAddress (t.va i) do
  let (m, x, ss) ← m.xferSource c t i
  let r ← match t.kind with
    | .tred op => Except.ok (redRun op (entFmt t.mEnt) (bits t.fpc.toNat 0 3) x (t.tileGet (m.core (coreOf c)) i))
    | _ => match t.conv ss sd x with
      | some r => Except.ok r
      | none => raise 0x19 (t.va i)
  let (m, puts) ← m.xferPut c t i r.1
  .ok (m, r.2, puts)

/-- A scale byte at its destination, before the elements of its block, whose first element a cause names (R48, R200, R204); none lies in a coded region. -/
def Machine.xferScale (m : Machine) (c : Nat) (t : Xfer) (b s : Nat) : Res Machine :=
  if t.out then atAddress (t.va (32 * b)) do
    let (m, p) ← m.xferAccess (coreOf c) (t.scaleVa b) .store
    check p.cri.isNone 0x20 (t.scaleVa b)
    m.xferWrite c (t.scaleVa b) [.ofNat 8 s] 1
  else .ok (m.onCore (coreOf c) fun k => k.setPadByte (tdG t.desc) (t.scalePad b) (.ofNat 8 s))

/-- A unit of progress (R204): one element, or with computed scales a block of 32. -/
def Machine.xferUnit (m : Machine) (c : Nat) (t : Xfer) (i : Nat) : Res (Machine × Nat × List CodedPut) := do
  if !t.computes then
    let m ← if t.copiesScales ∧ i % 32 = 0 then (do
        let (m, s) ← if t.out then Except.ok (m, ((m.core (coreOf c)).padByte (tdG t.desc) (t.scalePad (i / 32))).toNat)
          else atAddress (t.va i) (m.readBits c (t.scaleVa (i / 32)) 0 8)
        m.xferScale c t (i / 32) s) else Except.ok m
    m.xferElem c t none i
  else
    let is := (List.range (min 32 (entCount t.mEnt - i))).map (i + ·)
    let src ← is.foldlM (fun (a : Machine × List Val) j => do
      let (m, x, ss) ← atAddress (t.va j) (a.1.xferSource c t j)
      let v ← match elemVal t.env t.nf (tableCodes (if t.out then t.tCb else t.mCb)) (entFmt t.srcEnt) x with
        | some v => Except.ok (scaledVal ss v)
        | none => raise 0x19 (t.va j)
      Except.ok (m, a.2 ++ [v])) (m, [])
    let tbl := tableCodes (if t.out then t.mCb else t.tCb)
    let sd := blockScale t.nf tbl (entFmt t.dstEnt) src.2
    -- every element of the block is tried before the scale byte and any of them is written
    let m ← src.1.xferScale c t (i / 32) sd
    is.foldlM (fun (a : Machine × Nat × List CodedPut) j => do
      let (m, fl, puts) ← a.1.xferElem c t (some sd) j
      Except.ok (m, a.2.1 ||| fl, a.2.2 ++ puts)) (m, 0, [])

/-- How a transfer's run ended: the machine, the transfer's progress, values for coded blocks, the cause, and whether it waits for a route. -/
structure Ran where
  m : Machine
  t : Xfer
  puts : List CodedPut
  cause : Option Cause := none
  waits : Bool := false

/-- The units of a transfer in logical order, up to the first that faults (R204); TRAPINFO3 is the channel, or the package that refused the access (19 R386) (log 40, DEDUCED). Elements that precede the kept progress are
gathered again only for coded blocks not yet written. -/
def xferLoop (c : Nat) : List Nat → Ran → Ran
  | [], r => r
  | i :: is, r =>
    if i < r.t.prog ∧ !(r.t.blocks.contains (r.t.va i / 128)) then xferLoop c is r
    else
      match r.m.xferUnit c r.t i with
      | .ok (m, fl, puts) => xferLoop c is { r with m, t := { r.t with prog := max r.t.prog (i + if r.t.computes then 32 else 1), fl := r.t.fl ||| fl }, puts := r.puts ++ puts }
      | .error (.trap k) =>
        { r with m := r.m.discard (coreOf c) k, cause := some { k with kind := 1, i1 := r.t.pc, i2 := r.t.id, i3 := some (k.i3.getD r.t.ch) } }
      | .error (.hold h) => { r with waits := true, m := r.m.lostRoute c h }

/-- One read-modify-write per coded block that a window touches (R432), or the values of the block staged for the context's group (09 R236). -/
def Machine.putBlock (m : Machine) (c : Nat) (puts : List CodedPut) (vline : Nat) : Machine × Nat :=
  let mine := puts.filter fun p => p.vline == vline
  match mine with
  | [] => (m, 0)
  | p :: _ =>
    let m := m.drain (coreOf c) p.key 128
    let old := (codedLine m p.cri p.key).getD (List.replicate 16 0)
    let new := mine.foldl (fun xs q => xs.set q.slot q.code) old
    let put (q : CodedPut) : StoreEntry :=
      { ctx := c, va := 128 * vline + 8 * q.slot, key := p.key + 8 * q.slot, bytes := leBytes 8 q.code, coded := some p.cri, stage := m.stageOf c (128 * vline) p.key }
    if (m.stageOf c (128 * vline) p.key).isSome then ((mine.map put).foldl Machine.performStore m, 0)
    else
      match codedStore (m.noteInput (put p)) p.cri p.key new with
      | .ok (m, fl) => ((m.dropLlc p.key).onCore (coreOf c) fun k => k.dropRange p.key 128, fl)
      | .error _ => (m, 0)

/-- A transfer run as far as it goes: coded blocks whose elements all precede the stop are written, the others are kept (R204) (log 42, DESIGN CHOICE). -/
def Machine.runXfer (m : Machine) (c : Nat) (t : Xfer) : Ran :=
  let n := entCount t.mEnt
  let unit := if t.computes then 32 else 1
  let r := xferLoop c ((List.range (ceilDiv n unit)).map (· * unit)) { m, t, puts := [] }
  let lines := (r.puts.map (·.vline)).eraseDups
  let short := r.cause.isSome || r.waits
  let stop := if short then r.t.prog else n
  let open_ (v : Nat) : Bool := short && (List.range (n - stop)).any fun j => r.t.va (stop + j) / 128 == v
  let w := (lines.filter fun v => !open_ v).foldl (fun (a : Machine × Nat) v => let q := a.1.putBlock c r.puts v; (q.1, a.2 ||| q.2)) (r.m, r.t.fl)
  { r with m := w.1, t := { r.t with fl := w.2, blocks := lines.filter open_ } }

/-! ### Events -/


/-- The bytes of two transfers may meet. -/
def Xfer.meets (t u : Xfer) : Bool := t.spans.any fun a => u.spans.any fun b => decide (a.1 < b.2) && decide (b.1 < a.2) && decide (a.1 < a.2) && decide (b.1 < b.2)

/-- An earlier transfer of the context that a transfer waits for: their bytes may meet (R202), or their follow-on commands go into one accumulator (R205). -/
def Xfer.waitsFor (t u : Xfer) : Bool :=
  u.seq < t.seq && !u.isFire && !t.isFire && (((t.out || u.out) && t.meets u) ||
    match t.follow, u.follow with
    | some p, some q => p.acc == q.acc
    | _, _ => false)

/-- A pre-emption of a context in task code is pending (10 R254): it waits for the operations under way, and none starts anew. -/
def Ctx.preempting (x : Ctx) : Bool := x.depth == 0 && x.async.any fun k => k.code == 0x35

/-- The i-th transfer of a context starts: the earlier ones of its channel have started (R194, R195). -/
def Machine.startXfer (m : Machine) (c i : Nat) : Machine :=
  m.onCtx c fun x =>
    match x.xfers[i]? with
    | some t =>
      if t.started ∨ x.preempting ∨ (x.xfers.take i).any (fun u => u.ch == t.ch && !u.started) then x
      else { x with xfers := x.xfers.set i { t with started := true } }
    | none => x

def execTransferStart (c i : Nat) (s : State) : Out State := .next { s with m := s.m.startXfer c i }

/-- A transfer that can run to its end or a fault now. -/
def Machine.xferReady (m : Machine) (c : Nat) (t : Xfer) : Bool :=
  t.started && t.fault.isNone && !(m.xfersOf c).any (fun u => t.waitsFor u || (u.seq < t.seq && m.fireMeets c t u)) && (t.follow.isNone || (m.core (coreOf c)).mq.length < 16)

/-- The follow-on command of a transfer that is complete enters the matrix queue of its context (R205): behind the commands that a cause has retained,
or into the image of a context that is pre-empted. -/
def Machine.follow (m : Machine) (c : Nat) (t : Xfer) : Machine :=
  match t.follow with
  | some q =>
    if 384 ≤ c ∨ (m.owner c).retained ≠ [] then m.onOwner c fun x => { x with retained := x.retained ++ [{ q with ctx := c }] }
    else m.onCore (coreOf c) fun k => { k with mq := k.mq ++ [{ q with ctx := c }] }
  | none => m

/-- No access of a context waits for a line to stage it any more: a later wait raises STAGE_OVERFLOW again (14 R309). -/
def Machine.clearTold (m : Machine) (c : Nat) : Machine :=
  if (m.ctx c).told.any (512 ≤ ·) then m.onCtx c fun x => { x with told := x.told.filter (· < 512) } else m

/-- What completion does: flags reach FLG, and the follow-on command enters the matrix queue (R195, R201, R205). -/
def Machine.finishXfer (m : Machine) (c i : Nat) (t : Xfer) : Machine :=
  (m.onCtx c fun x => ({ x with xfers := x.xfers.eraseIdx i }).orFlg t.fl).follow c t

/-- A started transfer runs: it completes, or it becomes faulted with its kept progress (R195, R204). -/
def Machine.advanceXfer (m : Machine) (c i : Nat) : Machine × Bool :=
  match (m.ctx c).xfers[i]? with
  | some t =>
    if !m.xferReady c t ∨ t.isFire then (m, false)
    else
      let r := m.runXfer c t
      match r.cause with
      | none => if r.waits then (r.m.onCtx c fun x => { x with xfers := x.xfers.set i r.t }, false) else ((r.m.clearTold c).finishXfer c i r.t, true)
      | some k => ((r.m.clearTold c).onCtx c fun x => { x with xfers := x.xfers.set i { r.t with fault := some k } }, false)
  | none => (m, false)

/-- The context through whose core a privileged transfer of core `n` runs: the issuing one, unless that has moved. -/
def privActor (n c : Nat) : Nat := if coreOf c = n then c else 4 * n

/-- The cause of a privileged transfer in its context's image: TRAPINFO0, code, issuing PC, and 8 bytes of zero, from the flag file's last 64 bytes (R209; 10 R255) (log 25, DESIGN CHOICE). -/
def Machine.recordPriv (m : Machine) (c ch : Nat) (k : Option Cause) : Machine :=
  match m.imageKey c (0xFC0 + 32 * ch) with
  | none => m
  | some key =>
    match k with
    | some k => m.setNat key 32 (pack [(0, k.i0.getD 0 % 2 ^ 64), (64, k.code), (128, k.i1.getD 0 % 2 ^ 64)])
    | none => if m.nat key 32 = 0 then m else m.setNat key 32 0

/-- Privileged transfers run one at a time per channel, in issue order, wherever the issuing context is by then (R209), behind the transfers of that context that
R202 orders before them. -/
def Machine.advancePriv (m : Machine) (n ch : Nat) : Machine :=
  match (m.core n).priv.zipIdx.find? fun p => p.1.2.ch == ch with
  | some ((c, t), i) =>
    if t.fault.isSome ∨ ((m.owner c).xfers ++ m.privOf c).any (t.waitsFor ·) ∨ (t.follow.isSome ∧ c < 384 ∧ 16 ≤ (m.core (coreOf c)).mq.length) then m
    else
      let r := m.runXfer (privActor n c) { t with started := true }
      match r.cause with
      | none =>
        if r.waits then r.m.onCore n fun q => { q with priv := q.priv.set i (c, r.t) }
        else ((((r.m.onCore n fun k => { k with priv := k.priv.eraseIdx i }).ownerFlags c r.t.fl).bumpCount c (0x388 + 16 * ch)).recordPriv c ch none).follow c t
      | some k => ((r.m.onCore n fun q => { q with priv := q.priv.set i (c, { r.t with fault := some { k with lv := 1 } }) }).recordPriv c ch (some k)).onOwner c fun x =>
          { x with deferred := x.deferred ++ [{ k with lv := 1 }] }
  | none => m

def execPrivTransferComplete (core : Nat) (ch : Bool) (s : State) : Out State := .next { s with m := s.m.advancePriv core (if ch then 1 else 0) }

end Sys2Proof.Machine
end

