-- ==== Sys2Proof/Machine/Kv.lean ====
section
/-! DEFINITION. Kv.lean: KV tables, frames at their owner, `attn` with its stoves and flue, and `kvmap` (18_kv_tables_and_attention.md R362-R377). -/

namespace Sys2Proof.Machine

/-! ### The table (R362-R364) -/

def rootTlen (r : Nat) : Nat := bits r 128 24
def rootLeaf (r : Nat) : Nat := bits r 64 64
def rootV (r : Nat) : Bool := bit r 63
def rootFmt (r : Nat) : Nat := bits r 36 4
def rootD (r : Nat) : Nat := 32 * (bits r 33 3 + 1)
def rootB (r : Nat) : Nat := 16 * 2 ^ bits r 31 2
def rootL (r : Nat) : Nat := bits r 27 4 + 1
def rootH (r : Nat) : Nat := bits r 21 6 + 1
def rootNlb (r : Nat) : Nat := bits r 0 21
def rootRb (r : Nat) : Nat := rootD r * codeWidth {} (rootFmt r) / 8

/-- Bytes of a frame, and of one package's frame slots (R364). -/
def frameBytesOf (r : Nat) : Nat := 2 * rootL r * rootH r * rootB r * rootRb r
def kvfs (m : Machine) : Nat := bits (m.sysWord 0x90) 32 16 * 4096
def kvsn (m : Machine) : Nat := bits (m.sysWord 0x90) 0 32

/-- Check 5 of R370 on a root entry. -/
def rootOk (m : Machine) (r : Nat) : Bool :=
  rootV r && bits r 152 104 == 0 && bits r 40 23 == 0 && rootFmt r ≤ 5 && bits r 31 2 != 3 && rootLeaf r % 4096 == 0 && frameBytesOf r ≤ kvfs m

/-- A leaf entry: mapped without a reserved bit, its owner and its block number (R363). -/
def leafMapped (e : Nat) : Bool := bit e 63 && bits e 40 12 == 0
def leafOwner (e : Nat) : Nat := bits e 52 9
def leafGbn (e : Nat) : Nat := bits e 0 40

/-- The byte of a frame at which the keys of a layer and head lie, or the values (R364). -/
def partOff (r layer head : Nat) (vals : Bool) : Nat :=
  2 * (layer * rootH r + head) * rootB r * rootRb r + if vals then rootB r * rootRb r else 0

/-! ### Frames at the owner (R365-R367) -/

/-- The memory of an owning package, and a word of its system block. -/
def ownerSpace (m : Machine) (pkg : Nat) : Nat := if pkg = selfPkg m then 0 else (3 + pkg) * 2 ^ 46
def ownerWord (m : Machine) (pkg off : Nat) : Nat := if pkg = selfPkg m then m.sysWord off else m.word (ownerSpace m pkg + off)

/-- The key of an owner entry, and the entry (R365). -/
def ownerKey (m : Machine) (pkg gbn : Nat) : Nat := ownerSpace m pkg + ownerWord m pkg 0x68 + 32 * gbn
def ownerEntry (m : Machine) (pkg gbn : Nat) : Nat := m.nat (ownerKey m pkg gbn) 32

def oeTier (e : Nat) : Nat := bits e 61 2
def oeSealed (e : Nat) : Bool := bit e 60
def oeFrame (e : Nat) : Nat := bits e 12 34 * 4096
def oeRv (e : Nat) : Bool := bit e 155

/-- An entry is valid (R365). -/
def ownerOk (m : Machine) (pkg gbn e : Nat) : Bool :=
  gbn < bits (ownerWord m pkg 0x90) 0 32 && bit e 63 && oeTier e != 1 && bits e 192 64 == 0 && bits e 128 27 == 0 && bits e 46 13 == 0 && bits e 0 12 == 0

/-- The memory key of a frame of a package in a tier (R328) (log 21, DESIGN CHOICE). -/
def tierKey (m : Machine) (pkg tier frame : Nat) : Nat :=
  if tier = 0 then ownerSpace m pkg + frame
  else if pkg = selfPkg m then (if tier = 2 then 2 ^ 46 + frame else 2 * 2 ^ 46 + frame)
  else 2 ^ 58 + (2 * pkg + tier - 2) * 2 ^ 46 + frame

/-- The CRC-64 of ECMA-182 (R366). -/
def crcByte (crc b : Nat) : Nat :=
  (List.range 8).foldl (fun c _ => if bit c 63 then (c * 2 % 2 ^ 64) ^^^ 0x42F0E1EBA9EA3693 else c * 2 % 2 ^ 64) (crc ^^^ (b * 2 ^ 56))
def crc64 (bs : List Byte) : Nat := bs.foldl (fun c b => crcByte c b.toNat) 0

/-- The free records of a package's frames and block numbers (R365). -/
def kvRecord (m : Machine) (pkg k : Nat) : Nat := ownerSpace m pkg + ownerWord m pkg 0x70 + 64 * k

/-- An entry popped from a free record after its refill; none when it is empty. -/
def Machine.kvPop (m : Machine) (pkg k : Nat) : Option (Machine × Nat) :=
  let m := m.refill (kvRecord m pkg k) (ownerSpace m pkg)
  if recDry (m.nat (kvRecord m pkg k) 64) then none else some (m.popRecord (kvRecord m pkg k) (0x0500 + k) (ownerSpace m pkg))

/-- An entry returned to a free record. -/
def Machine.kvPush (m : Machine) (pkg k v : Nat) : Machine :=
  let r := m.nat (kvRecord m pkg k) 64
  (m.setWord (ownerSpace m pkg + recStk r + 8 * recNfree r) v).setNat (kvRecord m pkg k) 64 (setBits r 416 32 (recNfree r + 1))

/-- The record of a tier's frames: 0 HBM4E, 1 CXL, 2 host. -/
def tierRecord (tier : Nat) : Nat := tier - 1

/-- The replica of a sealed block already lies in the tier that the block is demoted to (R367). -/
def replicaIn (e tier : Nat) : Bool := tier != 0 && oeSealed e && oeRv e && bits e 156 2 == tier

/-- A promotion or a demotion begins (R366, R367): BUSY is set, and a frame taken unless the replica becomes current; none while the record is empty. A request to another owner is sent to it (19 R385). -/
def Machine.kvBegin (m : Machine) (v : KvMove) : Option Machine :=
  let e := ownerEntry m v.pkg v.gbn
  let start (m : Machine) (frame : Option Nat) : Machine :=
    let m := m.setNat (ownerKey m v.pkg v.gbn) 32 (setBits e 59 1 1)
    { m with moves := m.moves ++ [{ v with frame }] }.farRequest (coreOf v.who.1) (ownerKey m v.pkg v.gbn) 32
  if replicaIn e v.tier then some (start m none)
  else (m.kvPop v.pkg (tierRecord v.tier)).map fun p => start p.1 (some p.2)

/-- Who asked for a move still waits for it. -/
def Machine.asks (m : Machine) (w : Nat × Nat) : Bool :=
  if w.1 < 384 then (m.ctx w.1).kvops.any fun k => k.seq == w.2
  else if w.1 < 512 then (SMap.get none m.walks (w.1 - 384)).isSome
  else m.kvReqs.any fun r => 512 + r.src == w.1 && r.txn == w.2

/-- The expander fails an access of a move to a frame of this package in tier 2 (16 R343): the one that the asker's core or Parser is due, or one outside every HDM range; and the machine with that mark spent. -/
def Machine.cxlFails (m : Machine) (v : KvMove) (tier frame : Nat) : Machine × Bool :=
  if tier ≠ 2 ∨ v.pkg ≠ selfPkg m then (m, false)
  else if (m.hdmAt (2 ^ 46 + frame)).isNone then (m, true)
  else if v.who.1 < 384 then (m.onCore (coreOf v.who.1) fun k => { k with cxlBad := false }, (m.core (coreOf v.who.1)).cxlBad)
  else if v.who.1 < 512 then
    let d := (v.who.1 - 384) / 16
    let p : Parser := SMap.get {} m.parsers d
    ({ m with parsers := SMap.set {} m.parsers d { p with cxlBad := false } }, p.cxlBad)
  else (m, false)

/-- A move has failed: its frame goes back, the entry stays as it was, and its asker is told (R367). -/
def Machine.kvFail (m : Machine) (v : KvMove) (e why : Nat) : Machine :=
  let m := m.setNat (ownerKey m v.pkg v.gbn) 32 e
  let m := match v.frame with
    | some f => m.kvPush v.pkg (tierRecord v.tier) f
    | none => m
  if m.asks v.who then { m with moves := m.moves ++ [{ v with why := some why }] } else m

/-- A move is done: the entry as it then is, and TIER of the leaf entry through which it was asked for (R363), where that names the block. -/
def Machine.kvSettle (m : Machine) (v : KvMove) (e : Nat) : Machine :=
  let m := m.setNat (ownerKey m v.pkg v.gbn) 32 e
  match v.leaf with
  | some k =>
    let l := m.word k
    if leafOwner l = v.pkg ∧ leafGbn l = v.gbn then m.setWord k (setBits l 61 2 (if v.tier = 0 then (if v.pkg = selfPkg m then 0 else 1) else v.tier)) else m
  | none => m

/-- A promotion ends (R367): the lower frame is copied into the staging frame, and with a matching tag that becomes current and the lower one the replica. -/
def Machine.kvPromote (m : Machine) (v : KvMove) (frame : Nat) : Machine :=
  let e := setBits (ownerEntry m v.pkg v.gbn) 59 1 0
  let x := m.cxlFails v (oeTier e) (oeFrame e)
  if x.2 then x.1.kvFail v e 2
  else
    let bs := x.1.bytes (tierKey m v.pkg (oeTier e) (oeFrame e)) (bits (ownerWord m v.pkg 0x90) 32 16 * 4096)
    let m := x.1.setBytes (tierKey m v.pkg 0 frame) bs
    if crc64 bs = bits e 64 64 then
      m.kvSettle v (setBits (setBits (setBits (setBits (setBits e 12 34 (frame / 4096)) 61 2 0) 158 34 (oeFrame e / 4096)) 156 2 (oeTier e)) 155 1 1)
    else m.kvFail v e 0

/-- A demotion ends (R367): the replica becomes current, or the frame is copied into the one taken, with its tag; the HBM4E frame goes back. -/
def Machine.kvDemote (m : Machine) (v : KvMove) : Machine :=
  let e := setBits (ownerEntry m v.pkg v.gbn) 59 1 0
  let old := oeFrame e
  match v.frame with
  | none => (m.kvSettle v (setBits (setBits (setBits (setBits (setBits e 12 34 (bits e 158 34)) 61 2 v.tier) 158 34 0) 156 2 0) 155 1 0)).kvPush v.pkg 0 old
  | some frame =>
    let x := m.cxlFails v v.tier frame
    if x.2 then x.1.kvFail v e 2
    else
      let bs := x.1.bytes (tierKey m v.pkg 0 old) (bits (ownerWord m v.pkg 0x90) 32 16 * 4096)
      let tag := if oeSealed e then bits e 64 64 else crc64 bs
      ((x.1.setBytes (tierKey m v.pkg v.tier frame) bs).kvSettle v (setBits (setBits (setBits (setBits e 12 34 (frame / 4096)) 61 2 v.tier) 64 64 tag) 60 1 1)).kvPush v.pkg 0 old

/-- A move in progress ends. -/
def Machine.kvFinish (m : Machine) (v : KvMove) : Machine :=
  let m := { m with moves := m.moves.erase v }
  match v.tier, v.frame with
  | 0, some f => m.kvPromote v f
  | _, _ => m.kvDemote v

/-- Every move in progress ends. -/
def Machine.kvFinishAll (m : Machine) : Machine := (m.moves.filter (·.why.isNone)).foldl Machine.kvFinish m

/-- A write to a sealed block opens it: its replica no longer describes it and goes back to its record (R366; log 20, DEDUCED). -/
def Machine.kvOpen (m : Machine) (pkg gbn : Nat) : Machine :=
  let e := ownerEntry m pkg gbn
  if !oeSealed e then m
  else
    let e' := setBits (setBits (setBits (setBits e 60 1 0) 158 34 0) 156 2 0) 155 1 0
    let m' := m.setNat (ownerKey m pkg gbn) 32 e'
    if oeRv e ∧ bits e 156 2 ≠ 0 then m'.kvPush pkg (tierRecord (bits e 156 2)) (bits e 158 34 * 4096) else m'

/-- The free of a block (R366, R378): its entry, its frames and its number go back; none while a move is in progress. -/
def Machine.kvFree (m : Machine) (pkg gbn : Nat) : Option Machine :=
  let e := ownerEntry m pkg gbn
  if !ownerOk m pkg gbn e then some m
  else if bit e 59 then none
  else
    let m := (m.setNat (ownerKey m pkg gbn) 32 0).kvPush pkg (tierRecord (oeTier e)) (oeFrame e)
    let m := if oeRv e then m.kvPush pkg (tierRecord (bits e 156 2)) (bits e 158 34 * 4096) else m
    some (m.kvPush pkg 3 gbn)

/-- What a request on a block finds (R366): it waits, it fails, with TRAPINFO3 or 2 for the expander, or the block lies where it must. -/
inductive KvFound where
  | wait
  | bad (why : Nat)
  | ready
  deriving DecidableEq, Repr

/-- A request that needs a block in HBM4E (tier 0), or below in a tier (R365-R367): another owner must be in reach (19 R387), a move that failed for the asker is its to report, and a block that lies
elsewhere is moved first; a lower block asked into a lower tier stays where it is (R377). -/
def Machine.kvNeed (m : Machine) (who : Nat × Nat) (pkg gbn tier : Nat) (leaf : Option Nat) : Machine × KvFound :=
  let e := ownerEntry m pkg gbn
  if pkg ≠ selfPkg m ∧ routes m pkg = [] then (m, .wait)
  else match m.moves.find? fun v => v.pkg == pkg && v.gbn == gbn && v.who == who && v.why.isSome with
    | some v => ({ m with moves := m.moves.erase v }, .bad (v.why.getD 0))
    | none =>
      if !ownerOk m pkg gbn e then (m, .bad 1)
      else if bit e 59 then (m, .wait)
      else if (oeTier e == 0) == (tier == 0) then (m, .ready)
      else ((m.kvBegin { pkg, gbn, tier, leaf, who }).getD m, .wait)

/-- The key of a leaf entry, for a context. -/
def Machine.leafKey (m : Machine) (c root blk : Nat) : Option Nat :=
  match m.translate (coreOf c) ((rootLeaf root + 8 * blk) % 2 ^ 64) .load with
  | .ok (_, p) => some p.key
  | .error _ => none

/-- The event of the move of a block, named as in TRAPINFO2 (R374), to HBM4E or to a lower tier. -/
def Machine.moveEvent (m : Machine) (block : Nat) (tier : Nat) : Machine :=
  match m.moves.find? fun v => v.pkg * 2 ^ 40 + v.gbn == block && v.tier == tier && v.why.isNone with
  | some v => m.kvFinish v
  | none => m

/-- The events kvPromotion and kvDemotion. -/
def execKvPromotion (gbn : Nat) (s : State) : Out State := .next { s with m := s.m.moveEvent gbn 0 }
def execKvDemotion (gbn : Nat) (tier : BitVec 2) (s : State) : Out State := .next { s with m := if tier = 0 then s.m else s.m.moveEvent gbn tier.toNat }

/-! ### Issue -/

/-- The root entry of a group, and the leaf entries of blocks `lo` to `hi` − 1, after zeros for those below, while the root is valid (R370 check 3). -/
def Machine.kvTables (m : Machine) (c kroot lg : Nat) (lo hi : Nat → Nat) : Res (Machine × Nat × List Nat) := do
  let (m, rb) ← m.readRange c ((kroot + 32 * lg) % 2 ^ 64) 32 2
  let r := leNat rb
  if !rootOk m r then .ok (m, r, [])
  else
    let lo := min (lo r) (rootNlb r)
    let n := min (hi r) (rootNlb r) - lo
    let (m, lb) ← m.readRange c ((rootLeaf r + 8 * lo) % 2 ^ 64) (8 * n) (n / 16 + 3)
    .ok (m, r, List.replicate lo 0 ++ (List.range n).map fun i => leNat ((lb.drop (8 * i)).take 8))

/-- Checks 5 and 6 of R370. -/
def kvRootCheck (m : Machine) (kroot r lg layer head : Nat) : Res Unit := do
  check (rootOk m r) 0x2F 2 kroot
  check (lg != 63 && layer < rootL r && head < rootH r) 0x2F 3 kroot

/-- Check 8 of R370 on one tile: its formats, its rows and its banks. -/
def kvTileOk (k : Core) (x : Ctx) (a : MArg) (top d : Nat) : Bool :=
  entFmt a.ent ≤ top && tdRows a.desc ≤ 32 && 8 * tdRowb a.desc ≥ d * widthOf x.fmt (entFmt a.ent) && k.tileOk a.desc

/-- Check 10 of R370: the lowest unmapped block of those read, which begin at `lo`. -/
def kvMapped (leaves : List Nat) (lo kroot lg : Nat) : Res Unit :=
  match leaves.zipIdx.find? fun p => !leafMapped p.1 with
  | some p => raise 0x2D (lo + p.2) kroot lg
  | none => .ok ()

/-- Bytes of a slot of a request area (R369). -/
def slotBytes (nq d : Nat) : Nat := roundUp (nq * (2 + d) * 8) 128

/-- A class 7 operation joins its context's (R99). -/
def Machine.issueKv (m0 m : Machine) (c : Nat) (op : KvOp) (reads writes : List Nat) : Res Machine := do
  m0.scoreboard c reads writes
  if 65535 ≤ (m.ctx c).kvops.length then .error (.hold .busy)
  else .ok (m.onCtx c fun x => { x with kvops := x.kvops ++ [{ op with seq := x.opSeq }], opSeq := x.opSeq + 1 })

/-- `attn` (R368-R370). -/
def execAttn (d a b : Reg) (rm : BitVec 3) (noMask : Bool) (s : State) : Out State :=
  syllable (fun e m => do
    let n := coreOf e.c
    let _ ← e.x.tile d.toNat
    let _ ← e.x.tile a.toNat
    let dst ← e.x.captureTile d.toNat true
    let src ← e.x.captureTile a.toNat true
    let area := (e.x.sreg b).toNat
    check (area % 256 == 0) 0x0A area
    let (m, p) ← m.access n area 1 .store
    if (m.core n).path.any fun e => overlaps e.key e.bytes.length p.key 256 then .error (.hold .busy)
    let hd := leNat (m.stagedOver e.c p.key (m.bytes p.key 256))
    let kroot := bits hd 0 64
    let req := bits hd 64 64
    let lg := bits req 10 6
    let len := bits req 40 24
    check (kroot % 2048 == 0) 0x0A kroot
    let nb (r : Nat) : Nat := ceilDiv len (rootB r)
    let (m, r, leaves) ← m.kvTables e.c kroot lg (fun _ => 0) nb
    let size := 256 + 17 * slotBytes (tdRows src.desc) (rootD r)
    let pages := pagesOf area size
    let m ← pages.foldlM (fun m pg => do let (m, _) ← m.access n (max area (pg * 4096)) 1 .store; Except.ok m) m
    check (pages.all fun pg => (m.pinned n (max area (pg * 4096))).isSome) 0x2F 1 kroot
    kvRootCheck m kroot r lg (bits req 6 4) (bits req 0 6)
    check (nb r ≤ rootNlb r) 0x2F 4 kroot
    let k := e.m0.core n
    check (kvTileOk k e.x src 3 (rootD r) && kvTileOk k e.x dst 3 (rootD r) && tdRows src.desc == tdRows dst.desc) 0x2F 5 kroot
    check (bits hd 240 1808 == 0 && bits hd 216 8 == 0) 0x2F 6 kroot
    kvMapped leaves 0 kroot lg
    let m := m.setNat (p.key + 24) 6 0
    Machine.issueKv e.m0 m e.c { kind := .attn, src, dst, area, kroot, lg, root := r, leaves, layer := bits req 6 4, head := bits req 0 6, pos := bits req 16 24, len,
                                     scale := bits hd 128 64, noMask, rm := capturedRm e.x rm, fpc := e.x.fpc, fmt := e.x.fmt, pc := m.bun.pc.toNat, ti := e.x.ti }
      [a.toNat] [d.toNat]) s

/-- The `kvmap` forms (R377). -/
def kvmapOp (kind : KvKind) (d : Reg) (a : Reg) (b : Src) (c : Reg) (fn3 : Bool) (tier : Nat) (s : State) : Out State :=
  syllable (fun e m => do
    let n := coreOf e.c
    let kroot := (e.x.sreg a).toNat
    check (!fn3) 0x2F 6 kroot
    let w := (e.x.sreg c).toNat
    let pos := (e.x.src b).toNat
    let lg := bits w 10 6
    let src ← if kind = .write then e.x.captureTile d.toNat true else Except.ok {}
    check (kroot % 2048 == 0) 0x0A kroot
    let len := if kind = .write then tdRows src.desc else bits w 40 24
    let (m, r, leaves) ← m.kvTables e.c kroot lg (fun r => if len = 0 then 0 else pos / rootB r) fun r => if len = 0 then 0 else ceilDiv (pos + len) (rootB r)
    kvRootCheck m kroot r lg (bits w 6 4) (bits w 0 6)
    check (pos + len ≤ rootNlb r * rootB r) 0x2F 4 kroot
    check (kind != .write || kvTileOk (e.m0.core n) e.x { src with desc := setBits src.desc 96 16 (min 32 (tdRows src.desc)) } 5 (rootD r)) 0x2F 5 kroot
    check (bits w 17 23 == 0 && (if kind = .write then bits w 40 24 == 0 else !bit w 16 && bits w 6 4 == 0 && bits w 0 6 == 0)) 0x2F 6 kroot
    let lo := pos / rootB r
    if len ≠ 0 then kvMapped (leaves.drop lo) lo kroot lg
    Machine.issueKv e.m0 m e.c { kind, src, kroot, lg, root := r, leaves, layer := bits w 6 4, head := bits w 0 6, vals := bit w 16, pos, len, tier,
                                     fpc := e.x.fpc, fmt := e.x.fmt, pc := m.bun.pc.toNat, ti := e.x.ti } (if kind = .write then [d.toNat] else []) []) s

def execKvmap (d a : Reg) (b : Src) (c : Reg) (fn3 : Bool) (_tt : BitVec 2) (s : State) : Out State := kvmapOp .write d a b c fn3 0 s
def execKvmapPro (a : Reg) (b : Src) (c : Reg) (s : State) : Out State := kvmapOp .promote 0 a b c false 0 s
def execKvmapDem (a : Reg) (b : Src) (c : Reg) (tt : BitVec 2) (s : State) : Out State := kvmapOp .demote 0 a b c false tt.toNat s

/-! ### The stove (R371) -/

/-- FP64 values in step: RN64 with its flags. -/
def exp64 (x : Nat) : FRes := Fn.run .exp .d {} x
def max64 (a b : Nat) : FRes := Fp.d.minmax {} true a b

/-- An empty row of a partial: m = −∞, s = +0, o = +0 (R372). -/
def emptyRow (d : Nat) : List Nat := 0xFFF0000000000000 :: List.replicate (d + 1) 0

def rowEmpty (r : List Nat) : Bool := r.headD 0 == 0xFFF0000000000000 && r.getD 1 0 == 0

/-- A row element as the stove decodes it: its value, and its FP64 code, a NaN quietened (02 R30). -/
def rowElem (f : Fp) (x : Nat) : Val × Nat := match f.unpack x with
  | .nan neg sig => (.nan neg sig, nanConvert f .d x)
  | v => (v, (Fp.d.ofVal {} false v).1)

/-- x[t]: the exact dot product times the scale, rounded once; of NaNs the first in the order SCALE, q[0], k[0], q[1], … stands (02 R30). -/
def score (scale : Nat) (q k : List (Val × Nat)) : FRes :=
  let srcs := rowElem .d scale :: (q.zip k).flatMap fun p => [p.1, p.2]
  match srcs.find? fun x => x.1.isNan with
  | some x => (x.2, if srcs.any fun y => y.1.isSnan then fNV else 0)
  | none =>
    let s := cycleSum .rne ((q.zip k).map fun p => (p.1.1, p.2.1))
    match s.1 with
    | none => (Fp.d.canonNan, s.2)
    | some v =>
      match mulVal (Fp.d.unpack scale) v with
      | none => (Fp.d.canonNan, s.2 ||| fNV)
      | some p => let r := Fp.d.ofVal {} false p; (r.1, s.2 ||| r.2)

/-- One query row over a block's visible tokens: its words m, s, o and its flags. -/
def stoveRow (d scale : Nat) (q : List (Val × Nat)) (toks : List (List (Val × Nat) × List (Val × Nat))) : List Nat × Nat :=
  if toks = [] then (emptyRow d, 0)
  else
    let xs := toks.map fun t => score scale q t.1
    let mx := (xs.drop 1).foldl (fun a x => let r := max64 a.1 x.1; (r.1, a.2 ||| r.2)) ((xs.headD (0, 0)).1, orFlags xs)
    let st := (xs.zip toks).foldl (fun (a : Nat × List Nat × Nat) p =>
      let u := sub64 p.1.1 mx.1
      let ex := exp64 u.1
      let s := add64 a.1 ex.1
      let o := (a.2.1.zip p.2.2).map fun y => let r := fma64 ex.1 y.2.2 y.1; (r.1, r.2 ||| if y.2.1.isSnan then fNV else 0)
      (s.1, o.map (·.1), a.2.2 ||| u.2 ||| ex.2 ||| s.2 ||| orFlags o)) (0, List.replicate d 0, mx.2)
    (mx.1 :: st.1 :: st.2.1, st.2.2)

/-- The partial of query rows over a block's frame, read as the context's stores leave it (09 R212): the words of every row, and the flags. -/
def Machine.stoveRows (m : Machine) (c frame r blk layer head pos len scale : Nat) (noMask : Bool) (qs : List (List (Val × Nat))) : List Nat × Nat :=
  let d := rootD r
  let fmt := rootFmt r
  let f := (fpOfCode fmt).getD .d
  let w := codeWidth {} fmt
  let row (vals : Bool) (t : Nat) : List (Val × Nat) := (List.range d).map fun i =>
    let key := frame + partOff r layer head vals + t * rootRb r + i * w / 8
    rowElem f (leNat (m.seen c key (m.bytes key (w / 8))))
  let rows := qs.zipIdx.map fun q =>
    let vis := (List.range (rootB r)).filter fun t => let p := blk * rootB r + t; p < len && (noMask || p ≤ pos + q.2)
    stoveRow d scale q.1 (vis.map fun t => (row false t, row true t))
  (rows.flatMap (·.1), rows.foldl (fun a r => a ||| r.2) 0)

/-- The query rows of an `attn`, as the stove decodes them. -/
def Machine.queries (m : Machine) (c : Nat) (op : KvOp) : List (List (Val × Nat)) :=
  let k := m.core (coreOf c)
  let qf := (fpOfCode (entFmt op.src.ent)).getD .d
  (List.range (tdRows op.src.desc)).map fun i => (List.range (rootD op.root)).map fun j =>
    rowElem qf (k.padBits (tdG op.src.desc) (8 * (tdOff op.src.desc + i * tdPitch op.src.desc) + qf.width * j) qf.width)

/-- The key of the HBM4E frame of a block. -/
def frameKey (m : Machine) (pkg gbn : Nat) : Nat := ownerSpace m pkg + oeFrame (ownerEntry m pkg gbn)

/-- The partial of a block of an `attn`. -/
def Machine.stove (m : Machine) (c : Nat) (op : KvOp) (blk : Nat) : List Nat × Nat :=
  let e := op.leaves.getD blk 0
  m.stoveRows c (frameKey m (leafOwner e) (leafGbn e)) op.root blk op.layer op.head op.pos op.len op.scale op.noMask (m.queries c op)

/-! ### The flue (R372, R373) -/

/-- Merge_A on one row's words. -/
def mergeRow (a b : List Nat) : List Nat × Nat :=
  if rowEmpty a then (b, 0)
  else if rowEmpty b then (a, 0)
  else
    let g (x : List Nat) (i : Nat) : Nat := x.getD i 0
    let mx := max64 (g a 0) (g b 0)
    let ua := sub64 (g a 0) mx.1
    let ub := sub64 (g b 0) mx.1
    let al := exp64 ua.1
    let be := exp64 ub.1
    let one (i : Nat) : FRes := let p := mul64 (g a i) al.1; let r := fma64 (g b i) be.1 p.1; (r.1, p.2 ||| r.2)
    let os := (List.range (a.length - 1)).map fun i => one (i + 1)
    (mx.1 :: os.map (·.1), orFlags ([mx, ua, ub, al, be] ++ os))

/-- Merge_A on a slot's rows of `n` words. -/
def mergeSlot (n : Nat) (a b : List Nat) : List Nat × Nat :=
  let rows := (List.range (a.length / n)).map fun i => mergeRow ((a.drop (n * i)).take n) ((b.drop (n * i)).take n)
  (rows.flatMap (·.1), rows.foldl (fun f r => f ||| r.2) 0)

/-- Words of a slot of the request area. -/
def Machine.readSlot (m : Machine) (c : Nat) (op : KvOp) (i : Nat) : List Nat :=
  let n := tdRows op.src.desc * (2 + rootD op.root)
  let sl := slotBytes (tdRows op.src.desc) (rootD op.root)
  let bs := (m.readPinned (coreOf c) (op.area + 256 + i * sl) (8 * n) (n / 512 + 2)).getD []
  (List.range n).map fun j => leNat ((bs.drop (8 * j)).take 8)

def Machine.writeSlot (m : Machine) (c : Nat) (op : KvOp) (i : Nat) (ws : List Nat) : Machine :=
  let sl := slotBytes (tdRows op.src.desc) (rootD op.root)
  (m.writePinned (coreOf c) (op.area + 256 + i * sl) (ws.flatMap (leBytes 8)) (ws.length / 512 + 2)).getD m

/-- PFX and WIN of the request area. -/
def Machine.progress (m : Machine) (c : Nat) (op : KvOp) : Nat × Nat :=
  let h := leNat ((m.readPinned (coreOf c) op.area 256 2).getD [])
  (bits h 192 24, bits h 224 16)

def Machine.setProgress (m : Machine) (c : Nat) (op : KvOp) (pfx win : Nat) : Machine :=
  (m.writePinned (coreOf c) (op.area + 24) (leBytes 4 pfx ++ leBytes 2 win) 2).getD m

/-- Folding at PFX and then every window partial that stands at the new PFX (R372). -/
def Machine.foldFrom (m : Machine) (c : Nat) (op : KvOp) (ws : List Nat) : Nat → Nat → Nat → Machine × Nat × Nat × Nat
  | 0, pfx, win => (m, pfx, win, 0)
  | fuel + 1, pfx, win =>
    let n := 2 + rootD op.root
    let r := if pfx = 0 then (ws, 0) else mergeSlot n (m.readSlot c op 0) ws
    let m := m.writeSlot c op 0 r.1
    let first := m.readSlot c op 1
    let m := (List.range 15).foldl (fun m i => if win / 2 ^ (i + 1) = 0 then m else m.writeSlot c op (i + 1) (m.readSlot c op (i + 2))) m
    if bit win 1 then
      let q := Machine.foldFrom m c op first fuel (pfx + 1) (win / 2)
      (q.1, q.2.1, q.2.2.1, q.2.2.2 ||| r.2)
    else (m, pfx + 1, win / 2, r.2)

/-- The output tile of a complete `attn` (R373): each element o / s rounded once; a row with s = +0 receives +0. -/
def attnOut (op : KvOp) (ws : List Nat) : List (Nat × Nat × Nat) × Nat :=
  let d := rootD op.root
  let f := (fpOfCode (entFmt op.dst.ent)).getD .d
  let env : FEnv := { rm := .fromCode op.rm, ftz := bit op.fpc.toNat 3 }
  let rs := (List.range (tdRows op.dst.desc)).flatMap fun i => (List.range d).map fun j =>
    let s := ws.getD (i * (2 + d) + 1) 0
    let o := ws.getD (i * (2 + d) + 2 + j) 0
    let v : FRes := if s = 0 then (0, 0)
      else match Fp.d.nans [o, s] with
        | some r => (nanConvert .d f r.1, r.2)
        | none => f.divVal env false (Fp.d.unpack o) (Fp.d.unpack s)
    (i, j, v)
  (rs.map fun r => (r.1, r.2.1, r.2.2.1), rs.foldl (fun a r => a ||| r.2.2.2) 0)

/-- The number of blocks of a request. -/
def KvOp.nb (op : KvOp) : Nat := ceilDiv op.len (rootB op.root)

/-- The blocks of a `kvmap`'s range (R377). -/
def KvOp.blocks (op : KvOp) : List Nat :=
  if op.len = 0 then [] else (List.range ((op.pos + op.len - 1) / rootB op.root + 1)).drop (op.pos / rootB op.root)

/-- The blocks that an operation touches, by owner and number. -/
def KvOp.touched (op : KvOp) : List Nat :=
  (if op.kind = .attn then List.range op.nb else op.blocks).map fun b => let e := op.leaves.getD b 0; leafOwner e * 2 ^ 40 + leafGbn e

/-- Operations of a context that touch a common block take effect in issue order (R376): an `attn` waits for the others, and they wait for all (log 55, DEDUCED). -/
def Ctx.kvTurn (x : Ctx) (op : KvOp) : Bool :=
  !x.kvops.any fun p => p.seq < op.seq && !(p.kind == .attn && op.kind == .attn) && p.touched.any op.touched.contains

/-- The cause of an operation for a block that has failed (R374); CXL_ERROR where the expander failed the block's move, with a free TRAPINFO0, as a frame has no virtual address (16 R343) (log 64, DEDUCED). -/
def KvOp.causeFor (op : KvOp) (blk why : Nat) : Cause :=
  let e := op.leaves.getD blk 0
  let block := leafOwner e * 2 ^ 40 + leafGbn e
  if why = 2 then { code := 0x31, kind := 1, i0 := none, i1 := op.pc } else { code := 0x2E, kind := 1, i0 := blk, i1 := op.pc, i2 := some block, i3 := why }

/-- A block of an `attn` has failed. -/
def KvOp.hasFailed (op : KvOp) (blk : Nat) : Bool := op.failed.any fun f => f.1 == blk

/-- An `attn` becomes faulted once every dispatched block is folded, held or failed, and one has failed (R374). -/
def Machine.attnFault (m : Machine) (c : Nat) (op : KvOp) : KvOp :=
  match (op.failed.map (·.1)).min? with
  | none => op
  | some low =>
    let p := m.progress c op
    if (List.range (min op.nb (p.1 + 16))).all fun b => b < p.1 || bit p.2 (b - p.1) || op.hasFailed b then
      { op with fault := some (op.causeFor low (((op.failed.find? fun f => f.1 == low).map (·.2)).getD 0)) }
    else op

def Machine.setKv (m : Machine) (c i : Nat) (op : KvOp) : Machine := m.onCtx c fun x => { x with kvops := x.kvops.set i op }

/-- An operation on a block of another package waits for a route, or only for the block (19 R387). -/
def Machine.kvWaits (m : Machine) (c pkg : Nat) : Machine := if pkg ≠ selfPkg m ∧ routes m pkg = [] then m.lostRoute c (.route pkg) else m

/-- The stove of a dispatched block answers (R371): its partial, or the block's failure. -/
def Machine.stoveAnswer (m : Machine) (c i blk : Nat) : Machine :=
  match (m.ctx c).kvops[i]? with
  | some op =>
    let p := m.progress c op
    if op.kind ≠ .attn ∨ op.fault.isSome ∨ !(m.ctx c).kvTurn op ∨ op.nb ≤ blk ∨ blk < p.1 ∨ p.1 + 16 ≤ blk ∨ bit p.2 (blk - p.1) ∨
        SMap.get [] op.parts blk ≠ [] ∨ op.hasFailed blk then m
    else
      let e := op.leaves.getD blk 0
      match m.kvNeed (c, op.seq) (leafOwner e) (leafGbn e) 0 (m.leafKey c op.root blk) with
      | (m, .wait) => m.kvWaits c (leafOwner e)
      | (m, .bad why) => let op := { op with failed := op.failed ++ [(blk, why)] }; m.setKv c i (m.attnFault c op)
      | (m, .ready) =>
        let r := m.stove c op blk
        (m.farRequest (coreOf c) (frameKey m (leafOwner e) (leafGbn e)) (r.1.length * 8)).setKv c i { op with parts := SMap.set [] op.parts blk (r.1.map (.ofNat 64)), fl := op.fl ||| r.2 }
  | none => m

def execStovePartial (ctx i blk : Nat) (s : State) : Out State := .next { s with m := s.m.stoveAnswer ctx i blk }

/-- An `attn` completes (R373): its output tile is written whole, and the flags reach FLG. -/
def Machine.attnDone (m : Machine) (c i : Nat) (op : KvOp) : Machine :=
  let out := attnOut op (m.readSlot c op 0)
  let w := widthOf op.fmt (entFmt op.dst.ent)
  let m := m.onCore (coreOf c) fun k => out.1.foldl (fun k e =>
    k.setPadBits (tdG op.dst.desc) (8 * (tdOff op.dst.desc + e.1 * tdPitch op.dst.desc) + w * e.2.1) w e.2.2) k
  m.onCtx c fun x => ({ x with kvops := x.kvops.eraseIdx i }).orFlg (op.fl ||| out.2)

/-- The flue takes an arrived partial (R372); at PFX = NB the `attn` completes (R373), one without a block as soon as it is its turn, its fold slot empty. -/
def Machine.fold (m : Machine) (c i blk : Nat) : Machine :=
  match (m.ctx c).kvops[i]? with
  | some op =>
    let ws := (SMap.get [] op.parts blk).map (·.toNat)
    if op.kind = .attn ∧ op.nb = 0 ∧ op.fault.isNone ∧ (m.ctx c).kvTurn op then
      (m.writeSlot c op 0 ((List.range (tdRows op.src.desc)).flatMap fun _ => emptyRow (rootD op.root))).attnDone c i op
    else if ws = [] then m
    else
      let op := { op with parts := SMap.set [] op.parts blk [] }
      let p := m.progress c op
      if blk ≠ p.1 then
        let m := (m.writeSlot c op (blk - p.1) ws).setProgress c op p.1 (p.2 ||| 2 ^ (blk - p.1))
        m.setKv c i (m.attnFault c op)
      else
        let r := m.foldFrom c op ws 17 p.1 p.2
        let m := r.1.setProgress c op r.2.1 r.2.2.1
        let op := { op with fl := op.fl ||| r.2.2.2 }
        if r.2.1 ≠ op.nb then m.setKv c i (m.attnFault c op) else m.attnDone c i op
  | none => m

def execFlueFold (ctx i blk : Nat) (s : State) : Out State := .next { s with m := s.m.fold ctx i blk }

/-! ### `kvmap` at work (R377) -/

/-- How a `kvmap` goes on after one block: it waits, it faults, or it has done it, with flags. -/
inductive KvStep where
  | wait
  | bad (why : Nat)
  | ok (fl : Nat)

/-- The scale byte of element `j` of row `i` of a block-scaled source tile, whose scale rows follow its ROWS rows (02 R47; 07 R180; 08 R200) (log 55, DEDUCED). -/
def KvOp.scaleAt (op : KvOp) (k : Core) (i j : Nat) : Nat :=
  let b := (i * rootD op.root + j) / 32
  (k.padByte (tdG op.src.desc) (tdOff op.src.desc + (tdRows op.src.desc + b / 256) * tdPitch op.src.desc + b % 256)).toNat

/-- An element of the source tile, as it is written into a frame (R377). -/
def KvOp.rowCode (op : KvOp) (k : Core) (env : FEnv) (i j : Nat) : FRes :=
  let sf := entFmt op.src.ent
  let sw := widthOf op.fmt sf
  let x := k.padBits (tdG op.src.desc) (8 * (tdOff op.src.desc + i * tdPitch op.src.desc) + sw * j) sw
  if entScaled op.src.ent then
    match elemVal {} {} [] sf x, op.scaleAt k i j, fpOfCode sf, fpOfCode (rootFmt op.root) with
    | some v, s, some f, some g => match scaledVal (some s) v with
      | .nan _ sig => if s = 255 then (nanConvert .d g Fp.d.canonNan, 0) else (nanConvert f g x, if sig then fNV else 0)
      | y => valToElem env {} [] (rootFmt op.root) y
    | _, _, _, _ => (0, 0)
  else (convert env {} [] [] sf (rootFmt op.root) x).getD (0, 0)

/-- The rows of a tile written into one block. -/
def Machine.kvRows (m : Machine) (c : Nat) (op : KvOp) (blk : Nat) : Machine × Nat :=
  let k := m.core (coreOf c)
  let r := op.root
  let e := op.leaves.getD blk 0
  let frame := frameKey m (leafOwner e) (leafGbn e)
  let dw := codeWidth {} (rootFmt r)
  let f := op.fpc.toNat
  let env : FEnv := { rm := .fromCode (bits f 0 3), ftz := bit f 3, daz := bit f 4, satf := bit f 5 }
  ((List.range op.len).filter fun i => (op.pos + i) / rootB r == blk).foldl (fun (a : Machine × Nat) i =>
    let es := (List.range (rootD r)).map (op.rowCode k env i)
    let key := frame + partOff r op.layer op.head op.vals + (op.pos + i) % rootB r * rootRb r
    let bs := es.flatMap fun x => leBytes (dw / 8) x.1
    ((((a.1.drain (coreOf c) key bs.length).farRequest (coreOf c) key bs.length bs).setBytes key bs).onCore (coreOf c) fun k => k.dropRange key bs.length, a.2 ||| orFlags es)) (m, 0)

/-- One block of a `kvmap` (R377). -/
def Machine.kvBlock (m : Machine) (c : Nat) (op : KvOp) (blk : Nat) : Machine × KvStep :=
  let e := op.leaves.getD blk 0
  let pkg := leafOwner e
  let gbn := leafGbn e
  match m.kvNeed (c, op.seq) pkg gbn (if op.kind = .demote then op.tier else 0) (m.leafKey c op.root blk) with
  | (m, .wait) => (m.kvWaits c pkg, .wait)
  | (m, .bad why) => (m, .bad why)
  | (m, .ready) => if op.kind = .write then let r := (m.kvOpen pkg gbn).kvRows c op blk; (r.1, .ok r.2) else (m, .ok 0)

/-- Blocks in ascending order, after `n` that are done, with their flags; those done stay done when a later one waits or fails (R377). The last part is the block that failed and why, when they do not all wait. -/
def Machine.kvBlocks (m : Machine) (c : Nat) (op : KvOp) : List Nat → Nat → Nat → Machine × Nat × Nat × Option (Option (Nat × Nat))
  | [], n, fl => (m, n, fl, some none)
  | b :: bs, n, fl =>
    match m.kvBlock c op b with
    | (m, .wait) => (m, n, fl, none)
    | (m, .bad why) => (m, n, fl, some (some (b, why)))
    | (m, .ok f) => Machine.kvBlocks m c op bs (n + 1) (fl ||| f)

def Machine.advanceKvmap (m : Machine) (c i : Nat) : Machine :=
  match (m.ctx c).kvops[i]? with
  | some op =>
    if op.kind = .attn ∨ op.fault.isSome ∨ !(m.ctx c).kvTurn op then m
    else
      let r := m.kvBlocks c op (op.blocks.drop op.done) op.done op.fl
      let op := { op with done := r.2.1, fl := r.2.2.1 }
      match r.2.2.2 with
      | none => r.1.setKv c i op
      | some none => r.1.onCtx c fun x => ({ x with kvops := x.kvops.eraseIdx i }).orFlg op.fl
      | some (some (blk, why)) => r.1.setKv c i { op with fault := some (op.causeFor blk why) }
  | none => m

def execKvmapComplete (ctx i : Nat) (s : State) : Out State := .next { s with m := s.m.advanceKvmap ctx i }

/-! ### Requests of other packages (R365, R371, R377, R378) -/

/-- A request of another package on a block of this one: none while it waits, else whether it succeeded, and its answer (log 98, DESIGN CHOICE). -/
def Machine.kvRequest (m : Machine) (who : Nat × Nat) (k : KvReq) : Machine × Option (Bool × List Byte) :=
  let self := selfPkg m
  let need (gbn tier : Nat) (f : Machine → Machine × List Byte) : Machine × Option (Bool × List Byte) :=
    match m.kvNeed who self gbn tier none with
    | (m, .wait) => (m, none)
    | (m, .bad why) => (m, some (false, [.ofNat 8 why]))
    | (m, .ready) => let r := f m; (r.1, some (true, r.2))
  match k with
  | .free gbn => match m.kvFree self gbn with
    | none => (m, none)
    | some m => (m, some (true, []))
  | .move gbn tier => need gbn tier fun m => (m, [])
  | .write gbn off bs => need gbn 0 fun m => let m := m.kvOpen self gbn; (m.setBytes (frameKey m self gbn + off) bs, [])
  | .stove gbn root blk layer head pos len scale noMask fmt rows => need gbn 0 fun m =>
      let r := m.stoveRows 384 (frameKey m self gbn) root blk layer head pos len scale noMask (rows.map fun q => q.map (rowElem ((fpOfCode fmt).getD .d)))
      (m, r.1.flatMap (leBytes 8) ++ [.ofNat 8 r.2])

/-- A waiting request is tried; one that can be served is answered. -/
def Machine.kvServe (m : Machine) (r : RemoteReq) : Machine :=
  match r.kv with
  | none => m
  | some k => match m.kvRequest (512 + r.src, r.txn) k with
    | (m, none) => m
    | (m, some a) => { m with kvReqs := m.kvReqs.erase r, out := m.out ++ [OutMsg.reply r.src r.txn a.1 a.2] }

end Sys2Proof.Machine
end

