-- ==== Sys2Proof/Machine/Links.lean ====
section
/-! DEFINITION. Links.lean: scale-up links, flows of frames, tier 1 requests that arrive, and connections with `tsend` and `trecv` (19_links_and_connections.md R379-R395). -/

namespace Sys2Proof.Machine

/-! ### Link records (R382, R383) -/

def linkKey (m : Machine) (p : Nat) : Nat := lcb m + 0x880 + 64 * p

def Machine.setLink (m : Machine) (p lo w v : Nat) : Machine := m.setNat (linkKey m p) 64 (setBits (m.nat (linkKey m p) 64) lo w v)
def linkCmd (m : Machine) (p : Nat) : Nat := bits (m.word (linkKey m p)) 56 8

/-- A context's bundle, or an unfinished operation of it on an entry, waits for a package. -/
def Machine.usesPkg (m : Machine) (x : Ctx) (pkg : Nat) : Bool :=
  x.hold == some (.route pkg) || x.msgs.any fun t => t.fault.isNone && bits (m.word (m.word (lcb m + 8) + 256 * t.ent)) 52 9 == pkg

/-- LINK_DOWN (R387): in every context with an access or an operation that waits for a package, and in the members of a checkpointed domain group that spans it. -/
def Machine.linkDown (m : Machine) (pkg : Nat) : Machine :=
  (List.range 384).foldl (fun m c =>
    let x := m.ctx c
    let far := match m.ckGroup c with
      | some (g, i) => 4 ≤ i && (m.groupPkgs g).contains pkg
      | none => false
    if m.usesPkg x pkg || (far && x.st != .free) then m.lostRoute c (.route pkg) else m) m

/-- Packages that have a route again may be lost anew. -/
def Machine.routesBack (m : Machine) : Machine :=
  m.ctxs.foldl (fun m p => if p.2.told = [] then m else m.onCtx p.1 fun x => { x with told := x.told.filter fun k => 512 ≤ k || routes m k == [] }) m

/-- A frame kept for a package is resent on the port that is chosen for it now (R385), and counted (R382). -/
def Machine.moveFrame (m : Machine) (p pkg : Nat) (u : BitVec 128 × List Byte × Nat) : Machine :=
  let k := linkKey m p + 8
  (m.sendFrame p pkg u.2.2 u.2.1).setNat k 8 ((m.word k + 1) % 2 ^ 64)

/-- Ports are chosen anew for the frames to a package that are not acknowledged (R385): those whose port changes are resent on the new one, and leave a port that carries no traffic; with no port
left a training link keeps them and a link in down or failed holds nothing, so that they wait for the next port (R383) (log 96, DESIGN CHOICE). -/
def Machine.reroute (m : Machine) (pkg : Nat) : Machine :=
  (m.flows.filter fun f => f.1 % 512 == pkg && f.2.unacked != []).foldl (fun m f =>
    let port := f.1 / 512
    let carries := linkState m port == 2 || linkState m port == 3
    let stays (u : BitVec 128 × List Byte × Nat) : Bool := portFor m pkg u.2.2 == some port
    if routes m pkg = [] then
      if port = 18 ∨ linkState m port = 1 ∨ carries then m
      else
        let w := m.flow 18 pkg
        (m.setFlow port pkg { f.2 with unacked := [], resends := 0 }).setFlow 18 pkg { w with unacked := w.unacked ++ f.2.unacked }
    else
      let m := if port = 18 ∨ !carries then m.setFlow port pkg { f.2 with unacked := [], resends := 0 } else m
      (f.2.unacked.filter fun u => !stays u).foldl (fun m u => match portFor m pkg u.2.2 with
        | some p => m.moveFrame p pkg u
        | none => m) m) m

/-- The routes to some packages have changed: their frames are rerouted, and LINK_DOWN follows where none is left (R385, R387). The route word of SELF is ignored (R380). -/
def Machine.routesChanged (m : Machine) (pkgs : List Nat) : Machine :=
  (pkgs.filter fun k => k < 432 && k != selfPkg m).foldl (fun m k => let m := m.reroute k; if routes m k = [] then m.linkDown k else m) m.routesBack

/-- A link changes its state (R383): INTERRUPT to Rianami, and the routes through it change (R385, R387). -/
def Machine.setLinkState (m : Machine) (p st lanes : Nat) : Machine :=
  let old := linkState m p
  let via := (List.range 432).filter fun k => bit (m.nat (lcb m + 0x80 + 4 * k) 4) p
  let m := (m.setLink p 20 3 st).setLink p 23 4 lanes
  if old = st then m else (m.irq (0x1000 + p)).routesChanged via

/-- A word of the domain map or the route table has been rewritten (R380). -/
def Machine.routeRewritten (m : Machine) (key : Nat) : Machine :=
  let o := key - lcb m
  m.routesChanged (if o < 0x80 then (List.range 64).map (8 * (o - 0x40) + ·) else [(o - 0x80) / 4, (o - 0x80) / 4 + 1])

/-- A command of a link record acts once, and CMD is cleared (R382). -/
def Machine.linkCommand (m : Machine) (p cmd : Nat) : Machine :=
  if linkCmd m p ≠ cmd then m
  else
    let m := m.setLink p 56 8 0
    let st := linkState m p
    match cmd with
    | 1 => if st = 0 then { m.setLinkState p 1 0 with attempts := SMap.set 0 m.attempts p 0 } else m
    | 2 => if st = 4 then m else m.setLinkState p 0 0
    | _ => if st = 4 then m.setLinkState p 0 0 else m

def execLinkTrain (port : Nat) (s : State) : Out State := .next { s with m := s.m.linkCommand port 1 }
def execLinkTakeDown (port : Nat) (s : State) : Out State := .next { s with m := s.m.linkCommand port 2 }
def execLinkClear (port : Nat) (s : State) : Out State := .next { s with m := s.m.linkCommand port 3 }

/-- Any other CMD is answered with 0xFF (R382). -/
def Machine.linkInvalid (m : Machine) (p : Nat) : Machine :=
  if [0, 1, 2, 3, 0xFF].contains (linkCmd m p) then m else m.setLink p 56 8 0xFF

def execLinkCmdInvalid (port : Nat) (s : State) : Out State := .next { s with m := s.m.linkInvalid port }

/-- A bring-up attempt ends (R383): 8 lanes, 4 to 7, or a failure; the third in a row makes the link failed. -/
def Machine.bringUp (m : Machine) (p lanes : Nat) : Machine :=
  if linkState m p ≠ 1 then m
  else if 8 ≤ lanes then { m.setLinkState p 2 8 with attempts := SMap.set 0 m.attempts p 0 }
  else if 4 ≤ lanes then { m.setLinkState p 3 lanes with attempts := SMap.set 0 m.attempts p 0 }
  else
    let n := SMap.get 0 m.attempts p + 1
    let m := { m with attempts := SMap.set 0 m.attempts p n }
    if n < 3 then m else { m.setLinkState p 4 0 with attempts := SMap.set 0 m.attempts p 0 }

def execBringUpEnd (port lanes : Nat) (s : State) : Out State := .next { s with m := s.m.bringUp port lanes }

/-- Loss of block lock in up or degraded goes back to training (R383). -/
def Machine.lockLoss (m : Machine) (p : Nat) : Machine := if linkState m p = 2 ∨ linkState m p = 3 then m.setLinkState p 1 0 else m

def execBlockLockLoss (port : Nat) (s : State) : Out State := .next { s with m := s.m.lockLoss port }

/-! ### Frames (R381, R384) -/

/-- The MAC address of a port of a package (R381). -/
def macOf (pkg port : Nat) : Nat := pack [(40, 0x02), (32, 0x5A), (24, 0x57), (16, pkg / 256), (8, pkg % 256), (0, port)]

/-- A frame is accepted from the ports of packages of the domain only (R381). -/
def macKnown (m : Machine) (a : Nat) : Bool :=
  let pkg := bits a 16 8 * 256 + bits a 8 8
  bits a 0 8 < 18 && pkg < 432 && pkg != selfPkg m && inDomain m pkg && macOf pkg (bits a 0 8) == a

/-- Frames of a flow before the number that an acknowledgement names are released (R384). -/
def ackFlow (f : Flow) (ack : Nat) : Flow :=
  let n := (ack + 2 ^ 16 - (f.next + 2 ^ 16 - f.unacked.length) % 2 ^ 16) % 2 ^ 16
  if n ≤ f.unacked.length ∧ n ≠ 0 then { f with unacked := f.unacked.drop n, resends := 0 } else f

/-- The unacknowledged frames of a flow are sent again, in order, and counted; 16 times in a row sends the link to training (R382-R384). -/
def Machine.resend (m : Machine) (port pkg : Nat) : Machine :=
  let f := m.flow port pkg
  if f.unacked = [] ∨ !(linkState m port == 2 || linkState m port == 3) ∨ !inDomain m pkg then m
  else
    let k := linkKey m port
    let m := (m.setFlow port pkg { f with resends := f.resends + 1 }).setNat (k + 8) 8 ((m.word (k + 8) + f.unacked.length) % 2 ^ 64)
    let m := { m with out := m.out ++ f.unacked.map fun u => .frame port u.1 u.2.1 }
    if f.resends + 1 < 16 then m else (m.setFlow port pkg { f with resends := 0 }).setLinkState port 1 0

/-- A frame arrives (R384); one that is addressed to another package, or whose header names more than 22 flits, is dropped (log 97, DESIGN CHOICE). -/
def Machine.receive (m : Machine) (f : Frame) : Machine :=
  let h := f.hdr.toNat
  let src := bits h 87 9
  let flow := bits h 73 5
  let type := bits h 65 3
  if !macKnown m f.srcMac ∨ !(linkState m f.port == 2 || linkState m f.port == 3) then m
  else
    let exp := SMap.get 0 m.expect (32 * src + flow)
    let answer (m : Machine) (type : Nat) : Machine :=
      { m with out := m.out ++ [.frame f.port (frameHdr 0 (SMap.get 0 m.expect (32 * src + flow)) (selfPkg m) src f.port 0 type) (List.replicate 64 0)] }
    if !f.fcs then answer m 2
    else if 3 ≤ type ∨ bits h 0 65 ≠ 0 ∨ 22 ≤ bits h 68 5 ∨ bits h 78 9 ≠ selfPkg m then m
    else
      let m := m.setFlow f.port src { ackFlow (m.flow f.port src) (bits h 96 16) with peer := flow }
      if type = 1 then m
      else if type = 2 then m.resend f.port src
      else if bits h 112 16 = exp then answer { m with expect := SMap.set 0 m.expect (32 * src + flow) ((exp + 1) % 2 ^ 16) } 1
      else answer m 2

/-- A frame arrives; before the lock and after the watchdog the damper lets none pass (21 R412, R418). -/
def execFrameReceive (f : Frame) (s : State) : Out State := .next { s with m := if s.m.locked && !s.m.expired then s.m.receive f else s.m }
def execAckTimeout (port pkg : Nat) (s : State) : Out State := .next { s with m := s.m.resend port pkg }

/-! ### Tier 1 requests (R385, R386) -/

/-- The reply kept for a transaction that was performed before. -/
def Machine.replied (m : Machine) (src txn : Nat) : Option OutMsg := m.out.find? fun o => match o with
  | .reply d t _ _ => d == src && t == txn
  | _ => false

/-- An atomic or plain write of another package at this package's home: a store to the system block is dropped (21 R410), and one to a coded region is encoded here (17 R356). -/
def Machine.farWrite (m : Machine) (pa : Nat) (bs : List Byte) (coded : Option Nat := none) : Machine :=
  if m.locked ∧ pa < 0x10000 then m else m.performPlain { ctx := 384, key := pa, bytes := bs, coded }

/-- Bytes that another package reads here (17 R356): those of a coded region are decoded, and a reserved block has none to give. -/
def Machine.farBytes (m : Machine) (pa len : Nat) (coded : Option Nat) : Option (List Byte) :=
  match m.homeRead { key := pa, cri := coded, leaf := 0 } len with
  | .ok bs => some bs
  | .error _ => none

/-- A request of another package is checked against the inbound windows, performed exactly once, and answered (R385, R386). -/
def Machine.serveRemote (m : Machine) (r : RemoteReq) : Machine :=
  let seen := SMap.get [] m.txns r.src
  let reply (m : Machine) (ok : Bool) (d : List Byte) : Machine := { m with out := m.out ++ [.reply r.src r.txn ok d] }
  if !inDomain m r.src then m
  else if seen.contains r.txn then (match m.replied r.src r.txn with
    | some o => { m with out := m.out ++ [o] }
    | none => m)
  else
    let m := { m with txns := SMap.set [] m.txns r.src ((seen ++ [r.txn]).drop (seen.length + 1 - 2 ^ 16)) }
    let len := if r.store then r.data.length else r.len
    if r.kv.isSome then { m with kvReqs := m.kvReqs ++ [r] }.kvServe r
    else if !inWindow m (lcb m) r.pa len then reply m false []
    else
      match r.amo with
      | some (op, v) =>
        let w := if r.len = 4 then 4 else 8
        let old := m.nat r.pa w
        reply (m.farWrite r.pa (leBytes w (amoNew op {} (8 * w) old v.toNat).1)) true (leBytes w old)
      | none =>
        if r.store then reply (m.farWrite r.pa r.data r.coded) true []
        else match m.farBytes r.pa r.len r.coded with
          | some bs => reply m true bs
          | none => reply m false []

def execRemoteRequest (r : RemoteReq) (s : State) : Out State := .next { s with m := s.m.serveRemote r }

/-! ### Connections (R388-R393) -/

def connKey (m : Machine) (e : Nat) : Nat := m.word (lcb m + 8) + 256 * e
def nconn (m : Machine) : Nat := bits (m.word (lcb m)) 48 13
def Machine.connWord (m : Machine) (e : Nat) : Nat := m.word (connKey m e)
def connPeer (w : Nat) : Nat := bits w 52 9
def connPidx (w : Nat) : Nat := bits w 40 12
def connBrk (w : Nat) : Bool := bit w 61
def connOpen (w : Nat) : Bool := bit w 62

/-- The counts of messages of an entry: sent, at byte 48, and received, at byte 56. -/
def seqOff (send : Bool) : Nat := if send then 48 else 56
def slotOff (slot : Nat) : Nat := 64 + 24 * slot

/-- A connection register: open with an entry (R389). -/
def Ctx.connOf (x : Ctx) (r : Nat) : Option Nat :=
  let v := (SMap.get 0 x.cn r).toNat
  if bit v 62 then some (bits v 0 12) else none

def Ctx.setConn (x : Ctx) (r : Nat) (e : Option Nat) : Ctx :=
  { x with cn := SMap.set 0 x.cn r (match e with
    | some e => .ofNat 64 (2 ^ 62 + e)
    | none => 0) }

/-- The queue of a context may use what names an owning queue: that queue, or 0xFF. -/
def Ctx.ownsQueue (x : Ctx) (q : Nat) : Bool := q == 0xFF || x.queue == some q

/-- `tsend.open` (R391). -/
def execTsendOpen (a : Src) (b : BitVec 4) (s : State) : Out State :=
  syllable (fun e m => do
    let r := b.toNat
    check ((e.x.connOf r).isNone) 0x29 4 r
    let i := (e.x.src a).toNat
    check (i < nconn m) 0x29 3 r
    let w := m.connWord i
    check (bit w 63 && !connOpen w && e.x.ownsQueue (bits w 32 8)) 0x29 5 r
    let m := ((m.setWord (connKey m i) (setBits w 61 2 2)).setNat (connKey m i + 48) 16 0).setNat (connKey m i + 64) 192 0
    .ok (m.onCtx e.c fun x => x.setConn r (some i))) s

/-- An unfinished operation of a connection register. -/
def Ctx.connBusy (x : Ctx) (r : Nat) : Bool := x.msgs.any fun t => t.cn == r && t.fault.isNone

/-- The entry and the register are closed (R391). -/
def Machine.closeConn (m : Machine) (c r : Nat) : Machine :=
  match (m.ctx c).connOf r with
  | some i => (m.setWord (connKey m i) (setBits (m.connWord i) 61 2 0)).onCtx c fun x => x.setConn r none
  | none => m

/-- `tsend.close` (R391, R393). -/
def execTsendClose (b : BitVec 4) (s : State) : Out State :=
  syllable (fun e m => do
    let r := b.toNat
    check ((e.x.connOf r).isSome) 0x29 1 r
    if e.x.connBusy r then .error (.hold (.conn r)) else .ok (m.closeConn e.c r)) s

/-- `tsend` and `trecv` (R391): the slot, the roles and the class count; an operation to a package that the damper excludes completes without effect with DAMPER (21 R416). -/
def messageOp (send : Bool) (d a : Reg) (b : BitVec 4) (s : State) : Out State :=
  syllable (fun e m => do
    let r := b.toNat
    let i ← match e.x.connOf r with
      | some i => Except.ok i
      | none => raise 0x29 1 r
    let w := m.connWord i
    check (!connBrk w) 0x29 2 r
    let t ← e.x.captureTile d.toNat false
    check ((e.m0.core (coreOf e.c)).tileOk t.desc) 0x14 1
    let at_ := (e.x.sreg a).toNat
    let (m, obj) ← if at_ = 0 then Except.ok (m, 0) else m.completionCheck e at_
    let mine := e.x.msgs.filter fun t => t.ent == i && t.send == send && t.fault.isNone
    if 4 ≤ mine.length ∨ 65535 ≤ e.m0.classCount e.c (if send then 5 else 6) then .error (.hold .busy)
    else
      e.m0.scoreboard e.c (if send then [d.toNat] else []) (if send then [] else [d.toNat])
      let num := m.word (connKey m i + seqOff send) + mine.length
      let slot := num % 4 + if send then 0 else 4
      let fault : Option Cause := if bit m.limits (1536 + connPeer w) then none
        else some { code := 0x3B, kind := 1, i0 := connPeer w }
      let m := if fault.isNone then m.setNat (connKey m i + slotOff slot) 24 (t.desc + at_ * 2 ^ 128) else m
      let m := m.onCtx e.c fun x => { x with msgs := x.msgs ++ [{ send, cn := r, ent := i, num, tile := t, obj, pc := m.bun.pc.toNat, ti := e.x.ti, seq := x.opSeq, slot, fault }],
                                             opSeq := x.opSeq + 1 }
      .ok (if fault.isNone && routes m (connPeer w) == [] then m.lostRoute e.c (.route (connPeer w)) else m)) s

def execTsend (d a : Reg) (b : BitVec 4) (s : State) : Out State := messageOp true d a b s
def execTrecv (d a : Reg) (b : BitVec 4) (s : State) : Out State := messageOp false d a b s

/-- The bytes of a tile, rows of ROWB bytes in order. -/
def tileBytes (k : Core) (desc : Nat) : List Byte :=
  (List.range (tdRows desc)).flatMap fun r => (List.range (tdRowb desc)).map fun i => k.padByte (tdG desc) (tdOff desc + r * tdPitch desc + i)

/-- An earlier unfinished message of the same entry and direction. -/
def Ctx.msgFirst (x : Ctx) (t : Msg) : Bool := !x.msgs.any fun u => u.ent == t.ent && u.send == t.send && u.fault.isNone && u.num < t.num

/-- The entry at the other end of a connection, as the peer's memory holds it (R388), or this package's. -/
def Machine.peerEntry (m : Machine) (w : Nat) : Nat :=
  let base := if connPeer w = selfPkg m then 0 else (3 + connPeer w) * 2 ^ 46
  base + m.word (base + m.word (base + 0x48) + 8) + 256 * connPidx w

/-- The entry at the other end names this entry in return (R392). -/
def Machine.matched (m : Machine) (e w : Nat) : Bool :=
  let v := m.word (m.peerEntry w)
  connPeer v == selfPkg m && connPidx v == e

/-- Its receive of a message has been posted: the message is the next that it receives, or one of the three after it, and a slot holds the tile (R388, R392). -/
def Machine.posted (m : Machine) (w num : Nat) : Bool :=
  let k := m.peerEntry w
  m.word (k + seqOff false) ≤ num && num < m.word (k + seqOff false) + 4 && m.nat (k + slotOff (num % 4 + 4)) 24 != 0

/-- An answer to a message: it is complete, or the sub-code of CONN_REMOTE (R392). -/
def Machine.answerMsg (m : Machine) (w num why : Nat) : Machine := { m with out := m.out ++ [OutMsg.reply (connPeer w) num (why == 0) (if why = 0 then [] else [.ofNat 8 why])] }

/-- The data phase of a matched send begins (R392): its receive has been posted and a route exists. None begins while a pre-emption waits for those that have (R394). -/
def Machine.beginSend (m : Machine) (c i : Nat) : Machine :=
  let x := m.ctx c
  match x.msgs[i]? with
  | some t =>
    let w := m.connWord t.ent
    if !t.send ∨ t.begun ∨ t.parked ∨ t.fault.isSome ∨ !x.msgFirst t ∨ x.preempting ∨ connBrk w then m
    else if routes m (connPeer w) = [] then m.lostRoute c (.route (connPeer w))
    else if !m.posted w t.num then m
    else
      let bs := tileBytes (m.core (coreOf c)) t.tile.desc
      let m := m.onCtx c fun x => { x with msgs := x.msgs.set i { t with begun := true, data := bs } }
      ({ m with out := m.out ++ [OutMsg.message (connPeer w) (connPidx w) t.num (tdRows t.tile.desc) (tdRowb t.tile.desc) bs] }).transmit (connPeer w) t.ent bs
  | none => m

def execTsendDataPhase (ctx i : Nat) (s : State) : Out State := .next { s with m := s.m.beginSend ctx i }

/-- A message ends at this side (R392): its slot is cleared, the entry's count rises, and unless it carries a cause its object is released (log 56, DEDUCED). -/
def Machine.endMessage (m : Machine) (c i : Nat) (t : Msg) (fault : Option Cause) : Machine :=
  let k := connKey m t.ent
  let m := (m.setNat (k + slotOff t.slot) 24 0).setWord (k + seqOff t.send) ((m.word (k + seqOff t.send) + 1) % 2 ^ 64)
  match fault with
  | none => (m.onCtx c fun x => { x with msgs := x.msgs.eraseIdx i }).completionRelease t.obj
  | some k => m.onCtx c fun x => { x with msgs := x.msgs.set i { t with fault := some k } }

/-- CONN_REMOTE of a message (R393). -/
def Msg.remote (t : Msg) (why : Nat) : Cause := { code := 0x2A, kind := 1, i0 := why, i1 := t.pc, i2 := t.cn, i3 := t.num }

/-- The last byte of a message is in the receiving tile (R392), or it does not fit; one that comes from an entry which this one does not name is answered with sub-code 3. -/
def Machine.endReceive (m : Machine) (c i rows rowb : Nat) (data : List Byte) : Machine :=
  let x := m.ctx c
  match x.msgs[i]? with
  | some t =>
    let w := m.connWord t.ent
    if t.send ∨ t.parked ∨ t.fault.isSome ∨ !x.msgFirst t ∨ connBrk w then m
    else if !m.matched t.ent w then m.answerMsg w t.num 3
    else
      let d := t.tile.desc
      let len := rows * rowb
      if tdRows d * tdRowb d < len then (m.endMessage c i t (some (t.remote 2))).answerMsg w t.num 2
      else
        let m := m.onCore (coreOf c) fun k => ((data.take len).zipIdx).foldl (fun k p =>
          k.setPadByte (tdG d) (tdOff d + p.2 / tdRowb d * tdPitch d + p.2 % tdRowb d) p.1) k
        (m.endMessage c i t none).answerMsg w t.num 0
  | none => m

def execTrecvComplete (ctx i rows rowb : Nat) (data : List Byte) (s : State) : Out State := .next { s with m := s.m.endReceive ctx i rows rowb data }

/-- The unfinished operations of a context on an entry that breaks (R393). -/
def Ctx.breakMsgs (x : Ctx) (e : Nat) : Ctx := { x with msgs := x.msgs.map fun t => if t.ent = e ∧ t.fault.isNone then { t with fault := some (t.remote 1) } else t }

/-- An entry breaks: each unfinished operation on it takes CONN_REMOTE, a parked one too (R393). -/
def Machine.breakConn (m : Machine) (e : Nat) : Machine :=
  let hit (x : Ctx) : Bool := x.msgs.any fun t => t.ent == e && t.fault.isNone
  let m := m.setWord (connKey m e) (setBits (m.connWord e) 61 1 1)
  { m with ctxs := m.ctxs.map fun p => if hit p.2 then (p.1, p.2.breakMsgs e) else p, images := m.images.map fun p => if hit p.2 then (p.1, p.2.breakMsgs e) else p }

/-- The receiving package answers (R392): complete, or sub-code 2 or 3 of CONN_REMOTE; 1 says, of a receive too, that the peer entry was closed (R393). -/
def Machine.endSend (m : Machine) (c i result : Nat) : Machine :=
  let x := m.ctx c
  match x.msgs[i]? with
  | some t =>
    if (!t.send ∧ result ≠ 1) ∨ t.fault.isSome ∨ !x.msgFirst t ∨ (result ≠ 3 ∧ result ≠ 1 ∧ !t.begun) then m
    else if result = 0 then m.endMessage c i t none
    else if result = 1 then m.breakConn t.ent
    else m.endMessage c i t (some (t.remote result))
  | none => m

def execTsendComplete (ctx i : Nat) (result : BitVec 2) (s : State) : Out State := .next { s with m := s.m.endSend ctx i result.toNat }

/-- An entry breaks (R393): no route for 10 ms, or its peer has left the domain map. -/
def Machine.breakTimeout (m : Machine) (e : Nat) : Machine :=
  let w := m.connWord e
  if connOpen w && !connBrk w && (routes m (connPeer w) == [] || !inDomain m (connPeer w)) then m.breakConn e else m

def execConnBreakTimeout (e : Nat) (s : State) : Out State := .next { s with m := s.m.breakTimeout e }

/-- A context leaves its operator: its open registers without unfinished operations are closed (R389). -/
def Machine.closeAll (m : Machine) (c : Nat) : Machine :=
  (List.range 16).foldl (fun m r => if (m.ctx c).connBusy r then m else m.closeConn c r) m

end Sys2Proof.Machine
end

