-- ==== Sys2Proof/Machine/Coll.lean ====
section
/-! DEFINITION. Coll.lean: collective instances: tile tables, `tfire`, the ring and its generations; and the events of the copy channels (20_collective_instances.md R396-R407; 08 R195, R204). -/

namespace Sys2Proof.Machine

/-! ### Records and entries (R396-R399) -/

def dirWord (m : Machine) (n : Nat) : Nat := m.word (cdir m + 8 * n)
def dirOk (w : Nat) : Bool := bit w 63 && bits w 46 17 == 0 && w % 64 == 0
def recKey (m : Machine) (n : Nat) : Nat := bits (dirWord m n) 0 46
def collRec (m : Machine) (n : Nat) : Nat := m.nat (recKey m n) 64

def crTbl (r : Nat) : Nat := bits r 448 64
def crMap (r : Nat) : Nat := bits r 384 64
def crGen (r : Nat) : Nat := bits r 320 64
def crOpen (r : Nat) : Bool := bits r 264 2 == 1
def crOwnq (r : Nat) : Nat := bits r 256 8
def crNent (r : Nat) : Nat := bits r 243 13
def crP (r : Nat) : Nat := bits r 234 9
def crRank (r : Nat) : Nat := bits r 225 9

/-- The package of a rank. -/
def rankPkg (m : Machine) (r k : Nat) : Nat := m.nat (crMap r + 2 * k) 2 % 512

/-- A member map is valid (R398). -/
def mapOk (m : Machine) (r : Nat) : Bool :=
  let ws := (List.range (crP r)).map fun k => m.nat (crMap r + 2 * k) 2
  ws.all (fun w => w < 512 && (w == selfPkg m || inDomain m w)) && ws.eraseDups.length == ws.length && rankPkg m r (crRank r) == selfPkg m

/-- Check 2 of R405. -/
def recOk (m : Machine) (r : Nat) : Bool :=
  bits r 266 54 == 0 && bits r 0 225 == 0 && bits r 264 2 < 2 && 1 ≤ crNent r && crNent r ≤ 4096 && 1 ≤ crP r && crP r ≤ 432 && crRank r < crP r &&
    crTbl r % 64 == 0 && crMap r % 8 == 0 && mapOk m r

def entKey (r i : Nat) : Nat := crTbl r + 64 * i
def collEnt (m : Machine) (r i : Nat) : Nat := m.nat (entKey r i) 64

def ceRaddr (e : Nat) : Nat := bits e 448 64
def ceCaddr (e : Nat) : Nat := bits e 384 64
def ceSaddr (e : Nat) : Nat := bits e 320 64
def ceFlag (e : Nat) : Nat := bits e 256 64
def ceSob (e : Nat) : Nat := bits e 192 64
def ceFired (e : Nat) : Nat := bits e 128 64
def ceLen (e : Nat) : Nat := bits e 84 22
def ceSrc (e : Nat) : Nat := bits e 55 9
def ceDr (e : Nat) : Nat := bits e 46 9
def ceSh (e : Nat) : Bool := bit e 23
def ceV (e : Nat) : Bool := bit e 22
def ceDmode (e : Nat) : Nat := bits e 20 2
def ceOpr (e : Nat) : Nat := bits e 17 3
def ceFmt (e : Nat) : Nat := bits e 12 4
def ceRm (e : Nat) : Nat := bits e 9 3

/-- The operator of a reducing entry; none for copy. -/
def ceRed (e : Nat) : Option RedOp := match ceOpr e with
  | 1 => some .sum | 2 => some .max | 3 => some .min | 4 => some .merge | _ => none

/-- Bits, and bytes, of an element of a payload format. -/
def collBits (fmt : Nat) : Nat := if fmt = 11 then 192 else codeWidth {} fmt
def collWidth (fmt : Nat) : Nat := collBits fmt / 8

/-- Bytes lie in local HBM4E outside the decoded range of every valid Coded Region Table entry (R399). -/
def plainLocal (m : Machine) (a len : Nat) : Bool :=
  a + len ≤ hbmSize && !(List.range 64).any fun i =>
    bit (crtEntry m 0 i) 63 && overlaps a len (crtField m 0 i 384 64) (crtField m 0 i 320 64)

/-- Check 4 of R405 on an entry: its own list, with the pairing of R400 and what R400 asks of LEN (log 70, DEDUCED). -/
def entryOk (m : Machine) (r e : Nat) : Bool :=
  let fmt := ceFmt e
  ceV e && bits e 106 22 == 0 && bits e 64 20 == 0 && bits e 24 22 == 0 && !bit e 16 && bits e 0 9 == 0 && ceOpr e ≤ 4 && ceDmode e ≤ 1 && ceRm e ≤ 4 &&
    (match ceRed e with
      | some op => redAccepts op fmt && (op != .merge || ceLen e == 3072)
      | none => fmt ≤ 11) &&
    8 * ceLen e % collBits fmt == 0 && ceSrc e < crP r && ceDr e < crP r &&
    ([ceRaddr e, ceCaddr e] ++ if ceSaddr e = 0 then [] else [ceSaddr e]).all (fun a => a % 8 == 0 && plainLocal m a (ceLen e)) &&
    (ceFlag e % 8 == 0 && plainLocal m (ceFlag e) 8) && (ceSob e == 0 || (ceSob e % 32 == 0 && plainLocal m (ceSob e) 32))

/-- A member must fire an entry (R403); a rank is a destination of an entry (R402). -/
def mustFire (r e : Nat) : Bool := ceV e && (ceOpr e != 0 || ceSrc e == crRank r)
def receives (e k : Nat) : Bool := ceDmode e == 0 || ceDr e == k
def delivers (r e : Nat) : Bool := ceV e && receives e (crRank r)

def Machine.coll (m : Machine) (n i : Nat) : CollState := SMap.get {} m.colls (4096 * n + i)
def Machine.setColl (m : Machine) (n i : Nat) (v : CollState) : Machine := { m with colls := SMap.set {} m.colls (4096 * n + i) v }

/-- The Parser fires for a launch in its own name: contributions from 2^60 up (R409). -/
def parserFires : Nat := 2 ^ 60

/-- A fire of an instance that has not completed at this package. -/
def Machine.firing (m : Machine) (n i : Nat) : Bool :=
  let c := m.coll n i
  (c.contributed && parserFires ≤ c.ctx && !c.acked) ||
  (m.ctxs ++ m.images).any fun p => p.2.fires.any (fun f => f.inst == n && f.entry == i && f.fault.isNone) || p.2.xfers.any fun t => t.kind == .fire n i

/-- The generation closes when its conditions hold (R403); a claim ends with it (R396). -/
def Machine.tryClose (m : Machine) (n : Nat) : Machine :=
  let r := collRec m n
  if !crOpen r then m
  else
    let done := (List.range (crNent r)).all fun i =>
      let e := collEnt m r i
      (!mustFire r e || (ceFired e == crGen r && !m.firing n i)) && (!delivers r e || (m.coll n i).delivered)
    if !done then m
    else
      let m := m.setNat (recKey m n) 64 (setBits r 264 2 0)
      { m with colls := m.colls.filter fun c => c.1 / 4096 != n, claims := m.claims.filter (· != n) }

/-! ### `tfire` (R405, R406) -/

/-- COLL_TABLE with its sub-code. -/
def collCheck (ok : Bool) (sub n i : Nat) : Res Unit := check ok 0x2C sub n i

/-- Check 9 of R405 on the SOB of an entry. -/
def Machine.sobCheck (m : Machine) (c a : Nat) : Res Unit := do
  if a = 0 then return ()
  check (a % 32 == 0) 0x0A a a
  match m.objectOf c a with
  | none => raise 0x25 0 a
  | some v => check (m.inInstance c v) 0x24 (objScope v) a

/-- The fire form. -/
def execTfire (d a : Reg) (b : Src) (s : State) : Out State :=
  syllable (fun e m => do
    let n := (e.x.sreg a).toNat
    let i := (e.x.src b).toNat
    collCheck (n < 1024 && dirOk (dirWord m n)) 1 n i
    let r := collRec m n
    collCheck (recOk m r) 2 n i
    collCheck (e.x.ownsQueue (crOwnq r)) 3 n i
    let t := collEnt m r i
    collCheck (i < crNent r && entryOk m r t) 4 n i
    let x ← e.x.captureTile d.toNat false
    check ((e.m0.core (coreOf e.c)).tileOk x.desc) 0x14 1
    collCheck (if ceOpr t = 4 then tdRowb x.desc == 256 && tdPitch x.desc == 256 && 12 ≤ tdRows x.desc else tdRows x.desc * tdRowb x.desc == ceLen t) 5 n i
    collCheck (crOpen r && ceFired t < crGen r && (ceOpr t != 0 || ceSrc t == crRank r)) 6 n i
    m.sobCheck e.c (ceSob t)
    if 65535 ≤ e.m0.classCount e.c 5 then .error (.hold .busy) else .ok ()
    e.m0.scoreboard e.c [d.toNat] []
    let m := m.setNat (entKey r i) 64 (setBits t 128 64 (crGen r))
    let t : Xfer := { ch := 4, id := 0, kind := .fire n i, reg := d.toNat, lay := if ceOpr t = 4 then 2 else 0, desc := x.desc, mEnt := 0, tEnt := 0,
                      base := ceCaddr t, aux := crGen r, pc := m.bun.pc.toNat, ti := e.x.ti, seq := e.x.opSeq }
    .ok (m.onCtx e.c fun y => { y with xfers := y.xfers ++ [t], opSeq := y.opSeq + 1 })) s

/-- The bytes that a fire copies: rows of ROWB bytes, or the triples of the planes (R406). -/
def fireBytes (k : Core) (lay desc : Nat) : List Byte :=
  if lay = 2 then (List.range 128).flatMap fun g => (tripleOffs (tdOff desc) g).flatMap fun o => (List.range 8).map fun j => k.padByte (tdG desc) (o + j)
  else tileBytes k desc

/-- The copy of a fire to its contribution area completes (R406) (log 42, DESIGN CHOICE). One into the system block by a core outside RCORES is dropped, and the fire carries DAMPER (21 R410;
08 R204). -/
def Machine.fireCopied (m : Machine) (c i : Nat) (t : Xfer) (n ent : Nat) : Machine :=
  let bs := fireBytes (m.core (coreOf c)) t.lay t.desc
  let refused := sysBlockRefused m (coreOf c) { key := t.base, leaf := 0 }
  let fault : Option Cause := if refused then some { code := 0x3B, kind := 1, i0 := t.base, i1 := t.pc, i2 := t.id, i3 := some 4 } else none
  let m := if refused then m else ((m.drain (coreOf c) t.base bs.length).setBytes t.base bs).onCore (coreOf c) fun k => k.dropRange t.base bs.length
  let m := m.onCtx c fun x =>
    { x with xfers := x.xfers.eraseIdx i, fires := x.fires ++ [{ inst := n, entry := ent, gen := t.aux, pc := t.pc, ti := t.ti, seq := t.seq, fault }] }
  m.setColl n ent { m.coll n ent with contributed := true, ctx := c }

/-! ### Deliveries (R402) -/

/-- The payload at RADDR, then FLAG, then the completion release; the rank that sent it is told, unless it was when the arrival was shadowed (R407). -/
def Machine.deliver (m : Machine) (n i : Nat) (told : Bool := false) : Machine :=
  let c := m.coll n i
  if c.pay = [] ∨ c.delivered then m
  else
    let r := collRec m n
    let e := collEnt m r i
    let m := ((m.setBytes (ceRaddr e) c.pay).setWord (ceFlag e) (crGen r)).completionRelease (ceSob e)
    let sender := if (ceRed e).isSome then (i + crP r - 1) % crP r else ceSrc e
    let m := { m.setColl n i { c with pay := [], delivered := true } with
                out := if sender = crRank r ∨ told = true then m.out else m.out ++ [OutMsg.reply (rankPkg m r sender) (4096 * n + i) true []] }
    m.tryClose n

def execCollDelivery (inst entry : Nat) (s : State) : Out State := .next { s with m := s.m.deliver inst entry }

/-! ### The ring (R401) -/

/-- Element by element Op over two payloads, with the flags. -/
def combine (op : RedOp) (fmt rm : Nat) (a b : List Byte) : List Byte × Nat :=
  let w := collWidth fmt
  let rs := (List.range (a.length / w)).map fun j => redRun op fmt rm (leNat ((a.drop (w * j)).take w)) (leNat ((b.drop (w * j)).take w))
  (rs.flatMap fun r => leBytes w r.1, orFlags rs)

/-- A payload sent to a rank. -/
def Machine.sendColl (m : Machine) (n i r e kind k : Nat) (bs : List Byte) : Machine :=
  let pkg := rankPkg m r k
  let a : CollMsg := { inst := n, entry := i, gen := crGen r, kind := .ofNat 2 kind, opr := .ofNat 3 (ceOpr e), fmt := .ofNat 4 (ceFmt e), len := ceLen e, rank := crRank r, data := bs, src := selfPkg m }
  ({ m with out := m.out ++ [OutMsg.coll pkg a] }).transmit pkg n bs

/-- A payload sent to every destination, this rank's own share waiting for its delivery. -/
def Machine.sendResult (m : Machine) (n i r e kind : Nat) (bs : List Byte) : Machine :=
  let m := if receives e (crRank r) then m.setColl n i { m.coll n i with pay := bs } else m
  ((List.range (crP r)).filter fun k => k != crRank r && receives e k).foldl (fun m k => m.sendColl n i r e kind k bs) m

/-- The fire of an entry at this package. -/
def Machine.onFire (m : Machine) (c n i : Nat) (f : Fire → Fire) : Machine :=
  m.onOwner c fun x => { x with fires := x.fires.map fun t => if t.inst = n ∧ t.entry = i then f t else t }

/-- The ranks that the hop of this rank sends to (R401, R402). -/
def hopRanks (r e i : Nat) : List Nat :=
  if ceRed e = none ∨ crRank r = (i + crP r - 1) % crP r then (List.range (crP r)).filter fun k => k != crRank r && receives e k
  else [(crRank r + 1) % crP r]

/-- A package without a route among them (19 R387). -/
def Machine.hopAway (m : Machine) (r e i : Nat) : Option Nat := ((hopRanks r e i).map (rankPkg m r)).find? fun p => routes m p == []

/-- The hop of this rank, once its contribution and, but at the owner, the partial are present (R401); it waits for a route to those it sends to. -/
def Machine.hop (m : Machine) (n i : Nat) : Machine :=
  let c := m.coll n i
  let r := collRec m n
  let e := collEnt m r i
  let k := crRank r
  let p := crP r
  let x := m.bytes (ceCaddr e) (ceLen e)
  let done (m : Machine) (fl : Nat) : Machine :=
    let m := m.setColl n i { m.coll n i with hopDone := true }
    if parserFires ≤ c.ctx then
      match m.launch (c.ctx - parserFires) with
      | some l => m.setLaunch (c.ctx - parserFires) { l with flg := l.flg ||| fl }
      | none => m
    else m.onFire c.ctx n i fun t => { t with hopped := true, fl := t.fl ||| fl }
  if !c.contributed || c.hopDone || ((ceRed e).isSome && p != 1 && k != i % p && !c.partialIn) then m
  else if let some pkg := m.hopAway r e i then m.lostRoute c.ctx (.route pkg)
  else
    match ceRed e with
    | none => done (m.sendResult n i r e 2 x) 0
    | some op =>
      let o := i % p
      if p = 1 then done (m.sendResult n i r e 1 x) 0
      else if k = o then done (m.sendColl n i r e 0 ((k + 1) % p) x) 0
      else
        let y := combine op (ceFmt e) (ceRm e) (m.bytes (ceRaddr e) (ceLen e)) x
        if k = (o + p - 1) % p then done (m.sendResult n i r e 1 y.1) y.2
        else done (m.sendColl n i r e 0 ((k + 1) % p) y.1) y.2

def execRingHop (inst entry : Nat) (s : State) : Out State := .next { s with m := s.m.hop inst entry }

/-- A fire completes on its acknowledgements (R407): this package's own delivery counts as one. -/
def Machine.fireDone (m : Machine) (n i : Nat) : Machine :=
  let c := m.coll n i
  if !c.hopDone ∨ c.pay ≠ [] then m
  else if parserFires ≤ c.ctx then (m.setColl n i { c with acked := true }).tryClose n
  else
    let mine (t : Fire) : Bool := t.inst == n && t.entry == i && t.hopped && t.fault.isNone
    match ((m.owner c.ctx).fires.find? mine).map (·.fl) with
    | none => m
    | some fl => ((m.onOwner c.ctx fun x => { x with fires := x.fires.filter fun t => !mine t }).ownerFlags c.ctx fl).tryClose n

def execCollFireComplete (inst entry : Nat) (s : State) : Out State := .next { s with m := s.m.fireDone inst entry }

/-- COLL_OVERRUN ends a fire (R404): it completes, with the flags of its hop (R401). -/
def Machine.overrun (m : Machine) (n i sub : Nat) : Machine :=
  let c := (m.coll n i).ctx
  if parserFires ≤ c then
    match m.launch (c - parserFires) with
    | some l => (m.setLaunch (c - parserFires) { l with coll := l.coll.map fun j => { j with overrun := true } }).setColl n i { m.coll n i with acked := true }
    | none => m
  else
    let fl := ((m.owner c).fires.find? fun t => t.inst == n && t.entry == i && t.fault.isNone).elim 0 (·.fl)
    (m.onFire c n i fun t => if t.fault.isSome then t else { t with fault := some { code := 0x2B, kind := 1, i0 := sub, i1 := t.pc, i2 := n, i3 := i } }).ownerFlags c fl

def execCollStallTimeout (inst entry : Nat) (s : State) : Out State :=
  .next { s with m := if (s.m.coll inst entry).hopDone then (s.m.overrun inst entry 1).tryClose inst else s.m }

/-! ### Arrivals (R404) -/

/-- An arrival agrees with its entry. -/
def agrees (m : Machine) (a : CollMsg) (r e : Nat) : Bool :=
  let k := crRank r
  let p := crP r
  entryOk m r e && a.opr.toNat == ceOpr e && a.fmt.toNat == ceFmt e && a.len == ceLen e && a.data.length == a.len &&
    (match ceRed e with
      | none => a.kind == 2 && receives e k && a.rank == ceSrc e && a.rank != k
      | some _ => if a.kind = 0 then a.rank == (k + p - 1) % p && k != a.entry % p && p != 1 else a.kind == 1 && receives e k && a.rank == (a.entry + p - 1) % p && a.rank != k)

/-- An arrival of the open generation: a partial lands at RADDR; a result or copy waits for its delivery. -/
def Machine.accept (m : Machine) (n i e kind : Nat) (bs : List Byte) : Machine :=
  if kind = 0 then (m.setBytes (ceRaddr e) bs).setColl n i { m.coll n i with partialIn := true }
  else m.setColl n i { m.coll n i with pay := bs }

/-- A collective arrival (R404). Kind 3, which R404 does not use, is the notice that an arrival of this package was refused for good (log 23, DESIGN CHOICE). -/
def Machine.arrive (m : Machine) (a : CollMsg) : Machine :=
  let n := a.inst
  let i := a.entry
  let reply (m : Machine) (ok : Bool) : Machine := { m with out := m.out ++ [OutMsg.reply a.src (4096 * n + i) ok []] }
  let forGood : Machine := { m with out := m.out ++ [OutMsg.reply a.src (4096 * n + i) false [3]] }
  if a.kind = 3 then (if (m.coll n i).hopDone then (m.overrun n i 3).tryClose n else m)
  else if !(n < 1024 && dirOk (dirWord m n)) then forGood
  else
    let r := collRec m n
    let e := collEnt m r i
    if !(recOk m r && i < crNent r && a.rank < crP r && agrees m a r e) then forGood
    else if a.gen = crGen r ∧ crOpen r then
      let m := m.accept n i e a.kind.toNat a.data
      if a.kind = 0 then reply m true else m
    else if a.gen = crGen r + 1 ∧ ceSaddr e ≠ 0 ∧ !ceSh e then
      reply ((m.setBytes (ceSaddr e) a.data).setNat (entKey r i) 64 (setBits e 23 1 1)) true
    else reply m false

def execCollArrival (a : CollMsg) (s : State) : Out State := .next { s with m := s.m.arrive a }

/-- The open form (R406): it holds until the generation has closed; shadowed arrivals are then processed in ascending index. A member with nothing to fire or to receive closes it again (R403). -/
def execTfireOpen (a : Reg) (s : State) : Out State :=
  syllable (fun e m => do
    let n := (e.x.sreg a).toNat
    collCheck (n < 1024 && dirOk (dirWord m n)) 1 n 0
    let r := collRec m n
    collCheck (recOk m r) 2 n 0
    collCheck (e.x.ownsQueue (crOwnq r)) 3 n 0
    let all := (List.range (crNent r)).all fun i => let t := collEnt m r i; !mustFire r t || ceFired t == crGen r
    collCheck all 7 n 0
    if crOpen r then .error (.hold (.closed n))
    else
      let m := m.setNat (recKey m n) 64 (setBits (setBits r 320 64 (crGen r + 1)) 264 2 1)
      let r' := collRec m n
      .ok (((List.range (crNent r)).foldl (fun m i =>
        let t := collEnt m r' i
        if !ceSh t then m
        else
          let bs := m.bytes (ceSaddr t) (ceLen t)
          let m := m.setNat (entKey r' i) 64 (setBits t 23 1 0)
          if (ceRed t).isSome then m.accept n i t 0 bs else (m.accept n i t 2 bs).deliver n i true) m).tryClose n)) s

/-! ### The events of the copy channels -/

/-- The copy of a fire is started, and no earlier transfer of its context that R202 orders before it is incomplete (R406). -/
def Machine.advanceFire (m : Machine) (c i : Nat) : Machine :=
  match (m.ctx c).xfers[i]? with
  | some t => match t.kind with
    | .fire n ent => if t.started && !(m.xfersOf c).any (fun u => u.seq < t.seq && m.fireMeets c t u) then m.fireCopied c i t n ent else m
    | _ => m
  | none => m

/-- A transfer completes if it can run to its end (R195). -/
def Machine.transferDone (m : Machine) (c i : Nat) : Machine :=
  match (m.ctx c).xfers[i]? with
  | some t => if t.isFire then m.advanceFire c i else let r := m.advanceXfer c i; if r.2 then r.1 else m
  | none => m

/-- A transfer becomes faulted if its run meets a cause (R204). -/
def Machine.transferFaulted (m : Machine) (c i : Nat) : Machine :=
  let r := m.advanceXfer c i
  if r.2 then m else r.1

def execTransferComplete (ctx i : Nat) (s : State) : Out State := .next { s with m := s.m.transferDone ctx i }
def execTransferFault (ctx i : Nat) (s : State) : Out State := .next { s with m := s.m.transferFaulted ctx i }

end Sys2Proof.Machine
end

