-- ==== Sys2Proof/Machine/Control.lean ====
section
/-! DEFINITION. Control.lean: branches, traps and the return from service code (04_scalar_control_system.md R94, R100, R101; 10_contexts.md R250-R253). -/

namespace Sys2Proof.Machine

/-- The next bundle comes from `t`; a target that is not a multiple of 4 raises ALIGNMENT (R94; 03 R63). -/
def Machine.goto (m : Machine) (t : Word) : Res Machine := do
  check (t.toNat % 4 == 0) 0x0A t.toNat
  .ok { m with bun := { m.bun with next := some t } }

/-- PC + L. -/
def Machine.rel (m : Machine) (off : BitVec 32) : Word := m.bun.pc + off.signExtend 64

def execB (off : BitVec 32) (s : State) : Out State := syllable (fun _ m => m.goto (m.rel off)) s

def execBc (c : Cond) (a b : Src) (off : BitVec 32) (s : State) : Out State :=
  syllable (fun e m => if condHolds c (e.x.src a) (e.x.src b) then m.goto (m.rel off) else .ok m) s

def execJ (a : Src) (s : State) : Out State := syllable (fun e m => m.goto (e.x.src a)) s

def execCall (d : Reg) (off : BitVec 32) (s : State) : Out State :=
  syllable (fun e m => do
    let n ← m.goto (m.rel off)
    n.result e 1 d (m.bun.pc + .ofNat 64 m.bun.len)) s

def execRet (a : Reg) (s : State) : Out State := syllable (fun e m => m.goto (e.x.sreg a)) s

/-- `loop` reads s0 as 0, so with D = s0 it always branches and writes nothing. -/
def execLoop (d : Reg) (off : BitVec 32) (s : State) : Out State :=
  syllable (fun e m => do
    let n := e.x.sreg d - 1
    let m ← if n ≠ 0 then m.goto (m.rel off) else .ok m
    m.result e 1 d n) s

/-- `trap` leaves TRAP_INSN to be taken after its bundle (R100). -/
def execTrap (t : TrapArg) (s : State) : Out State :=
  syllable (fun e m =>
    let k : Cause := match t with
      | .code n => { code := 0x08, i0 := n.toNat, i1 := some 0 }
      | .ops a b => { code := 0x08, i0 := (e.x.src a).toNat, i1 := (e.x.src b).toNat }
    .ok { m with bun := { m.bun with after := m.bun.after ++ [k] } }) s

def execBrk (tag : Reg) (s : State) : Out State := syllable (fun _ _ => raise 0x07 tag.toNat) s

/-! ### Return from service code -/

/-- The bytes of a header that hold set reserved bits, from bit ranges (low bit, width) at byte `base`. -/
def reservedAt (base x : Nat) (rs : List (Nat × Nat)) : List Nat :=
  rs.flatMap fun r => if bits x r.1 r.2 = 0 then [] else [base + (r.1 + lowBit r.2 (bits x r.1 r.2)) / 8]

/-- Offsets in the frame of STATE's fields that break R250. -/
def stateBad (w : Nat) : List Nat :=
  reservedAt 0x38 w [(1, 1), (8, 16), (28, 4), (40, 24)] ++ (if 32 < bits w 32 8 then [0x3C] else []) ++
    (if bits w 4 2 = 3 ∨ bits w 6 2 = 3 then [0x38] else [])

/-- The payload size that FILE and CE ask for (R251). -/
def entrySize (h : Nat) : Nat :=
  let p := ((List.range 8).filter fun i => bit h (56 + i)).length
  match bits h 0 2 with
  | 0 => 8
  | 1 => 128 * p
  | 2 => roundUp (2 * p) 32
  | _ => 384 * p

/-- Offsets in the frame of a replay header's fields that break R251, for a header at `o`. The vector file ends with v63, to which a result in
flight may be bound (03 R65) (log 74, DEDUCED). -/
def entryBad (o h : Nat) : List Nat :=
  let f := bits h 0 2
  reservedAt o h [(2, 6), (16, 16), (38, 18), (69, 3), (77, 19)] ++
    (if bits h 8 8 < (if f ≤ 1 then 64 else 16) then [] else [o + 1]) ++
    (if bits h 32 6 = 0 then [o + 4] else []) ++ (if bits h 96 32 = entrySize h then [] else [o + 12]) ++
    (if f = 0 ∧ bits h 128 128 ≠ 0 then [o + 16] else [])

/-- The file that FILE names. -/
def File.fromCode : Nat → File
  | 0 => .s | 1 => .v | 2 => .m | _ => .q

/-- The writes of a replay entry: its lanes in its clusters, from the payload (R251). -/
def entryWrites (h : Nat) (pay : List Byte) : List (Nat × Nat) :=
  let f := bits h 0 2
  let reg := bits h 8 8
  let cs := (List.range 8).filter fun i => bit h (56 + i)
  if f = 0 then [(reg, leNat (pay.take 8))]
  else cs.zipIdx.flatMap fun p => (List.range 16).flatMap fun l =>
    let g := 16 * p.1 + l
    let at_ (n : Nat) : Nat := leNat ((pay.drop (n * (16 * p.2 + l))).take n)
    if bit h (128 + g) then
      [(128 * reg + g, if f = 1 then at_ 8 else if f = 3 then at_ 24 else if bit (leNat ((pay.drop (2 * p.2)).take 2)) l then 1 else 0)]
    else []

/-- Reading `n` replay entries at frame offset `o`: the entries, the lowest bad offset, or none when a byte faults (R252). The
issuing PC is not part of an entry: it is the one that the part keeps for the entry in that place of the frame (02 R34), and a free value for an entry that service code
has appended (log 5, DESIGN CHOICE). -/
def readEntries (m : Machine) (core frame : Nat) : Nat → Nat → List Word → Option (Machine × Except Nat (List Pend))
  | 0, _, _ => some (m, .ok [])
  | n + 1, o, pcs =>
    match m.readPinned core (frame + o) 32 2 with
    | none => none
    | some hb =>
      let h := leNat hb
      match (entryBad o h).min? with
      | some b => some (m, .error b)
      | none =>
        let size := bits h 96 32
        match m.readPinned core (frame + o + 32) size 2 with
        | none => none
        | some pay =>
          let f := match pcs with
            | pc :: _ => (m, pc)
            | [] => m.free
          match readEntries f.1 core frame n (o + 32 + roundUp size 32) pcs.tail with
          | some (m, .ok ps) =>
            some (m, .ok ({ off := bits h 32 6, file := .fromCode (bits h 0 2), reg := bits h 8 8, ce := bits h 56 8, fl := bits h 64 5,
                            en := bits h 72 5, pc := f.2, writes := entryWrites h pay } :: ps))
          | r => r

/-- What a return restarts: the load-queue entry whose tag was raised, faulted transfers and class 7 operations whose cause was raised
(05 R151, R152; 08 R204; 18 R374). -/
def Ctx.restart (x : Ctx) : Ctx :=
  { x with
    lq := x.lq.map fun q => if q.tag.isSome && q.again then { q with st := .queued, tag := none, tag3 := none } else q
    xfers := (x.xfers.filter fun t => !(t.raised && (t.fault.map (·.code)) == some 0x3B)).map fun t => if t.raised then { t with fault := none, raised := false } else t
    kvops := x.kvops.map fun k => if k.raised then { k with fault := none, raised := false, failed := [], done := 0 } else k }

/-- The fault record's trap registers (R249). -/
def Ctx.setTrapRegs (x : Ctx) (rec : List Byte) : Ctx :=
  let w (i : Nat) : Word := .ofNat 64 (leNat ((rec.drop (8 * i)).take 8))
  (((((x.setCr 0x10 (w 0)).setCr 0x15 (w 1)).setCr 0x11 (w 2)).setCr 0x12 (w 3)).setCr 0x13 (w 4)).setCr 0x14 (w 5)

/-- The retained matrix commands re-enter the queue of the core that the context is on now, ahead of its later ones (07 R191, R192), and privileged transfers whose
cause was raised go on (08 R209), one that the damper blocked without further effect (10 R256). -/
def Machine.requeue (m : Machine) (c : Nat) : Machine :=
  let x := m.ctx c
  let m := m.onPriv (·.map fun p => if p.1 = c ∧ p.2.raised = true then (p.1, { p.2 with fault := none, raised := false, prog := if (p.2.fault.map (·.code)) = some 0x3B then 2 ^ 64 else p.2.prog }) else p)
  if x.retained = [] then m
  else (m.onCore (coreOf c) fun k => { k with mq := k.mq ++ x.retained.map fun q => { q with ctx := c } }).setCtx c { x with retained := [] }

/-- `rts` (R252). A byte of the frame that faults kills the context (R253) (log 18, DEDUCED). -/
def Machine.rts (e : Env) (m : Machine) : Res Machine := do
  let core := coreOf e.c
  let frame := (e.x.cr 0x17).toNat
  let dead := m.onCtx e.c Ctx.kill
  match m.readPinned core frame 0x280 2 with
  | none => .ok dead
  | some rec =>
    let w (o : Nat) : Nat := leNat ((rec.drop o).take 8)
    let st := w 0x38
    match readEntries m core frame (bits st 32 8) 0x280 ((m.ctx e.c).frames.headD []) with
    | none => .ok dead
    | some (m, ps) =>
      check (stateBad st == []) 0x03 ((stateBad st).min?.getD 0)
      let ps ← match ps with
        | .ok ps => .ok ps
        | .error o => raise 0x03 o
      let x := (m.ctx e.c).landInterlocks.restart
      let x := { x with s := SMap.setAll 0 [] ((List.range 63).map fun i => (i + 1, .ofNat 64 (w (0x88 + 8 * i)))), pend := ps,
                        depth := x.depth - 1, stepArmed := bit st 3, frames := x.frames.tail }
      let x := x.setCr 0x17 (.ofNat 64 (w 0x80))
      let x ← if bit st 0 then .ok (some x)
        else .ok ((m.readPinned core (w 0x80) 0x80 2).map x.setTrapRegs)
      match x with
      | none => .ok dead
      | some x =>
        let x := { x with st := if bit st 2 then .retired else if x.depth = 0 then .running else .inService }
        .ok ({ m with bun := { m.bun with next := some (e.x.cr 0x15), quiet := true } }.setCtx e.c x |>.requeue e.c)

def execRts (s : State) : Out State := syllable (fun e m => m.rts e) s

/-- `yield` passes the rest of the turn to the next ready context, and changes no register (R98; 10 R242). -/
def execYield (s : State) : Out State := syllable (fun _ m => .ok m) s

end Sys2Proof.Machine
end

