-- ==== Sys2Proof/Machine/Csr.lean ====
section
/-! DEFINITION. Csr.lean: control registers and the configuration instructions (03_bundles_and_encoding.md R76-R79; 04 R103, R116-R119; 02 R33, R39; 11 R263; 14 R301). -/

namespace Sys2Proof.Machine

/-- Whether a control register exists, and whether task code and service code may read it or write it (R76). -/
def csrRights (svc : Bool) (n : Nat) : Option (Bool × Bool) :=
  if n = 0x00 ∨ n = 0x60 ∨ n = 0x61 ∨ (0x30 ≤ n ∧ n ≤ 0x37) then some (true, false)
  else if n = 0x01 ∨ n = 0x02 ∨ n = 0x22 ∨ n = 0x50 ∨ n = 0x51 then some (true, true)
  else if n = 0x16 ∨ n = 0x17 then some (svc, svc)
  else if n = 0x03 ∨ (0x10 ≤ n ∧ n ≤ 0x15) ∨ n = 0x20 ∨ n = 0x21 ∨ n = 0x23 ∨ n = 0x24 ∨ (0x40 ≤ n ∧ n ≤ 0x47) then some (true, svc)
  else none

/-- The launch of a context and its table's base on the context's core (11 R263). -/
def Machine.schedTable (m : Machine) (c : Nat) : Option (Nat × Launch × Nat) := do
  let li ← (m.ctx c).launch
  let l ← m.launch li
  some (li, l, l.stab + 65536 * (coreOf c % 12))

/-- The place in a core's table of its `i`-th coordinate: the table's 8192 places are used again in turn once more have been dealt (log 19, DESIGN CHOICE). -/
def Launch.place (l : Launch) (n i : Nat) : Nat := if (l.table n).length ≤ 8192 then i else i % 8192

/-- The coordinate at a place of a core's table, or the tail; none beyond it. -/
def Launch.atPlace (l : Launch) (n o : Nat) : Option Nat :=
  let t := (l.table n).length
  if t ≤ 8192 then (if o ≤ t then some o else none) else if o < 8192 then some (t - (t - o) % 8192) else none

/-- The value that `csrr` reads. -/
def Machine.csrValue (m : Machine) (c n : Nat) (pc : Word) : Word :=
  let x := m.ctx c
  if n = 0x00 then pc
  else if n = 0x60 then (m.core (coreOf c)).cycle
  else if 0x30 ≤ n ∧ n ≤ 0x33 then .ofNat 64 (x.xwm (n - 0x30))
  else if n = 0x23 then
    match m.schedTable c with
    | some (_, l, base) => .ofNat 64 (base + 8 * l.place (coreOf c) (l.head (coreOf c)))
    | none => x.cr n
  else x.cr n

/-- `csrr` of a channel's watermark delivers a cause of the channel's transfers (08 R203, R204). -/
def execCsrr (d : Reg) (num : BitVec 8) (s : State) : Out State :=
  syllable (fun e m => do
    let n := num.toNat
    match csrRights (e.x.depth != 0) n with
    | none => raise 0x01 4
    | some (r, _) =>
      check r 0x01 6
      if 0x30 ≤ n ∧ n ≤ 0x33 then e.x.raiseCovered fun k _ => k == n - 0x30
      m.result e 1 d (e.m0.csrValue e.c n m.bun.pc)) s

/-- The lowest set bit of a range, as a list. -/
def lowIn (v lo w : Nat) : List Nat := if bits v lo w = 0 then [] else [lo + lowBit w (bits v lo w)]

/-- The offending bits of a value for a control register: reserved bits, and multi-bit fields with unassigned values (00 R6). Of PFL.LEN[1:0], which must be
zero, the lowest set bit is reported (log 78, DESIGN CHOICE). -/
def csrBad (n v : Nat) : List Nat :=
  if n = 0x01 then lowIn v 6 2 ++ lowIn v 13 3 ++ lowIn v 21 43 ++ (if 5 ≤ bits v 0 3 then [0] else [])
  else if n = 0x02 then lowIn v 6 58
  else if n = 0x03 then lowIn v 7 9 ++ lowIn v 47 17
  else if n = 0x10 then lowIn v 16 48 ++ (if bits v 6 2 = 3 then [6] else [])
  else if n = 0x16 then lowIn v 0 2
  else if n = 0x17 then lowIn v 0 4
  else if n = 0x20 then lowIn v 6 58
  else if n = 0x21 ∨ n = 0x22 then lowIn v 0 7
  else if n = 0x23 then lowIn v 0 3
  else if n = 0x24 then lowIn v 16 48
  else if 0x40 ≤ n ∧ n ≤ 0x43 then lowIn v 0 2
  else if 0x44 ≤ n ∧ n ≤ 0x47 then lowIn v 0 2 ++ lowIn v 32 31
  else []

/-- The conditions of 14 R301 on a DMR value; `frozen` says that the superstep of the old checkpointed level is open. -/
def dmrOk (old v : Nat) (frozen : Bool) : Bool :=
  let cks := (List.range 7).filter fun i => bit v (40 + i)
  cks.length ≤ 1 && !bit v 40 && (cks.all fun i => bit v i) &&
    (!frozen || match ckLevel old with
      | some i => bits v 40 7 == bits old 40 7 && bit v i == bit old i
      | none => true)

/-- A write of FPC or FMT: at once for `csrr`, in force three bundles later; from service code at once for the interrupted level (02 R33; 10 R250) (log 29, DEDUCED). -/
def Ctx.writeDelayed (x : Ctx) (n : Nat) (v : Word) : Ctx :=
  let x := x.setCr n v
  if n = 0x01 then (if x.depth = 0 then { x with fpcW := x.fpcW ++ [(3, v)] } else { x with fpc := v, fpcW := [] })
  else if x.depth = 0 then { x with fmtW := x.fmtW ++ [(3, v)] } else { x with fmt := v, fmtW := [] }

/-- FMT written with the checks of 02 R39. -/
def Machine.writeFmt (e : Env) (m : Machine) (v : Word) : Res Machine := do
  check (csrBad 0x02 v.toNat == []) 0x03 ((csrBad 0x02 v.toNat).min?.getD 0)
  check (bits v.toNat 0 3 < 5) 0x19 0
  .ok (m.onCtx e.c fun x => x.writeDelayed 0x02 v)

/-- A write of a control register by `csrw` (R76, R78, R103). -/
def Machine.csrWrite (e : Env) (m : Machine) (n : Nat) (v : Word) : Res Machine := do
  match csrRights (e.x.depth != 0) n with
  | none => raise 0x01 4
  | some (r, w) =>
    check r 0x01 6
    check w 0x01 5
    if n = 0x02 then m.writeFmt e v
    else
      check (csrBad n v.toNat == []) 0x03 ((csrBad n v.toNat).min?.getD 0)
      if n = 0x01 then .ok (m.onCtx e.c fun x => x.writeDelayed 0x01 v)
      else if n = 0x03 then
        let old := (e.x.cr 0x03).toNat
        let frozen := match ckLevel old with
          | some i => [1, 2, 3, 4, 5].contains ((m.byte (grb m + 64 * groupRecord e.c old i)).toNat % 16)
          | none => false
        check (dmrOk old (v ||| 1).toNat frozen) 0x03 40
        .ok (m.onCtx e.c fun x => x.setCr n (v ||| 1))
      else if n = 0x22 then
        let m ← m.fillKonst e.c v.toNat
        .ok (m.onCtx e.c fun x => x.setCr n v)
      else if n = 0x23 then
        match m.schedTable e.c with
        | none => .ok (m.onCtx e.c fun x => x.setCr n v)
        | some (li, l, base) =>
          match (if base ≤ v.toNat then l.atPlace (coreOf e.c) ((v.toNat - base) / 8) else none) with
          | some i => .ok (m.setLaunch li (l.setHead (coreOf e.c) i))
          | none => raise 0x03 3
      else if n = 0x51 then .ok { m.onCtx e.c (fun x => x.setCr n v) with bun := { m.bun with rngSet := true } }
      else .ok (m.onCtx e.c fun x => x.setCr n v)

def execCsrw (num : BitVec 8) (a : Src) (s : State) : Out State := syllable (fun e m => m.csrWrite e num.toNat (e.x.src a)) s
def execCsrwFpc (a : Src) (s : State) : Out State := syllable (fun e m => m.csrWrite e 0x01 (e.x.src a)) s
def execCsrwFmt (a : Src) (s : State) : Out State := syllable (fun e m => m.csrWrite e 0x02 (e.x.src a)) s
def execCsrwDmr (a : Src) (s : State) : Out State := syllable (fun e m => m.csrWrite e 0x03 (e.x.src a)) s
def execCsrwKbase (a : Src) (s : State) : Out State := syllable (fun e m => m.csrWrite e 0x22 (e.x.src a)) s
def execCsrwSchedptr (a : Src) (s : State) : Out State := syllable (fun e m => m.csrWrite e 0x23 (e.x.src a)) s
def execCsrwRngctr (a : Src) (s : State) : Out State := syllable (fun e m => m.csrWrite e 0x51 (e.x.src a)) s
def execFmtw (a : Src) (s : State) : Out State := syllable (fun e m => m.writeFmt e (e.x.src a)) s

/-! ### Tensor identifiers -/

/-- `tidw` (R119; 07 R173). -/
def execTidw (cb : Bool) (num : BitVec 8) (a : Reg) (s : State) : Out State :=
  syllable (fun e m => do
    let va := (e.x.sreg a).toNat
    let n := num.toNat
    check (!(cb && n % 16 == 0)) 0x16 0
    check (va % (if cb then 32 else 128) == 0) 0x0A va
    let (m, bs) ← m.readRange e.c va (if cb then 32 else 128) 2
    if cb then .ok (m.onCtx e.c fun x => { x with cb := SMap.set 0 x.cb (n % 16) (.ofNat 256 (leNat bs)) })
    else
      check (entOk (leNat bs)) 0x16 n
      .ok (m.onCtx e.c fun x => { x with tid := SMap.set 0 x.tid n (.ofNat 1024 (leNat bs)) })) s

/-- `tidr` (R119). -/
def execTidr (cb : Bool) (num : BitVec 8) (a : Reg) (s : State) : Out State :=
  syllable (fun e m => do
    let va := (e.x.sreg a).toNat
    let n := num.toNat
    check (va % (if cb then 32 else 128) == 0) 0x0A va
    m.writeRange e.c va (if cb then leBytes 32 (e.x.codebook (n % 16)) else leBytes 128 (e.x.entry n))) s

/-! ### Translation buffers and bank modes -/

/-- The cores of a `.core`, `.die` or `.pkg` scope. -/
def scopeCores (c : Nat) (sc : Scope) : List Nat :=
  match sc with
  | .core => [coreOf c]
  | .die => (List.range 12).map (12 * dieOf c + ·)
  | _ => List.range 96

/-- The translations that `tlbinv` of a KIND removes, for its address and length (R116). -/
def tlbHit (kind lo len : Nat) (t : TlbEntry) : Bool := kind == 0 || t.meets lo (if kind = 2 then len else 1)

/-- A store of a core's path, not yet performed, used one of the translations. -/
def Core.storesThrough (k : Core) (hit : TlbEntry → Bool) : Bool :=
  k.path.any fun e => (k.utlb ++ k.tlb).any fun t => hit t && physKey t.leaf t.page ≤ e.key && e.key < physKey t.leaf t.page + 2 ^ t.shift

/-- The dies whose walkers serve the cores of a scope. -/
def scopeDie (c : Nat) (sc : Scope) (d : Nat) : Bool :=
  match sc with
  | .core | .die => d == dieOf c
  | _ => true

/-- Matching translations leave the TLBs and walker caches in scope (R116). -/
def Machine.dropScope (m : Machine) (c : Nat) (sc : Scope) (hit : TlbEntry → Bool) : Machine :=
  (scopeCores c sc).foldl (fun m n => m.onCore n fun k => k.dropPages hit) (m.dropWalkers (scopeDie c sc) hit)

/-- `tlbinv` (R116; 16 R331): matching translations leave the TLBs and walker caches in scope, once every store that used one is performed. The model's other accesses
are performed in the step that translates them. -/
def execTlbinv (sc : Scope) (kind : BitVec 2) (a b : Reg) (s : State) : Out State :=
  syllable (fun e m =>
    let hit := tlbHit kind.toNat (e.x.sreg a).toNat (e.x.sreg b).toNat
    if (scopeCores e.c sc).any fun n => (m.core n).storesThrough hit then .error (.hold .busy)
    else .ok (m.dropScope e.c sc hit)) s

/-- The banks that a running operation of a core uses: the tiles of transfers, their follow-on commands, messages and matrix commands (R117). -/
def Machine.tileUsers (m : Machine) (n : Nat) : List Nat :=
  let k := m.core n
  let ctxs := (List.range 4).map fun j => m.ctx (4 * n + j)
  let cmd (q : MCmd) : List Nat := [q.a.desc, q.b.desc]
  let xfer (t : Xfer) : List Nat := t.desc :: t.follow.elim [] cmd
  (ctxs.flatMap fun x => x.xfers.flatMap xfer ++ x.msgs.map (·.tile.desc) ++ x.kvops.flatMap (fun t => [t.src.desc, t.dst.desc]) ++ x.retained.flatMap cmd) ++
    k.mq.flatMap cmd ++ (match k.mrun with
      | some r => cmd r.1
      | none => []) ++ k.priv.flatMap fun p => xfer p.2

/-- A descriptor's area touches a bank (01 R17; 07 R175). -/
def descUses (desc cluster bank : Nat) : Bool :=
  let off := bits desc 0 21
  let rowb := bits desc 42 22
  let pitch := bits desc 74 22
  desc != 0 && bits desc 118 2 == bank / 4 && (List.range (bits desc 96 16)).any fun r =>
    (List.range (rowb / 8)).any fun i =>
      let u := (off + r * pitch) / 8 + i
      u / 4 % 8 == cluster && u % 4 == bank % 4

/-- The scratchpad words of a bank read as zero (R117 step 4). -/
def Core.clearBank (k : Core) (cluster bank : Nat) : Core :=
  { k with pad := k.pad.filter fun p => !(p.1 / 2 ^ 18 == bank / 4 && p.1 / 4 % 8 == cluster && p.1 % 4 == bank % 4) }

/-- A bank leaves its mode and enters another (R117 steps 3 and 4): the L1 lines that it held are invalid; none is dirty, since every store goes on to memory (09 R212). -/
def Core.setBank (k : Core) (cluster bank mode : Nat) : Core :=
  let k := k.dropLines fun l => SMap.get 0 k.way l == 16 * cluster + bank + 1
  let k := { k with bank := SMap.set 0 k.bank (16 * cluster + bank) mode, fifo := SMap.set [] k.fifo (16 * cluster + bank) [] }
  k.clearBank cluster bank

/-- `bankmode` (R117; 01 R16). -/
def execBankmode (a : Src) (clm : BitVec 8) (mode : BitVec 2) (s : State) : Out State :=
  syllable (fun e m => do
    let v := (e.x.src a).toNat
    check (v / 2 ^ 16 == 0) 0x03 16
    let k := m.core (coreOf e.c)
    let sel := ((List.range 8).filter (bit clm.toNat)).flatMap fun c => ((List.range 16).filter (bit v)).map fun b => (c, b)
    let ds := m.tileUsers (coreOf e.c)
    if sel.any fun p => ds.any fun d => descUses d p.1 p.2 then .error (.hold .busy)
    else if sel ≠ [] ∧ (e.m0.core (coreOf e.c)).routed v = true then .error (.hold .busy)
    else
      let change := sel.filter fun p => SMap.get 0 k.bank (16 * p.1 + p.2) != mode.toNat
      match change.find? fun p => SMap.get 0 k.bank (16 * p.1 + p.2) == 2 && SMap.get [] k.fifo (16 * p.1 + p.2) != [] with
      | some p => raise 0x1C (16 * p.1 + p.2)
      | none => .ok (m.setCore (coreOf e.c) (change.foldl (fun k p => k.setBank p.1 p.2 mode.toNat) k))) s

end Sys2Proof.Machine
end

