-- ==== Sys2Proof/Machine/Images.lean ====
section
/-! DEFINITION. Images.lean: context images, pre-emption and resumption, failures of launches, and the causes taken at a boundary (10_contexts.md R245-R247, R253-R256; 07 R192; 08 R210; 11 R260, R261). -/

namespace Sys2Proof.Machine

/-! ### The image (R255) -/

/-- The control registers of the control state, with their word's place: DMR, PRIO, TIDBASE, KBASE, STAGE, PFB0-PFL3, RNGKEY, RNGCTR, BUNDLES, SVCBASE. -/
def imageCsrs : List (Nat × Nat) :=
  [(5, 0x03), (6, 0x20), (7, 0x21), (8, 0x22), (10, 0x24)] ++ ((List.range 8).map fun i => (11 + i, 0x40 + i)) ++
    [(19, 0x50), (20, 0x51), (21, 0x61), (22, 0x16), (30, 0x17)]

/-- The latches of a launch's mask are assigned to it on a core where another launch has them, or none has: they are empty (07 R181). It is so when a context of the core first
takes a task of the launch, which the spec does not state (log 91, DESIGN CHOICE). -/
def Machine.assignLatches (m : Machine) (li n : Nat) : Machine :=
  match m.launch li with
  | none => m
  | some l =>
    let new := (List.range 4).filter fun i => bit l.lm i && SMap.get 0 (m.core n).owner i != li + 1
    if new = [] then m
    else m.onCore n fun k => { k with latch := new.foldl (fun ls i => SMap.set {} ls i {}) k.latch, owner := new.foldl (fun os i => SMap.set 0 os i (li + 1)) k.owner }

/-- The words of the control state, from 0x280. -/
def Machine.imageControl (m : Machine) (c : Nat) (x : Ctx) : List (Nat × Nat) :=
  let sptr := (m.csrValue c 0x23 0).toNat
  [(0, (x.cr 0x01).toNat), (1, (x.cr 0x02).toNat), (2, x.fpc.toNat), (3, x.fmt.toNat), (4, lastCount x.fpcW + 4 * lastCount x.fmtW), (9, sptr)] ++
    (imageCsrs.map fun p => (p.1, (x.cr p.2).toNat)) ++ ((List.range 4).map fun i => (23 + i, (x.tcreg i).toNat)) ++
    [(27, x.nxt.foldl (fun a p => a ||| 2 ^ p.reg) 0), (28, x.async.foldl (fun a k => a ||| 2 ^ k.code) (if x.ints = [] then 0 else 2 ^ 0x36)), (29, x.lm.toNat + 16 * x.accHeld.toNat)]

/-- The record of a cause not yet raised (08 R196), 11 bytes: TRAPINFO0, channel, identifier above the channel's XWM, code, and the package of a refusal; the issuing PC is that of the
transfer, and stays with the part (log 25, DESIGN CHOICE). -/
def Xfer.causeRecord (t : Xfer) (wm : Nat) (k : Cause) : List Byte :=
  leBytes 11 (pack [(0, k.i0.getD 0 % 2 ^ 64), (64, t.ch), (66, (t.id - wm) % 64), (72, k.code), (78, (k.i3.elim 0 (· + 1)) % 1024)])

/-- The record of a class 7 cause not yet raised (18 R375), 22 bytes: TRAPINFO0, the request area or, for `kvmap`, the issuing PC, its kind and operands' table. -/
def KvOp.causeRecord (t : KvOp) (k : Cause) : List Byte :=
  leBytes 22 (pack [(0, k.i0.getD 0 % 2 ^ 64), (64, 4 + (if t.kind = .attn then 0 else 1)), (72, k.code), (88, if t.kind = .attn then t.area else t.pc), (152, t.layer % 4096), (164, t.head % 4096)])

/-- A saved context's count of a class (04 R99). -/
def Ctx.savedCount (x : Ctx) (cls : Nat) : Nat :=
  match cls with
  | 4 => x.retained.length + (x.xfers.filter fun t => t.follow.isSome).length
  | 5 => (x.msgs.filter fun t => t.send && t.fault.isNone).length + (x.fires.filter fun t => t.fault.isNone).length + (x.xfers.filter Xfer.isFire).length
  | 6 => (x.msgs.filter fun t => !t.send && t.fault.isNone).length
  | 7 => x.kvops.length
  | _ => (x.xfers.filter fun t => t.ch == cls && !t.isFire).length

/-- The flag file (08 R196; 18 R375): per channel XNEXT, XWM and the completion mask, the class counters, and the causes not yet raised, of copies and then of class 7 operations; its last 64 bytes hold
those of privileged transfers (R209). Its places are this model's (log 25, DESIGN CHOICE). -/
def Ctx.flagFile (x : Ctx) : List Byte :=
  let open_ (ch : Nat) : List Nat := (x.xfers.filter fun t => t.ch == ch && !t.isFire).map (·.id)
  let wm (ch : Nat) : Nat := ((open_ ch).min?).getD (x.cr (0x34 + ch)).toNat
  let mask (ch : Nat) : Nat := ((List.range 64).filter fun i => wm ch + i < (x.cr (0x34 + ch)).toNat && !(open_ ch).contains (wm ch + i)).foldl (fun a i => a + 2 ^ i) 0
  let copies := x.xfers.flatMap fun t => if t.raised || t.isFire then [] else t.fault.elim [] (t.causeRecord (wm t.ch))
  let kvs := x.kvops.flatMap fun t => if t.raised then [] else t.fault.elim [] t.causeRecord
  (List.range 4).flatMap (fun ch => [(x.cr (0x34 + ch)).toNat, wm ch, mask ch, 0].flatMap (leBytes 8)) ++
    (List.range 8).flatMap (fun k => leBytes 8 (x.savedCount k)) ++ (copies ++ kvs).take 2816

/-- The state of a load-queue entry as an image holds it: a performing one is saved as queued (R255). -/
def LqState.code : LqState → Nat
  | .queued | .performing => 0 | .resolved => 2

/-- The header of a saved load-queue entry (R255): state, SZ, CE, lanes, pushing PC, fault tag and task (log 25, DESIGN CHOICE). -/
def LqEntry.header (q : LqEntry) : List Byte :=
  let t := q.tag.getD (0, 0, 0)
  leBytes 64 (pack [(0, q.st.code), (2, b2n q.tag.isSome), (3, b2n q.again), (8, q.sz), (16, q.ce), (32, q.ti), (64, q.pc.toNat), (128, q.lanes), (256, t.1), (264, t.2.2), (272, q.tag3.elim 0 (· + 1)), (320, t.2.1)])

/-- A saved entry read back from its header. -/
def LqEntry.fromHeader (h : Nat) : LqEntry :=
  { st := if bits h 0 2 = 2 then .resolved else .queued, tag := if bit h 2 then some (bits h 256 8, bits h 320 64, bits h 264 8) else none, again := bit h 3,
    tag3 := if bits h 272 16 = 0 then none else some (bits h 272 16 - 1), sz := bits h 8 3, ce := bits h 16 8, ti := bits h 32 24, pc := .ofNat 64 (bits h 64 64), lanes := bits h 128 128, addrs := [] }

def XKind.code : XKind → Nat
  | .tld => 1 | .tst => 2 | .ttrans out => if out then 6 else 5 | .tred _ => 7 | .fire _ _ => 8

/-- An unstarted transfer and a saved matrix command as an image holds them, 64 bytes each; the identifier entries and tables that they captured do not fit
there and stay with the part (log 25, DESIGN CHOICE). -/
def Xfer.saved (t : Xfer) : List Byte :=
  leBytes 64 (pack [(0, t.id), (64, t.base), (128, t.aux), (192, t.desc), (320, t.pc), (384, t.kind.code), (388, t.reg), (394, t.lay), (396, t.ch), (398, b2n t.follow.isSome),
    (400, t.ti), (424, t.fmt.toNat % 64), (432, t.fpc.toNat % 2 ^ 32)])

def MKind.code : MKind → Nat
  | .mma => 0 | .mlatch => 1 | .mlatchMem => 2 | .mzero => 3 | .mst => 4 | .msv => 5 | .mrst => 6

def MCmd.saved (q : MCmd) : List Byte :=
  leBytes 64 (pack [(0, q.kind.code), (4, q.acc), (8, q.lat), (10, b2n q.z0), (11, b2n q.clr), (12, q.rm), (16, q.a.reg), (22, q.b.reg), (28, b2n q.b.latch), (32, q.fpc.toNat % 2 ^ 32),
    (64, q.fmt.toNat % 64), (72, q.ti), (128, q.a.desc), (256, q.b.desc), (384, q.addr), (448, q.pc)])

/-- A load-queue entry that an image keeps by its lane values; it keeps the addresses of every other one. -/
def LqEntry.keepsData (q : LqEntry) : Bool := q.st == .resolved && q.tag.isNone

/-- The pieces of an image, offset and bytes, whose layout R255 fixes. -/
def Machine.imagePieces (m : Machine) (c : Nat) (x : Ctx) (cause : Nat) (info : List Nat) : List (Nat × List Byte) :=
  let w8 (n : Nat) (f : Nat → Nat) : List Byte := (List.range n).flatMap fun i => leBytes 8 (f i)
  let lanes (n per : Nat) (f : Nat → Nat) : List Byte := (List.range n).flatMap fun i => leBytes per (f i)
  let replay := (sortPend x.pend).flatMap replayEntry
  [(0, (frameBytes x cause info x.pc.toNat 0).take 0x280)] ++
    ((m.imageControl c x).map fun p => (0x280 + 8 * p.1, leBytes 8 p.2)) ++
    [(0x1000, w8 (63 * 128) fun i => (SMap.get 0 x.v i).toNat),
     (0x10C00, (List.range 128).flatMap fun i => leBytes 2 (ofBits ((List.range 16).map fun l => x.mbit (i / 8) (16 * (i % 8) + l)))),
     (0x11000, lanes 2048 24 fun i => (SMap.get emptyLane x.q i).toNat),
     (0x1D000, w8 8192 fun i => (SMap.get 0 x.acc i).toNat),
     (0x36000, lanes 64 16 fun i => (SMap.get 0 x.t i).toNat),
     (0x36400, leBytes 8 x.tDef.toNat),
     (0x36800, (List.range 16).flatMap fun i => leBytes 16 (SMap.get 0 x.cap i).toNat ++ leBytes 8 (if x.capV.getLsbD i then 1 else 0) ++ leBytes 8 0),
     (0x36C00, (List.range 16).flatMap fun i => leBytes 64 ((SMap.get 0 x.cn i).toNat)),
     (0x37000, lanes 256 128 fun i => (SMap.get 0 x.tid i).toNat),
     (0x3F000, lanes 16 32 fun i => x.codebook i),
     (0x40000, w8 1024 fun i => (SMap.get 0 x.konst i).toNat),
     (0x42000, x.sched.flatMap (leBytes 32))] ++
    (x.lq.zipIdx.map fun p => (0x44000 + 1088 * p.2, p.1.header ++ w8 128 fun l => if p.1.keepsData then (p.1.data.getD l 0).toNat else p.1.addrs.getD l 0)) ++
    ((List.range 4).map fun ch => (0x58000 + 4096 * ch, (x.xfers.filter fun t => t.ch == ch && !t.isFire && !t.started).flatMap Xfer.saved)) ++
    [(0x400, x.flagFile), (0x5C000, x.retained.flatMap MCmd.saved),
     (0x5C400, replay),
     (0x75400, leBytes 8 x.ints.length ++ leBytes 8 0 ++ x.ints.flatMap fun p => leBytes 8 p.1 ++ leBytes 8 p.2)]

/-- An image written at an area of core `n`'s space: memory as R255 lays it out, and beside it, under the number `key`, what the layout leaves to the part (log 25, DESIGN CHOICE);
`none` where the area does not lie in pinned service pages (16 R337). -/
def Machine.writeImage (m : Machine) (n c area key : Nat) (x : Ctx) (cause : Nat) (info : List Nat) : Option Machine :=
  ((m.imagePieces c x cause info).foldl (fun (o : Option Machine) p => o.bind fun m => m.writePinned n (area + p.1) p.2 (p.2.length / 4096 + 2)) (some m)).map fun m =>
    { m with images := SMap.set {} m.images key x }

/-- The image of a pre-empted context of a launch, whose fault record holds PREEMPT (R254) (log 46, DEDUCED). -/
def Machine.writePreempted (m : Machine) (n c li : Nat) (l : Launch) (x : Ctx) : Option Machine :=
  let k : Cause := { code := 0x35, kind := 2 }
  { m with fresh := m.fresh + 4 }.writeImage n c (l.area x.img) (savedKey li x.img) x k.word (m.trapInfo k)

/-- The image of a checkpoint: its fault record keeps the trap registers as they are (14 R308) (log 46, DEDUCED). -/
def Machine.writeCheckpoint (m : Machine) (c area key : Nat) (x : Ctx) : Option Machine :=
  m.writeImage (coreOf c) c area key x (x.cr 0x10).toNat ((List.range 4).map fun i => (x.cr (0x11 + i)).toNat)

/-- The replay entries of an image. The layout has no place for an entry's issuing PC, which the part keeps beside the image (02 R34) (log 25, DESIGN CHOICE). -/
def imageReplay (rd : Nat → Nat → List Byte) (pcs : List Word) : Nat → Nat → List Pend
  | 0, _ => []
  | n + 1, o =>
    let h := leNat (rd o 32)
    let size := bits h 96 32
    { off := bits h 32 6, file := .fromCode (bits h 0 2), reg := bits h 8 8, ce := bits h 56 8, fl := bits h 64 5, en := bits h 72 5, pc := pcs.headD 0,
      writes := entryWrites h (rd (o + 32) size) } :: imageReplay rd pcs.tail n (o + 32 + roundUp size 32)

/-- The writes of FPC or FMT that an image restores: the last by its words, and the earlier ones that the part keeps beside it (02 R33) (log 29, DEDUCED). -/
def restoredWrites (kept : List (Nat × Word)) (n : Nat) (v : Word) : List (Nat × Word) := if n = 0 then [] else kept.filter (·.1 < n) ++ [(n, v)]

/-- The pending causes and requests that an image's words record (R255): those of them that the part knows more of as it knows them, the rest with what their words give. -/
def restoredCauses (kept : List Cause) (w : Nat) : List Cause :=
  (kept.filter fun k => bit w k.code) ++ ((List.range 64).filter fun i => bit w i && i != 0x36 && !kept.any fun k => k.code == i).map fun i => { code := i, kind := 2 }
def restoredRequests (kept : List CoordReq) (w : Nat) : List CoordReq :=
  (kept.filter fun q => bit w q.reg) ++ ((List.range 4).filter fun i => bit w i && !kept.any fun q => q.reg == i).map fun i => { reg := i }

/-- A context restored from an image in core `n`'s space (R254), whose area is readable (`areaPinned`). -/
def Machine.readImage (m : Machine) (n area key : Nat) : Ctx :=
  let x := SMap.get {} m.images key
  let rd (o len : Nat) : List Byte := (m.readPinned n (area + o) len (len / 4096 + 2)).getD []
  let nat (o len : Nat) : Nat := leNat (rd o len)
  let w (o : Nat) : Word := .ofNat 64 (nat o 8)
  let ctl (i : Nat) : Word := w (0x280 + 8 * i)
  let words (o n : Nat) : SMap Word := SMap.setAll 0 [] ((List.range n).map fun i => (i, w (o + 8 * i)))
  let cnt := (ctl 4).toNat
  let x := imageCsrs.foldl (fun x p => x.setCr p.2 (ctl p.1)) x
  let x := ((x.setCr 0x01 (ctl 0)).setCr 0x02 (ctl 1)).setTrapRegs (rd 0 0x30)
  let x := (List.range 4).foldl (fun (x : Ctx) n => x.setCr (0x34 + n) (w (0x400 + 32 * n))) x
  { x with
    pc := w 8
    s := SMap.setAll 0 [] ((List.range 63).map fun i => (i + 1, w (0x88 + 8 * i)))
    tc := SMap.setAll tcEmpty [] ((List.range 4).map fun i => (i, ctl (23 + i)))
    v := words 0x1000 (63 * 128)
    mask := SMap.setAll false [] ((List.range 1920).map fun i => (i + 128, bit (nat (0x10C00 + 2 * ((i + 128) / 16)) 2) (i % 16)))
    q := SMap.setAll emptyLane [] ((List.range 2048).map fun i => (i, .ofNat 192 (nat (0x11000 + 24 * i) 24)))
    acc := words 0x1D000 8192
    accHeld := .ofNat 4 (bits (ctl 29).toNat 4 4)
    lm := .ofNat 4 (ctl 29).toNat
    t := SMap.setAll 0 [] ((List.range 64).map fun i => (i, .ofNat 128 (nat (0x36000 + 16 * i) 16)))
    tDef := w 0x36400
    cap := SMap.setAll 0 [] ((List.range 16).map fun i => (i, .ofNat 128 (nat (0x36800 + 32 * i) 16)))
    capV := .ofNat 16 (ofBits ((List.range 16).map fun i => bit (nat (0x36800 + 32 * i + 16) 8) 0))
    cn := SMap.setAll 0 [] ((List.range 16).map fun i => (i, w (0x36C00 + 64 * i)))
    tid := SMap.setAll 0 [] ((List.range 256).map fun i => (i, .ofNat 1024 (nat (0x37000 + 128 * i) 128)))
    cb := SMap.setAll 0 [] ((List.range 15).map fun i => (i + 1, .ofNat 256 (nat (0x3F000 + 32 * (i + 1)) 32)))
    konst := words 0x40000 1024
    lq := x.lq.zipIdx.map fun p =>
      let q := LqEntry.fromHeader (nat (0x44000 + 1088 * p.2) 64)
      let ws := (List.range 128).map fun l => nat (0x44040 + 1088 * p.2 + 8 * l) 8
      if q.keepsData then { q with data := ws.map (.ofNat 64), addrs := p.1.addrs } else { q with addrs := ws }
    sched := (List.range x.sched.length).map fun i => nat (0x42000 + 32 * i) 32
    async := restoredCauses x.async (ctl 28).toNat, nxt := restoredRequests x.nxt (ctl 27).toNat
    fpc := ctl 2, fpcW := restoredWrites x.fpcW (cnt % 4) (ctl 0)
    fmt := ctl 3, fmtW := restoredWrites x.fmtW (bits cnt 2 2) (ctl 1)
    pend := imageReplay rd ((sortPend x.pend).map (·.pc)) (bits (nat 0x38 8) 32 8) 0x5C400
    ints := (List.range (min 256 (nat 0x75400 8))).map fun i => (nat (0x75410 + 16 * i) 8, nat (0x75418 + 16 * i) 8) }

/-! ### Failures of launches (11 R260) -/

/-- A field of a queue's descriptor (11 R257). -/
def queueKey (m : Machine) (q : Nat) : Nat := qtb m + 64 * q
def Machine.queueDesc (m : Machine) (q : Nat) : Nat := m.nat (queueKey m q) 64
def Machine.setQueue (m : Machine) (q lo w v : Nat) : Machine := m.setNat (queueKey m q) 64 (setBits (m.queueDesc q) lo w v)

/-- The Parser of a die. -/
def Machine.parser (m : Machine) (die : Nat) : Parser := SMap.get {} m.parsers die
def Machine.setParser (m : Machine) (die : Nat) (p : Parser) : Machine := { m with parsers := SMap.set {} m.parsers die p }

/-- A queue goes to failed with a cause (R258, R260). -/
def Machine.failQueue (m : Machine) (q cause fofs : Nat) : Machine :=
  let m := if cause = 0x31 then m.setParser (q / 16) { m.parser (q / 16) with cxlBad := false } else m
  (((m.setQueue q 32 6 cause).setQueue q 40 24 fofs).setQueue q 24 3 4).irq (0x100 + q)

/-- A launch fails: no further coordinate is dealt, and the queue stops (R260). -/
def Machine.failLaunch (m : Machine) (li cause : Nat) : Machine :=
  match m.launch li with
  | none => m
  | some l =>
    if l.failed ∨ l.complete then m
    else
      let keep := (List.range 96).flatMap fun n => ((l.table n).take (l.head n)).map fun w => (n, w)
      (m.setLaunch li { l with failed := true, todo := [], coords := keep, preempted := [] }).failQueue l.queue cause l.fofs

/-! ### Pre-emption (R254) -/

/-- Started transfers run to completion or to a fault, oldest first, each as far as it can (08 R210); `i` is the next to try. -/
def Machine.runStarted (m : Machine) (c : Nat) : Nat → Nat → Machine
  | 0, _ => m
  | n + 1, i =>
    match (m.ctx c).xfers[i]? with
    | none => m
    | some t =>
      if !t.started ∨ t.fault.isSome ∨ !(t.isFire || m.xferReady c t) then Machine.runStarted m c n (i + 1)
      else
        let len := (m.ctx c).xfers.length
        let m := if t.isFire then m.advanceFire c i else (m.advanceXfer c i).1
        Machine.runStarted m c n (if (m.ctx c).xfers.length < len then 0 else i + 1)

/-- The transfers of a context that are faulted, or wait for one that is. -/
def Ctx.stuck (x : Ctx) : List Xfer := x.xfers.foldl (fun a t => if t.fault.isSome || a.any (t.waitsFor ·) then a ++ [t] else a) []

/-- A transfer has started and is neither complete nor faulted: a pre-emption waits for it (08 R210). -/
def Ctx.transferring (x : Ctx) : Bool := x.xfers.any fun t => t.started && t.fault.isNone

/-- Class 7 operations run to completion or to their fault (18 R375), each as far as it can; after one that completes the rest are tried again. -/
def Machine.runKv (m : Machine) (c : Nat) : Nat → Nat → Machine
  | 0, _ => m
  | n + 1, i =>
    match (m.ctx c).kvops[i]? with
    | none => m
    | some op =>
      let len := (m.ctx c).kvops.length
      let m := if op.kind = .attn then (List.range (max 1 op.nb)).foldl (fun m b =>
          if (m.ctx c).kvops.length = len then ((m.stoveAnswer c i b).kvFinishAll.stoveAnswer c i b).fold c i b else m) m
        else (List.range (op.blocks.length + 1)).foldl (fun m _ => if (m.ctx c).kvops.length = len then (m.advanceKvmap c i).kvFinishAll else m) m
      Machine.runKv m c n (if (m.ctx c).kvops.length < len then 0 else i + 1)

/-- A class 7 operation can still run: a pre-emption waits for it (18 R375). One behind another of its table that is faulted goes with the context. -/
def Ctx.attending (x : Ctx) : Bool := match x.kvops.find? fun k => k.fault.isNone with
  | some k => !x.kvops.any fun j => j.seq < k.seq && j.fault.isSome
  | none => false

/-- The running matrix command of a context completes; its queued ones are saved in order (07 R192). -/
def Machine.drainMatrix (m : Machine) (c : Nat) (keep : Bool) : Machine :=
  let n := coreOf c
  let m := match (m.core n).mrun with
    | some r => if r.1.ctx = c then m.completeCmd n else m
    | none => m
  let mine := (m.core n).mq.filter fun q => q.ctx == c
  let m := if keep then m else m.onCore n fun k => { k with mq := k.mq.filter fun q => q.ctx != c }
  m.onCtx c fun x => { x with retained := x.retained ++ mine }

/-- Coordinates taken by outstanding requests complete into the image (04 R97). -/
def Ctx.landNxt (x : Ctx) : Ctx :=
  x.nxt.foldl (fun y p => match p.val with
    | some w => y.setTc p.reg w
    | none => { y with nxt := y.nxt ++ [p] }) { x with nxt := [] }

/-- A context whose collective fires a record must follow into its image, and back (20 R407): contexts from 384 up are images. -/
def Machine.moveFires (m : Machine) (c dst : Nat) (fires : List Fire) : Machine :=
  fires.foldl (fun m f => if (m.coll f.inst f.entry).ctx = c then m.setColl f.inst f.entry { m.coll f.inst f.entry with ctx := dst } else m) m

/-- So must its privileged transfers (08 R209). -/
def Machine.movePriv (m : Machine) (c dst : Nat) : Machine := m.onPriv (·.map fun p => if p.1 = c then (dst, p.2) else p)

/-- A context's stores leave its core's path: those that can be performed are, and the others, which wait for a route or a grate line, go with it (09 R212, R228). -/
def Machine.takeStores (m : Machine) (c : Nat) : Machine :=
  let m := m.drainAll (coreOf c)
  let mine := (m.core (coreOf c)).path.filter fun e => e.ctx == c
  if mine = [] then m
  else (m.onCore (coreOf c) fun k => { k with path := k.path.filter fun e => e.ctx != c }).onCtx c fun x => { x with stores := mine }

/-- And they enter the path of the core on which it resumes. -/
def Machine.giveStores (m : Machine) (c : Nat) : Machine :=
  let mine := (m.ctx c).stores
  if mine = [] then m
  else (m.onCore (coreOf c) fun k => { k with path := k.path ++ mine.map fun e => { e with ctx := c } }).onCtx c fun x => { x with stores := [] }

/-- A pre-emption of a context in task code (R254): its image is written, and the context is freed; it is killed where its image area is not in pinned service pages (16 R337). A send whose data phase has begun, a started transfer and a class 7 operation run
to completion, or to a fault, first (08 R210; 18 R375; 19 R394): the pre-emption waits for one that cannot yet. -/
def Machine.preemptNow (m : Machine) (c : Nat) : Option Machine :=
  let n := coreOf c
  if (m.ctx c).msgs.any fun t => t.begun && t.fault.isNone then none
  else
    let m := m.runStarted c 4096 0
    if (m.ctx c).transferring then none
    else
    let m := m.drainMatrix c false
    let len := (m.ctx c).kvops.length
    let m := m.runKv c ((len + 1) * (len + 1)) 0
    if (m.ctx c).attending then none
    else
    let m := (m.takeStores c).onCtx c fun x => (x.landInterlocks).landNxt
    let x := m.ctx c
    match x.launch.bind m.launch with
    | none => none
    | some l =>
      let key := savedKey (x.launch.getD 0) x.img
      let x := { x with st := .preempted, hold := none, seen := none, asked := none, waitHeld := 0, async := x.async.filter (·.code != 0x35), lq := x.lq.map LqEntry.saved,
                        msgs := x.msgs.map fun t => if t.fault.isSome then t else { t with parked := true } }
      match m.writePreempted n c (x.launch.getD 0) l x with
      | none => some (m.setCtx c (m.ctx c).kill)
      | some m =>
      let m := m.moveFires c (384 + key) x.fires |>.movePriv c (384 + key)
      let m := (m.setCtx c {}).onCore n fun k => { k with wants := k.wants.filter fun p => p.1 != c }
      some (match x.launch.bind m.launch with
        | some l => m.setLaunch (x.launch.getD 0) { l with preempted := l.preempted ++ [(x.img, x.ti)] }
        | none => m)

/-- A pre-emption aimed at a context waits while it is in service, in departure, sending, or due a cause delivered after a bundle (R254, R433; 15 R320). Rianami's contexts are never pre-empted (R247). -/
def Machine.preempt (m : Machine) (c : Nat) : Machine :=
  let x := m.ctx c
  if x.launch.isNone ∨ x.st = .free ∨ x.st = .retired ∨ x.st = .bound ∨ isRcore m (coreOf c) then m
  else if x.depth = 0 ∧ x.dep.isNone ∧ x.after = [] ∧ (x.st = .ready ∨ x.st = .running ∨ x.st = .switched) then
    (m.preemptNow c).getD (m.async c { code := 0x35 })
  else m.async c { code := 0x35 }

def execPreempt (ctx : Nat) (s : State) : Out State := .next { s with m := s.m.preempt ctx }

/-- The pre-empted task of a launch with the lowest TI. -/
def Launch.nextSaved (l : Launch) : Option (Nat × Nat) := (l.preempted.map (·.2)).min?.bind fun ti => l.preempted.find? fun p => p.2 == ti


/-- The superstep of a saved task's checkpointed group is being rolled back, or held: the task does not issue before CMD (14 R304). -/
def Machine.heldBack (m : Machine) (c key : Nat) : Bool :=
  let dmr := ((SMap.get {} m.images key).cr 0x03).toNat
  (ckLevel dmr).any fun lvl => let st := bits (m.nat (grb m + 64 * groupRecord c dmr lvl) 64) 0 4; st == 4 || st == 5


/-- That task can be resumed there: the pool grants its accumulators in order of age (07 R184, R192), and the matrix queue has room. -/
def Machine.canResume (m : Machine) (c li : Nat) : Bool :=
  match m.launch li with
  | none => false
  | some l =>
    match l.nextSaved with
    | none => false
    | some p =>
      let key := savedKey li p.1
      let held := .ofNat 4 (bits (m.pinnedNat (coreOf c) (l.area p.1 + 0x280 + 8 * 29) 8) 4 4)
      m.freeFor c l && !m.heldBack p.1 key && (held == 0 || (((m.poolWants (coreOf c)).takeWhile fun q => q.1 != 384 + key) == [] && popcount4 held ≤ m.poolFree (coreOf c))) &&
        (m.core (coreOf c)).mq.length + (SMap.get {} m.images key).retained.length ≤ 16

/-- A saved task whose accumulators the pool cannot grant yet stands in the order of its requests (07 R184, R192). -/
def Machine.awaitPool (m : Machine) (c li : Nat) : Machine :=
  match (m.launch li).bind fun l => if m.freeFor c l then l.nextSaved.map fun p => (savedKey li p.1, l.area p.1) else none with
  | none => m
  | some (key, area) =>
    let held := bits (m.pinnedNat (coreOf c) (area + 0x280 + 8 * 29) 8) 4 4
    if held = 0 ∨ (m.core (coreOf c)).wants.any (fun p => p.1 == 384 + key) then m
    else m.onCore (coreOf c) fun k => { k with wants := k.wants ++ [(384 + key, held)] }

/-- The pre-empted task of a launch with the lowest TI, resumed on a free context (R254; 11 R267). A task that its group's rollback awaits stays held (14 R304). One whose image is
not in pinned service pages there is killed (16 R337). -/
def Machine.resume (m : Machine) (c li : Nat) : Machine :=
  if !m.canResume c li then m.awaitPool c li
  else
    match m.launch li with
    | none => m
    | some l =>
      match l.nextSaved with
      | none => m
      | some p =>
        let n := coreOf c
        let key := savedKey li p.1
        let found := m.areaPinned n (l.area p.1) (2 ^ 19)
        let x := if found then m.readImage n (l.area p.1) key else SMap.get {} m.images key
        let m := ((m.moveFires (384 + key) c x.fires).movePriv (384 + key) c).setLaunch li { l with preempted := l.preempted.erase p }
        let m := m.setCtx c { x with st := .ready, hold := none, msgs := x.msgs.map (fun t => { t with parked := false }), img := p.1, launch := some li,
                                     retained := x.retained.map fun q => { q with clk := (m.core n).cycle.toNat } }
        let m := (m.cores.map (·.1)).foldl (fun m n => if (m.core n).wants = [] then m else m.onCore n fun k => { k with wants := k.wants.filter fun q => q.1 != 384 + key }) m
        let m := (m.onCore n fun k => k.dropLines fun _ => true).giveStores c |>.assignLatches li n
        let m := { m with images := SMap.set {} m.images key {} }
        if !found then (m.setCtx c (m.ctx c).kill) else
        if x.deferred.all fun k => k.lv != 0 || k.code == 0x3B then m.requeue c else m

def execResume (ctx launch : Nat) (s : State) : Out State := .next { s with m := s.m.resume ctx launch }

/-! ### Causes at a boundary -/

/-- The asynchronous causes in their order (R246). -/
def asyncOrder : List Nat := [0x3F, 0x3E, 0x35, 0x28, 0x33, 0x32, 0x3C]

/-- The cause that is due at a context's boundary before its next bundle (R246, R433): SERVICE_FAULT, then those delivered after the last bundle, then in
task code the asynchronous ones and the oldest INTERRUPT. Only a kill acts on a context in departure (15 R320). -/
inductive Due where
  | after (k : Cause)
  | async (k : Cause)
  | interrupt (i0 i1 : Nat)
  deriving DecidableEq, Repr

def Ctx.due (x : Ctx) : Option Due :=
  match x.async.find? fun k => k.code == 0x37 && x.st != .free && x.st != .retired with
  | some k => some (.async k)
  | none =>
  if x.dep.isSome then (x.async.find? fun k => k.code == 0x3F).map .async
  else match x.after.find? fun k => k.lv == x.depth with
  | some k => some (.after k)
  | none =>
    if x.depth ≠ 0 ∨ x.st = .free ∨ x.st = .bound ∨ x.st = .retired ∨ x.st = .checkpointed ∨ x.st = .preempted then none
    else
      match asyncOrder.findSome? fun code => x.async.find? fun k => k.code == code with
      | some k => some (.async k)
      | none => x.ints.head?.map fun p => .interrupt p.1 p.2

/-- The cause due at a boundary is taken (R245). -/
def Machine.takeDue (m : Machine) (c : Nat) : Machine :=
  let x := m.ctx c
  match x.due with
  | none => m
  | some (.after k) => (m.setCtx c { x with after := x.after.erase k }).takeCause c k x.pc
  | some (.interrupt i0 i1) => (m.setCtx c { x with ints := x.ints.drop 1 }).takeCause c { code := 0x36, kind := 2, i0, i1 } x.pc
  | some (.async k) =>
    let m := m.setCtx c { x with async := x.async.erase k }
    if k.code = 0x37 then m.setCtx c x.kill
    else if k.code = 0x3F then m.setCtx c { x.kill with async := [k] }
    else if k.code = 0x35 then (m.preemptNow c).getD (m.setCtx c { x with st := if x.st = .running then .ready else x.st })
    else m.takeCause c k x.pc

/-- A retired context takes the causes of its outstanding operations with RET = 1 and TRAPPC 0 (R253) (log 65, DEDUCED). -/
def Machine.takeRetired (m : Machine) (c : Nat) : Machine :=
  let x := m.ctx c
  if x.st ≠ .retired ∨ x.killed then m
  else
    match x.after with
    | k :: ks => (m.setCtx c { x with after := ks, pend := [] }).takeCause c k 0
    | [] =>
      match (x.oldestCause fun _ _ => true).or x.deferred.head? with
      | some k => ((m.markRaised c k).onCtx c fun x => { x with pend := [] }).takeCause c k 0
      | none => m

/-- The cause of the oldest transfer that a task retired with `end.nxt` issued: raised at the context's next bundle, of whatever level (08 R204). -/
def Ctx.pastFault (x : Ctx) : Option Cause :=
  (x.xfers.find? fun t => t.fault.isSome && !t.raised && !t.isFire && t.ti != x.ti).bind (·.fault)

/-- The deferred cause that is raised at the next bundle of a context (07 R191; 08 R204, R209): one of a privileged transfer only in service. -/
def Ctx.deferredNow (x : Ctx) : Option Cause :=
  (x.deferred.find? fun k => k.lv == 0 || x.depth != 0).orElse fun _ => x.pastFault

/-- It is raised before that bundle takes effect. -/
def Machine.takeDeferred (m : Machine) (c : Nat) (k : Cause) : Machine :=
  (m.markRaised c k).takeCause c k (m.ctx c).pc

/-- Results due at the end of a bundle land (R67): the event resultLanding, which the end of every bundle performs. -/
def execResultLanding (ctx : Nat) (s : State) : Out State := .next { s with m := s.m.onCtx ctx Ctx.landDue }

end Sys2Proof.Machine
end

