-- ==== Sys2Proof/Machine/Groups.lean ====
section
/-! DEFINITION. Groups.lean: checkpointed groups: arrival, commit, rollback and replay, and what a kill leads to (14_groups.md R301-R309; 10 R246, R253). -/

namespace Sys2Proof.Machine

/-! ### Records (R303) -/

def groupKey (m : Machine) (x : Nat) : Nat := grb m + 64 * x
/-- The record of a group (log 32, DESIGN CHOICE). -/
def Machine.groupRec (m : Machine) (x : Nat) : Nat := m.nat (groupKey m x) 64
def Machine.setGroupRec (m : Machine) (x lo w v : Nat) : Machine := m.setNat (groupKey m x) 64 (setBits (m.groupRec x) lo w v)
def grState (r : Nat) : Nat := bits r 0 4
def grPar (r : Nat) : Nat := bits r 4 1
def grCmd (r : Nat) : Nat := bits r 128 8
def grSpb (r : Nat) : Nat := bits r 384 64
def grLcs (r : Nat) : Nat := bits r 194 6
def grRbc (r : Nat) : Nat := bits r 208 16
def grSsn (r : Nat) : Nat := bits r 224 32
def grBar (r : Nat) : Nat := bits r 256 64
def grSpl (r : Nat) : Nat := bits r 356 28
def grCkb (r : Nat) : Nat := bits r 448 64

def Machine.group (m : Machine) (x : Nat) : Group := SMap.get {} m.groups x
def Machine.setGroup (m : Machine) (x : Nat) (g : Group) : Machine := { m with groups := SMap.set {} m.groups x g }

/-- The address of checkpoint slot `par` of an image index, in the space of the member's core (R305) (log 32, DESIGN CHOICE), and the number by which the part knows it. -/
def slotArea (r i par : Nat) : Nat := grCkb r + 2 ^ 20 * i + 2 ^ 19 * par
def slotKey (x i par : Nat) : Nat := 2 * (2 * (1024 * x + i) + par) + 1

/-- The record of the checkpointed group of a context's registers at context position `c`. -/
def ckOf (c : Nat) (x : Ctx) : Option Nat := (ckLevel (x.cr 0x03).toNat).map (groupRecord c (x.cr 0x03).toNat)

/-- The members of a group on this package: contexts, and pre-empted tasks as launch and place. -/
def Machine.members (m : Machine) (x : Nat) : List Nat :=
  (List.range 384).filter fun c =>
    let y := m.ctx c
    y.launch.isSome && y.st != .free && (y.st != .retired || y.killed) && ckOf c y == some x

def Machine.savedMembers (m : Machine) (x : Nat) : List (Nat × Nat) :=
  m.launches.flatMap fun p => match p.2 with
    | some l => (l.preempted.filter fun q => ckOf q.1 (SMap.get {} m.images (savedKey p.1 q.1)) == some x).map fun q => (p.1, q.1)
    | none => []

/-- The first member bound (R304): inactive to computing. -/
def Machine.openGroup (m : Machine) (c : Nat) : Machine :=
  match ckOf c (m.ctx c) with
  | some x => if grState (m.groupRec x) = 0 then m.setGroupRec x 0 4 1 else m
  | none => m

/-! ### Arrival and commit (R305, R306) -/

/-- A member's checkpoint at its arrival: the image of the state after departure, whose next bundle is at `next`; a member whose slot is not in pinned pages is killed (16 R337). -/
def Machine.checkpoint (m : Machine) (c : Nat) : Machine :=
  let x0 := m.ctx c
  match ckOf c x0, x0.dep with
  | some x, some d =>
    if !m.isGroupBar c d.key ∨ (grState (m.groupRec x) ≠ 1 ∧ grState (m.groupRec x) ≠ 2) then m
    else
      let m := m.drainMatrix c true
      let y := m.ctx c
      let r := m.groupRec x
      let z := { (y.put .s d.d.toNat d.gen) with dep := none, st := .checkpointed }
      match m.writeCheckpoint c (slotArea r y.img (1 - grPar r)) (slotKey x y.img (1 - grPar r)) z with
      | none => m.setCtx c y.kill
      | some m =>
      let m := m.setCtx c { y with st := .checkpointed, retained := y.retained.take (y.retained.length - ((m.core (coreOf c)).mq.filter fun q => q.ctx == c).length) }
      (m.setGroup x { m.group x with arrived := (m.group x).arrived ++ [y.img] }).setGroupRec x 0 4 2
  | _, _ => m

/-- The words of a staged line, in step: the version words of bound objects, or all the others (R306). A block of a coded region that the superstep stored whole
is encoded without its old state (R305; 09 R234); of one stored in part whose old state is reserved the storing context is told (17 R350) (log 73, DESIGN CHOICE). -/
def Machine.writeStaged (m : Machine) (l : Staged) (version : Bool) : Machine :=
  let isVer (i : Nat) : Bool := (m.objectIn l.x (l.line * 128 + 8 * i)).isSome
  match l.coded with
  | some cri =>
    if version then m
    else
      match if l.mask = 2 ^ 128 - 1 then some [] else codedLine m cri (l.line * 128) with
      | none => if l.ctx < 384 then m.async l.ctx { code := 0x33, i0 := l.va } else m
      | some [] => m.performPlain { ctx := l.ctx, key := l.line * 128, bytes := l.data, coded := some cri }
      | some old =>
        let new := (lineBytes old).zipIdx.map fun p => if bit l.mask p.2 then l.data.getD p.2 0 else p.1
        m.performPlain { ctx := l.ctx, key := l.line * 128, bytes := new, coded := some cri }
  | none =>
    (List.range 16).foldl (fun (m : Machine) i =>
      if bits l.mask (8 * i) 8 = 0 ∨ isVer i ≠ version then m
      else
        let key := l.line * 128 + 8 * i
        let new := (m.bytes key 8).zipIdx.map fun p => if bit l.mask (8 * i + p.2) then l.data.getD (8 * i + p.2) 0 else p.1
        m.performPlain { ctx := l.ctx, key, bytes := new }) m

/-- A member departs at a commit: its `bar` returns the generation and its copies are dropped (15 R319). -/
def Machine.departMember (m : Machine) (c : Nat) : Machine :=
  match (m.ctx c).dep with
  | some d => (m.dropCopies c d.sc.toNat d.key).onCtx c fun x => { (x.put .s d.d.toNat d.gen) with dep := none, st := .ready }
  | none => m

/-- The barrier object of a group (R303). -/
def Machine.barKey (m : Machine) (x : Nat) : Option Nat := (m.barKeys x).find? fun k => (m.objectIn x k).isSome

/-- A domain group with members on other packages (R301, R303). -/
def Machine.spansOut (m : Machine) (x : Nat) : Bool := 128 ≤ x && (m.groupPkgs x).any (· != selfPkg m)

/-- Every expected member has arrived: by the count of the barrier object, and of a group that spans packages the members on this one (R306) (log 49, DESIGN CHOICE). -/
def Machine.allArrived (m : Machine) (x : Nat) : Bool :=
  match (m.barKey x).bind (m.objectIn x) with
  | none => false
  | some o => if m.spansOut x then (m.members x).all (fun c => (m.ctx c).st == .checkpointed) && m.savedMembers x == [] else objArr o == objExp o

/-- Lines of memory change under the copies that the cores hold of them: the copies are dropped (09 R212, R228). -/
def Machine.dropEverywhere (m : Machine) (line : Nat) : Machine :=
  (m.cores.map (·.1)).foldl (fun m n => if SMap.get [] (m.core n).l1 line = [] then m else m.onCore n fun k => k.dropLines (· == line)) m

/-- The bytes of a staged line that are version words of bound objects. -/
def Machine.versionMask (m : Machine) (l : Staged) : Nat :=
  (List.range 16).foldl (fun a i => if l.coded.isNone && (m.objectIn l.x (l.line * 128 + 8 * i)).isSome then a + bits l.mask (8 * i) 8 * 2 ^ (8 * i) else a) 0

/-- The first step of a commit (R306): the decision, and every staged line but the version words written. -/
def Machine.commit (m : Machine) (x : Nat) : Machine :=
  if grState (m.groupRec x) ≠ 2 ∨ m.allArrived x = false then m
  else
    let mine := m.staged.filter fun l => l.x == x
    let kept := (mine.map fun l => { l with mask := m.versionMask l }).filter fun (l : Staged) => l.mask != 0
    let m := { m with staged := (m.staged.filter fun (l : Staged) => l.x != x) ++ kept }
    let m := mine.foldl (fun m l => (m.writeStaged l false).dropEverywhere l.line) m
    m.setGroupRec x 0 4 3

/-- The objects and bindings that a superstep has changed become everyone's (09 R236; 15 R311). -/
def Machine.commitObjects (m : Machine) (x : Nat) : Machine :=
  (m.group x).objs.foldl (fun m o => m.putObject none o.1 o.2.1 ((m.regions.filter fun r => r.1 != o.1) ++ o.2.2.map fun r => (o.1, r))) m

/-- The coordinates that the members of a group took from other cores' tables have gone with the commit (R308). -/
def Machine.keepStolen (m : Machine) (x : Nat) : Machine :=
  ((m.members x).filterMap fun c => (m.ctx c).launch.map fun li => (li, (m.ctx c).img)).foldl (fun m p => match m.launch p.1 with
    | some l => if l.stolen = [] then m else m.setLaunch p.1 { l with stolen := l.stolen.filter fun t => t.1 != p.2 }
    | none => m) m

/-- The later steps (R306): the version words, the objects that the superstep changed, the barrier object's new generation and version, the record; members depart. -/
def Machine.finishCommit (m : Machine) (x : Nat) : Machine :=
  let r := m.groupRec x
  if grState r ≠ 3 then m
  else
    let mine := m.staged.filter fun l => l.x == x
    let m := { m with staged := m.staged.filter fun l => l.x != x }
    let m := mine.foldl (fun m l => ((m.writeStaged l true).writeStaged l false).dropEverywhere l.line) m
    let m := m.commitObjects x
    let m := m.setGroup x { m.group x with objs := [] }
    let m := (match m.barKey x with
      | some k => match m.object k with
        | some o => (m.setObject k (setBits (setBits o 64 24 0) 0 64 (objGen o + 1))).setWord k ((m.word k + 1) % 2 ^ 64)
        | none => m
      | none => m).keepStolen x
    let m := (((((m.setGroupRec x 224 32 (grSsn r + 1)).setGroupRec x 4 1 (1 - grPar r)).setGroupRec x 208 16 0).setGroupRec x 328 28 0).setGroupRec x 0 4 1)
    let m := m.setGroup x { saved := (m.group x).arrived, late := (m.group x).late }
    ((m.members x).filter fun c => (m.ctx c).st == .checkpointed).foldl Machine.departMember m

/-! ### Rollback (R307) -/

/-- The started privileged transfers of a context, which stand first in their channels, run as far as they can (08 R209). -/
def Machine.runPriv (m : Machine) (c : Nat) : Machine :=
  (m.cores.map (·.1)).foldl (fun m n => [0, 1].foldl (fun m ch =>
    match (m.core n).priv.find? fun p => p.2.ch == ch with
    | some (d, t) => if d = c ∧ t.started ∧ t.fault.isNone then m.advancePriv n ch else m
    | none => m) m) m

/-- Started transfers and the running matrix command of a member run to completion, as far as they can. -/
def Machine.halt (m : Machine) (c : Nat) : Machine := ((m.runStarted c 4096 0).drainMatrix c false).runPriv c

/-- A started transfer of a member has still to complete: one that waits for a route or a line, and for no faulted one. -/
def Machine.halting (m : Machine) (c : Nat) : Bool :=
  let x := m.ctx c
  x.xfers.any (fun t => t.started && !x.stuck.contains t) || (m.privOf c).any fun t => t.started && t.fault.isNone

/-- Its requests to the pool and its privileged transfers that have not started, or are faulted, are dropped. -/
def Machine.dropRest (m : Machine) (c : Nat) : Machine :=
  (m.onCore (coreOf c) fun k => { k with wants := k.wants.filter fun p => p.1 != c }).onPriv (·.filter fun p => p.1 != c)

/-- What a group has staged, in lines, in store paths and of objects, is discarded (R307; 15 R313). -/
def Machine.discardStaged (m : Machine) (x : Nat) : Machine :=
  let m := (List.range 96).foldl (fun m n =>
    if (m.core n).path.any fun e => e.stage == some x then m.onCore n fun k => { k with path := k.path.filter fun e => e.stage != some x } else m) m
  { m with staged := m.staged.filter fun l => l.x != x }.setGroup x { m.group x with objs := [] }

/-- A word of the scratchpad lies in the tile of a descriptor. -/
def tileHolds (d u : Nat) : Bool :=
  u / 2 ^ 18 == tdG d && (List.range (tdRows d)).any fun r =>
    let o := tdOff d + r * tdPitch d
    decide (o ≤ 8 * (u % 2 ^ 18)) && decide (8 * (u % 2 ^ 18) < o + tdRowb d)

/-- What the tiles of a context hold is not specified (R308): free values (log 8, DESIGN CHOICE). -/
def Machine.blur (m : Machine) (c : Nat) : Machine :=
  let ds := (SMap.run 0 0 ((List.range 64).map fun i => (SMap.get 0 (m.ctx c).t i).toNat)).map (·.2)
  { m with fresh := m.fresh + 1 }.onCore (coreOf c) fun k =>
    { k with pad := SMap.setAll 0 k.pad ((Config.freeWords m.fresh).filter fun p => ds.any fun d => tileHolds d p.1) }

/-- A trigger of a rollback (R307): the members are halted, what is staged is discarded, and the first trigger is recorded. One that comes while a commit is under way
applies to the next superstep (R306), and one that comes while the group rolls back is absorbed. A started transfer that must wait completes before the members are restored, and what it
stages is discarded then. -/
def Machine.rollback (m : Machine) (x cause culprit : Nat) : Machine :=
  let r := m.groupRec x
  if grState r = 3 then m.setGroup x { m.group x with late := (m.group x).late.or (some (cause, culprit)) }
  else if grState r ≠ 1 ∧ grState r ≠ 2 then m
  else
    let live := m.members x
    let held := m.savedMembers x
    let m := (live.foldl Machine.halt m).onPriv (·.filter fun p => !(held.any fun h => p.1 == 384 + savedKey h.1 h.2))
    let m := m.discardStaged x
    let m := match m.barKey x with
      | some k => (m.object k).elim m fun o => m.setObject k (setBits o 64 24 0)
      | none => m
    let m := live.foldl (fun m c => m.onCtx c fun y => { y with st := .checkpointed, hold := none, dep := none }) m
    let m := (((m.setGroupRec x 328 28 0).setGroupRec x 194 6 cause).setGroupRec x 208 16 (grRbc r + 1)).setGroupRec x 0 4 4
    m.setGroup x { m.group x with arrived := [], culprit, late := none }

/-- The coordinates of a context's tile tasks and of its coordinate registers, and of the requests in flight. -/
def Ctx.tilesHeld (x : Ctx) : List Nat :=
  (if x.st = .retired then [] else [x.ti]) ++ x.tasks ++ ((List.range 4).map x.tcreg ++ x.nxt.filterMap (·.val)).filterMap fun w => if bit w.toNat 63 then none else some (bits w.toNat 40 23)

/-- The core's SCHEDPTR as the members' images restore it (R308; 11 R263): the coordinates read since are read again, those taken from other cores' tables go back to their ends, and the tiles
finished since are no longer counted. `saved` gives each image's SCHEDPTR and state. -/
def Machine.rewind (m : Machine) (n li : Nat) (saved : List (Nat × Ctx)) : Machine :=
  match m.launch li with
  | none => m
  | some l =>
    let base := l.stab + 65536 * (n % 12)
    let heads := saved.filterMap fun p => l.atPlace n ((p.1 - base) / 8)
    let h := min (l.head n) ((heads.max?).getD (l.head n))
    let back := ((l.table n).take (l.head n)).drop h
    let lives := m.ctxs.filterMap fun p => if p.2.launch = some li ∧ coreOf p.1 = n then some p.2 else none
    let mine (t : Nat × Nat × Word) : Bool := saved.any fun p => p.2.img == t.1
    let given := (l.stolen.filter mine).reverse.map (·.2)
    let again := ((back ++ given.map (·.2)).map fun w => bits w.toNat 40 23) ++ saved.flatMap fun p => p.2.tilesHeld
    let redone := again.eraseDups.filter fun t => !(lives.any fun x => x.tilesHeld.contains t)
    m.setLaunch li { l.setHead n h with coords := l.coords ++ given, stolen := l.stolen.filter fun t => !mine t, done := l.done - redone.length }

/-- A member restored in place: the pool grants it the accumulators of its checkpoint at once, or it stands as a pre-empted task until it can (R307; 10 R254; 07 R184). -/
def Machine.putBack (m : Machine) (c : Nat) (y : Ctx) : Machine :=
  let m := m.setCtx c { m.ctx c with accHeld := 0 }
  if y.accHeld = 0 ∨ (m.poolWants (coreOf c) = [] ∧ popcount4 y.accHeld ≤ m.poolFree (coreOf c)) then ((m.blur c).setCtx c y).blur c
  else
    match (m.ctx c).launch with
    | none => m
    | some li => match m.launch li with
      | none => m
      | some l => match (m.blur c).writePreempted (coreOf c) c li l { y with st := .preempted } with
        | some m => (m.setCtx c {}).setLaunch li { l with preempted := l.preempted ++ [(y.img, y.ti)] }
        | none => m.setCtx c y.kill

/-- The restore of a rollback (R307, R308): every member from slot PAR, and the group is held; or the group fails, where a member has no committed slot, its slot is not in
pinned service pages (16 R337; log 32, DESIGN CHOICE) or its package has not returned. It waits while a started transfer of a member runs. -/
def Machine.restore (m : Machine) (x : Nat) : Machine :=
  let r := m.groupRec x
  let live := m.members x
  if grState r ≠ 4 then m
  else if (live.foldl Machine.halt m |> fun m => live.any m.halting) then live.foldl Machine.halt m
  else
    let m := (live.foldl (fun m c => (m.halt c).dropRest c) m).discardStaged x
    let held := m.savedMembers x
    let g := m.group x
    let all := live.map (fun c => (m.ctx c).img) ++ held.map (·.2)
    let home (p : Nat × Nat) : Nat := ((m.launch p.1).bind (·.cores.head?)).getD 0
    let readable (n i : Nat) : Bool := m.areaPinned n (slotArea r i (grPar r)) (2 ^ 19)
    let lost := !all.all g.saved.contains || !live.all (fun c => readable (coreOf c) (m.ctx c).img) || !held.all (fun p => readable (home p) p.2) || (m.spansOut x && (m.groupPkgs x).any fun p => p != selfPkg m && routes m p == [])
    let m := m.setGroupRec x 0 4 (if lost then 6 else 5)
    if lost then
      (live.filterMap fun c => (m.ctx c).launch).foldl (fun m li => m.failLaunch li (grLcs r))
        (live.foldl (fun m c => m.onCtx c fun y => { y with st := if y.killed then .retired else .ready }) m)
    else
      let info : Cause := { code := 0x3E, kind := 2, i0 := grLcs r, i1 := some ((grSsn r + 1) % 2 ^ 32), i2 := g.culprit, i3 := some (grRbc r) }
      let key (i : Nat) : Nat := slotKey x i (grPar r)
      let area (i : Nat) : Nat := slotArea r i (grPar r)
      -- what a member has sent and received, and has still to, is not undone (19 R394)
      let fresh (m : Machine) (n i : Nat) (x : Ctx) : Ctx :=
        let y := (m.readImage n (area i) (key i)).setCr 0x15 ((SMap.get {} m.images (key i)).cr 0x15)
        { y with st := .checkpointed, img := i, async := y.async.filter (fun k => k.code != 0x3E) ++ [info], msgs := x.msgs, opSeq := max y.opSeq x.opSeq }
      let m := ((live.map coreOf).eraseDups).foldl (fun (m : Machine) n =>
        let mine := live.filter fun c => coreOf c == n
        ((mine.filterMap fun c => (m.ctx c).launch).eraseDups).foldl (fun m li =>
          m.rewind n li (mine.filterMap fun c => if (m.ctx c).launch = some li then some (m.pinnedNat n (area (m.ctx c).img + 0x280 + 8 * 9) 8, fresh m n (m.ctx c).img (m.ctx c)) else none)) m) m
      let m := live.foldl (fun m c => m.putBack c (fresh m (coreOf c) (m.ctx c).img (m.ctx c))) m
      held.foldl (fun m p => match m.launch p.1 with
        | some l => (m.writePreempted (home p) p.2 p.1 l { fresh m (home p) p.2 (SMap.get {} m.images (savedKey p.1 p.2)) with st := .preempted }).getD (m.failLaunch p.1 0x37)
        | none => m) m

/-- A commit decision that was taken, and a trigger that came meanwhile (R306). -/
def Machine.endCommit (m : Machine) (x : Nat) : Machine :=
  let m := m.finishCommit x
  match (m.group x).late with
  | some t => m.rollback x t.1 t.2
  | none => m

/-- The commit decision, and once it is taken and every member package has written its lines, the rest of the commit (log 49, DESIGN CHOICE). -/
def execCommitDecision (x : Nat) (s : State) : Out State :=
  .next { s with m := if grState (s.m.groupRec x) = 3 then s.m.endCommit x else s.m.commit x }

def execRollbackTrigger (x : Nat) (cause : BitVec 6) (pkg ctx : Nat) (s : State) : Out State :=
  .next { s with m := s.m.rollback x cause.toNat (pkg * 512 + ctx) }

/-! ### Commands (R303, R304, R308) -/

/-- CMD = 0x01: the members become ready, with ROLLBACK pending since the restore. -/
def Machine.replay (m : Machine) (x : Nat) : Machine :=
  let r := m.groupRec x
  if grCmd r ≠ 1 ∨ grState r ≠ 5 then m
  else
    ((m.members x).foldl (fun m c => if (m.ctx c).st = .checkpointed then (m.onCtx c fun y => { y with st := .ready }).requeue c else m)
      (m.setGroupRec x 0 4 1)).setGroupRec x 128 8 0

def execGroupCmdReplay (x : Nat) (s : State) : Out State := .next { s with m := s.m.replay x }

/-- CMD = 0x02: a rollback that no member caused; the spec gives its LCS no code, so it is a free value (log 5, DESIGN CHOICE). -/
def Machine.cmdRollback (m : Machine) (x : Nat) : Machine :=
  if grCmd (m.groupRec x) ≠ 2 ∨ (grState (m.groupRec x) ≠ 1 ∧ grState (m.groupRec x) ≠ 2) then m
  else
    let f := m.free
    (f.1.rollback x (f.2.toNat % 64) (2 ^ 64 - 1)).setGroupRec x 128 8 0

def execGroupCmdRollback (x : Nat) (s : State) : Out State := .next { s with m := s.m.cmdRollback x }

/-- CMD = 0x03: the group fails, holding nothing staged, and so do the launches of its members (R260) (log 47, DEDUCED). One written while a commit is under way acts after it (R306),
and one written while members are restored, after that (R304). -/
def Machine.cmdFail (m : Machine) (x : Nat) : Machine :=
  let r := m.groupRec x
  if grCmd r ≠ 3 ∨ (grState r ≠ 1 ∧ grState r ≠ 2 ∧ grState r ≠ 5) then m
  else
    let live := m.members x
    let m := ((m.discardStaged x).setGroupRec x 0 4 6).setGroupRec x 128 8 0
    let ls := (live.filterMap fun c => (m.ctx c).launch) ++ (m.savedMembers x).map (·.1)
    let m := live.foldl (fun m c => m.onCtx c fun y => if y.st = .checkpointed then { y with st := .ready, dep := none } else y) m
    ls.foldl (fun m li => m.failLaunch li (grLcs r)) m

def execGroupCmdFail (x : Nat) (s : State) : Out State := .next { s with m := s.m.cmdFail x }

/-- Any other command: the part writes 0xFF and does nothing. -/
def Machine.cmdInvalid (m : Machine) (x : Nat) : Machine :=
  let c := grCmd (m.groupRec x)
  if c < 4 ∨ c = 0xFF then m else m.setGroupRec x 128 8 0xFF

def execGroupCmdInvalid (x : Nat) (s : State) : Out State := .next { s with m := s.m.cmdInvalid x }

/-- A failed group's record rewritten while no member is bound (R304): inactive. -/
def Machine.rewriteRecord (m : Machine) (x : Nat) : Machine :=
  if grState (m.groupRec x) = 6 ∧ m.members x = [] then (m.setGroup x {}).setGroupRec x 0 4 0 else m

/-- Rianami's store to a record has been performed. -/
def execGroupRecordRewrite (x : Nat) (s : State) : Out State :=
  match s.m.watch.find? fun p => groupWord s.m p.1 && (p.1 - grb s.m) / 64 == x with
  | some p => .next { s with m := { s.m with watch := s.m.watch.erase p }.rewriteRecord x }
  | none => .next s

/-! ### What follows a cause -/

/-- The checkpointed group of a context is a domain group that spans a package (R387). -/
def Machine.spansPkg (m : Machine) (c pkg : Nat) : Bool := match m.ckGroup c with
  | some (x, lvl) => 4 ≤ lvl && (m.groupPkgs x).contains pkg
  | none => false

/-- A killed context rolls its group back, or fails its launch (10 R253; 11 R260); ECC_UNCORRECTED in a checkpointed group is replaced by rollback (R307), and so are CXL_ERROR (16 R343) and LINK_DOWN for a package that the group spans (19 R387). -/
def Machine.settle (m : Machine) (c : Nat) : Machine :=
  let y := m.ctx c
  let open_ := match ckOf c y with
    | some x => let st := grState (m.groupRec x); if st = 1 ∨ st = 2 ∨ st = 3 then some x else none
    | none => none
  let culprit := selfPkg m * 512 + c
  if y.killed then
    let code := if y.async.any fun k => k.code == 0x3F then 0x3F else 0x37
    match open_, y.launch with
    | some x, _ => m.rollback x code culprit
    | none, some li => m.failLaunch li code
    | none, none => m
  else if y.depth ≠ 0 ∧ ((y.cr 0x10).toNat % 64 = 0x33 ∨ (y.cr 0x10).toNat % 64 = 0x31 ∨ ((y.cr 0x10).toNat % 64 = 0x32 ∧ m.spansPkg c (y.cr 0x11).toNat = true)) then
    match open_ with
    | some x => m.rollback x ((y.cr 0x10).toNat % 64) culprit
    | none => m
  else m

/-- A cause waits at the boundary of a context that is not running a bundle: the event trapEntry. -/
def Machine.trapEntry (m : Machine) (c : Nat) : Machine :=
  let x := m.ctx c
  (if x.st = .retired then m.takeRetired c
   else if x.due.isSome then m.takeDue c
   else match x.hold, x.deferredNow with
     | some _, some k => m.takeDeferred c k
     | _, _ => m).settle c

def execTrapEntry (ctx : Nat) (s : State) : Out State := .next { s with m := if s.turn = .none then s.m.trapEntry ctx else s.m }

end Sys2Proof.Machine
end

