-- ==== Sys2Proof/Machine/Queues.lean ====
section
/-! DEFINITION. Queues.lean: launch queues, binding, coordinates at work, selection and holds, and the progress guarantee (11_queues_and_scheduling.md R257-R270; 10 R240-R242; 12 R271, R272, R288, R291). -/

namespace Sys2Proof.Machine

/-! ### Queue descriptors (R257) -/

def qHead (d : Nat) : Nat := bits d 448 64
def qTail (d : Nat) : Nat := bits d 384 64
def qRing (d : Nat) : Nat := bits d 320 64
def qImg (d : Nat) : Nat := bits d 256 64
def qRlog (d : Nat) : Nat := bits d 28 4
def qState (d : Nat) : Nat := bits d 24 3
def qPe (d : Nat) : Bool := bit d 23
def qEn (d : Nat) : Bool := bit d 22
def qLane (d : Nat) : Nat := bits d 20 2
def qLevel (d : Nat) : Nat := bits d 16 4
def qCtxs (d : Nat) : Nat := bits d 12 4
def qCores (d : Nat) : Nat := bits d 0 12

/-- The cores of a queue's partition. -/
def coresOf (q d : Nat) : List Nat := ((List.range 12).filter (bit (qCores d))).map (12 * (q / 16) + ·)


/-- The checks of a control word at a signal (R258; 21 R410). -/
def queueOk (m : Machine) (q d : Nat) : Bool :=
  let cs := coresOf q d
  bits d 38 2 == 0 && !bit d 27 && qRlog d ≤ 12 && qState d ≤ 4 && qCores d != 0 && qCtxs d != 0 &&
    cs.all (fun n => selector m n == selector m (cs.headD 0)) && !cs.any (isRcore m)

/-- The walk of a queue's graph. -/
def Machine.walkOf (m : Machine) (q : Nat) : Option Walk := SMap.get none m.walks q
def Machine.setWalk (m : Machine) (q : Nat) (w : Option Walk) : Machine := { m with walks := SMap.set none m.walks q w }

/-- The launches of a queue that are issued and not complete, but failed ones that no context runs any more (R259, R260). -/
def Machine.liveLaunches (m : Machine) (q : Nat) : List (Nat × Launch) :=
  m.launches.filterMap fun p => match p.2 with
    | some l => if l.queue = q ∧ l.complete = false ∧ !(l.failed && !m.ctxs.any fun c => c.2.launch == some p.1) then some (p.1, l) else none
    | none => none

/-- STATE follows the launches (R259). -/
def Machine.refreshQueue (m : Machine) (q : Nat) : Machine :=
  let d := m.queueDesc q
  if qState d = 0 ∨ qState d = 4 then m
  else
    let ls := m.liveLaunches q
    let st := if ls.any (·.2.bound) then 3 else if ls = [] ∧ (m.walkOf q).isNone ∧ qHead d = qTail d then 1 else 2
    if qState d = st then m else m.setQueue q 24 3 st

/-! ### Doorbells -/

/-- The oldest store to one watched word, wherever it stands among the others. -/
def Machine.takeWatch (m : Machine) (key : Nat) : Option (Machine × Word) :=
  match m.watch.find? fun p => p.1 == key with
  | some p => some ({ m with watch := m.watch.erase p }, p.2)
  | none => none

/-- The Parser reads the control word at a signal (R258, R259): a bad one fails the queue, whatever EN and STATE are (log 57, DEDUCED). -/
def Machine.signal (m : Machine) (q : Nat) : Machine :=
  let d := m.queueDesc q
  if !m.locked then m
  else if !queueOk m q d then m.failQueue q 0x03 0
  else if !qEn d ∨ qState d = 4 then m
  else
    let m := if qState d = 0 then m.setQueue q 24 3 1 else m
    let d := m.queueDesc q
    if qState d = 1 ∧ qHead d ≠ qTail d then m.setQueue q 24 3 2 else m

def execQueueDoorbell (q : Nat) (s : State) : Out State :=
  match s.m.takeWatch (queueKey s.m q + 48) with
  | some (m, _) => .next { s with m := m.signal q }
  | none => .next s

/-- The local entries of a queue's graph leave the table (12 R291). -/
def Machine.dropLocals (m : Machine) (q : Nat) : Machine :=
  { m with handles := m.handles.filter fun p => p.1 / 2 ^ 16 != q + 1 }

/-- Rianami has cleared EN while the queue is idle or failed (R259). -/
def Machine.disable (m : Machine) (q : Nat) : Machine :=
  let d := m.queueDesc q
  if qEn d ∨ (qState d ≠ 1 ∧ qState d ≠ 4) then m
  else ((m.dropLocals q).setWalk q none).setQueue q 24 3 0

def execQueueDisable (q : Nat) (s : State) : Out State := .next { s with m := s.m.disable q }

/-! ### What the Parser reads (R258) -/

/-- A translation in the queue's space, as the Parser makes it: the walk of a core of the partition. Code 0 says that the access waits for a route (19 R387). -/
def Machine.parserSite (m : Machine) (q va : Nat) (a : Acc) : Except Nat Phys :=
  let n := (coresOf q (m.queueDesc q)).headD 0
  match m.walkFor n va (a == .store || a == .rmw) with
  | (h, none) => .error (if h = 2 then 0x3B else if h = 1 then hostCause a false else a.transCause)
  | (h, some (e, _)) =>
    let pa := e.pa va
    let p : Phys := { key := physKey e.leaf pa, cri := if leafCD e.leaf then some (leafCRI e.leaf) else none, leaf := e.leaf }
    if !a.granted e.leaf ∨ leafCAP e.leaf then .error (if h = 1 then hostCause a true else a.permCause)
    else if leafTier e.leaf = 2 ∧ ((m.parser (n / 12)).cxlBad ∨ (m.hdmAt p.key).isNone) then .error 0x31
    else if leafCD e.leaf ∧ !codedOk m p.key (leafCRI e.leaf) pa then .error 0x20
    else if !damperAllows m p.key then .error 0x3B
    else match m.farCheck va 1 a p.key with
      | .ok _ => .ok p
      | .error (.trap k) => .error k.code
      | .error (.hold _) => .error 0

/-- `n` bytes that the Parser reads at home, line by line. -/
def Machine.parserRead (m : Machine) (q va n : Nat) : Nat → Except Nat (List Byte)
  | 0 => .ok []
  | fuel + 1 =>
    if n = 0 then .ok []
    else do
      let len := min n (128 - va % 128)
      let p ← m.parserSite q va .load
      let bs ← m.homeRead p len
      let rest ← Machine.parserRead m q (va + len) (n - len) fuel
      .ok (bs ++ rest)

/-- Bytes that the Parser writes, line by line, with the flags of coded lines, which elements of FP64 alone may enter (17 R358): `dbl`. -/
def Machine.parserWrite (m : Machine) (q va : Nat) (bs : List Byte) (fuel : Nat) (dbl : Bool := false) : Except Nat (Machine × Nat) :=
  match fuel with
  | 0 => .ok (m, 0)
  | fuel + 1 =>
    if bs = [] then .ok (m, 0)
    else do
      let len := min bs.length (128 - va % 128)
      let p ← m.parserSite q va .store
      let r ← match p.cri with
        | none => Except.ok (m.performPlain { ctx := 384, key := p.key, bytes := bs.take len }, 0)
        | some cri =>
          if !dbl then .error 0x20
          else match if len = 128 then some [] else codedLine m cri p.key with
          | none => .error 0x33
          | some old =>
            let o := p.key % 128
            let ob := lineBytes old
            codedStore m cri p.key (lineWords (ob.take o ++ bs.take len ++ ob.drop (o + len)))
      let t ← Machine.parserWrite r.1 q (va + len) (bs.drop len) fuel dbl
      .ok (t.1, r.2 ||| t.2)

def Machine.parserNat (m : Machine) (q va n : Nat) : Except Nat Nat := (m.parserRead q va n (n / 128 + 2)).map leNat

/-! ### Taking a ring entry (12 R271-R273) -/

/-- The package header is well formed (12 R272). -/
def packageOk (h : Nat) : Bool :=
  let size := bits h 448 64
  let fits (o n : Nat) : Bool := o + n ≤ size
  bits h 0 32 == 0x444E4E4C && bits h 32 32 == 0x00010000 && bits h 64 64 == 0 && bits h 224 32 == 0 && bits h 320 16 == 0 &&
    bits h 416 32 % 16 == 0 && bits h 384 32 % 16 == 0 && bits h 352 32 % 64 == 0 && bits h 336 16 ≤ 3840 && bits h 192 32 ≤ 64 &&
    fits (bits h 416 32) (bits h 384 32) && fits (bits h 352 32) (64 * bits h 336 16) && (bits h 288 32 == 0 || fits (bits h 288 32) 512) &&
    fits (bits h 256 32) (8 * bits h 192 32) && 128 ≤ size

/-- Local entries that the graphs of a die hold (12 R273). -/
def Machine.localsUsed (m : Machine) (die : Nat) : Nat :=
  ((List.range 16).map fun i => ((m.walkOf (16 * die + i)).map (·.nh)).getD 0).sum

/-- The 4-byte STATUS word of a ring entry (12 R271), or why it cannot be written: 0 for a wait. -/
def Machine.writeStatus (m : Machine) (q slot flg : Nat) : Except Nat Machine :=
  (m.parserWrite q (qRing (m.queueDesc q) + 32 * slot + 8) (leBytes 4 (2 ^ 31 + flg % 32 * 2 ^ 26)) 2).map (·.1)

/-- A graph starts: its local handles and shape registers (12 R273, R276). -/
def Machine.startGraph (m : Machine) (q slot e : Nat) : Except Nat Machine := do
  let pkg := bits e 128 64
  let h ← m.parserNat q pkg 128
  if !packageOk h ∨ bits e 96 32 % 16 ≠ 0 then .error 0x03
  else
    let nh := bits h 336 16
    let hs ← m.parserRead q (pkg + bits h 352 32) (64 * nh) (nh + 2)
    let ds ← if bits h 288 32 = 0 then Except.ok [] else m.parserRead q (pkg + bits h 288 32) 512 8
    let dregs : List (Nat × Word) := ((List.range 64).drop 1).map fun i => (i, .ofNat 64 (leNat ((ds.drop (8 * i)).take 8)))
    let w : Walk := { slot, pkg, args := bits e 192 64, tag := bits e 0 56, coff := bits h 416 32, clen := bits h 384 32, xoff := bits h 256 32, nx := bits h 192 32,
                      nh, pos := bits e 96 32, dreg := SMap.setAll 0 [] dregs }
    let keys : List (Nat × Handle) := (List.range nh).map fun j => (2 ^ 16 * (q + 1) + 256 + j, { desc := .ofNat 512 (leNat ((hs.drop (64 * j)).take 64)), declared := true })
    .ok ({ m with handles := SMap.setAll {} m.handles keys }.setWalk q (some w))

/-- The next ring entry is taken (12 R271), once the graph before it has completed. -/
def Machine.takeEntry (m : Machine) (q : Nat) : Machine :=
  let d := m.queueDesc q
  if !m.locked ∨ (qState d ≠ 2 ∧ qState d ≠ 3) ∨ qHead d = qTail d ∨ (m.walkOf q).isSome ∨ m.liveLaunches q ≠ [] then m
  else
    let slot := qHead d % 2 ^ (qRlog d + 4)
    match m.parserNat q (qRing d + 32 * slot) 32 with
    | .error k => if k = 0 then m else m.failQueue q k 0
    | .ok e =>
      let took := m.setQueue q 448 64 (qHead d + 1)
      if bits e 64 26 ≠ 0 ∨ (bits e 56 8 ≠ 1 ∧ bits e 56 8 ≠ 2) then took.failQueue q 0x03 0
      else if bits e 56 8 = 2 then
        match (took.irq (0x200 + q) (bits e 0 56)).writeStatus q slot 0 with
        | .ok m' => m'.refreshQueue q
        | .error k => if k = 0 then m else took.failQueue q k 0
      else
        match took.startGraph q slot e with
        | .error k => if k = 0 then m else took.failQueue q k 0
        | .ok m' =>
          if 3840 < m'.localsUsed (q / 16) then m else m'.refreshQueue q

def execRingEntryTake (q : Nat) (s : State) : Out State := .next { s with m := s.m.takeEntry q }

/-- The barrier has committed the last supersteps of a launch's checkpointed groups (12 R290). -/
def Machine.committed (m : Machine) (li : Nat) : Bool :=
  match m.launch li with
  | some b => b.open_.all fun g => let r := m.groupRec g.1; g.2 ≤ grSsn r || grState r == 0 || grState r == 6
  | none => true

/-- A handle is read outside its graph at a domain scope or a wider one (12 R274: SCOPE, R291). -/
def Machine.farHandle (m : Machine) (k : Nat) : Bool := 4 ≤ bits (SMap.get {} m.handles k).desc.toNat 12 3

/-- Every write of a graph to such a handle is performed: nothing of its launches waits for a group's commit (12 R291). -/
def Machine.graphPerformed (m : Machine) (w : Walk) : Bool :=
  w.launches.all fun li => m.committed li || !((m.launch li).any fun l => l.writes.any m.farHandle)

/-- A graph completes (12 R291): its `end` has issued, every launch has completed, and what others read of it is performed. -/
def Machine.finishGraph (m : Machine) (q : Nat) : Machine :=
  match m.walkOf q with
  | some w =>
    if !w.ended ∨ qState (m.queueDesc q) = 4 ∨ m.liveLaunches q ≠ [] ∨ m.graphPerformed w = false then m
    else
      let flg := w.launches.foldl (fun f li => f ||| ((m.launch li).map (·.flg)).getD 0) w.flg
      match m.writeStatus q w.slot flg with
      | .ok m' => ((m'.dropLocals q).setWalk q none).refreshQueue q
      | .error k => if k = 0 then m else m.failQueue q k w.pos
  | none => m

def execGraphComplete (q : Nat) (s : State) : Out State := .next { s with m := s.m.finishGraph q }

/-- The Parser of the queue's die turns to its next operator (R259). -/
def execOperatorIssue (q : Nat) (s : State) : Out State :=
  let d := s.m.queueDesc q
  match s.m.walkOf q with
  | some w =>
    if s.turn ≠ .none ∨ 128 ≤ q ∨ w.ended = true ∨ (qState d ≠ 2 ∧ qState d ≠ 3) then .next s
    else
      match (SMap.get {} s.m.parsers (q / 16)).exp with
      | some e => .next (if e.queue = q then { s with turn := .micro (q / 16) } else s)
      | none => .next { s with turn := .graph q }
  | none => .next s

/-! ### Binding (R267; 10 R241) -/

def Launch.pfb (l : Launch) (i : Nat) : Nat := bits l.lrec (512 + 64 * i) 64
def Launch.pfl (l : Launch) (i : Nat) : Nat := bits l.lrec (768 + 64 * i) 64
def Launch.pct (l : Launch) : Bool := bit l.lrec 1094
def Launch.fmtv (l : Launch) : Nat := bits l.lrec 1239 6

/-- What a context receives at binding; its first coordinate lands like any other (R265), and it stays bound until its fills are complete (10 R240). -/
def Launch.newCtx (l : Launch) (li c : Nat) (q : CoordReq) : Ctx :=
  let w := q.val.getD 0
  let csrs := [(0x20, l.prio), (0x21, l.tidbase), (0x22, l.kbase), (0x03, bits l.lrec 1024 64), (0x16, l.svcbase), (0x17, l.sstk + 4096 * l.ssz * (c + 1)),
      (0x50, bits l.lrec 1344 64), (0x51, bits l.lrec 1280 64), (0x02, l.fmtv)] ++ (List.range 4).flatMap fun i => [(0x40 + i, l.pfb i), (0x44 + i, l.pfl i)]
  let x : Ctx := csrs.foldl (fun x p => x.setCr p.1 (.ofNat 64 p.2)) {}
  { x with st := .bound, pc := .ofNat 64 l.entry, fmt := .ofNat 64 l.fmtv, lm := .ofNat 4 l.lm, launch := some li, queue := some l.queue, img := c,
           ti := bits w.toNat 40 23, stage0 := true, filled := false, nxt := [q] }

/-- The fills of R171, R59, R82 and R208. -/
def Machine.fills (m : Machine) (c : Nat) : Res Machine := do
  match (m.ctx c).launch.bind m.launch with
  | none => .ok m
  | some l =>
    let (m, es) ← m.fillRange c l.tidbase 32768 260
    let (m, cs) ← m.fillRange c (l.tidbase + 0x8020) 480 6
    let (d, k) := if l.pct then (l.tidbase + 0xA000 + 0x1000 * (coreOf c % 12) + 1024 * (c % 4), l.tidbase + 0x16000 + 32 * (coreOf c % 12) + 8 * (c % 4))
      else (l.tidbase + 0x8200 + 1024 * (c % 4), l.tidbase + 0x9200 + 8 * (c % 4))
    let (m, ts) ← m.fillRange c d 1024 10
    let (m, df) ← m.fillRange c k 8 2
    let (m, sc) ← m.fillRange c l.csch (32 * l.scnt) 70
    let m ← m.fillKonst c l.kbase
    let ent (i : Nat) : Nat := let e := leNat ((es.drop (128 * i)).take 128); if entOk e then e else setBits e 75 1 0
    let def_ := leNat df
    .ok (m.onCtx c fun x => { x with
      tid := SMap.setAll 0 [] ((List.range 256).map fun i => (i, .ofNat 1024 (ent i)))
      cb := SMap.setAll 0 [] ((List.range 15).map fun i => (i + 1, .ofNat 256 (leNat ((cs.drop (32 * i)).take 32))))
      t := SMap.setAll 0 [] (((List.range 64).filter (bit def_)).map fun i => (i, .ofNat 128 (leNat ((ts.drop (16 * i)).take 16))))
      tDef := .ofNat 64 def_
      sched := (List.range l.scnt).map fun i => leNat ((sc.drop (32 * i)).take 32)
      filled := true })

/-- The fills of a bound context are tried: they complete, a fault is raised at its first bundle, or they wait for a route and the context stays bound (10 R240). -/
def Machine.fillOrTrap (m : Machine) (c : Nat) : Machine :=
  if (m.ctx c).st ≠ .bound ∨ (m.ctx c).filled = true then m
  else
    match m.fills c with
    | .ok m => m.onCtx c Ctx.bindDone
    | .error (.trap k) => (m.takeCause c k (m.ctx c).pc).settle c
    | .error (.hold h) => m.lostRoute c h


/-- A free context bound to a launch with a request that has been served. -/
def Machine.bindCtx (m : Machine) (c li : Nat) (l : Launch) (q : CoordReq) : Machine :=
  let m := match SMap.get none m.launches li with
    | some b => { m with launches := SMap.set none m.launches li (some { b with bound := true }) }
    | none => m
  ((((m.assignLatches li (coreOf c)).setCtx c (l.newCtx li c q)).fillOrTrap c).openGroup c)

/-- Granules that no launch holds on a core in a bank group (13 R298). -/
def Machine.granuleFree (m : Machine) (n g i : Nat) : Bool :=
  !m.launches.any fun p => match p.2 with
    | some l => l.granules.any fun r => r.1 == n && r.2.1 == g && r.2.2.1 ≤ i && i < r.2.2.1 + r.2.2.2
    | none => false

/-- The granules of a launch on one core: positions in ascending order, their `bind` words in word order, first fit; and the descriptors' offsets. -/
def Machine.grantCore (m : Machine) (l : Launch) (n : Nat) : Option (List (Nat × Nat × Nat × Nat) × List (Nat × BindRec × Nat)) :=
  ((List.range 4).filter (bit l.ctxs)).foldlM (fun acc j =>
    l.binds.foldlM (fun (acc : List (Nat × Nat × Nat × Nat) × List (Nat × BindRec × Nat)) b =>
      let need := ceilDiv (b.rows * b.rowb) 4096
      let taken (i : Nat) : Bool := acc.1.any fun r => r.2.1 == b.g && r.2.2.1 ≤ i && i < r.2.2.1 + r.2.2.2
      let ok (i : Nat) : Bool := (List.range need).all fun k => m.granuleFree n b.g (i + k) && !taken (i + k)
      match (List.range (513 - need)).find? ok with
      | some i => some (acc.1 ++ [(n, b.g, i, need)], acc.2 ++ [(j, b, i)])
      | none => none) acc) ([], [])

/-- The descriptor of a granted tile (13 R296, R298; 07 R175). -/
def BindRec.desc (b : BindRec) (first : Nat) : Nat :=
  pack [(0, first * 4096), (42, b.rowb), (74, b.rowb), (96, b.rows), (118, b.g), (120, b.tid)]

/-- A launch's grants on a core, with the descriptor page written (13 R298). -/
def Machine.grant (m : Machine) (li n : Nat) : Option Machine :=
  match m.launch li with
  | none => none
  | some l =>
    if l.binds = [] ∨ l.granules.any (fun r => r.1 == n) then some m
    else
      match m.grantCore l n with
      | none => none
      | some (gs, ds) =>
        let m := m.setLaunch li { l with granules := l.granules ++ gs }
        let m := ds.foldl (fun m d => m.setNat (l.tidbase + 0xA000 + 0x1000 * (n % 12) + 1024 * d.1 + 16 * d.2.1.t) 16 (d.2.1.desc d.2.2)) m
        some ((List.range 4).foldl (fun m j =>
          m.setWord (l.tidbase + 0x16000 + 32 * (n % 12) + 8 * j) (((ds.filter fun d => d.1 == j).map fun d => 2 ^ d.2.1.t).sum)) m)

/-- A launch waits for nothing that it depends on (12 R290). -/
def Machine.depsMet (m : Machine) (l : Launch) : Bool :=
  (l.after.all fun a => match m.launch a with
    | some b => b.complete
    | none => true) && l.commits.all m.committed

/-- Launches that take contexts: not complete, not failed, with their dependences met, and with a task left to start. -/
def Machine.hungry (m : Machine) (l : Launch) : Bool :=
  !l.complete && !l.failed && m.depsMet l && (l.preempted != [] || l.cores.any (fun n => l.unread n != []))

/-- The rank of a launch, lower first (R268). -/
def Launch.rank (l : Launch) : Nat := l.prio / 16 % 4 * 2 ^ 16 + (15 - l.prio % 16) * 2 ^ 8 + l.queue

/-- A higher-ranked launch wants the context. -/
def Machine.outranked (m : Machine) (li c : Nat) (l : Launch) : Bool :=
  m.launches.any fun p => match p.2 with
    | some b => p.1 != li && (b.rank < l.rank || (b.rank == l.rank && p.1 < li)) && b.cores.contains (coreOf c) && bit b.ctxs (c % 4) && m.hungry b
    | none => false

/-- The contexts of a launch's partition. -/
def Launch.places (l : Launch) : List Nat := l.cores.flatMap fun n => ((List.range 4).filter (bit l.ctxs)).map (4 * n + ·)

/-- What stands for a root in the ranges of a launch that reads a gathered operand from its buffer (13 R299). -/
def gatherRoot : Nat := 2 ^ 40

/-- The copies that a reader's partition drops: those of the ranges of the roots that an operator has written (12 R290) (log 61, DEDUCED). -/
def Machine.dropReads (m : Machine) (l : Launch) : Machine :=
  let rs := (l.ranges.filter fun r => r.1 == gatherRoot || (SMap.get {} m.handles r.1).written).map (·.2)
  if rs = [] then m else l.cores.foldl (fun m n => m.dropSpans n true (rs.map fun r => (spaceBase m n + r.1, r.2))) m

/-- A WID code that FMT assigns (02 R39). -/
def widOk (wid : Nat) : Bool := wid ≤ 4

/-- A launch record keeps the limits of R261, and its DMR those of 14 R301. -/
def Launch.recordOk (l : Launch) : Bool :=
  let r := l.lrec
  bits r 1408 640 == 0 && bits r 1245 35 == 0 && bits r 1095 57 == 0 && bits r 480 32 == 0 && bits r 464 4 == 0 && 1 ≤ l.ntile && 1 ≤ l.ssz &&
    l.scnt ≤ 256 && l.csch % 32 == 0 && l.sstk % 4096 == 0 && l.entry % 4 == 0 && widOk (bits l.fmtv 0 3) && dmrOk 0 (bits r 1024 64 ||| 1) false

/-- A launch starts (R260; 09 R220; 15 R312): its record is checked, its `.sob` images are written to the objects that are not bound, and its `.region`
bindings are made in order, as by `sbind` from the launch's home die. A refusal gives the cause with which the launch fails. -/
def Machine.startLaunch (m : Machine) (li : Nat) (l : Launch) : Res Machine := do
  check l.recordOk 0x38 0
  let n := l.cores.headD 0
  let d := SMap.get {} m.decls l.entry
  let b : Binder := { core := n, die := l.queue / 16, dmr := bits l.lrec 1024 64 ||| 1 }
  let m ← d.sobs.foldlM (fun (m : Machine) s => m.writeSob n s.1 s.2) m
  let m ← d.regions.foldlM (fun (m : Machine) r => m.bindRegion b r.2.2.1 r.2.2.2 r.1 r.2.1) m
  .ok (m.setLaunch li { l with started := true })

/-- One free context is given its pre-empted task or its coordinate (R267); granules are granted only with a coordinate (13 R298), and the first binding starts the launch. -/
def Machine.bindPlace (m : Machine) (li c : Nat) : Machine :=
  match m.launch li with
  | none => m
  | some l =>
    if (m.ctx c).st ≠ .free ∨ isRcore m (coreOf c) = true ∨ m.outranked li c l = true ∨ m.hungry l = false ∨ m.asking (coreOf c) = true then m
    else if l.preempted ≠ [] then m.resume c li
    else
      match (if l.started then .ok m else (m.dropReads l).startLaunch li l) with
      | .error (.trap k) => m.failLaunch li k.code
      | .error (.hold _) => m
      | .ok m1 =>
        match m1.grant li (coreOf c) with
        | none => m1
        | some m2 =>
          let r := (m2.setCtx c { launch := some li }).request c
          match r.2, r.1.launch li with
          | some p, some l => if bit p.1.toNat 63 then m1 else r.1.bindCtx c li l (m1.served (coreOf c) 0 p)
          | _, _ => m1

/-- A task and its context into a list of descending TI. -/
def insertTask (p : Nat × Nat) : List (Nat × Nat) → List (Nat × Nat)
  | [] => [p]
  | q :: qs => if q.1 < p.1 then p :: q :: qs else q :: insertTask p qs

/-- A launch that waits for contexts pre-empts lower-ranked ones if its queue may (R268) (log 58, DEDUCED). -/
def Machine.preemptFor (m : Machine) (li : Nat) (l : Launch) : Machine :=
  if !qPe (m.queueDesc l.queue) ∨ m.hungry l = false ∨ l.places.any (fun c => (m.ctx c).launch == some li) then m
  else
    let unread := (l.cores.map fun n => (l.unread n).length).sum
    let lower := l.places.filterMap fun c => match (m.ctx c).launch.bind m.launch with
      | some b => if l.rank < b.rank ∧ (m.ctx c).st ≠ .retired then some ((m.ctx c).ti, c) else none
      | none => none
    ((lower.foldl (fun a p => insertTask p a) []).take unread).foldl (fun m p => m.preempt p.2) m

/-- Binding of a launch (R267), then the pre-emptions it may ask for (R268). -/
def Machine.bindLaunch (m : Machine) (li : Nat) : Machine :=
  match m.launch li with
  | none => m
  | some l =>
    if m.hungry l = false then m
    else
      let m := l.places.foldl (fun m c => m.bindPlace li c) m
      match m.launch li with
      | some l => (m.preemptFor li l).refreshQueue l.queue
      | none => m

/-! ### Completion of tiles and operators (R266) -/

/-- An operation of a tile task is not complete. -/
def Machine.taskBusy (m : Machine) (c ti : Nat) (x : Ctx) : Bool :=
  x.stores != [] || x.xfers.any (fun t => t.ti == ti) || x.kvops.any (fun t => t.ti == ti) || x.msgs.any (fun t => t.ti == ti) || x.fires.any (fun t => t.ti == ti) ||
    x.lq.any (fun q => q.ti == ti && q.st != .resolved) ||
    x.retained.any (fun q => q.ti == ti) || (c < 384 && ((m.commands c).any (fun q => q.ti == ti) || (m.core (coreOf c)).path.any fun e => e.ctx == c))

/-- Nothing of a retired context is left: no operation, no cause, no service (R240). A killed one raises no cause any more, so its faulted operations are over (10 R253). -/
def Machine.ctxIdle (m : Machine) (c : Nat) : Bool :=
  let x := m.ctx c
  let spent (f : Option Cause) : Bool := x.killed && f.isSome
  x.st == .retired && (x.killed || x.tasks == []) && x.xfers.all (fun t => spent t.fault) && x.kvops.all (fun t => spent t.fault) &&
    x.msgs.all (fun t => spent t.fault) && x.fires.all (fun t => spent t.fault) && (m.commands c).all (fun q => x.killed && x.retained.contains q) && x.deferred == [] && x.after == [] &&
    !((m.core (coreOf c)).path.any fun e => e.ctx == c) && x.intl == [] && m.cores.all fun k => k.2.priv.all fun p => p.1 != c || spent p.2.fault

/-- A retired context whose last operation has completed is freed (R240); its connections close (19 R389), and the granules of its core return with the last context of the launch there (13 R298). -/
def Machine.release (m : Machine) (c : Nat) : Machine :=
  let x := m.ctx c
  if !m.ctxIdle c then m
  else
    let m := ((m.closeAll c).onPriv (·.filter fun p => p.1 != c)).setCtx c {}
    match x.launch with
    | none => m
    | some li =>
      match m.launch li with
      | none => m
      | some l =>
        let n := coreOf c
        if (List.range 4).any fun j => (m.ctx (4 * n + j)).launch == some li then m
        else m.setLaunch li { l with granules := l.granules.filter fun g => g.1 != n }

/-- The areas of an `epilog` merged into D in ascending TI, with the flags: the tree of 06 R161 (13 R296). -/
def Machine.mergeAreas (m : Machine) (l : Launch) (area size dst : Nat) : Machine × Nat :=
  (List.range (size / 24)).foldl (fun (a : Machine × Nat) g =>
    let t := mergeTree ((List.range l.ntile).map fun i => some (.ofNat (a.1.nat (area + i * size + 24 * g) 24)))
    match a.1.parserWrite l.queue (dst + 24 * g) (leBytes 24 t.1.written.toNat) 3 with
    | .ok r => (r.1, a.2 ||| t.2)
    | .error _ => (a.1, a.2 ||| t.2)) (m, 0)

/-- TLEN of the root entry of a completed `kvappend` (18 R378). -/
def Machine.raiseTlen (m : Machine) (l : Launch) : Machine :=
  match l.tlen with
  | none => m
  | some (a, n) =>
    match m.parserNat l.queue a 32 with
    | .error _ => m
    | .ok r => match m.parserWrite l.queue a (leBytes 32 (setBits r 128 24 (max (bits r 128 24) n))) 2 with
      | .ok r => r.1
      | .error _ => m

/-- An operator completes: its areas are merged (13 R296), its handles become idle (12 R290), and its heap returns. -/
def Machine.completeLaunch (m : Machine) (li : Nat) (l : Launch) : Machine :=
  let r : Machine × Nat := l.merge.foldl (fun a p => let r := a.1.mergeAreas l p.1 p.2.1 p.2.2; (r.1, a.2 ||| r.2)) (m.raiseTlen l, 0)
  let m := { r.1 with handles := r.1.handles.map fun (p : Nat × Handle) => (p.1, { p.2 with readers := p.2.readers.erase li, writer := if p.2.writer = some li then none else p.2.writer }) }
  let die := l.queue / 16
  let p : Parser := SMap.get {} m.parsers die
  let m := { m with parsers := SMap.set {} m.parsers die { p with heap := p.heap.filter fun h => !l.heap.contains h } }
  let m := match m.launch li with
    | some l => m.setLaunch li { l with complete := true, heap := [], flg := l.flg ||| r.2 }
    | none => m
  m.refreshQueue l.queue

/-- A tile is counted done once every operation of its task has completed (R266); the last one completes the operator. -/
def Machine.countTile (m : Machine) (li ti : Nat) : Machine :=
  match m.launch li with
  | none => m
  | some l =>
    let live := (List.range 384).find? fun c => (m.ctx c).launch == some li && (m.ctx c).tasks.contains ti && !m.taskBusy c ti (m.ctx c)
    let saved := l.preempted.find? fun p => let x := SMap.get {} m.images (savedKey li p.1); x.tasks.contains ti && !m.taskBusy 384 ti x
    let count (m : Machine) : Machine :=
      match m.launch li with
      | some l =>
        let l := { l with done := l.done + 1 }
        let m := m.setLaunch li l
        if l.done = l.ntile then m.completeLaunch li l else m
      | none => m
    match live, saved with
    | some c, _ => (count (m.onCtx c fun x => { x with tasks := x.tasks.erase ti })).release c
    | none, some p =>
      let key := savedKey li p.1
      let x := SMap.get {} m.images key
      count { m with images := SMap.set {} m.images key { x with tasks := x.tasks.erase ti } }
    | none, none => m

/-! ### Holds that clear (04 R85; 10 R240) -/

/-- After every step too, whatever wrote memory in it (15 R317, R322). -/
def noted (o : Out State) : Out State := match o with
  | .next s => .next { s with m := s.m.noteWaits }
  | o => o

/-- The condition that a held bundle waits for has come about (log 50, DESIGN CHOICE). -/
def Machine.holdCleared (m : Machine) (c : Nat) : Hold → Bool
  | .count n cls => m.classesDone c n cls || ((m.ctx c).oldestCause fun k _ => bit cls k).isSome
  | .watermark n ch => n < (m.ctx c).xwm ch || ((m.ctx c).oldestCause fun k i => k == ch && i ≤ n).isSome
  | .fence cls _ => m.fenceDone c cls || m.causesOf c Xfer.writesMem != []
  | .version key b => (m.ctx c).seen.isSome || (m.holdMeets c (.version key b)).isSome
  | .word key mask cond b => (m.ctx c).seen.isSome || (m.holdMeets c (.word key mask cond b)).isSome
  | .regions obj sc arrives => match if arrives then m.barReady c obj sc else m.releaseReady c obj sc with
    | .ok _ => true
    | .error (.trap _) => true
    | .error (.hold _) => false
  | .alloc rec => let r := m.nat (allocRecord m rec) 64; (!recDry r || recRfn r != 0) && (recNever r || m.allocTurn c rec)
  | .coord => (m.ctx c).tcreg 1 != tcEmpty
  | .interlock => (m.ctx c).intl == []
  | .entry => match (m.ctx c).lq with
    | q :: _ => q.st == .resolved
    | [] => true
  | .busy => true
  | .grant mask =>
    let n := coreOf c
    ((m.poolWants n).takeWhile fun p => p.1 != c) == [] && popcount4 (.ofNat 4 mask &&& ~~~(m.ctx c).accHeld) ≤ m.poolFree n
  | .tileOp va len => !m.tileOver c true va len
  | .conn r => !(m.ctx c).connBusy r
  | .closed inst => !crOpen (collRec m inst)
  | .route pkg => routes m pkg != []
  | .stage x line => m.canStage x line

/-- A hold clears: the context is ready again, or goes on in service. -/
def Machine.unhold (m : Machine) (c : Nat) : Machine :=
  match (m.ctx c).hold with
  | none => m
  | some h =>
    if !m.holdCleared c h then m
    else m.onCtx c fun x => { x with hold := none, waitHeld := 0, st := if x.st = .switched then .ready else x.st,
                                     told := match h with
                                       | .stage _ _ => x.told.filter (· < 512)
                                       | _ => x.told }

def execHoldRelease (ctx : Nat) (s : State) : Out State := .next { s with m := s.m.unhold ctx }

/-! ### Forward progress (R270) -/

/-- An unread coordinate taken out of whichever table holds it. -/
def Launch.takeCoord (l : Launch) (n : Nat) (w : Word) : Launch :=
  let t := l.table n
  let h := l.head n
  { l with coords := (l.coords.filter fun p => p.1 != n) ++ (t.take h ++ (t.drop h).erase w).map fun v => (n, v) }

/-- The lowest task that a launch has not started, if it lies below `i`: a pre-empted one, or a coordinate and its core. -/
def Launch.lowest (l : Launch) (i : Nat) : Option (Nat × Option (Nat × Word)) :=
  let ps := (l.preempted.map fun p => (p.2, none)) ++ l.cores.flatMap fun n => (l.unread n).map fun w => (bits w.toNat 40 23, some (n, w))
  match (ps.map (·.1)).min? with
  | some t => if t < i then ps.find? fun p => p.1 == t else none
  | none => none

/-- The lowest such task is started on a free context of the partition, the first on which it can be resumed or its granules granted. -/
def Machine.startLowest (m : Machine) (li : Nat) (l : Launch) (t : Nat × Option (Nat × Word)) : Option Machine :=
  (l.places.filter fun c => (m.ctx c).st == .free).findSome? fun c =>
    match t.2 with
    | none => if m.canResume c li then some (m.resume c li) else none
    | some (n, w) =>
      match m.grant li (coreOf c) with
      | none => none
      | some m => match m.launch li with
        | some l =>
          let l := l.takeCoord n w
          some ((m.setLaunch li l).bindCtx c li l (m.served (coreOf c) 0 (w, 24)))
        | none => none

/-- R270 for a task held in `waitf`: the lowest task below it starts, and if no context is free the highest one held in `waitf` makes room. -/
def Machine.progressFor (m : Machine) (c : Nat) : Machine :=
  let x := m.ctx c
  match x.hold, x.launch with
  | some (.word _ _ _ _), some li =>
    match m.launch li with
    | none => m
    | some l =>
      match l.lowest x.ti with
      | none => m
      | some t =>
        match m.startLowest li l t with
        | some m => m
        | none =>
          let held := l.places.filter fun d => (m.ctx d).launch == some li && match (m.ctx d).hold with
            | some (.word _ _ _ _) => true
            | _ => false
          match (held.map fun d => (m.ctx d).ti).max? with
          | none => m
          | some hi =>
            match held.find? fun d => (m.ctx d).ti == hi with
            | none => m
            | some d =>
              let m := m.preempt d
              match m.launch li with
              | some l => (m.startLowest li l t).getD m
              | none => m
  | _, _ => m

def execProgressPreempt (ctx : Nat) (s : State) : Out State := .next { s with m := if s.turn = .none then s.m.progressFor ctx else s.m }

/-! ### Selection (R269; 10 R242) -/

/-- A context that may issue: ready, or in service, with nothing that holds it. -/
def Ctx.canIssue (x : Ctx) : Bool := (x.st == .ready || x.st == .inService) && x.hold.isNone && x.dep.isNone

/-- The limit of a lane (R269). -/
def agingLimitOf (lane : Nat) : Option Nat := if lane = 1 then some 256 else if lane = 2 then some 1024 else if lane = 3 then some 4096 else none

def Ctx.lane (x : Ctx) : Nat := bits (x.cr 0x20).toNat 4 2

/-- The context is at its limit. -/
def Ctx.aged (x : Ctx) : Bool := match agingLimitOf x.lane with
  | some n => n ≤ x.aging
  | none => false

/-- Load-queue entries of a context are performed again after a return: nothing issues before they have been (10 R252), but for those behind a tile store that is not complete (05 R153). -/
def Machine.redoing (m : Machine) (c : Nat) : Bool :=
  let x := m.ctx c
  x.depth == 0 && match x.lq.find? fun q => q.again && q.st != .resolved with
    | some q => !(List.range 128).any fun g => bit q.lanes g && m.tileOver c false (q.addrs.getD g 0) (szBytes q.sz)
    | none => false

/-- The contexts of a core that may issue, in rotation after the one that issued last. -/
def Machine.ready (m : Machine) (n : Nat) : List Nat :=
  ((List.range 4).map fun i => 4 * n + ((m.core n).last + 1 + i) % 4).filter fun c => (m.ctx c).canIssue && !m.redoing c

/-- The context that a core chooses (R242, R269): those at their limits first, in ascending number, else the lowest lane in rotation (log 3, DESIGN CHOICE). -/
def Machine.choose (m : Machine) (n : Nat) : Option Nat :=
  let rs := m.ready n
  match (rs.filter fun c => (m.ctx c).aged).min? with
  | some c => some c
  | none =>
    match (rs.map fun c => (m.ctx c).lane).min? with
    | some lane => rs.find? fun c => (m.ctx c).lane == lane
    | none => none

/-- Coordinates due by a core's clock land (04 R97). -/
def Machine.landDue (m : Machine) (n : Nat) : Machine :=
  let now := (m.core n).cycle.toNat
  (List.range 4).foldl (fun m j =>
    let d := 4 * n + j
    (m.ctx d).nxt.foldl (fun m q => if q.val.isSome && q.due.toNat ≤ now then m.landCoord d q.reg else m) m) m

/-- The clocks for which a task may be held in `waitf` before one below it has issued (R270). -/
def waitLimit : Nat := 65536

/-- One clock of a core that chose context `c`: it runs, and those held in `waitf` count; halfway to the limit of R270 the lowest task below one of them is started at the latest (log 92, DESIGN CHOICE). -/
def Machine.clock (m : Machine) (n c : Nat) : Machine :=
  let m := (List.range 4).foldl (fun m j =>
    let d := 4 * n + j
    let x := m.ctx d
    if d = c then m.setCtx d { x with st := if x.st = .ready then .running else x.st }
    else match x.hold with
      | some (.word _ _ _ _) => m.setCtx d { x with waitHeld := x.waitHeld + 1 }
      | _ => m) m
  let m := (m.onCore n fun k => { k with cycle := k.cycle + 1 }).landDue n
  (List.range 4).foldl (fun m j => if (m.ctx (4 * n + j)).waitHeld ≥ waitLimit / 2 then m.progressFor (4 * n + j) else m) m

/-- A bundle's turn is given to a context. -/
def State.giveTurn (s : State) (n c : Nat) : State := { s with m := s.m.clock n c, turn := .bundle c }

def execIssueSelect (core : Nat) (s : State) : Out State :=
  if s.turn ≠ .none ∨ 96 ≤ core ∨ s.m.expired = true ∨ s.m.boot = .halted then .next s
  else
    match s.m.choose core with
    | some c => .next (s.giveTurn core c)
    | none => .next s

/-- A context at its limit issues ahead of those that are not (R269). -/
def execAgingLimit (ctx : Nat) (s : State) : Out State :=
  if s.turn ≠ .none ∨ 384 ≤ ctx ∨ s.m.expired = true ∨ (s.m.ctx ctx).aged = false ∨ s.m.choose (coreOf ctx) ≠ some ctx then .next s
  else .next (s.giveTurn (coreOf ctx) ctx)

/-! ### Posts of INTERRUPT (10 R421) -/

/-- A store to a post word is acted on: the context's cause, unless it is free or retired. -/
def execInterruptPost (ctx : Nat) (v : Word) (s : State) : Out State :=
  match s.m.takeWatch (pcb s.m (dieOf ctx) + 0x100 + 8 * (ctx % 48)) with
  | some (m, w) =>
    if w ≠ v then .next s
    else
      let x := m.ctx ctx
      .next { s with m := if x.st = .free ∨ x.st = .retired then m else m.post ctx (0x3000 + v.toNat % 256) v.toNat }
  | none => .next s

end Sys2Proof.Machine
end

