-- ==== Sys2Proof/Machine/Tensor.lean ====
section
/-! DEFINITION. Tensor.lean: tensor handles as the Parser resolves them, their elements in memory, and the dependences of operators (12_kernels_bytecode.md R273-R276, R281, R282, R287, R290; 02 R26, R47, R48). -/

namespace Sys2Proof.Machine

/-- What the Parser computes, or the cause for which the queue fails (R280). -/
abbrev PRes (α : Type) := Except Nat α

def pcheck (ok : Bool) (cause : Nat) : PRes Unit := if ok then .ok () else .error cause

/-- HANDLE_FAULT, SHAPE_FAULT, MICROCODE_FAULT and RESERVED_FIELD as FCAUSE (10 R256). -/
def handleFault : Nat := 0x39
def shapeFault : Nat := 0x3A
def microFault : Nat := 0x38
def reservedFault : Nat := 0x03

/-! ### Handles (R273-R276) -/

/-- The table entry of a handle number: the die's shared one, or the queue's local one. -/
def handleKey (q num : Nat) : Nat := if num < 256 then 4096 * (q / 16) + num else 2 ^ 16 * (q + 1) + num

/-- An entry of the handle table (log 43, DESIGN CHOICE). -/
def Machine.handle (m : Machine) (k : Nat) : Handle := SMap.get {} m.handles k
def Machine.setHandle (m : Machine) (k : Nat) (h : Handle) : Machine := { m with handles := SMap.set {} m.handles k h }

/-- Rianami has written a word of a shared handle's descriptor: the entry is declared once RANK is not zero (R273, R290). -/
def Machine.declareShared (m : Machine) (key : Nat) : Machine :=
  match m.takeWatch key with
  | none => m
  | some (m, _) =>
    let o := key - sharedTable m 0
    let k := 4096 * (o / 0x4000) + o % 0x4000 / 64
    let d : BitVec 512 := .ofNat 512 (m.nat (key - o % 64) 64)
    if o % 0x4000 / 64 = 0 then m else m.setHandle k { m.handle k with desc := d, declared := bits d.toNat 4 4 != 0 }

/-- Fields of a descriptor (R274). -/
def hBase (d : Nat) : Nat := bits d 448 64
def hScale (d : Nat) : Nat := bits d 384 64
def hExt (d i : Nat) : Nat := bits d (256 + 16 * i) 16
def hRoot (d : Nat) : Nat := bits d 232 12
def hArg (d : Nat) : Nat := bits d 224 8
def hSax (d : Nat) : Nat := bits d 220 4
def hSn (d : Nat) : Nat := bits d 211 9
def hSlv (d : Nat) : Nat := bits d 208 3
def hSix (d : Nat) : Nat := bits d 199 9
def hSgn (d : Nat) : Nat := bits d 144 8
def hFuse (d : Nat) : Nat := bits d 128 16
def hNf (d : Nat) : Nat := bits d 24 6
def hLay (d : Nat) : Nat := bits d 20 4
def hTr (d : Nat) : Bool := bit d 19
def hRo (d : Nat) : Bool := bit d 18
def hKind (d : Nat) : Nat := bits d 16 2
def hCb (d : Nat) : Nat := bits d 8 4
def hRank (d : Nat) : Nat := bits d 4 4
def hFmt (d : Nat) : Nat := bits d 0 4

/-- What R274 asks of a descriptor: a handle is sharded when SAX names an axis (log 81, DEDUCED). -/
def descOk (d : Nat) : Bool :=
  bits d 244 12 == 0 && bits d 152 47 == 0 && bits d 30 98 == 0 && !bit d 15 && hLay d ≤ 2 && hKind d ≤ 1 && 1 ≤ hRank d && hRank d ≤ 8 && hFmt d ≤ 11 &&
    (hSax d ≤ 7 || hSax d == 15) && 1 ≤ hSn d && hSn d ≤ 432 && hSix d < hSn d &&
    (if hSax d = 15 then hSn d == 1 && hSlv d == 0 && hSgn d == 0 else 4 ≤ hSlv d && hSlv d ≤ 6) && (hFmt d != 9 || widOk (bits (hNf d) 0 3)) && (hCb d == 0 || hFmt d == 10) &&
    (hScale d == 0 || [4, 5, 8, 9, 10].contains (hFmt d)) &&
    (List.range 8).all (fun i => !bit (hExt d i) 15 || bits (hExt d i) 6 9 == 0) &&
    (hLay d != 1 || (hFmt d == 0 && 2 ≤ hRank d)) && (hKind d == 1 || hLay d != 2)

/-- A handle with its extents and base resolved at the issue of an operator (R276), and the range of its root. A KV table has no elements (R275). -/
structure Tensor where
  key : Nat
  root : Nat
  desc : Nat
  base : Nat
  ext : List Nat
  cb : List Nat := []
  range : Nat × Nat := (0, 0)
  deriving DecidableEq, Repr

def Tensor.fmt (t : Tensor) : Nat := hFmt t.desc
def Tensor.nf (t : Tensor) : NFmt := .ofFmt (hNf t.desc)
def Tensor.count (t : Tensor) : Nat := t.ext.foldl (· * ·) 1
def Tensor.width (t : Tensor) : Nat := if t.fmt = 11 then 192 else codeWidth t.nf t.fmt
def Tensor.bytes (t : Tensor) : Nat := ceilDiv (t.count * t.width) 8
def Tensor.scaled (t : Tensor) : Bool := hScale t.desc != 0

/-- A shape register; $d0 reads as zero (R276). -/
def Walk.reg (w : Walk) (i : Nat) : Word := if i = 0 then 0 else SMap.get 0 w.dreg i
def Walk.setReg (w : Walk) (i : Nat) (v : Word) : Walk := if i = 0 then w else { w with dreg := SMap.set 0 w.dreg i v }

/-- An extent resolved now (R276). -/
def Walk.extent (w : Walk) (d i : Nat) : PRes Nat := do
  let f := hExt d i
  let v := if bit f 15 then (w.reg (f % 64)).toInt else (f : Int)
  pcheck (1 ≤ v && v < 2 ^ 24) shapeFault
  .ok v.toNat

/-- The codebook table that a CB4 handle names (R281; 13 R294). -/
def Machine.dieTable (m : Machine) (die t : Nat) : List Nat := if t = 0 then table0 else tableCodes (m.nat (pcb m die + 0x400 + 32 * t) 32)

/-- The descriptor of a declared handle, its place in the table, and a shard axis that it has (R273, R274, R280). -/
def Machine.descOf (m : Machine) (q : Nat) (w : Walk) (num : Nat) : PRes (Nat × Nat) := do
  let key := handleKey q num
  let h := m.handle key
  pcheck (num != 0 && h.declared && (num < 256 || num < 256 + w.nh)) handleFault
  let d := h.desc.toNat
  pcheck (descOk d) handleFault
  pcheck (hSax d == 15 || hSax d < hRank d) shapeFault
  .ok (key, d)

/-- The handle at the root of a descriptor, by its place in the table. -/
def rootKey (q key d : Nat) : Nat := if hRoot d = 0 then key else handleKey q (hRoot d)

/-- A declared handle resolved, without its place in its root. -/
def Machine.resolve (m : Machine) (q : Nat) (w : Walk) (num : Nat) : PRes Tensor := do
  let (key, d) ← m.descOf q w num
  let ext ← if hKind d = 1 then Except.ok [] else (List.range (hRank d)).mapM (w.extent d)
  pcheck (hScale d == 0 || ext.headD 0 % 32 == 0) handleFault
  pcheck (hLay d != 1 || (ext.getD 0 0 % 4 == 0 && ext.getD 1 0 % 4 == 0)) handleFault
  let base ← if hArg d = 0xFF then Except.ok (hBase d) else m.parserNat q (w.args + 8 * hArg d) 8
  .ok { key, root := rootKey q key d, desc := d, base, ext, cb := if hFmt d = 10 then m.dieTable (q / 16) (hCb d) else [] }

/-- The handle that an operand names (R280): a view lies within its root, and a transient handle has a fuse group (R287). -/
def Machine.tensor (m : Machine) (q : Nat) (w : Walk) (num : Nat) : PRes Tensor := do
  let t ← m.resolve q w num
  pcheck (!hTr t.desc || hFuse t.desc != 0) handleFault
  if t.root = t.key then .ok { t with range := (t.base, t.bytes) }
  else
    let r ← m.resolve q w (hRoot t.desc)
    pcheck (hKind t.desc == 1 || (r.base ≤ t.base && 8 * t.base + t.count * t.width ≤ 8 * r.base + r.count * r.width)) handleFault
    .ok { t with range := (r.base, r.bytes) }

/-- A tensor of KIND 0. -/
def Machine.plain (m : Machine) (q : Nat) (w : Walk) (num : Nat) : PRes Tensor := do
  let t ← m.tensor q w num
  pcheck (hKind t.desc == 0) handleFault
  .ok t

/-- A tensor that an operator writes. -/
def Machine.target (m : Machine) (q : Nat) (w : Walk) (num : Nat) : PRes Tensor := do
  let t ← m.plain q w num
  pcheck (!hRo t.desc) handleFault
  .ok t

/-- The operands of an operator that accesses a transient handle are of one fuse group (R287) (log 82, DEDUCED). -/
def fuseGroup (ts : List Tensor) : PRes Unit :=
  let gs := (ts.map fun t => hFuse t.desc).filter (· != 0)
  pcheck (!(ts.any fun t => hTr t.desc) || gs.all (· == gs.headD 0)) handleFault

/-- The narrow format that an operator's `.n` operands agree in (R281). -/
def agreeNf (ts : List Tensor) : PRes NFmt := do
  let ns := (ts.filter fun t => t.fmt == 9).map fun t => hNf t.desc
  pcheck (ns.all (· == ns.headD 0)) handleFault
  .ok (.ofFmt (ns.headD 0x0C))

/-! ### Elements (R275; 02 R26, R47) -/

/-- The coordinates of the e-th element in logical order, and the reverse. -/
def coords : List Nat → Nat → List Nat
  | [], _ => []
  | n :: ns, e => e % n :: coords ns (e / n)

def linear : List Nat → List Nat → Nat
  | n :: ns, i :: is => i + n * linear ns is
  | _, _ => 0

/-- The element position of the e-th element (R275). -/
def Tensor.pos (t : Tensor) (e : Nat) : Nat :=
  if hLay t.desc ≠ 1 then e
  else
    match coords t.ext e, t.ext with
    | i :: j :: is, n :: k :: ns => 16 * linear (n / 4 :: k / 4 :: ns) (i / 4 :: j / 4 :: is) + 4 * (j % 4) + i % 4
    | _, _ => e

/-- Bits of a byte string. -/
def bitsOf (bs : List Byte) (off w : Nat) : Nat := bits (leNat ((bs.drop (off / 8)).take ((off % 8 + w + 7) / 8))) (off % 8) w

/-- Codes in the order of their element positions. -/
def Tensor.placed (t : Tensor) (xs : List Nat) : List Nat :=
  if hLay t.desc ≠ 1 then xs
  else ((List.range xs.length).foldl (fun (a : SMap Nat) e => SMap.set 0 a (t.pos e) (xs.getD e 0)) []) |> fun a => (List.range xs.length).map (SMap.get 0 a)

/-- The codes of a tensor in logical order. A transient handle is read from the table (R287). -/
def Machine.readCodes (m : Machine) (q : Nat) (t : Tensor) : PRes (List Nat) := do
  if hTr t.desc then
    let h := m.handle t.key
    pcheck (h.codes.length == t.count) handleFault
    .ok h.codes
  else
    let bs ← m.parserRead q t.base t.bytes (t.bytes / 128 + 2)
    .ok ((List.range t.count).map fun e => bitsOf bs (t.width * t.pos e) t.width)

/-- The scale bytes of a scaled tensor. -/
def Machine.readScales (m : Machine) (q : Nat) (t : Tensor) : PRes (List Nat) := do
  if !t.scaled then .ok []
  else if hTr t.desc then .ok (m.handle t.key).scales
  else
    let bs ← m.parserRead q (hScale t.desc) (t.count / 32) (t.count / 4096 + 2)
    .ok (bs.map (·.toNat))

/-- Codes packed into bytes over those that stand there (02 R26). -/
def packCodes (w : Nat) (xs : List Nat) (old : List Byte) : List Byte :=
  if w % 8 = 0 then xs.flatMap (leBytes (w / 8))
  else
    let n := w * xs.length
    let v := (xs.zipIdx).foldl (fun a p => a + p.1 * 2 ^ (w * p.2)) 0
    leBytes old.length (v + leNat old / 2 ^ n * 2 ^ n)

/-- The Parser itself is the last writer of a root (R290). -/
def Machine.wrote (m : Machine) (k : Nat) : Machine := m.setHandle k { m.handle k with last := none, written := true }

/-- A tensor written whole, in logical order, with the flags of coded lines. -/
def Machine.writeCodes (m : Machine) (q : Nat) (t : Tensor) (xs scales : List Nat) : PRes (Machine × Nat) := do
  let m := m.wrote t.root
  if hTr t.desc then .ok (m.setHandle t.key { m.handle t.key with codes := xs, scales }, 0)
  else
    let old ← if t.width % 8 = 0 then Except.ok [] else m.parserRead q t.base t.bytes (t.bytes / 128 + 2)
    let r ← m.parserWrite q t.base (packCodes t.width (t.placed xs) old) (t.bytes / 128 + 2) (t.fmt == 0)
    if !t.scaled then .ok r
    else
      let s ← r.1.parserWrite q (hScale t.desc) (scales.map (.ofNat 8)) (t.count / 4096 + 2)
      .ok (s.1, r.2 ||| s.2)

/-! ### Values -/

/-- A source element as the operators see it: its value, and for a NaN its FP64 code (02 R30). -/
abbrev RVal := Val × Nat

/-- The value of a code with its scale; the reserved narrow code under SUB = 0b11 is FORMAT_REG (02 R41). -/
def realOf (nf : NFmt) (tbl : List Nat) (fmt : Nat) (sc : Option Nat) (x : Nat) : PRes RVal :=
  match elemVal {} nf tbl fmt x with
  | none => .error 0x19
  | some v =>
    let nan := if sc = some 255 then Fp.d.canonNan else match v, fpOfCode fmt with
      | .nan .., some f => nanConvert f .d x
      | .nan neg _, none => Fp.d.sign neg Fp.d.canonNan
      | _, _ => Fp.d.canonNan
    .ok (scaledVal sc v, nan)

/-- The values of a tensor in logical order. -/
def Machine.readVals (m : Machine) (q : Nat) (t : Tensor) : PRes (List RVal) := do
  let xs ← m.readCodes q t
  let ss ← m.readScales q t
  xs.zipIdx.mapM fun p => realOf t.nf t.cb t.fmt (if t.scaled then some (ss.getD (p.2 / 32) 0) else none) p.1

/-- An FP64 code as a value. -/
def realOf64 (x : Nat) : RVal := (Fp.d.unpack x, Fp.d.quiet x)

/-- The FP64 code of a source value, rounded under RNE where it is not exact. -/
def RVal.code64 (v : RVal) : FRes := match v.1 with
  | .nan _ sig => (v.2, if sig then fNV else 0)
  | x => Fp.d.ofVal {} false x

/-- An operation on values: the NaN rule of 02 R30, then the function. -/
def liftNan (xs : List RVal) (f : Val × Nat) : RVal × Nat :=
  match xs.find? fun x => x.1.isNan with
  | some x => ((.nan false false, x.2), if xs.any fun y => y.1.isSnan then fNV else 0)
  | none => ((f.1, Fp.d.canonNan), f.2)

/-- A result as an element of a format, rounded once (R281). -/
def elemOf (env : FEnv) (nf : NFmt) (tbl : List Nat) (fmt : Nat) (sc : Option Nat) (v : RVal) : FRes :=
  match v.1, fpOfCode fmt with
  | .nan _ sig, some f => (nanConvert .d f v.2, if sig then fNV else 0)
  | x, _ => valToElem env nf tbl fmt (unscaledVal sc x)

/-- A whole result written to D: scales computed block by block (02 R48), then each element rounded once; and the flags. -/
def Machine.writeVals (m : Machine) (q : Nat) (env : FEnv) (t : Tensor) (vs : List (RVal × Nat)) : PRes (Machine × Nat) := do
  pcheck (t.fmt != 10 || cb4Ordered t.cb) 0x1A
  let scales := if t.scaled then (List.range (t.count / 32)).map fun b => blockScale t.nf t.cb t.fmt (((vs.drop (32 * b)).take 32).map (·.1.1)) else []
  let rs := vs.zipIdx.map fun p => let r := elemOf env t.nf t.cb t.fmt (if t.scaled then some (scales.getD (p.2 / 32) 127) else none) p.1.1; (r.1, r.2 ||| p.1.2)
  let w ← m.writeCodes q t (rs.map (·.1)) scales
  .ok (w.1, w.2 ||| orFlags rs)

/-! ### Elements that move -/

/-- An element of a result: one that moves, with the scale byte of its block, +0, or a value computed with its flags. -/
inductive Moved where
  | elem (code : Nat) (scale : Option Nat)
  | zero
  | value (v : RVal) (fl : Nat)
  deriving DecidableEq, Repr

def Moved.scale? : Moved → Option Nat
  | .elem _ s => s
  | .zero | .value _ _ => none

/-- The elements of a tensor in logical order. -/
def Machine.readElems (m : Machine) (q : Nat) (t : Tensor) : PRes (List Moved) := do
  let xs ← m.readCodes q t
  let ss ← m.readScales q t
  .ok (xs.zipIdx.map fun p => .elem p.1 (if t.scaled then some (ss.getD (p.2 / 32) 0) else none))

/-- The code of +0. -/
def Tensor.zero (t : Tensor) : Nat := if 10 < t.fmt then 0 else (valToElem {} t.nf t.cb t.fmt (.zero false)).1

/-- The scale byte that all the elements of a block came with, if it is one. -/
def commonScale (xs : List Moved) : Option Nat :=
  match xs.filterMap Moved.scale? with
  | [] => if xs.all (· == .zero) then some 127 else none
  | s :: ss => if ss.all (· == s) && xs.all (fun x => x == .zero || x.scale?.isSome) then some s else none

/-- An element's code where it passes into D unchanged. -/
def Moved.pass (d : Tensor) : Moved → Option Nat
  | .elem c none => some c
  | .zero => some d.zero
  | _ => none

/-- The value of an element, with flags. -/
def Moved.val (d : Tensor) : Moved → PRes (RVal × Nat)
  | .elem c s => (realOf d.nf d.cb d.fmt s c).map (·, 0)
  | .zero => .ok ((.zero false, 0), 0)
  | .value v fl => .ok (v, fl)

/-- A block of a scaled D: its codes pass unchanged under the one scale byte with which they come; else the values are encoded again under a scale of their own (02 R48). -/
def Tensor.block (d : Tensor) (xs : List Moved) : PRes (Nat × List FRes) :=
  match commonScale xs with
  | some s => .ok (s, xs.map fun x => match x with
    | .elem c _ => (c, 0)
    | _ => (d.zero, 0))
  | none => do
    pcheck (d.fmt != 10 || cb4Ordered d.cb) 0x1A
    let vs ← xs.mapM (Moved.val d)
    let s := blockScale d.nf d.cb d.fmt (vs.map (·.1.1))
    .ok (s, vs.map fun v => let r := elemOf {} d.nf d.cb d.fmt (some s) v.1; (r.1, r.2 ||| v.2))

/-- Elements of D's format written to D: codes pass unchanged where a block of D comes with one scale byte, or without any; the values of another block, and of other elements of an unscaled D, are encoded (log 51, DEDUCED). -/
def Machine.writeElems (m : Machine) (q : Nat) (d : Tensor) (xs : List Moved) : PRes (Machine × Nat) := do
  if d.scaled then
    let bs ← (List.range (d.count / 32)).mapM fun b => d.block ((xs.drop (32 * b)).take 32)
    let r ← m.writeCodes q d (bs.flatMap fun b => b.2.map (·.1)) (bs.map (·.1))
    .ok (r.1, r.2 ||| orFlags (bs.flatMap (·.2)))
  else
    pcheck (d.fmt != 10 || cb4Ordered d.cb || xs.all fun x => (x.pass d).isSome) 0x1A
    let rs ← xs.mapM fun x => match x.pass d with
      | some c => Except.ok (c, 0)
      | none => (x.val d).map fun v => let r := elemOf {} d.nf d.cb d.fmt none v.1; (r.1, r.2 ||| v.2)
    let r ← m.writeCodes q d (rs.map (·.1)) []
    .ok (r.1, r.2 ||| orFlags rs)

/-! ### Dependences (R290) -/

/-- Some launch still reads a root; some launch still writes it. -/
def Machine.rootRead (m : Machine) (k : Nat) : Bool := (m.handle k).readers != []
def Machine.rootWritten (m : Machine) (k : Nat) : Bool := (m.handle k).writer.isSome

/-- Nothing that a checkpointed group last wrote to a root waits for its commit. -/
def Machine.lastCommitted (m : Machine) (k : Nat) : Bool := match (m.handle k).last with
  | some li => m.committed li
  | none => true

/-- What an operator reads and writes is free of every launch that it must wait for. -/
def Machine.opReady (m : Machine) (reads writes : List Nat) : Bool :=
  reads.all (fun k => !m.rootWritten k && m.lastCommitted k) && writes.all fun k => !m.rootWritten k && !m.rootRead k

/-- The launches that an operator waits for. -/
def Machine.opAfter (m : Machine) (reads writes : List Nat) : List Nat :=
  ((reads ++ writes).filterMap fun k => (m.handle k).writer) ++ writes.flatMap fun k => (m.handle k).readers

/-- An operator that forms a launch enters the table: a seventeenth reader waits. -/
def Machine.opEnter (m : Machine) (li : Nat) (reads writes : List Nat) : Machine :=
  let m := reads.foldl (fun m k => let h := m.handle k; m.setHandle k { h with readers := if h.readers.contains li then h.readers else h.readers ++ [li] }) m
  writes.foldl (fun m k => m.setHandle k { m.handle k with writer := some li, last := some li, written := true }) m

def Machine.readersFull (m : Machine) (reads : List Nat) : Bool := reads.any fun k => 16 ≤ (m.handle k).readers.length

end Sys2Proof.Machine
end

