-- ==== Sys2Proof/Machine/Bytecode.lean ====
section
/-! DEFINITION. Bytecode.lean: how the Parser runs a bytecode operator, the shape and control operators, data movement, the RNG and checkpoint operators (12_kernels_bytecode.md R277-R280, R283, R286-R288). -/

namespace Sys2Proof.Machine

/-- What an operator has come to: done, with the walk at its next instruction, to be tried again later, or to be expanded by the words of its image. -/
inductive LbRes where
  | done (m : Machine) (w : Walk)
  | again (m : Machine)
  | expand (m : Machine) (e : Expansion)

/-- An expansion that waits for the operator fused to it must be followed by that operator (13 R300). -/
def Machine.parkedOf (m : Machine) (q : Nat) : Option Expansion := (m.parser (q / 16)).parked.find? fun x => x.queue == q
def Machine.dropParked (m : Machine) (q : Nat) : Machine :=
  if (m.parkedOf q).isSome then m.setParser (q / 16) { m.parser (q / 16) with parked := (m.parser (q / 16)).parked.filter fun x => x.queue != q } else m

/-- The expansion of an operator begins: the words after it have the Parser's turn (R259). -/
def State.expand (s : State) (e : Expansion) : State :=
  { s with m := s.m.setParser (e.queue / 16) { s.m.parser (e.queue / 16) with exp := some e }, turn := .micro (e.queue / 16) }

/-- Runs an operator of the queue whose graph has the turn (R259): its effect, its expansion, a later trial, or the failure of the queue with FOFS the operator's offset (R280).
An operator whose words fuse it to the one before it is expanded beside that one, which fails where no such operator follows it (13 R300). -/
def lbRun (f : Machine → Nat → Walk → PRes LbRes) (s : State) : Out State :=
  match s.turn with
  | .graph q =>
    match s.m.walkOf q with
    | none => .next { s with turn := .none }
    | some w =>
      match f s.m q w, s.m.parkedOf q with
      | .ok (.expand m e), _ => .next ({ s with m }.expand e)
      | _, some x => .next { s with m := (s.m.dropParked q).failQueue q 0x38 x.fofs, turn := .none }
      | .ok (.done m w'), none => .next { s with m := (m.setWalk q (some w')).refreshQueue q, turn := .none }
      | .ok (.again m), none => .next { s with m, turn := .none }
      | .error k, none => .next { s with m := if k = 0 then s.m else s.m.failQueue q k w.pos, turn := .none }
  | _ => .next s

/-- The walk at the instruction after this one. -/
def Walk.step (w : Walk) : Walk := { w with pos := w.pos + 16 }

/-- Unused fields and reserved parts of MOD and IMM are zero (R277): `u` says which of D, A, B and C are used, `mod` and `imm` which bits (log 60, DEDUCED). -/
def onlyFields (o : LbOp) (u : Bool × Bool × Bool × Bool) (mod imm : Nat) : PRes Unit :=
  pcheck ((u.1 || o.d == 0) && (u.2.1 || o.a == 0) && (u.2.2.1 || o.b == 0) && (u.2.2.2 || o.c == 0) &&
    o.md.toNat &&& mod == o.md.toNat && o.imm.toNat &&& imm == o.imm.toNat) reservedFault

/-- A shape or control operator has LN = 0 (R277, R288). -/
def control (o : LbOp) : PRes Unit := pcheck (o.ln == 0) reservedFault

/-- All 64 bits of IMM. -/
def allImm : Nat := 2 ^ 64 - 1

/-- A rounding mode field: 0b101 and 0b110 are reserved, 0b111 is RNE (R281). -/
def lbRm (x : Nat) : PRes Rm := do
  pcheck (x != 5 && x != 6) reservedFault
  .ok (.fromCode (x % 7))

/-- The environment of an operator with RM and SATF in IMM (R281). -/
def lbEnv (o : LbOp) : PRes FEnv := do
  let rm ← lbRm (bits o.imm.toNat 0 3)
  .ok { rm, satf := bit o.imm.toNat 3 }

/-- A field that names a shape register (R277). -/
def regField (x : BitVec 12) : PRes Nat := do
  pcheck (x.toNat < 64) reservedFault
  .ok x.toNat

/-- D may share its root with a source only where it is the same handle as A and the operator permits it (R282). -/
def shareOk (permit : Bool) (d : Tensor) (srcs : List Tensor) : PRes Unit :=
  pcheck (srcs.all fun t => t.root != d.root || (permit && t.key == d.key && (srcs.headD d).key == d.key)) handleFault

/-- The built-in entry of an opcode in the operator table of the queue's Parser (13 R292). -/
def Machine.builtinOf (m : Machine) (q : Nat) (o : LbOp) : Option OpImage := (m.parser (q / 16)).builtin.find? fun i => i.opc == o.op.toNat

/-- The gathers that an image's `shard` words ask for (26 R430). -/
def Machine.gatherWords (m : Machine) (die : Nat) (i : OpImage) : List (Nat × Nat × Nat) :=
  (List.range i.words).filterMap fun k => match decodeMicrocode (SMap.get 0 (m.parser die).store (i.first + k)).toNat with
    | some (.ucShard h act inst) => if act = 1 then some (h.toNat, 1, inst.toNat) else none
    | _ => none

/-- The expansion of an operator by an image, before its first word. -/
def Machine.expansion (m : Machine) (q : Nat) (w : Walk) (o : LbOp) (image : OpImage) (adv : Nat) : Expansion :=
  { queue := q, op := o, fofs := w.pos, image, shards := m.gatherWords (q / 16) image, adv }

/-- An operator of whole tensors whose checks are made: the words of its built-in entry expand it (R259). Where the table has none, it waits for the launches
that it depends on (R290) and has the effect that its rule states; the flags join the graph's, and the RNG counter advances by `adv` (log 11, DESIGN CHOICE). -/
def whenReady (m : Machine) (q : Nat) (o : LbOp) (w : Walk) (adv : Nat) (reads writes : List Tensor) (f : PRes (Machine × Nat)) : PRes LbRes :=
  do
    fuseGroup (reads ++ writes)
    match m.builtinOf q o with
    | some image => .ok (.expand m (m.expansion q w o image adv))
    | none =>
      if m.opReady (reads.map (·.root)) (writes.map (·.root)) then do
        let r ← f
        .ok (.done r.1 { w.step with flg := w.flg ||| r.2, rngCtr := w.rngCtr + .ofNat 64 adv })
      else .ok (.again m)

/-! ### Shape and control operators (R288) -/

def execLbNop (o : LbOp) (s : State) : Out State :=
  lbRun (fun m _ w => do
    onlyFields o (false, false, false, false) 0 0
    .ok (.done m w.step)) s

def execLbDset (o : LbOp) (s : State) : Out State :=
  lbRun (fun m _ w => do
    control o
    onlyFields o (true, false, false, false) 0 allImm
    let d ← regField o.d
    .ok (.done m (w.step.setReg d o.imm))) s

/-- The arithmetic of `dop`; none for a zero divisor. -/
def dopRun (fn : Nat) (x y : Int) : Option Int :=
  match fn with
  | 0 => some (x + y) | 1 => some (x - y) | 2 => some (x * y)
  | 3 => if y = 0 then none else some (x.fdiv y)
  | 4 => some (min x y) | 5 => some (max x y)
  | _ => if y = 0 then none else some (-((-x).fdiv y))

def execLbDop (o : LbOp) (s : State) : Out State :=
  lbRun (fun m _ w => do
    control o
    let lit := bit o.md.toNat 3
    onlyFields o (true, true, !lit, false) 15 (if lit then allImm else 0)
    pcheck (o.md.toNat % 8 != 7) reservedFault
    let d ← regField o.d
    let a ← regField o.a
    let b ← regField o.b
    match dopRun (o.md.toNat % 8) (w.reg a).toInt (if lit then o.imm else w.reg b).toInt with
    | some v => .ok (.done m (w.step.setReg d (.ofInt 64 v)))
    | none => .error shapeFault) s

def execLbDext (o : LbOp) (s : State) : Out State :=
  lbRun (fun m q w => do
    control o
    onlyFields o (true, true, false, false) 0 7
    let d ← regField o.d
    let (_, a) ← m.descOf q w o.a.toNat
    let i := o.imm.toNat
    pcheck (i < hRank a) shapeFault
    let n ← w.extent a i
    .ok (.done m (w.step.setReg d (.ofNat 64 n)))) s

def execLbDld (o : LbOp) (s : State) : Out State :=
  lbRun (fun m q w => do
    control o
    onlyFields o (true, true, false, false) 0 allImm
    let d ← regField o.d
    let a ← m.plain q w o.a.toNat
    pcheck (a.fmt == 6) handleFault
    pcheck (o.imm.toNat < a.count) shapeFault
    if m.opReady [a.root] [] then do
      let xs ← m.readCodes q a
      .ok (.done m (w.step.setReg d (.ofNat 64 (xs.getD o.imm.toNat 0))))
    else .ok (.again m)) s

/-- The target of a branch lies in the code section (R280, R288). -/
def Walk.branch (w : Walk) (imm : Word) : PRes Walk := do
  let t := (w.pos : Int) + 16 * imm.toInt
  pcheck (0 ≤ t && t < (w.clen : Int)) shapeFault
  .ok { w with pos := t.toNat }

def execLbBr (o : LbOp) (s : State) : Out State :=
  lbRun (fun m _ w => do
    control o
    onlyFields o (false, false, false, false) 0 allImm
    let w' ← w.branch o.imm
    .ok (.done m w')) s

/-- The conditions of R91 by code. -/
def condOf (x : Nat) : Cond :=
  match x with
  | 0 => .eq | 1 => .ne | 2 => .lt | 3 => .ge | 4 => .ltu | 5 => .geu | 6 => .any | _ => .none

def execLbBrc (o : LbOp) (s : State) : Out State :=
  lbRun (fun m _ w => do
    control o
    onlyFields o (false, true, true, false) 7 allImm
    let a ← regField o.a
    let b ← regField o.b
    if condHolds (condOf o.md.toNat) (w.reg a) (w.reg b) then do
      let w' ← w.branch o.imm
      .ok (.done m w')
    else .ok (.done m w.step)) s

def execLbCall (o : LbOp) (s : State) : Out State :=
  lbRun (fun m _ w => do
    control o
    onlyFields o (false, false, false, false) 0 allImm
    pcheck (w.stack.length < 16) shapeFault
    let w' ← w.branch o.imm
    .ok (.done m { w' with stack := (w.pos + 16) :: w.stack })) s

def execLbRet (o : LbOp) (s : State) : Out State :=
  lbRun (fun m _ w => do
    control o
    onlyFields o (false, false, false, false) 0 0
    match w.stack with
    | t :: rest => do
      pcheck (t < w.clen) shapeFault
      .ok (.done m { w with pos := t, stack := rest })
    | [] => .error shapeFault) s

def execLbEnd (o : LbOp) (s : State) : Out State :=
  lbRun (fun m _ w => do
    control o
    onlyFields o (false, false, false, false) 0 0
    .ok (.done m { w with ended := true })) s

/-- The alignment of a handle's BASE: that of one element (R26, R274), 2 KiB for a KV table (18 R362). -/
def baseAlign (d : Nat) : Nat :=
  if hKind d = 1 then 2048 else if hFmt d = 11 then 8 else max 1 (codeWidth (.ofFmt (hNf d)) (hFmt d) / 8)

/-- `hbind` gives a handle a base (log 52, DESIGN CHOICE). -/
def execLbHbind (o : LbOp) (s : State) : Out State :=
  lbRun (fun m q w => do
    control o
    onlyFields o (true, true, false, false) 0 0
    let a ← regField o.a
    let (key, d) ← m.descOf q w o.d.toNat
    let v := w.reg a
    pcheck (v.toNat % baseAlign d == 0) handleFault
    if m.opReady [] [rootKey q key d] then
      let h := m.handle key
      .ok (.done (m.setHandle key { h with desc := .ofNat 512 (setBits (setBits d 448 64 v.toNat) 224 8 0xFF) }) w.step)
    else .ok (.again m)) s

def execLbNotify (o : LbOp) (s : State) : Out State :=
  lbRun (fun m q w => do
    control o
    onlyFields o (false, false, false, false) 0 allImm
    if m.liveLaunches q = [] then .ok (.done (m.irq (0x200 + q) o.imm.toNat) w.step) else .ok (.again m)) s

/-! ### Data movement (R283) -/

/-- Positions of the elements along an axis, one list for each position outside it. -/
def axisLines (ext : List Nat) (ax : Nat) : List (List Nat) :=
  let n := ext.getD ax 1
  let st := (ext.take ax).foldl (· * ·) 1
  (List.range (ext.foldl (· * ·) 1 / n)).map fun p => (List.range n).map fun j => p / st * (st * n) + p % st + j * st

/-- D receives, element by element, an element of a source or +0. -/
def Machine.moveElems (m : Machine) (q : Nat) (d : Tensor) (srcs : List Tensor) (picks : List (Option (Nat × Nat))) : PRes (Machine × Nat) := do
  let xs ← srcs.mapM (m.readElems q)
  m.writeElems q d (picks.map fun p => match p with
    | some (i, e) => (xs.getD i []).getD e .zero
    | none => .zero)

/-- Sources of D's format, `.n` ones of its NF, and with roots of their own. -/
def moveOk (d : Tensor) (srcs : List Tensor) : PRes Unit := do
  pcheck (srcs.all fun t => t.fmt == d.fmt && (d.fmt != 9 || hNf t.desc == hNf d.desc)) handleFault

/-- The index on an axis, and an element with that index replaced. -/
def axisIndex (ext : List Nat) (ax e : Nat) : Nat := (coords ext e).getD ax 0

def execLbCopy (o : LbOp) (s : State) : Out State :=
  lbRun (fun m q w => do
    onlyFields o (true, true, false, false) 0 0
    let d ← m.target q w o.d.toNat
    let a ← m.plain q w o.a.toNat
    moveOk d [a]
    pcheck (d.scaled == a.scaled) handleFault
    shareOk false d [a]
    pcheck (d.ext == a.ext) shapeFault
    whenReady m q o w 0 [a] [d] do
      let xs ← m.readCodes q a
      let ss ← m.readScales q a
      m.writeCodes q d xs ss) s

def execLbTranspose (o : LbOp) (s : State) : Out State :=
  lbRun (fun m q w => do
    onlyFields o (true, true, false, false) 0 (2 ^ 24 - 1)
    let d ← m.target q w o.d.toNat
    let a ← m.plain q w o.a.toNat
    let n := a.ext.length
    let ps := (List.range n).map fun i => bits o.imm.toNat (3 * i) 3
    moveOk d [a]
    shareOk false d [a]
    pcheck (d.ext.length == n && ps.all (· < n) && ps.eraseDups.length == n && d.ext == ps.map (a.ext.getD · 0)) shapeFault
    whenReady m q o w 0 [a] [d] (m.moveElems q d [a] ((List.range d.count).map fun e =>
      let ci := coords d.ext e
      some (0, linear a.ext ((List.range n).map fun j => ci.getD (ps.idxOf j) 0))))) s

/-- The indices of `gather` and `scatter`: an INT32 or INT64 handle of rank 1. -/
def Machine.indexTensor (m : Machine) (q : Nat) (w : Walk) (num : Nat) : PRes Tensor := do
  let b ← m.plain q w num
  pcheck (b.fmt == 6 || b.fmt == 7) handleFault
  pcheck (b.ext.length == 1) shapeFault
  .ok b

/-- Extents that agree outside an axis. -/
def sameBut (ax : Nat) (a b : List Nat) : Bool := a.length == b.length && ax < a.length && a.set ax 1 == b.set ax 1

def execLbGather (o : LbOp) (s : State) : Out State :=
  lbRun (fun m q w => do
    onlyFields o (true, true, true, false) 7 0
    let d ← m.target q w o.d.toNat
    let a ← m.plain q w o.a.toNat
    let b ← m.indexTensor q w o.b.toNat
    let ax := o.md.toNat % 8
    moveOk d [a]
    shareOk false d [a, b]
    pcheck (sameBut ax d.ext a.ext && d.ext.getD ax 0 == b.count) shapeFault
    whenReady m q o w 0 [a, b] [d] do
      let bs ← m.readCodes q b
      let ix := bs.map fun x => sgn (b.width) x
      let picks := (List.range d.count).map fun e =>
        let ci := coords d.ext e
        let i := ix.getD (ci.getD ax 0) 0
        if 0 ≤ i ∧ i < (a.ext.getD ax 0 : Int) then some (0, linear a.ext (ci.set ax i.toNat)) else none
      let r ← m.moveElems q d [a] picks
      .ok (r.1, r.2 ||| if picks.any Option.isNone then fNV else 0)) s

/-- The exact sum of two values, with the sign of a zero sum under a mode (02 R50; 05 R125). -/
def addReal (rm : Rm) (x y : Val) : Val × Nat :=
  match x, y with
  | .inf a, .inf b => if a = b then (.inf a, 0) else invalidVal
  | .inf a, _ => (.inf a, 0)
  | _, .inf b => (.inf b, 0)
  | .zero a, .zero b => (.zero (if a = b then a else rm = .rdn), 0)
  | _, _ =>
    let s := dyAdd x.toDy y.toDy
    if s.1 = 0 then (.zero (rm = .rdn), 0) else (.fin (decide (s.1 < 0)) s.1.natAbs s.2, 0)

/-- Addition of source values, NaNs by 02 R30. -/
def addVals (rm : Rm) (x y : RVal) : RVal × Nat := liftNan [x, y] (addReal rm x.1 y.1)

def execLbScatter (o : LbOp) (s : State) : Out State :=
  lbRun (fun m q w => do
    onlyFields o (true, true, true, false) 15 0
    let d ← m.target q w o.d.toNat
    let a ← m.plain q w o.a.toNat
    let b ← m.indexTensor q w o.b.toNat
    let ax := o.md.toNat % 8
    let add := bit o.md.toNat 3
    moveOk d [a]
    pcheck (!add || d.fmt ≤ 5) handleFault
    shareOk true d [a, b]
    pcheck (sameBut ax d.ext a.ext && a.ext.getD ax 0 == b.count) shapeFault
    whenReady m q o w 0 [a, b] [d] do
      let bs ← m.readCodes q b
      let ix := bs.map fun x => sgn (b.width) x
      let n : Int := d.ext.getD ax 0
      let fl := if ix.any fun i => i < 0 || n ≤ i then fNV else 0
      let hits (e : Nat) : List Nat :=
        let ci := coords d.ext e
        ((List.range ix.length).filter fun i => ix.getD i 0 == (ci.getD ax 0 : Int)).map fun i => linear a.ext (ci.set ax i)
      if add then
        let xs ← m.readElems q d
        let vd ← m.readVals q d
        let va ← m.readVals q a
        let r ← m.writeElems q d (xs.zipIdx.map fun p =>
          if hits p.2 = [] then p.1
          else
            let s := (hits p.2).foldl (fun (s : RVal × Nat) i => let t := addVals .rne s.1 (va.getD i (.zero false, 0)); (t.1, s.2 ||| t.2)) (vd.getD p.2 (.zero false, 0), 0)
            .value s.1 s.2)
        .ok (r.1, r.2 ||| fl)
      else
        let r ← m.moveElems q d [d, a] ((List.range d.count).map fun e => match (hits e).getLast? with
          | some i => some (1, i)
          | none => some (0, e))
        .ok (r.1, r.2 ||| fl)) s

def execLbView (o : LbOp) (s : State) : Out State :=
  lbRun (fun m q w => do
    onlyFields o (true, true, false, false) 0 allImm
    let a ← m.plain q w o.a.toNat
    let d ← m.resolve q w o.d.toNat
    let rootNum := if hRoot a.desc = 0 then o.a.toNat else hRoot a.desc
    let r ← m.resolve q w rootNum
    let off := o.imm.toInt * a.width
    let base := (a.base : Int) + off / 8
    moveOk d [a]
    pcheck (hKind d.desc == 0 && off % 8 == 0 && (r.base : Int) ≤ base && base * 8 + (d.count * d.width : Nat) ≤ ((8 * r.base + r.count * r.width : Nat) : Int)) handleFault
    if m.opReady [a.root] [] then
      let h := m.handle d.key
      .ok (.done (m.setHandle d.key { h with desc := .ofNat 512 (setBits (setBits (setBits d.desc 448 64 base.toNat) 224 8 0xFF) 232 12 rootNum) }) w.step)
    else .ok (.again m)) s

def execLbConcat (o : LbOp) (s : State) : Out State :=
  lbRun (fun m q w => do
    onlyFields o (true, true, true, false) 7 0
    let d ← m.target q w o.d.toNat
    let a ← m.plain q w o.a.toNat
    let b ← m.plain q w o.b.toNat
    let ax := o.md.toNat % 8
    let n := a.ext.getD ax 0
    moveOk d [a, b]
    shareOk false d [a, b]
    pcheck (sameBut ax d.ext a.ext && sameBut ax d.ext b.ext && d.ext.getD ax 0 == n + b.ext.getD ax 0) shapeFault
    whenReady m q o w 0 [a, b] [d] (m.moveElems q d [a, b] ((List.range d.count).map fun e =>
      let ci := coords d.ext e
      let i := ci.getD ax 0
      if i < n then some (0, linear a.ext ci) else some (1, linear b.ext (ci.set ax (i - n)))))) s

/-- IMM as an element of a format (`fill`): an INT64 saturated into an integer format, else an FP64 value rounded under RNE. -/
def fillElem (t : Tensor) (imm : Nat) : FRes := (convert {} t.nf [] t.cb (if isIntCode t.fmt then 6 else 0) t.fmt imm).getD (0, 0)

def execLbFill (o : LbOp) (s : State) : Out State :=
  lbRun (fun m q w => do
    onlyFields o (true, false, false, false) 0 allImm
    let d ← m.target q w o.d.toNat
    pcheck (d.fmt ≤ 10) handleFault
    whenReady m q o w 0 [] [d] do
      if d.scaled then m.writeVals q {} d (List.replicate d.count (if isIntCode d.fmt then (Val.ofInt (sgn 64 o.imm.toNat), 0) else realOf64 o.imm.toNat, 0))
      else
        pcheck (d.fmt != 10 || cb4Ordered d.cb) 0x1A
        let x := fillElem d o.imm.toNat
        let r ← m.writeCodes q d (List.replicate d.count x.1) []
        .ok (r.1, x.2)) s

/-! ### RNG and checkpoint operators (R286, R287) -/

/-- An INT64 handle of two elements. -/
def pairHandle (t : Tensor) : PRes Unit := do
  pcheck (t.fmt == 6) handleFault
  pcheck (t.count == 2) shapeFault

def execLbRngsave (o : LbOp) (s : State) : Out State :=
  lbRun (fun m q w => do
    onlyFields o (true, false, false, false) 0 0
    let d ← m.target q w o.d.toNat
    pairHandle d
    whenReady m q o w 0 [] [d] (m.writeCodes q d [w.rngKey.toNat, w.rngCtr.toNat] [])) s

def execLbRngset (o : LbOp) (s : State) : Out State :=
  lbRun (fun m q w => do
    pcheck (o.md.toNat ≤ 2) reservedFault
    onlyFields o (false, o.md == 0, false, false) 3 (if o.md = 0 then 0 else allImm)
    if o.md = 1 then .ok (.done m { w.step with rngCtr := o.imm })
    else if o.md = 2 then .ok (.done m { w.step with rngKey := o.imm, rngCtr := 0 })
    else
      let a ← m.plain q w o.a.toNat
      pairHandle a
      if m.opReady [a.root] [] then do
        let xs ← m.readCodes q a
        .ok (.done m { w.step with rngKey := .ofNat 64 (xs.getD 0 0), rngCtr := .ofNat 64 (xs.getD 1 0) })
      else .ok (.again m)) s

/-- An integer result of plain integer sources saturates into a plain integer D without a flag (R281; 02 R37); it lies in D's range from then on.
A scaled D takes the value itself, which is divided by the scale before it is converted (02 R47). -/
def saturated (ints : Bool) (d : Tensor) (r : RVal × Nat) : RVal × Nat :=
  if ints && isIntCode d.fmt && !d.scaled then ((Val.ofInt (clampInt (intRange d.nf d.fmt) (Val.toIntRound .rtz r.1.1).1), 0), r.2) else r

def execLbRngfill (o : LbOp) (s : State) : Out State :=
  lbRun (fun m q w => do
    onlyFields o (true, false, false, false) 0 0
    let d ← m.target q w o.d.toNat
    pcheck (d.fmt ≤ 10) handleFault
    let src := if isIntCode d.fmt then 6 else 0
    whenReady m q o w (ceilDiv d.count 128) [] [d] (m.writeVals q {} d ((List.range d.count).map fun e =>
      let x := rngCode src w.rngKey.toNat ((w.rngCtr.toNat + e / 128) % 2 ^ 64) (e % 128)
      if src = 6 then saturated true d ((Val.ofInt (sgn 64 x), 0), 0) else (realOf64 x, 0)))) s

/-- The bytes of a tensor, element positions in order. -/
def Machine.tensorBytes (m : Machine) (q : Nat) (t : Tensor) : PRes (List Byte) :=
  if hTr t.desc then (m.readCodes q t).map fun xs => packCodes t.width (t.placed xs) (List.replicate t.bytes 0)
  else m.parserRead q t.base t.bytes (t.bytes / 128 + 2)

/-- Bytes written from a tensor's first on. -/
def Machine.putTensorBytes (m : Machine) (q : Nat) (t : Tensor) (bs : List Byte) : PRes (Machine × Nat) :=
  let m := m.wrote t.root
  if hTr t.desc then
    let old := match m.tensorBytes q t with
      | .ok xs => xs
      | .error _ => List.replicate t.bytes 0
    let new := bs ++ old.drop bs.length
    .ok (m.setHandle t.key { m.handle t.key with codes := (List.range t.count).map fun e => bitsOf new (t.width * t.pos e) t.width }, 0)
  else m.parserWrite q t.base bs (bs.length / 128 + 2) (t.fmt == 0)

/-- An INT8 handle of at least `n` elements. -/
def imageHandle (t : Tensor) (n : Nat) : PRes Unit := do
  pcheck (t.fmt == 8) handleFault
  pcheck (n ≤ t.count) shapeFault

/-- The first half of a checkpoint's header: the extents as resolved, the low bits of SCALE, and every other field of the descriptor but BASE (R287) (log 53, DESIGN CHOICE). -/
def Tensor.header (t : Tensor) : Nat :=
  pack ((List.range 8).map (fun i => (128 + 16 * i, (if i < t.ext.length then t.ext.getD i 0 else hExt t.desc i) % 2 ^ 16)) ++
    [(99, hScale t.desc % 2 ^ 29), (54, bits t.desc 199 45), (30, bits t.desc 128 24), (0, bits t.desc 0 30)])

/-- The bytes of the tensor that a header names. -/
def headerBytes (h : Nat) : Nat :=
  let fmt := bits h 0 4
  let n := (List.range (bits h 4 4)).foldl (fun a i => a * bits h (128 + 16 * i) 16) 1
  ceilDiv (n * (if fmt = 11 then 192 else codeWidth (.ofFmt (bits h 24 6)) fmt)) 8

/-- The bytes that an image with a header holds for D: those of D where the header is D's own, whatever its extents. -/
def Tensor.imageBytes (d : Tensor) (h : Nat) : Nat := if h = d.header then d.bytes else headerBytes h

/-- `ckptsave`: a header and the bytes (R287). -/
def execLbCkptsave (o : LbOp) (s : State) : Out State :=
  lbRun (fun m q w => do
    onlyFields o (true, true, false, false) 0 0
    let d ← m.target q w o.d.toNat
    let a ← m.plain q w o.a.toNat
    shareOk false d [a]
    imageHandle d (64 + a.bytes)
    whenReady m q o w 0 [a] [d] do
      let bs ← m.tensorBytes q a
      m.putTensorBytes q d (leBytes 32 a.header ++ leBytes 32 (Config.sm3 bs) ++ bs)) s

def execLbCkptload (o : LbOp) (s : State) : Out State :=
  lbRun (fun m q w => do
    onlyFields o (true, true, false, false) 0 0
    let d ← m.target q w o.d.toNat
    let a ← m.plain q w o.a.toNat
    shareOk false d [a]
    imageHandle a 64
    whenReady m q o w 0 [a] [d] do
      let image ← m.tensorBytes q a
      let h := leNat (image.take 32)
      imageHandle a (64 + d.imageBytes h)
      let bs := (image.drop 64).take (d.imageBytes h)
      pcheck (leNat ((image.drop 32).take 32) == Config.sm3 bs % 2 ^ 256 && h == d.header && bs.length == d.bytes) handleFault
      m.putTensorBytes q d bs) s

end Sys2Proof.Machine
end

