-- ==== Sys2Proof/Machine/Compute.lean ====
section
/-! DEFINITION. Compute.lean: the compute operators and the KV operators of a graph, as whole effects of the Parser (12_kernels_bytecode.md R281, R282, R285; 18_kv_tables_and_attention.md R378; log 11, DESIGN CHOICE). -/

namespace Sys2Proof.Machine

/-! ### Shared pieces -/

/-- Formats that an operator accepts. -/
def accepts (top : Nat) (ts : List Tensor) : PRes Unit := pcheck (ts.all fun t => t.fmt ≤ top) handleFault

/-- The `.n` operands of an operator agree in NF. -/
def nfAgree (ts : List Tensor) : PRes Unit := do
  let _ ← agreeNf ts

/-- Extents equal to A's, or 1 in B where it is broadcast; a dimension that a handle lacks counts as 1. -/
def broadcasts (a b : List Nat) : Bool :=
  (List.range (max a.length b.length)).all fun i => b.getD i 1 == 1 || b.getD i 1 == a.getD i 1

/-- The element of B that a broadcast pairs with element `e` of A. -/
def broadcastAt (a b : List Nat) (e : Nat) : Nat := linear b (((coords a e).zip b).map fun p => if p.2 = 1 then 0 else p.1)

/-- The sum of two results' flags beside a value. -/
def joinFlags (r : RVal × Nat) (fl : Nat) : RVal × Nat := (r.1, r.2 ||| fl)

/-- An FP64 code with its flags as a result to be rounded. -/
def of64 (r : FRes) : RVal × Nat := (realOf64 r.1, r.2)

/-- The FP64 codes of values, with the flags of their conversion. -/
def codes64 (vs : List RVal) : List FRes := vs.map RVal.code64

/-! ### Elementwise operators -/

/-- `min` and `max` as R126. -/
def minmaxVals (isMax : Bool) (x y : RVal) : RVal × Nat :=
  let fl := if x.1.isSnan || y.1.isSnan then fNV else 0
  if x.1.isNan then (if y.1.isNan then liftNan [x, y] (x.1, 0) else (y, fl))
  else if y.1.isNan then (x, fl)
  else (if valLt true x.1 y.1 == isMax then y else x, fl)

/-- The quotient of two numbers rounded toward zero. -/
def quotInt (x y : Val) : Val :=
  let a := x.toDy
  let b := y.toDy
  Val.ofInt (if b.2 ≤ a.2 then (a.1 * 2 ^ (a.2 - b.2).toNat).tdiv b.1 else a.1.tdiv (b.1 * 2 ^ (b.2 - a.2).toNat))

/-- A tensor of plain integers, without block scales. -/
def Tensor.ints (t : Tensor) : Bool := isIntCode t.fmt && !t.scaled

/-- f(a, b) of `ewise`, exact or cut so that it rounds as the exact value does; `ints` for sources of integer formats. -/
def ewiseVal (fn : Nat) (rm : Rm) (ints : Bool) (x y : RVal) : RVal × Nat :=
  match fn with
  | 0 => addVals rm x y
  | 1 => liftNan [x, y] (addReal rm x.1 (y.1.flip true))
  | 2 => liftNan [x, y] (match mulVal x.1 y.1 with
    | some v => (v, 0)
    | none => invalidVal)
  | 3 =>
    if ints then liftNan [x, y] (if y.1.isZero then (.zero false, fNV) else (quotInt x.1 y.1, 0))
    else liftNan [x, y] (divReal x.1 y.1)
  | 4 => minmaxVals false x y
  | _ => minmaxVals true x y


def execLbEwise (o : LbOp) (s : State) : Out State :=
  lbRun (fun m q w => do
    onlyFields o (true, true, true, false) 63 15
    pcheck (o.md.toNat ≤ 5) reservedFault
    let env ← lbEnv o
    let d ← m.target q w o.d.toNat
    let a ← m.plain q w o.a.toNat
    let b ← m.plain q w o.b.toNat
    accepts 9 [d, a, b]
    nfAgree [d, a, b]
    shareOk (d.width == a.width) d [a, b]
    pcheck (d.ext == a.ext && broadcasts a.ext b.ext) shapeFault
    whenReady m q o w 0 [a, b] [d] do
      let xs ← m.readVals q a
      let ys ← m.readVals q b
      let ints := isIntCode a.fmt && isIntCode b.fmt
      m.writeVals q env d (xs.zipIdx.map fun p => saturated (a.ints && b.ints) d (ewiseVal o.md.toNat env.rm ints p.1 (ys.getD (broadcastAt a.ext b.ext p.2) (.zero false, 0))))) s

/-- A NaN whose sign alone changes (R126). -/
def signVal (f : Bool → Bool) (x : RVal) : RVal × Nat :=
  match x.1 with
  | .zero n => ((.zero (f n), 0), 0)
  | .inf n => ((.inf (f n), 0), 0)
  | .fin n m e => ((.fin (f n) m e, 0), 0)
  | .nan n _ => ((.nan (f n) false, Fp.d.sign (f (bit x.2 63)) (x.2 % 2 ^ 63)), 0)

/-- f(a) of `unary`. -/
def unaryVal (fn : Nat) (ints : Bool) (x : RVal) : RVal × Nat :=
  let pos (r : RVal × Nat) : RVal × Nat := match r.1.1 with
    | .zero _ => if ints then ((.zero false, 0), r.2) else r
    | _ => r
  match fn with
  | 0 => pos (signVal (!·) x)
  | 1 => signVal (fun _ => false) x
  | 2 => liftNan [x] (sqrtReal false x.1)
  | 3 => liftNan [x] (sqrtReal true x.1)
  | 4 => liftNan [x] (Fn.real .exp x.1)
  | 5 => liftNan [x] (Fn.real .log2 x.1)
  | 6 => liftNan [x] (Fn.real .tanh x.1)
  | 7 => liftNan [x] (Fn.real .erf x.1)
  | _ => minmaxVals true x (.zero false, 0)

def execLbUnary (o : LbOp) (s : State) : Out State :=
  lbRun (fun m q w => do
    onlyFields o (true, true, false, false) 63 15
    pcheck (o.md.toNat ≤ 8) reservedFault
    let env ← lbEnv o
    let d ← m.target q w o.d.toNat
    let a ← m.plain q w o.a.toNat
    accepts 9 [d, a]
    nfAgree [d, a]
    shareOk (d.width == a.width) d [a]
    pcheck (d.ext == a.ext) shapeFault
    whenReady m q o w 0 [a] [d] do
      let xs ← m.readVals q a
      let ints := isIntCode a.fmt
      let exact := a.ints && (o.md.toNat ≤ 1 || o.md.toNat == 8)
      m.writeVals q env d (xs.map fun x => saturated exact d (unaryVal o.md.toNat ints x))) s

def execLbCast (o : LbOp) (s : State) : Out State :=
  lbRun (fun m q w => do
    onlyFields o (true, true, false, false) 0 15
    let env ← lbEnv o
    let d ← m.target q w o.d.toNat
    let a ← m.plain q w o.a.toNat
    accepts 10 [d, a]
    nfAgree [d, a]
    shareOk (d.width == a.width) d [a]
    pcheck (d.ext == a.ext) shapeFault
    whenReady m q o w 0 [a] [d] do
      if a.scaled || d.scaled then
        let xs ← m.readVals q a
        m.writeVals q env d (xs.map fun x => saturated a.ints d (x, 0))
      else
        pcheck (d.fmt != 10 || cb4Ordered d.cb) 0x1A
        let xs ← m.readCodes q a
        let rs ← xs.mapM fun x => match convert env (if d.fmt = 9 then d.nf else a.nf) a.cb d.cb a.fmt d.fmt x with
          | some r => Except.ok r
          | none => Except.error 0x19
        let r ← m.writeCodes q d (rs.map (·.1)) []
        .ok (r.1, r.2 ||| orFlags rs)) s

/-! ### `matmul` -/

/-- One element: an FP64 accumulator over the chunks of 02 R49 or R50 in ascending k. -/
def dotChunks (acc : Nat) : List (List (Val × Val)) → Nat × Nat
  | [] => (acc, 0)
  | ps :: rest =>
    let s := accStep .rne acc (cycleSum .rne ps)
    let r := dotChunks s.1 rest
    (r.1, s.2 ||| r.2)

/-- A list in runs of `n`. -/
def runsOf {α : Type} (n : Nat) (xs : List α) : List (List α) := (List.range (ceilDiv xs.length n)).map fun i => (xs.drop (n * i)).take n

/-- `matmul` (log 59, DEDUCED). -/
def execLbMatmul (o : LbOp) (s : State) : Out State :=
  lbRun (fun m q w => do
    onlyFields o (true, true, true, true) 3 15
    let env ← lbEnv o
    let d ← m.target q w o.d.toNat
    let a ← m.plain q w o.a.toNat
    let b ← m.plain q w o.b.toNat
    let c ← if o.c = 0 then Except.ok none else (m.plain q w o.c.toNat).map some
    let cs := c.toList
    accepts 10 ([d, a, b] ++ cs)
    pcheck (pairOk a.fmt b.fmt) handleFault
    nfAgree ([d, a, b] ++ cs)
    shareOk false d ([a, b] ++ cs)
    let turn (t : Bool) (e : List Nat) : Nat × Nat := if t then (e.getD 1 1, e.getD 0 1) else (e.getD 0 1, e.getD 1 1)
    let ta := bit o.md.toNat 0
    let tb := bit o.md.toNat 1
    let ka := turn ta a.ext
    let nb := turn tb b.ext
    let rank := d.ext.length
    let batch := d.ext.getD 2 1
    pcheck ((rank == 2 || rank == 3) && a.ext.length == rank && b.ext.length == rank && a.ext.getD 2 1 == batch && b.ext.getD 2 1 == batch &&
      ka.1 == nb.2 && d.ext.getD 0 1 == nb.1 && d.ext.getD 1 1 == ka.2 && cs.all (fun t => t.ext == d.ext)) shapeFault
    whenReady m q o w 0 ([a, b] ++ cs) [d] do
      let xs ← m.readVals q a
      let ys ← m.readVals q b
      let zs ← match c with
        | some t => (m.readVals q t).map codes64
        | none => Except.ok []
      let z : RVal := (.zero false, 0)
      m.writeVals q env d ((List.range d.count).map fun e =>
        let j := e % nb.1
        let i := e / nb.1 % ka.2
        let g := e / (nb.1 * ka.2)
        let ps := (List.range ka.1).map fun k =>
          ((xs.getD (g * ka.1 * ka.2 + if ta then k * ka.2 + i else i * ka.1 + k) z).1, (ys.getD (g * ka.1 * nb.1 + if tb then j * ka.1 + k else k * nb.1 + j) z).1)
        let c0 := zs.getD e (0, 0)
        joinFlags (of64 (dotChunks c0.1 (runsOf (pePer a.fmt) ps))) c0.2)) s

/-! ### Statistics and softmax -/

/-- Results along an axis put back in element order. -/
def fromLines {α : Type} (ext : List Nat) (ax : Nat) (dflt : α) (rows : List (List α)) : List α :=
  let n := ext.getD ax 1
  let st := (ext.take ax).foldl (· * ·) 1
  (List.range (ext.foldl (· * ·) 1)).map fun e => (rows.getD (e / (st * n) * st + e % st) []).getD (e / st % n) dflt

/-- An axis below RANK. -/
def axisOk (ax : Nat) (t : Tensor) : PRes Unit := pcheck (ax < t.ext.length) shapeFault

/-- `softmax` of one line. -/
def softmaxLine (xs : List FRes) : List (RVal × Nat) :=
  let fl := orFlags xs
  let mx := (xs.drop 1).foldl (fun (a : Nat × Nat) x => let r := max64 a.1 x.1; (r.1, a.2 ||| r.2)) ((xs.headD (0, 0)).1, 0)
  let es := xs.map fun x => let u := sub64 x.1 mx.1; let e := exp64 u.1; (e.1, u.2 ||| e.2)
  let s := (tree (withFlags add64) (es.map some)).getD (0, 0)
  es.map fun e => joinFlags (let r := liftNan [realOf64 e.1, realOf64 s.1] (divReal (Fp.d.unpack e.1) (Fp.d.unpack s.1)); r) (fl ||| mx.2 ||| s.2)

def execLbSoftmax (o : LbOp) (s : State) : Out State :=
  lbRun (fun m q w => do
    onlyFields o (true, true, false, false) 7 15
    let env ← lbEnv o
    let d ← m.target q w o.d.toNat
    let a ← m.plain q w o.a.toNat
    accepts 5 [d, a]
    shareOk false d [a]
    axisOk o.md.toNat a
    pcheck (d.ext == a.ext) shapeFault
    whenReady m q o w 0 [a] [d] do
      let xs ← (m.readVals q a).map codes64
      m.writeVals q env d (fromLines a.ext o.md.toNat ((.zero false, 0), 0) ((axisLines a.ext o.md.toNat).map fun l => softmaxLine (l.map (xs.getD · (0, 0)))))) s

/-- An element of `rstats`: value, weight, and whether its mask skips it. -/
structure StatElem where
  x : FRes
  w : Option FRes := none
  skip : Bool := false
  deriving DecidableEq, Repr

/-- The triple of a line (R282): runs of 32 updated in ascending index, then merged in index order. -/
def statLine (xs : List StatElem) : PRes (Triple × Nat) := do
  let runs ← (runsOf 32 xs).mapM fun r => r.foldlM (fun (t : Triple × Nat) e =>
    if e.skip then Except.ok t
    else match e.w with
      | none => let u := t.1.update e.x.1; Except.ok (u.1, t.2 ||| u.2 ||| e.x.2)
      | some w =>
        if badWeight w.1 then Except.error 0x1E
        else let u := t.1.updateW e.x.1 w.1; Except.ok (u.1, t.2 ||| u.2 ||| w.2 ||| (if (Fp.d.unpack w.1).isZero then 0 else e.x.2))) (.empty, 0)
  let t := mergeTree (runs.map fun r => some r.1)
  .ok (t.1, t.2 ||| runs.foldl (fun f r => f ||| r.2) 0)

def execLbRstats (o : LbOp) (s : State) : Out State :=
  lbRun (fun m q w => do
    onlyFields o (true, true, true, true) 7 0
    let d ← m.target q w o.d.toNat
    let a ← m.plain q w o.a.toNat
    let b ← if o.b = 0 then Except.ok none else (m.plain q w o.b.toNat).map some
    let c ← if o.c = 0 then Except.ok none else (m.plain q w o.c.toNat).map some
    let srcs := a :: (b.toList ++ c.toList)
    let ax := o.md.toNat
    accepts 9 srcs
    pcheck (d.fmt == 11) handleFault
    nfAgree srcs
    shareOk false d srcs
    axisOk ax a
    pcheck (d.ext == a.ext.set ax 1 && srcs.all (fun t => t.ext == a.ext)) shapeFault
    whenReady m q o w 0 srcs [d] do
      let xs ← (m.readVals q a).map codes64
      let ws ← match b with
        | some t => (m.readVals q t).map fun vs => (codes64 vs).map some
        | none => Except.ok []
      let ms ← match c with
        | some t => (m.readVals q t).map fun vs => vs.map fun v => v.1.isZero
        | none => Except.ok []
      let ts ← (axisLines a.ext ax).mapM fun l => statLine (l.map fun e => { x := xs.getD e (0, 0), w := ws.getD e none, skip := ms.getD e false })
      let r ← m.writeCodes q d (ts.map fun t => t.1.toNat) []
      .ok (r.1, r.2 ||| ts.foldl (fun f t => f ||| t.2) 0)) s

/-- The triples of a tensor of format 0xB; a malformed one is STAT_DOMAIN (06 R156). -/
def Machine.readTriples (m : Machine) (q : Nat) (t : Tensor) : PRes (List Triple) := do
  let xs ← m.readCodes q t
  let ts := xs.map Triple.ofNat
  pcheck (!ts.any Triple.malformed) 0x1E
  .ok ts

def execLbRdrain (o : LbOp) (s : State) : Out State :=
  lbRun (fun m q w => do
    let opt := o.md.toNat % 8
    onlyFields o (true, true, opt == 7, false) 63 allImm
    let rm ← lbRm (o.md.toNat / 8)
    let d ← m.target q w o.d.toNat
    let a ← m.plain q w o.a.toNat
    let b ← if opt = 7 then (m.plain q w o.b.toNat).map some else Except.ok none
    pcheck (a.fmt == 11) handleFault
    accepts 5 (d :: b.toList)
    shareOk false d (a :: b.toList)
    pcheck (d.ext == a.ext && b.toList.all (fun t => t.ext == d.ext)) shapeFault
    pcheck (!(5 ≤ opt && opt != 6) || !badEps o.imm.toNat) 0x1E
    whenReady m q o w 0 (a :: b.toList) [d] do
      let ts ← m.readTriples q a
      let xs ← match b with
        | some t => (m.readVals q t).map codes64
        | none => Except.ok []
      m.writeVals q { rm } d (ts.zipIdx.map fun p => let x := xs.getD p.2 (0, 0); joinFlags (of64 (p.1.drain opt x.1 o.imm.toNat)) x.2)) s

def execLbNorm (o : LbOp) (s : State) : Out State :=
  lbRun (fun m q w => do
    onlyFields o (true, true, true, true) 63 allImm
    let rm ← lbRm (o.md.toNat / 8)
    let ax := o.md.toNat % 8
    let d ← m.target q w o.d.toNat
    let a ← m.plain q w o.a.toNat
    let b ← m.plain q w o.b.toNat
    let c ← m.plain q w o.c.toNat
    accepts 5 [d, a, b, c]
    shareOk false d [a, b, c]
    axisOk ax a
    let line := (List.range a.ext.length).map fun i => if i = ax then a.ext.getD ax 1 else 1
    pcheck (d.ext == a.ext && b.ext == line && c.ext == line) shapeFault
    pcheck (!badEps o.imm.toNat) 0x1E
    whenReady m q o w 0 [a, b, c] [d] do
      let xs ← (m.readVals q a).map codes64
      let bs ← m.readVals q b
      let cs ← m.readVals q c
      let rows ← (axisLines a.ext ax).mapM fun l => do
        let es := l.map fun e => xs.getD e (0, 0)
        let t ← statLine (es.map fun x => { x })
        Except.ok (es.zipIdx.map fun p =>
          let y := t.1.drain 7 p.1.1 o.imm.toNat
          let vy := realOf64 y.1
          let vb := bs.getD p.2 (.zero false, 0)
          let vc := cs.getD p.2 (.zero false, 0)
          let r := liftNan [vy, vb, vc] (match mulVal vy.1 vb.1 with
            | some v => addReal rm v vc.1
            | none => invalidVal)
          joinFlags r (t.2 ||| y.2 ||| p.1.2))
      m.writeVals q { rm } d (fromLines a.ext ax ((.zero false, 0), 0) rows)) s

end Sys2Proof.Machine
end

