-- ==== Sys2Proof/Machine/KvGraph.lean ====
section
/-! DEFINITION. KvGraph.lean: the operators of a graph on KV tables: `attn`, `kvappend`, `kvtrunc`, `kvpromote` (12_kernels_bytecode.md R281, R285; 18_kv_tables_and_attention.md R362-R367, R374, R378). -/

namespace Sys2Proof.Machine

/-- A KV-table handle. -/
def Machine.kvHandle (m : Machine) (q : Nat) (w : Walk) (num : Nat) (write : Bool) : PRes Tensor := do
  let t ← m.tensor q w num
  pcheck (hKind t.desc == 1 && !(write && hRo t.desc)) handleFault
  .ok t

/-- The address of a root entry, and the entry. -/
def rootAddr (t : Tensor) (lg : Nat) : Nat := t.base + 32 * lg
def Machine.kvRoot (m : Machine) (q : Nat) (t : Tensor) (lg : Nat) : PRes Nat := m.parserNat q (rootAddr t lg) 32

/-- The root entry of a named group, which is in use and well formed: the cause is SHAPE_FAULT where it is not in use (R378), ATTN_RANGE for `attn` (R370). -/
def Machine.kvGroup (m : Machine) (q : Nat) (t : Tensor) (lg : Nat) (absent : Nat := shapeFault) : PRes Nat := do
  let r ← m.kvRoot q t lg
  pcheck (rootV r) absent
  pcheck (rootOk m r) 0x2F
  .ok r

def Machine.leafAt (m : Machine) (q r b : Nat) : PRes Nat := m.parserNat q (rootLeaf r + 8 * b) 8
def Machine.setLeaf (m : Machine) (q r b x : Nat) : PRes Machine := (m.parserWrite q (rootLeaf r + 8 * b) (leBytes 8 x) 2).map (·.1)
def Machine.setRoot (m : Machine) (q : Nat) (t : Tensor) (lg r : Nat) : PRes Machine := (m.parserWrite q (rootAddr t lg) (leBytes 32 r) 2).map (·.1)

/-- A position register (R285): the value must not be negative. -/
def posReg (w : Walk) (i : Nat) : PRes Nat := do
  let v := (w.reg i).toInt
  pcheck (0 ≤ v) shapeFault
  .ok v.toNat

/-- A fold over machine states that may have to wait, with what was done kept. -/
def stepsOn {α : Type} (f : Machine → α → PRes (Machine × Bool)) : Machine → List α → PRes (Machine × Bool)
  | m, [] => .ok (m, true)
  | m, x :: xs =>
    match f m x with
    | .error k => .error k
    | .ok (m, false) => .ok (m, false)
    | .ok (m, true) => stepsOn f m xs

/-- The blocks of positions `pos` to `pos + len` − 1. -/
def kvRange (r pos len : Nat) : List Nat := if len = 0 then [] else (List.range ((pos + len - 1) / rootB r + 1)).drop (pos / rootB r)

/-- The key of a row of a block's frame (R364). -/
def rowKey (m : Machine) (r e layer head : Nat) (vals : Bool) (row : Nat) : Nat :=
  ownerSpace m (leafOwner e) + oeFrame (ownerEntry m (leafOwner e) (leafGbn e)) + partOff r layer head vals + row * rootRb r

/-- A mapped block moved into HBM4E (tier 0), or below, for the operator of a queue (R366, R374, R377): the machine, and whether it lies there now; or the cause. -/
def Machine.moveBlock (m : Machine) (q r tier b : Nat) : PRes (Machine × Bool) := do
  let e ← m.leafAt q r b
  pcheck (leafMapped e) 0x2D
  let p ← m.parserSite q (rootLeaf r + 8 * b) .load
  match m.kvNeed (384 + q, 0) (leafOwner e) (leafGbn e) tier (some p.key) with
  | (m, .wait) => .ok (m, false)
  | (_, .bad why) => .error (if why = 2 then 0x31 else 0x2E)
  | (m, .ready) => .ok (m, true)

/-- A mapped block whose data an operator needs. -/
def Machine.blockReady (m : Machine) (q r b : Nat) : PRes (Machine × Bool) := m.moveBlock q r 0 b

/-! ### `attn` -/

/-- The elements of a query or output tensor have dimensions (D, H, L, NQ). -/
def headAt (r layer head row i : Nat) : Nat := i + rootD r * (head + rootH r * (layer + rootL r * row))

/-- A row of a block's keys, or of its values. -/
def Machine.kvRow (m : Machine) (r e layer head : Nat) (vals : Bool) (row : Nat) : List Nat :=
  let w := codeWidth {} (rootFmt r) / 8
  (List.range (rootD r)).map fun i => m.nat (rowKey m r e layer head vals row + i * w) w

/-- The partials of a head's query row, block by block, merged in ascending order (R371, R372). -/
def Machine.attnRow (m : Machine) (r scale : Nat) (leaves : List Nat) (layer head : Nat) (last : Int) (q : List RVal) : List Nat × Nat :=
  let f := (fpOfCode (rootFmt r)).getD .d
  leaves.zipIdx.foldl (fun (a : List Nat × Nat) p =>
    let vis := (List.range (rootB r)).filter fun t => let x := p.2 * rootB r + t; x < rootTlen r && (x : Int) ≤ last
    let toks := vis.map fun t => ((m.kvRow r p.1 layer head false t).map (rowElem f), (m.kvRow r p.1 layer head true t).map (rowElem f))
    let s := stoveRow (rootD r) scale q toks
    let g := mergeRow a.1 s.1
    (g.1, a.2 ||| s.2 ||| g.2)) (emptyRow (rootD r), 0)

def execLbAttn (o : LbOp) (s : State) : Out State :=
  lbRun (fun m q w => do
    onlyFields o (true, true, true, false) 0 (0x3F + 0xFFFFFFFF * 2 ^ 32)
    let d ← m.target q w o.d.toNat
    let a ← m.plain q w o.a.toNat
    let t ← m.kvHandle q w o.b.toNat false
    accepts 5 [d, a]
    shareOk false d [a, t]
    pcheck (a.ext.length == 4 && d.ext == a.ext) shapeFault
    fuseGroup [d, a]
    match m.builtinOf q o with
    | some image => .ok (.expand m (m.expansion q w o image 0))
    | none =>
    if !m.opReady [a.root, t.root] [d.root] then .ok (.again m)
    else do
      let lg := o.imm.toNat % 64
      let r ← m.kvGroup q t lg 0x2F
      let nq := a.ext.getD 3 1
      pcheck (lg != 63) 0x2F
      pcheck (a.ext == [rootD r, rootH r, rootL r, nq]) shapeFault
      let nb := ceilDiv (rootTlen r) (rootB r)
      pcheck (nb ≤ rootNlb r && nq ≤ 32) 0x2F
      let st ← stepsOn (fun m b => m.blockReady q r b) m (List.range nb)
      if !st.2 then .ok (.again st.1)
      else do
        let m := st.1
        let leaves ← (List.range nb).mapM (m.leafAt q r)
        let qs ← m.readVals q a
        let scale := match Fp.s.unpack (bits o.imm.toNat 32 32) with
          | .nan .. => nanConvert .s .d (bits o.imm.toNat 32 32)
          | v => (Fp.d.ofVal {} false v).1
        let cells := (List.range nq).flatMap fun i => (List.range (rootL r)).flatMap fun l => (List.range (rootH r)).map fun h => (i, l, h)
        let out := cells.map fun (p : Nat × Nat × Nat) =>
          let row := m.attnRow r scale leaves p.2.1 p.2.2 ((rootTlen r : Int) - nq + p.1)
            ((List.range (rootD r)).map fun j => qs.getD (headAt r p.2.1 p.2.2 p.1 j) (.zero false, 0))
          let sum := row.1.getD 1 0
          (List.range (rootD r)).map fun j =>
            let x := row.1.getD (2 + j) 0
            joinFlags (if sum = 0 then ((.zero false, 0), 0) else liftNan [realOf64 x, realOf64 sum] (divReal (Fp.d.unpack x) (Fp.d.unpack sum))) row.2
        let res ← m.writeVals q {} d out.flatten
        .ok (.done res.1 { w.step with flg := w.flg ||| res.2 })) s

/-! ### `kvappend` -/

/-- A block that is not mapped gets a block number, a frame and its two entries (R378). -/
def Machine.mapBlock (m : Machine) (q r b : Nat) : PRes (Machine × Bool) := do
  let e ← m.leafAt q r b
  if bit e 63 then .ok (m, true)
  else
    match m.kvPop (selfPkg m) 3 with
    | none => .ok (m, false)
    | some (m1, gbn) =>
      match m1.kvPop (selfPkg m) 0 with
      | none => .ok (m, false)
      | some (m2, frame) => do
        let m3 ← (m2.setNat (ownerKey m2 (selfPkg m2) gbn) 32 (2 ^ 63 + frame / 4096 * 4096)).setLeaf q r b (2 ^ 63 + selfPkg m2 * 2 ^ 52 + gbn % 2 ^ 40)
        .ok (m3, true)

/-- The rows of the appended tiles written into the frames. -/
def Machine.appendRows (m : Machine) (q r pos n : Nat) (ks vs : List Nat) : PRes Machine :=
  let w := codeWidth {} (rootFmt r) / 8
  (List.range n).foldlM (fun m i => do
    let e ← m.leafAt q r ((pos + i) / rootB r)
    let m := m.kvOpen (leafOwner e) (leafGbn e)
    let heads := (List.range (rootL r)).flatMap fun l => (List.range (rootH r)).map fun h => (l, h)
    Except.ok (heads.foldl (fun (m : Machine) (p : Nat × Nat) =>
      [(false, ks), (true, vs)].foldl (fun (m : Machine) (t : Bool × List Nat) =>
        m.setBytes (rowKey m r e p.1 p.2 t.1 ((pos + i) % rootB r)) ((List.range (rootD r)).flatMap fun j => leBytes w (t.2.getD (headAt r p.1 p.2 i j) 0))) m) m)) m

/-- The codes that go into the frames, with flags: those of the handle, or of a block-scaled one its values rounded into its format (R377; 02 R47). -/
def Machine.rowCodes (m : Machine) (q : Nat) (t : Tensor) : PRes (List FRes) := do
  if t.scaled then
    let vs ← m.readVals q t
    .ok (vs.map (elemOf {} t.nf t.cb t.fmt none))
  else
    let xs ← m.readCodes q t
    .ok (xs.map (·, 0))

def execLbKvappend (o : LbOp) (s : State) : Out State :=
  lbRun (fun m q w => do
    onlyFields o (true, true, true, false) 0 0x3F3F
    let t ← m.kvHandle q w o.d.toNat true
    let a ← m.plain q w o.a.toNat
    let b ← m.plain q w o.b.toNat
    shareOk false t [a, b]
    let pos ← posReg w (bits o.imm.toNat 8 6)
    fuseGroup [a, b]
    if !m.opReady [a.root, b.root] [t.root] then .ok (.again m)
    else do
      let lg := o.imm.toNat % 64
      let r ← m.kvGroup q t lg
      pcheck (lg != 63) 0x2F
      let n := a.ext.getD 3 1
      pcheck (a.ext == [rootD r, rootH r, rootL r, n] && b.ext == a.ext && a.fmt == rootFmt r && b.fmt == rootFmt r) shapeFault
      pcheck (pos ≤ rootTlen r) shapeFault
      let bs := kvRange r pos n
      pcheck (bs.all (· < rootNlb r)) 0x2F
      let m1 ← stepsOn (fun m b => m.mapBlock q r b) m bs
      if !m1.2 then .ok (.again m1.1)
      else match m1.1.builtinOf q o with
      | some image => .ok (.expand m1.1 { m1.1.expansion q w o image 0 with tlen := some (rootAddr t lg, pos + n) })
      | none => do
        let m2 ← stepsOn (fun m b => m.blockReady q r b) m1.1 bs
        if !m2.2 then .ok (.again m2.1)
        else do
          let ks ← m2.1.rowCodes q a
          let vs ← m2.1.rowCodes q b
          let m3 ← m2.1.appendRows q r pos n (ks.map (·.1)) (vs.map (·.1))
          let m4 ← m3.setRoot q t lg (setBits r 128 24 (max (rootTlen r) (pos + n)))
          .ok (.done m4 { w.step with flg := w.flg ||| orFlags (ks ++ vs) })) s

/-! ### `kvtrunc` -/

/-- The owner's entry, frames and block number go back (R366, R378); another owner is sent the free, over a link (19 R387). -/
def Machine.freeBlock (m : Machine) (e : Nat) : PRes (Machine × Bool) :=
  let pkg := leafOwner e
  let gbn := leafGbn e
  if pkg ≠ selfPkg m ∧ routes m pkg = [] then .ok (m, false)
  else match m.kvFree pkg gbn with
    | none => .ok (m, false)
    | some m => .ok (if pkg = selfPkg m then m else { m with out := m.out ++ [OutMsg.freeBlock pkg gbn] }, true)

/-- Positions from `len` onward are discarded in one group. -/
def Machine.truncGroup (m : Machine) (q : Nat) (t : Tensor) (len lg : Nat) : PRes (Machine × Bool) := do
  let r ← m.kvRoot q t lg
  let m1 ← m.setRoot q t lg (setBits r 128 24 (min (rootTlen r) len))
  stepsOn (fun m b => do
    let e ← m.leafAt q r b
    if !bit e 63 then .ok (m, true)
    else do
      let f ← m.freeBlock e
      if !f.2 then .ok (f.1, false)
      else do
        let m ← f.1.setLeaf q r b (setBits e 63 1 0)
        .ok (m, true)) m1 ((List.range (rootNlb r)).drop (ceilDiv len (rootB r)))

def execLbKvtrunc (o : LbOp) (s : State) : Out State :=
  lbRun (fun m q w => do
    onlyFields o (true, false, false, false) 0 0x3F3F
    let t ← m.kvHandle q w o.d.toNat true
    let len ← posReg w (bits o.imm.toNat 8 6)
    if !m.opReady [] [t.root] then .ok (.again m)
    else do
      let lg := o.imm.toNat % 64
      let groups ← if lg = 63 then do
          let rs ← (List.range 63).mapM fun g => (m.kvRoot q t g).map fun r => (g, r)
          Except.ok ((rs.filter fun p => rootV p.2).map (·.1))
        else do
          let _ ← m.kvGroup q t lg
          Except.ok [lg]
      let r ← stepsOn (fun m g => m.truncGroup q t len g) m groups
      if r.2 then .ok (.done r.1 w.step) else .ok (.again r.1)) s

/-! ### `kvpromote` -/


def execLbKvpromote (o : LbOp) (s : State) : Out State :=
  lbRun (fun m q w => do
    onlyFields o (true, false, false, false) 0 0x33F3F3F
    let t ← m.kvHandle q w o.d.toNat true
    let tier := bits o.imm.toNat 24 2
    pcheck (tier != 1) shapeFault
    let pos ← posReg w (bits o.imm.toNat 8 6)
    let len ← posReg w (bits o.imm.toNat 16 6)
    if !m.opReady [] [t.root] then .ok (.again m)
    else do
      let lg := o.imm.toNat % 64
      let r ← m.kvGroup q t lg
      pcheck (lg != 63) 0x2F
      let bs := kvRange r pos len
      pcheck (bs.all (· < rootNlb r)) 0x2F
      match m.builtinOf q o with
      | some image => .ok (.expand m (m.expansion q w o image 0))
      | none => do
        let st ← stepsOn (fun m b => m.moveBlock q r tier b) m bs
        if st.2 then .ok (.done st.1 w.step) else .ok (.again st.1)) s

end Sys2Proof.Machine
end

