-- ==== Sys2Proof/Machine/Lower.lean ====
section
/-! DEFINITION. Lower.lean: collectives as the Parser lowers them to instances 960-1023, the heaps of the dies, and the two events that serve every launch (20_collective_instances.md R396-R403, R409; 12_kernels_bytecode.md R284; 13_kernels_microcode.md R296, R299; 11_queues_and_scheduling.md R266, R267). -/

namespace Sys2Proof.Machine

/-! ### The heap of a die (13 R296) -/

/-- The length of a die's heap, and where it begins. -/
def dieHeapLen (m : Machine) : Nat := heapLen m / 8 / 4096 * 4096
def dieHeapLo (m : Machine) (die : Nat) : Nat := heapBase m + die * dieHeapLen m

/-- A range of the heap in whole pages, first fit; none when no free range is large enough now. -/
def Machine.heapAlloc (m : Machine) (die bytes : Nat) : Option (Machine × (Nat × Nat)) :=
  let p := m.parser die
  let lo := dieHeapLo m die
  let len := roundUp (max 1 bytes) 4096
  let free (a : Nat) : Bool := lo ≤ a && a + len ≤ lo + dieHeapLen m && p.heap.all fun h => !overlaps a len h.1 h.2
  match ((lo :: p.heap.map fun h => h.1 + h.2).filter free).min? with
  | some a => some (m.setParser die { p with heap := p.heap ++ [(a, len)] }, (a, len))
  | none => none

/-- Several ranges together, or none. -/
def Machine.heapAllocs (m : Machine) (die : Nat) : List Nat → Option (Machine × List (Nat × Nat))
  | [] => some (m, [])
  | n :: ns =>
    match m.heapAlloc die n with
    | none => none
    | some (m, h) => (Machine.heapAllocs m die ns).map fun r => (r.1, h :: r.2)

/-! ### Domain groups (14 R303) -/

/-- A member of a domain group: the number of members and this package's rank. -/
def groupMember (m : Machine) (lvl grp : Nat) : Option (Nat × Nat) :=
  let r := m.nat (grb m + 64 * (if lvl = 4 then 128 + grp else if lvl = 5 then 384 + grp else 640 + grp)) 64
  let n := bits r 185 9
  ((List.range n).find? fun k => m.nat (bits r 64 64 + 2 * k) 2 % 512 == selfPkg m).map fun k => (n, k)

/-- The member map of a domain group. -/
def groupMap (m : Machine) (lvl grp : Nat) : List Nat :=
  let r := m.nat (grb m + 64 * (if lvl = 4 then 128 + grp else if lvl = 5 then 384 + grp else 640 + grp)) 64
  (List.range (bits r 185 9)).map fun k => m.nat (bits r 64 64 + 2 * k) 2 % 512

/-! ### Launches of collectives -/

/-- A new launch under the next number, in the handle table and the graph. -/
def Machine.newLaunch (m : Machine) (l : Launch) (reads writes : List Nat) : Machine × Nat :=
  let li := m.nextLaunch
  let after := l.after ++ m.opAfter reads writes
  let commits := reads.filterMap fun k => (m.handle k).last
  (({ m with nextLaunch := li + 1 }.setLaunch li { l with reads, writes, after, commits }).opEnter li reads writes, li)

/-- A queue holds at most 8 launches, and a handle at most 16 readers (11 R259; 12 R290). -/
def Machine.roomFor (m : Machine) (q n : Nat) (reads : List Nat) : Bool := (m.liveLaunches q).length + n ≤ 8 && !m.readersFull reads

/-- The range of a tensor's root that its readers' copies cover (12 R290); a KV table's frames may lie anywhere, so it covers all. -/
def Tensor.covers (t : Tensor) : Nat × Nat × Nat := (t.root, t.range.1, if hKind t.desc = 1 then 2 ^ 21 + 1 else t.range.2)

/-- The place of a tensor as a collective keeps it. -/
def Tensor.place (t : Tensor) : Nat × List Nat × Nat := (t.key, t.ext, setBits t.desc 448 64 t.base)
def ofPlace (p : Nat × List Nat × Nat) : Tensor := { key := p.1, root := p.1, desc := p.2.2, base := hBase p.2.2, ext := p.2.1 }

/-- Bits of an element in a payload: a scaled one brings the scale byte of its block (log 87, DESIGN CHOICE). -/
def Tensor.payWidth (t : Tensor) : Nat := t.width + if t.scaled then 8 else 0

/-- Elements of a piece of an entry: 2 MiB at most, 128 triples for `merge` (R399; 20 R408) (log 54, DEDUCED). -/
def pieceLen (t : Tensor) (merge : Bool) : Nat := if merge then 128 else 2 ^ 24 / t.payWidth

/-- Bytes of a piece: whole words, and 3072 for `merge`. -/
def payloadLen (t : Tensor) (merge : Bool) (n : Nat) : Nat := if merge then 3072 else roundUp (ceilDiv (n * t.payWidth) 8) 8

/-- Where the scale bytes of a piece begin. -/
def scalesAt (t : Tensor) (n : Nat) : Nat := ceilDiv (n * t.width) 8

/-- One entry cut into pieces. -/
def pieces (t : Tensor) (p : CollPart) : List CollPart :=
  let k := pieceLen t (p.opr == 4)
  (List.range (ceilDiv p.n k)).map fun i => { p with n := min k (p.n - k * i), from_ := (p.from_.drop (k * i)).take k, into := (p.into.drop (k * i)).take k }

/-- The elements of a box of a tensor, in logical order: lengths and first index per dimension. -/
def boxOf (ext lens offs : List Nat) : List Nat :=
  (List.range (lens.foldl (· * ·) 1)).map fun e => linear ext (((coords lens e).zip offs).map fun p => p.1 + p.2)

/-- The elements of slice `s` of `n` along an axis. -/
def sliceOf (ext : List Nat) (ax n s : Nat) : List Nat :=
  let k := ext.getD ax 1 / n
  boxOf ext (ext.set ax k) ((List.replicate ext.length 0).set ax (s * k))

/-- Elements when this member takes part, else none. -/
def only_ (b : Bool) (xs : List Nat) : List Nat := if b then xs else []

/-- The entries of `allreduce`, `rscatter`, `allgather`, `alltoall` and `bcast` for P members at rank k (R409). -/
def allreduceParts (a : Tensor) (opr : Nat) : List CollPart :=
  pieces a { opr, src := 0, n := a.count, from_ := List.range a.count, into := List.range a.count }

def rscatterParts (a d : Tensor) (ax opr p k : Nat) : List CollPart :=
  (List.range p).flatMap fun s => pieces a { opr, src := 0, dr := some s, n := d.count, from_ := sliceOf a.ext ax p s, into := only_ (s == k) (List.range d.count) }

def allgatherParts (a d : Tensor) (ax p k : Nat) : List CollPart :=
  (List.range p).flatMap fun s => pieces a { opr := 0, src := s, n := a.count, from_ := only_ (s == k) (List.range a.count), into := sliceOf d.ext ax p s }

/-- The slices go along an axis of A and stand one after the other along an axis of D. -/
def alltoallParts (a d : Tensor) (ax dx p k : Nat) : List CollPart :=
  (List.range p).flatMap fun s => (List.range p).flatMap fun r =>
    pieces a { opr := 0, src := s, dr := some r, n := a.count / p, from_ := only_ (s == k) (sliceOf a.ext ax p r), into := only_ (r == k) (sliceOf d.ext dx p s) }

def bcastParts (a : Tensor) (root k : Nat) : List CollPart :=
  pieces a { opr := 0, src := root, n := a.count, from_ := only_ (root == k) (List.range a.count), into := List.range a.count }

/-- The part of a global tensor that shard `s` holds: first index and length per dimension. -/
def shardBox (t : Tensor) (s : Nat) : List (Nat × Nat) :=
  t.ext.zipIdx.map fun p => if hSn t.desc ≠ 1 ∧ p.2 = hSax t.desc then (s * p.1, p.1) else (0, p.1)

/-- The elements that move from shard `s` of A to shard `r` of D, as elements of A and of D. -/
def moved (a d : Tensor) (s r : Nat) : List Nat × List Nat :=
  let bx := (shardBox a s).zip (shardBox d r)
  let lo := bx.map fun p => max p.1.1 p.2.1
  let len := bx.map fun p => min (p.1.1 + p.1.2) (p.2.1 + p.2.2) - max p.1.1 p.2.1
  (boxOf a.ext len ((lo.zip bx).map fun p => p.1 - p.2.1.1), boxOf d.ext len ((lo.zip bx).map fun p => p.1 - p.2.2.1))

/-- The entries of `reshard`, and the elements that stay on this package. An unsharded A is on every package already. -/
def reshardParts (a d : Tensor) (p k : Nat) : List CollPart × List (Nat × Nat) :=
  let sharded := hSn a.desc != 1
  let mine := moved a d k k
  (if !sharded then [] else (List.range p).flatMap fun s => (List.range p).flatMap fun r =>
    let v := moved a d s r
    if s = r ∨ v.1 = [] then [] else pieces a { opr := 0, src := s, dr := some r, n := v.1.length, from_ := only_ (s == k) v.1, into := only_ (r == k) v.2 },
   mine.1.zip mine.2)

/-- A sharded handle agrees with the operator's group (R284). -/
def shardAgrees (t : Tensor) (lvl grp p k : Nat) : Bool := hSax t.desc == 15 || (hSlv t.desc == lvl && hSgn t.desc == grp && hSn t.desc == p && hSix t.desc == k)

/-- Extents of the global tensor. -/
def globalExt (t : Tensor) : List Nat := if hSn t.desc = 1 then t.ext else t.ext.set (hSax t.desc) (hSn t.desc * t.ext.getD (hSax t.desc) 1)

/-! ### The bytecode collectives (R284) -/

/-- The launch record of a collective that the Parser lowers itself, which runs no routine (11 R261, R264): the queue's image area, DMR, LEVEL and LANE, NTILE its entries, FMTV and the RNG state. -/
def Machine.collRecord (m : Machine) (q : Nat) (w : Walk) (ln n : Nat) : Nat :=
  let d := m.queueDesc q
  pack [(320, qImg d), (1024, 0xF), (1088, qLevel d + 16 * max (qLane d) ln), (1216, n), (1239, 0x0C), (1280, w.rngCtr.toNat), (1344, w.rngKey.toNat)]

/-- What the collectives share: the checks, then a launch with the job that `build` gives for P members at rank k. -/
def lbColl (mods : Nat) (root : Bool) (o : LbOp) (build : Tensor → Tensor → Nat → Nat → PRes (List CollPart × List (Nat × Nat))) (s : State) : Out State :=
  lbRun (fun m q w => do
    let imm := o.imm.toNat
    onlyFields o (true, true, false, false) mods (1023 * 2 ^ 32 + 255 * 2 ^ 24 + (if root then 1023 * 2 ^ 8 else 0) + 7 * 2 ^ 4 + 7)
    let lvl := bits imm 0 3
    let grp := bits imm 24 8
    let inst := bits imm 32 10
    let _ ← lbRm (bits imm 4 3)
    let d ← m.target q w o.d.toNat
    let a ← m.plain q w o.a.toNat
    moveOk d [a]
    fuseGroup [d, a]
    shareOk false d [a]
    pcheck (4 ≤ lvl && lvl ≤ 6) shapeFault
    pcheck (960 ≤ inst) microFault
    match groupMember m lvl grp with
    | none => .error shapeFault
    | some (p, k) => do
      pcheck (shardAgrees a lvl grp p k && shardAgrees d lvl grp p k) shapeFault
      let job ← build a d p k
      pcheck (job.1.length ≤ 4096) microFault
      match m.builtinOf q o with
      | some image => .ok (.expand m (m.expansion q w o image 0))
      | none =>
      if !m.roomFor q 1 [a.root] then .ok (.again m)
      else
        let l : Launch := { lrec := m.collRecord q w o.ln.toNat job.1.length, queue := q, fofs := w.pos, coll := some { inst, lvl, grp, rm := bits imm 4 3 % 7, src := a.place, dst := d.place, parts := job.1, stay := job.2 } }
        let r := m.newLaunch l [a.root] [d.root]
        .ok (.done r.1 { w.step with launches := w.launches ++ [r.2] })) s

/-- The operator of a reduction, which accepts the format; a scaled tensor is refused as `tred` refuses it (20 R400, R408) (log 54, DEDUCED). -/
def reduceOpr (fn : Nat) (a : Tensor) : PRes Nat := do
  pcheck (fn ≤ 3) reservedFault
  let op : RedOp := match fn with | 0 => .sum | 1 => .max | 2 => .min | _ => .merge
  pcheck (redAccepts op a.fmt && !a.scaled) handleFault
  .ok (fn + 1)

def execLbAllreduce (o : LbOp) (s : State) : Out State :=
  lbColl 63 false o (fun a d _ _ => do
    let opr ← reduceOpr o.md.toNat a
    pcheck (a.ext == d.ext && globalExt a == globalExt d) shapeFault
    .ok (allreduceParts a opr, [])) s

def execLbAllgather (o : LbOp) (s : State) : Out State :=
  lbColl 0 false o (fun a d p k => do
    pcheck ((p == 1 || hSn a.desc == p) && hSn d.desc == 1 && d.ext == globalExt a) shapeFault
    .ok (allgatherParts a d (if p = 1 then 0 else hSax a.desc) p k, [])) s

def execLbRscatter (o : LbOp) (s : State) : Out State :=
  lbColl 63 false o (fun a d p k => do
    let opr ← reduceOpr o.md.toNat a
    pcheck ((p == 1 || hSn d.desc == p) && hSn a.desc == 1 && a.ext == globalExt d) shapeFault
    .ok (rscatterParts a d (if p = 1 then 0 else hSax d.desc) opr p k, [])) s

def execLbAlltoall (o : LbOp) (s : State) : Out State :=
  lbColl 7 false o (fun a d p k => do
    let ax := o.md.toNat
    let sx := hSax a.desc
    let turned := a.ext != d.ext
    pcheck (ax < a.ext.length && a.ext.getD ax 1 % p == 0 && globalExt a == globalExt d &&
      (!turned || (hSn a.desc == p && hSn d.desc == p && d.ext == (a.ext.set ax (a.ext.getD ax 1 / p)).set sx (a.ext.getD sx 1 * p)))) shapeFault
    .ok (alltoallParts a d ax (if turned then sx else ax) p k, [])) s

def execLbBcast (o : LbOp) (s : State) : Out State :=
  lbColl 0 true o (fun a d p k => do
    let root := bits o.imm.toNat 8 10
    pcheck (root < p && a.ext == d.ext && globalExt a == globalExt d) shapeFault
    .ok (bcastParts a root k, [])) s

def execLbReshard (o : LbOp) (s : State) : Out State :=
  lbColl 0 false o (fun a d p k => do
    pcheck (globalExt a == globalExt d) shapeFault
    .ok (reshardParts a d p k)) s

/-! ### A collective launch at work (R409) -/

/-- A member must fire a part; the part arrives here. -/
def CollPart.fires (p : CollPart) (k : Nat) : Bool := p.opr != 0 || p.src == k
def CollPart.lands (p : CollPart) (k : Nat) : Bool := p.dr.isNone || p.dr == some k

/-- An entry as the Parser writes it (R399), with the FIRED that the part keeps in it. -/
def CollPart.entry (p : CollPart) (j : CollJob) (len caddr raddr flag fired : Nat) : Nat :=
  pack [(448, raddr), (384, caddr), (256, flag), (128, fired), (84, len), (55, if p.opr = 0 then p.src else 0), (46, p.dr.getD 0),
        (22, 1), (20, if p.dr.isSome then 1 else 0), (17, p.opr), (12, hFmt j.src.2.2), (9, j.rm)]

/-- The payload of a part: its codes and, where they are scaled, a scale byte for each, filled up with zeros, or with empty triples for `merge`. -/
def CollPart.payload (p : CollPart) (t : Tensor) (elems : List Moved) : List Byte :=
  let es := p.from_.map (elems.getD · .zero)
  let xs := es.map fun x => match x with
    | .elem c _ => c
    | .zero | .value _ _ => 0
  if p.opr = 4 then (xs ++ List.replicate (128 - xs.length) Triple.empty.toNat).flatMap (leBytes 24)
  else
    let bs := packCodes t.width xs (List.replicate (scalesAt t p.n) 0) ++ es.filterMap fun x => x.scale?.map (.ofNat 8)
    bs ++ List.replicate (payloadLen t false p.n - bs.length) 0

/-- The `i`th element of a part as it arrived. -/
def CollPart.arrived (p : CollPart) (t : Tensor) (bs : List Byte) (i : Nat) : Moved :=
  .elem (bitsOf bs (t.width * i) t.width) (if t.scaled then some (leNat ((bs.drop (scalesAt t p.n + i)).take 1)) else none)

/-- The generation opens (R409): the claim, the record, the map, the entries, and this member's contributions. A job without an entry is done at once. -/
def Machine.openColl (m : Machine) (li : Nat) (l : Launch) (j : CollJob) : Machine :=
  match groupMember m j.lvl j.grp with
  | none => m.failLaunch li shapeFault
  | some (p, k) =>
    let a := ofPlace j.src
    match m.readElems l.queue a with
    | .error e => if e = 0 then m else m.failLaunch li e
    | .ok elems =>
      if j.parts = [] then m.setLaunch li { l with bound := true, coll := some { j with gen := some 0 } }
      else
        let area := bits (dirWord m j.inst) 0 46
        if !dirOk (dirWord m j.inst) ∨ m.claims.contains j.inst ∨ crOpen (m.nat area 64) then m
        else
          let lens := j.parts.map fun c => payloadLen a (c.opr == 4) c.n
          let sizes := lens.map fun n => 2 * n + 8
          if dieHeapLen m < roundUp sizes.sum 4096 then m.failLaunch li microFault
          else match m.heapAlloc (l.queue / 16) sizes.sum with
          | none => m
          | some (m, h) =>
            let gen := crGen (m.nat area 64) + 1
            let m := m.setNat area 64 (pack [(448, area + 4096), (384, area + 64), (320, gen), (264, 1), (256, l.queue), (243, j.parts.length), (234, p), (225, k)])
            let m := (groupMap m j.lvl j.grp).zipIdx.foldl (fun (m : Machine) (x : Nat × Nat) => m.setNat (area + 64 + 2 * x.2) 2 x.1) m
            let step (r : Machine × List CollPart × Nat) (x : (CollPart × Nat) × Nat) : Machine × List CollPart × Nat :=
              let c := x.1.1
              let len := x.1.2
              let raddr := if c.raddr = 0 then r.2.2 + len else c.raddr
              let key := area + 4096 + 64 * x.2
              let m := r.1.setNat key 64 (c.entry j len r.2.2 raddr (r.2.2 + 2 * len) (if c.fires k then gen else ceFired (r.1.nat key 64)))
              let m := if c.fires k then ((m.setBytes r.2.2 (c.payload a elems)).setColl j.inst x.2 { m.coll j.inst x.2 with contributed := true, ctx := parserFires + li }) else m
              (m, r.2.1 ++ [{ c with raddr }], r.2.2 + 2 * len + 8)
            let r := (j.parts.zip lens).zipIdx.foldl step (m, [], h.1)
            { r.1.setLaunch li { l with bound := true, heap := l.heap ++ [h], coll := some { j with gen := some gen, parts := r.2.1 } } with claims := r.1.claims ++ [j.inst] }

/-- The destination of a finished collective: its elements with those that stayed and those that arrived. -/
def Machine.finishColl (m : Machine) (li : Nat) (l : Launch) (j : CollJob) (k : Nat) : PRes Machine := do
  let a := ofPlace j.src
  let d := ofPlace j.dst
  let src ← m.readElems l.queue a
  let old ← if hTr d.desc ∧ (m.handle d.key).codes.length ≠ d.count then Except.ok (List.replicate d.count Moved.zero) else m.readElems l.queue d
  let kept := j.stay.foldl (fun (xs : List Moved) p => xs.set p.2 (src.getD p.1 .zero)) old
  let new := (j.parts.filter fun c => c.lands k).foldl (fun (xs : List Moved) c =>
    let bs := m.bytes c.raddr (payloadLen a (c.opr == 4) c.n)
    c.into.zipIdx.foldl (fun (xs : List Moved) p => xs.set p.1 (c.arrived a bs p.2)) xs) kept
  let r ← m.writeElems l.queue d new
  .ok (match r.1.launch li with
    | some l => let l := { l with flg := l.flg ||| r.2 }; (r.1.setLaunch li l).completeLaunch li l
    | none => r.1)

/-- A collective launch completes once its generation has closed (R403, R409). -/
def Machine.countColl (m : Machine) (li : Nat) (l : Launch) (j : CollJob) : Machine :=
  if l.complete || l.failed then m
  else if j.overrun then m.failLaunch li 0x2B
  else
    match j.gen, groupMember m j.lvl j.grp with
    | some g, some (_, k) =>
      let r := m.nat (bits (dirWord m j.inst) 0 46) 64
      if j.parts ≠ [] ∧ crOpen r = true ∧ crGen r = g then m
      else match m.finishColl li l j k with
        | .ok m => m
        | .error e => if e = 0 then m else m.failLaunch li e
    | _, _ => m

/-! ### The events that serve every launch -/

/-- Binding (11 R267): a collective opens its generation, any other launch takes contexts. -/
def Machine.serveLaunch (m : Machine) (li : Nat) : Machine :=
  match m.launch li with
  | none => m
  | some l =>
    match l.coll with
    | some j => if l.complete || l.failed || j.gen.isSome || m.depsMet l = false then m else (m.openColl li l j).refreshQueue l.queue
    | none => m.bindLaunch li

def execLaunchBind (launch : Nat) (s : State) : Out State := .next { s with m := s.m.serveLaunch launch }

/-- A tile is counted (11 R266), or a collective is. -/
def Machine.countLaunch (m : Machine) (li ti : Nat) : Machine :=
  match (m.launch li).bind fun l => l.coll.map fun j => (l, j) with
  | some (l, j) => m.countColl li l j
  | none => m.countTile li ti

def execTileDone (launch ti : Nat) (s : State) : Out State := .next { s with m := s.m.countLaunch launch ti }

end Sys2Proof.Machine
end

