-- ==== Sys2Proof/Machine/Micro.lean ====
section
/-! DEFINITION. Micro.lean: custom operators: the microcode words, the launch that an expansion builds, and the installation of images (12_kernels_bytecode.md R289; 13_kernels_microcode.md R292-R300; 26_program_clamped_square.md R430). -/

namespace Sys2Proof.Machine

/-! ### Words at work (R295, R296) -/

/-- The bytecode field of an operand: D, A, B or C. -/
def operandNum (o : LbOp) (h : Nat) : Nat := match h with | 0 => o.d.toNat | 1 => o.a.toNat | 2 => o.b.toNat | _ => o.c.toNat

/-- The image declares no operand: D is written and A-C are read (12 R289). -/
def Expansion.bare (e : Expansion) : Bool := e.rd == 14 && e.wr == 1

/-- The words expand a built-in operator, whose checks are made before its first word (12 R280). -/
def Expansion.builtin (e : Expansion) : Bool := decide (e.op.op.toNat < 0xC0)

/-- The operands that the operator reads or writes; a built-in operator may leave some of those that its image declares unused. -/
def Expansion.operands (e : Expansion) : List Nat := (List.range 4).filter fun h => (bit e.rd h || bit e.wr h) && (operandNum e.op h != 0 || !(e.bare || e.builtin))

/-- A source that the Parser gathers first (R299, R430). -/
def Expansion.gathers (e : Expansion) (h : Nat) (t : Tensor) : Bool := hSn t.desc != 1 && e.shards.any fun s => s.1 == h && s.2.1 == 1

/-- An operand as the words see it: its local shard, or the global extents of its gather. -/
def Machine.operand (m : Machine) (w : Walk) (e : Expansion) (h : Nat) : PRes Tensor := do
  let t ← if bit e.wr h then m.target e.queue w (operandNum e.op h) else m.plain e.queue w (operandNum e.op h)
  .ok (if e.gathers h t then { t with ext := globalExt t } else t)

/-- An expansion waits for a route (code 0), or is given up, with the one that waits to be fused to it: the queue fails with FOFS the operator's offset. -/
def State.abandon (s : State) (d : Nat) (e : Expansion) (cause : Nat) : Out State :=
  let m := s.m.dropParked e.queue
  .next { s with m := if cause = 0 then s.m else (m.setParser d { m.parser d with exp := none }).failQueue e.queue cause e.fofs, turn := .none }

/-- Runs a word of the expansion that has the turn. -/
def ucRun (f : Machine → Walk → Expansion → PRes Expansion) (s : State) : Out State :=
  match s.turn with
  | .micro d =>
    match (s.m.parser d).exp with
    | none => .next { s with turn := .none }
    | some e =>
      match s.m.walkOf e.queue with
      | none => .next { s with m := s.m.setParser d { s.m.parser d with exp := none }, turn := .none }
      | some w =>
        match f s.m w e with
        | .ok e' => .next { s with m := s.m.setParser d { s.m.parser d with exp := some { e' with pos := e.pos + 1 } } }
        | .error k => s.abandon d e k
  | _ => .next s

/-- `ophdr`: what the operator reads and writes; every operand named is a handle, and no written root is shared (12 R277, R282, R289). -/
def execUcOphdr (rd wr : BitVec 4) (_ : BitVec 13) (_ : BitVec 8) (s : State) : Out State :=
  ucRun (fun m w e => do
    let e := if rd = 0 ∧ wr = 0 then e else { e with rd := rd.toNat, wr := wr.toNat }
    let hs := e.operands
    if e.builtin then .ok e
    else do
      pcheck ((List.range 4).all fun h => hs.contains h || operandNum e.op h == 0) reservedFault
      let ts ← hs.mapM fun h => (m.tensor e.queue w (operandNum e.op h)).map fun t => (h, t)
      pcheck (ts.all fun p => !(bit e.wr p.1 && hRo p.2.desc)) handleFault
      pcheck (ts.all fun p => !bit e.wr p.1 || ts.all fun r => r.1 == p.1 || r.2.root != p.2.root) handleFault
      let _ ← agreeNf (ts.map (·.2))
      .ok e) s

/-- `oshape`: the extent of an iteration dimension. -/
def execUcOshape (n : BitVec 2) (src : ShapeSrc) (s : State) : Out State :=
  ucRun (fun m w e => do
    let r ← match src with
      | .dim h i => do
        let t ← m.operand w e h.toNat
        pcheck (i.toNat < t.ext.length) shapeFault
        Except.ok ((t.ext.getD i.toNat 0 : Int), [(h.toNat, i.toNat, n.toNat)])
      | .reg r => Except.ok ((w.reg r.toNat).toInt, [])
      | .lit v => Except.ok ((v.toNat : Int), [])
    let old := SMap.get 0 e.ext n.toNat
    pcheck (1 ≤ r.1 && r.1 < 2 ^ 24 && (old == 0 || (old : Int) == r.1)) shapeFault
    .ok { e with ext := SMap.set 0 e.ext n.toNat r.1.toNat, follows := e.follows ++ r.2 }) s

def execUcOrder (perm : BitVec 8) (cyclic : Bool) (s : State) : Out State := ucRun (fun _ _ e => .ok { e with perm := perm.toNat, cyclic }) s

/-- The extent of an iteration dimension, and of its tiles. -/
def Expansion.dimExt (e : Expansion) (n : Nat) : Nat := max 1 (SMap.get 0 e.ext n)
def Expansion.tileExt (e : Expansion) (n : Nat) : Nat := let t := SMap.get 0 e.ts n; if t = 0 then e.dimExt n else t

/-- Tiles per dimension, and in all; and their limits (R296). -/
def Expansion.tiles (e : Expansion) (n : Nat) : Nat := ceilDiv (e.dimExt n) (e.tileExt n)
def Expansion.ntile (e : Expansion) : Nat := ((List.range 4).map e.tiles).foldl (· * ·) 1
def Expansion.tilesOk (e : Expansion) : Bool := (List.range 4).all (fun n => e.tiles n ≤ 1024) && e.ntile < 2 ^ 23

/-- `tiledim`: the tile extent of a dimension, and the number of tiles that it gives. -/
def execUcTiledim (n : BitVec 2) (ts : BitVec 11) (s : State) : Out State :=
  ucRun (fun _ _ e => do
    let e := { e with ts := SMap.set 0 e.ts n.toNat ts.toNat }
    pcheck e.tilesOk shapeFault
    .ok e) s

/-- The identifier entry of a bound operand (07 R172). -/
def Expansion.entry_ (e : Expansion) (h : Nat) (t : Tensor) : Nat :=
  let dims := (List.range t.ext.length).map fun d =>
    let x := match e.follows.find? fun f => f.1 == h && f.2.1 == d with
      | some f => e.tileExt f.2.2
      | none => t.ext.getD d 1
    x + (t.ext.take d).foldl (· * ·) 1 * 2 ^ 24
  pack ([(0, hScale t.desc), (64, t.fmt), (68, t.ext.length), (75, 1), (76, hCb t.desc)] ++ dims.zipIdx.map fun p => (128 + 56 * p.2, p.1))

/-- `bind`: a tile register, an identifier entry and two constants (R296, R298). -/
def execUcBind (h : BitVec 2) (t : Reg) (tid : BitVec 8) (g : BitVec 2) (rows : BitVec 12) (rowb8 : BitVec 14) (k : BitVec 10) (fx : BitVec 4) (s : State) : Out State :=
  ucRun (fun m w e => do
    let x ← m.operand w e h.toNat
    let b : BindRec := { t := t.toNat, tid := tid.toNat, g := g.toNat, rows := rows.toNat, rowb := 8 * rowb8.toNat, k := k.toNat, h := h.toNat }
    pcheck (fx == 0 || x.fmt == fx.toNat - 1) microFault
    pcheck (entOk (e.entry_ h.toNat x) && (List.range x.ext.length).all (fun d => (x.ext.take d).foldl (· * ·) 1 < 2 ^ 31)) microFault
    pcheck (tdOk (b.desc 0) && ceilDiv (b.rows * b.rowb) 4096 ≤ 512) microFault
    .ok { e with binds := e.binds ++ [b] }) s

/-- `stage`: an entry of the copy schedule (08 R208). -/
def execUcStage (store : Bool) (t : Reg) (ch : BitVec 2) (lay : BitVec 2) (stg : BitVec 16) (sreg : Reg) (h : BitVec 2) (s : State) : Out State :=
  ucRun (fun _ _ e => do
    match e.binds.find? fun b => b.h == h.toNat with
    | none => .error microFault
    | some b => .ok { e with sched := e.sched ++ [pack [(16, sreg.toNat), (22, lay.toNat), (24, b.tid), (32, ch.toNat), (34, t.toNat), (40, if store then 2 else 1), (48, stg.toNat)]] }) s

/-- Fields of an image header (R293), which lies at the image's base. -/
def imgHeader (m : Machine) (base : Nat) : Nat := m.nat base 128
def imgCoff (h : Nat) : Nat := bits h 352 32

/-- `routine`: entry, stack size, latch mask, bank, and the pool fences of the header. -/
def execUcRoutine (ssz : BitVec 8) (lm : BitVec 4) (koff : BitVec 14) (eoff : BitVec 32) (s : State) : Out State :=
  ucRun (fun m _ e => do
    let hd := imgHeader m e.image.base
    let fence (n : Nat) : Nat × Nat :=
      let len := bits hd (192 + 32 * n) 16
      if len = 0 then (0, 0) else (e.image.base + imgCoff hd + 128 * bits hd (208 + 32 * n) 16, 2 ^ 63 + 4 * len)
    .ok { e with entry := e.image.base + imgCoff hd + eoff.toNat, koff := koff.toNat, ssz := ssz.toNat, lm := lm.toNat, fence := (List.range 4).map fence }) s

/-- `fuse` (R300): the handle is transient. That of a consumer is compared with the producer's when its words end, and a failure there is the producer's. -/
def execUcFuse (h : BitVec 2) (t : Reg) (consumer : Bool) (s : State) : Out State :=
  ucRun (fun m w e => do
    let x ← m.operand w e h.toNat
    pcheck (if consumer then (m.parkedOf e.queue).isSome else hTr x.desc && hFuse x.desc != 0) microFault
    .ok { e with fused := some (operandNum e.op h.toNat, t.toNat, consumer) }) s

/-- `shard` (R299): a gather was taken up before the first word (R430); a reduction acts only when H is sharded. -/
def execUcShard (h : BitVec 2) (act : BitVec 2) (inst : BitVec 10) (s : State) : Out State :=
  ucRun (fun m w e => do
    let x ← m.operand w e h.toNat
    if act.toNat ≤ 1 ∨ hSn x.desc = 1 then .ok e
    else do
      pcheck (h == 0 && redAccepts .sum x.fmt && !x.scaled) microFault
      .ok { e with shards := e.shards ++ [(h.toNat, act.toNat, inst.toNat)] }) s

def execUcDepend (k : BitVec 10) (s : State) : Out State := ucRun (fun _ _ e => .ok { e with flags := some k.toNat }) s

/-- `epilog`: merges triples into D, which holds them, or does nothing. -/
def execUcEpilog (merge : Bool) (k : BitVec 10) (s : State) : Out State :=
  ucRun (fun m w e => do
    if !merge then .ok e
    else do
      let d ← m.operand w e 0
      pcheck (d.fmt == 11) handleFault
      .ok { e with areas := some k.toNat }) s

/-! ### The launch (R296-R300) -/


/-- The coordinate word of a tile index (R297; 11 R262). -/
def Expansion.coordWord (e : Expansion) (ti : Nat) : Word :=
  let step (a : Nat × Nat) (p : Nat) : Nat × Nat :=
    let d := bits e.perm (2 * p) 2
    (a.1 / e.tiles d, a.2 + a.1 % e.tiles d * 2 ^ (10 * d))
  .ofNat 64 (ti * 2 ^ 40 + ((List.range 4).foldl step (ti, 0)).2)

/-- The coordinates by core, in ascending TI (R297). -/
def Expansion.coords (e : Expansion) (cores : List Nat) : List (Nat × Word) :=
  let n := cores.length
  (List.range e.ntile).map fun ti => (cores.getD (if e.cyclic then ti % n else ti / ceilDiv e.ntile n) 0, e.coordWord ti)

/-- Bytes from index 0 to index 1 of dimension 1 (12 R275). -/
def rowStride (t : Tensor) : Nat := if t.ext.length < 2 then 0 else t.pos (t.ext.getD 0 1) * t.width / 8

/-- A collective that a `shard` word adds: its job, with the buffer at an address. -/
def shardJob (m : Machine) (t : Tensor) (act inst buf : Nat) : PRes CollJob := do
  match groupMember m (hSlv t.desc) (hSgn t.desc) with
  | none => .error shapeFault
  | some (p, k) => do
    pcheck (shardAgrees t (hSlv t.desc) (hSgn t.desc) p k) shapeFault
    let bufExt := if act = 2 then t.ext else globalExt t
    let b : Tensor := { t with key := 0, root := 0, base := buf, ext := bufExt }
    let job : CollJob := { inst, lvl := hSlv t.desc, grp := hSgn t.desc, rm := 0, src := b.place, dst := t.place, parts := [] }
    let j := match act with
      | 1 => { job with src := t.place, dst := b.place, parts := allgatherParts t b (hSax t.desc) p k }
      | 2 => { job with parts := allreduceParts b 1 }
      | _ => { job with parts := rscatterParts b t (hSax t.desc) 1 p k }
    pcheck (j.parts.length ≤ 4096) microFault
    .ok j

/-- What the Parser needs of one operator before it asks for heap. -/
structure OpPlan where
  rd : List Tensor
  wr : List Tensor
  opnds : List (Nat × Tensor)
  deriving DecidableEq, Repr

/-- What an operator's launch needs (log 61, DEDUCED). -/
def Machine.opPlan (m : Machine) (w : Walk) (e : Expansion) : PRes OpPlan := do
  let ts ← e.operands.mapM fun h => (m.tensor e.queue w (operandNum e.op h)).map fun t => (h, t)
  fuseGroup (ts.map (·.2))
  pcheck (ts.all fun p => !hTr p.2.desc || e.fused.any fun f => f.1 == operandNum e.op p.1) handleFault
  let own := ts.filter fun p => !hTr p.2.desc
  .ok { rd := (own.filter fun p => bit e.rd p.1).map (·.2), wr := (own.filter fun p => bit e.wr p.1).map (·.2), opnds := ts }

/-- The `shard` words that act: operand, ACT, INST and the sharded operand (R299). -/
def OpPlan.acts (p : OpPlan) (e : Expansion) : List (Nat × Nat × Nat × Tensor) :=
  e.shards.filterMap fun s => (p.opnds.find? fun x => x.1 == s.1 && hSn x.2.desc != 1).map fun x => (s.1, s.2.1, s.2.2, x.2)

/-- Constant-bank entries of an operator's binds: BASE and row stride, of the buffer where a `shard` word gives one. -/
def Expansion.konsts (e : Expansion) (p : OpPlan) (bufs : List (Nat × Nat × Nat)) : List (Nat × Nat) :=
  e.binds.flatMap fun b =>
    match p.opnds.find? fun x => x.1 == b.h with
    | none => []
    | some (_, t) =>
      let t := if e.gathers b.h t then { t with ext := globalExt t } else t
      [(b.k, ((bufs.find? fun x => x.1 == b.h).map (·.2.2)).getD t.base), (b.k + 1, rowStride t)]

/-- The identifier image's entries (R296). -/
def Expansion.entries (e : Expansion) (p : OpPlan) : List (Nat × Nat) :=
  e.binds.filterMap fun b => (p.opnds.find? fun x => x.1 == b.h).map fun x =>
    (b.tid, e.entry_ b.h (if e.gathers b.h x.2 then { x.2 with ext := globalExt x.2 } else x.2))

/-- The joined expansion of two fused operators (R300): X's, with Y's binds, and Y's entry as constant 1023 (log 61, DEDUCED). -/
def fuseOk (x y : Expansion) : Bool :=
  (match x.fused, y.fused with
    | some (a, _, false), some (b, _, true) => a == b
    | _, _ => false) && x.ntile == y.ntile && x.perm == y.perm && x.koff == y.koff &&
    x.binds.all fun a => y.binds.all fun b => a.t != b.t && a.tid != b.tid && a.k != b.k

/-- Bytes of an area of an `epilog`, and what is merged on completion: the first area, its bytes, and D's base (R296). -/
def Expansion.areaLen (e : Expansion) (p : OpPlan) : Nat := if e.areas.isNone then 0 else (p.opnds.find? fun x => x.1 == 0).elim 0 fun x => x.2.bytes
def Expansion.mergeOf (e : Expansion) (p : OpPlan) (area : Nat) : Option (Nat × Nat × Nat) :=
  if e.areas.isNone then none else (p.opnds.find? fun x => x.1 == 0).map fun x => (area, e.areaLen p, x.2.base)

/-- The launch of an operator, or of two fused ones, built in the heap; none while the heap, the queue or a reader set has no room (R259, R296). -/
def Machine.buildLaunch (m : Machine) (w : Walk) (e : Expansion) (also : Option Expansion) : PRes (Option (Machine × List Nat)) := do
  let q := e.queue
  let die := q / 16
  let d := m.queueDesc q
  let cores := coresOf q d
  let px ← m.opPlan w e
  let py ← match also with
    | some y => (m.opPlan w y).map some
    | none => Except.ok none
  let pys := py.toList
  pcheck e.tilesOk shapeFault
  let nf ← agreeNf (px.opnds.map (·.2) ++ pys.flatMap fun p => p.opnds.map (·.2))
  let fmtv := pack [(0, match nf.w with | 2 => 0 | 3 => 1 | 4 => 2 | 6 => 3 | _ => 4), (3, b2n nf.sgn), (4, nf.sub)]
  let acts := px.acts e ++ match also, py with
    | some y, some p => p.acts y
    | _, _ => []
  let areaLen := e.areaLen px
  -- the flag words and areas of the operator fused to it
  let yFlags := also.elim 0 fun y => if y.flags.isSome then 8 * e.ntile else 0
  let yArea := (also.bind fun y => py.map y.areaLen).getD 0
  let lastCore := cores.getLast?.getD 0
  let fixed := [256, 8192, 0x16180, max 1 (32 * e.sched.length), 65536 * (lastCore % 12 + 1), 4096 * e.ssz * (4 * lastCore + 4),
    if e.flags.isSome then 8 * e.ntile else 0, areaLen * e.ntile]
  let sizes := fixed ++ acts.map (fun a => (if a.2.1 = 2 then a.2.2.2.bytes else a.2.2.2.bytes * hSn a.2.2.2.desc)) ++ if also.isSome then [yFlags, yArea * e.ntile] else []
  pcheck (decide ((sizes.map fun n => roundUp (max 1 n) 4096).sum ≤ dieHeapLen m)) microFault
  let gathered (t : Tensor) : Bool := acts.any fun a => a.2.1 == 1 && a.2.2.2.key == t.key
  let srcs := px.rd ++ pys.flatMap (·.rd)
  let rds := (srcs.filter fun t => !gathered t).map (·.root)
  if !m.roomFor q (1 + acts.length) rds then .ok none
  else
    match m.heapAllocs die (sizes.map fun n => max 1 n) with
    | none => .ok none
    | some (m, hs) => do
      let at_ (i : Nat) : Nat := (hs.getD i (0, 0)).1
      let bufs := acts.zipIdx.map fun a => (a.1.1, a.1.2.1, at_ (8 + a.2))
      let yAt := 8 + acts.length
      let mine := (px.acts e).length
      let hd := imgHeader m e.image.base
      let ks := [(0, e.op.imm.toNat), (1, e.op.md.toNat)] ++ e.konsts px (bufs.take mine) ++ (match also, py with
          | some y, some p => y.konsts p (bufs.drop mine) ++ [(1023, y.entry)]
          | _, _ => []) ++ (e.flags.map fun k => (k, at_ 6)).toList ++ (e.areas.map fun k => (k, at_ 7)).toList ++
          ((also.bind (·.flags)).map fun k => (k, at_ yAt)).toList ++ ((also.bind (·.areas)).map fun k => (k, at_ (yAt + 1))).toList
      let m := m.setBytes (at_ 1) (m.bytes (e.image.base + imgCoff hd + 8192 * e.koff) 8192)
      let m := ks.foldl (fun (m : Machine) (p : Nat × Nat) => m.setWord (at_ 1 + 8 * p.1) p.2) m
      let m := m.setBytes (at_ 2) (List.replicate 0x16180 0)
      let ents := e.entries px ++ (match also, py with | some y, some p => y.entries p | _, _ => [])
      let m := ents.foldl (fun (m : Machine) (p : Nat × Nat) => m.setNat (at_ 2 + 128 * p.1) 128 p.2) m
      let m := m.setBytes (at_ 2 + 0x8020) (m.bytes (pcb m die + 0x420) 480)
      let m := e.sched.zipIdx.foldl (fun (m : Machine) (p : Nat × Nat) => m.setNat (at_ 3 + 32 * p.2) 32 p.1) m
      let m := (m.setBytes (at_ 6) (List.replicate (if e.flags.isSome then 8 * e.ntile else 0) 0)).setBytes (at_ yAt) (List.replicate yFlags 0)
      let fence (i : Nat) : Nat × Nat := e.fence.getD i (0, 0)
      let r := pack ([(0, e.entry), (64, at_ 2), (128, at_ 1), (192, m.sysWord 0x98), (256, at_ 5), (320, qImg d), (384, at_ 3), (448, e.sched.length), (468, e.lm), (472, e.ssz),
          (1024, 0xF), (1088, qLevel d + 16 * max (qLane d) e.op.ln.toNat), (1094, 1), (1152, at_ 4), (1216, e.ntile), (1239, fmtv), (1280, w.rngCtr.toNat), (1344, w.rngKey.toNat)] ++
        (List.range 4).flatMap fun i => [(512 + 64 * i, (fence i).1), (768 + 64 * i, (fence i).2)])
      pcheck (e.entry % 4 == 0 && 1 ≤ e.ssz && widOk (bits fmtv 0 3)) microFault
      let m := m.setNat (at_ 0) 256 r
      let gathers := (acts.zip bufs).filter fun a => a.1.2.1 == 1
      let reduces := (acts.zip bufs).filter fun a => a.1.2.1 != 1
      let kept := reduces.map fun a => a.2.2.2
      let add (rm : Machine × List Nat) (a : (Nat × Nat × Nat × Tensor) × (Nat × Nat × Nat)) (after rds wrs : List Nat) (heap : List (Nat × Nat)) : PRes (Machine × List Nat) := do
        let j ← shardJob rm.1 a.1.2.2.2 a.1.2.1 a.1.2.2.1 a.2.2.2
        let n := rm.1.newLaunch { lrec := m.collRecord q w e.op.ln.toNat j.parts.length, queue := q, fofs := e.fofs, after, heap, coll := some j } rds wrs
        Except.ok (n.1, rm.2 ++ [n.2])
      let g ← gathers.foldlM (fun rm a => add rm a [] [a.1.2.2.2.root] [] []) (m, [])
      let later := reduces.map fun a => a.1.2.2.2.root
      let wrs := ((px.wr ++ pys.flatMap (·.wr)).map (·.root)).filter fun k => !later.contains k
      let ranges := (srcs.filter fun t => !gathered t).map Tensor.covers ++ gathers.map fun a => (gatherRoot, a.2.2.2, a.1.2.2.2.bytes * hSn a.1.2.2.2.desc)
      let l : Launch := { lrec := r, queue := q, fofs := e.fofs, cores, ctxs := qCtxs d, ranges, tlen := e.tlen, todo := e.coords cores, after := g.2, heap := hs.filter fun h => !kept.contains h.1, binds := e.binds ++ (also.map (·.binds)).getD [],
                          merge := (e.mergeOf px (at_ 7)).toList ++ (also.bind fun y => py.bind fun p => y.mergeOf p (at_ (yAt + 1))).toList,
                          images := ((e :: also.toList).filter fun x => !x.builtin).map (·.image.ident) }
      let n := g.1.newLaunch l rds wrs
      let m := match n.1.launch n.2 with
        | some l => n.1.deal n.2 l
        | none => n.1
      let t ← reduces.foldlM (fun rm a => add rm a [n.2] [] [a.1.2.2.2.root] (hs.filter fun h => h.1 == a.2.2.2)) (m, [])
      .ok (some (t.1, g.2 ++ [n.2] ++ t.2))

/-- `oend`: the operator issues (R259), is kept for the operator fused to it, or waits for heap. -/
def execUcOend (s : State) : Out State :=
  match s.turn with
  | .micro d =>
    match (s.m.parser d).exp with
    | none => .next { s with turn := .none }
    | some e =>
      match s.m.walkOf e.queue with
      | none => .next { s with m := s.m.setParser d { s.m.parser d with exp := none }, turn := .none }
      | some w =>
        let finish (x : Expansion) (also : Option Expansion) : Out State :=
          match s.m.buildLaunch w x also with
          | .error k => .next { s with turn := .none, m := if k = 0 then s.m else ((s.m.dropParked e.queue).setParser d { (s.m.dropParked e.queue).parser d with exp := none }).failQueue e.queue k x.fofs }
          | .ok none => .next { s with turn := .none }
          | .ok (some (m, ls)) =>
            let m := m.dropParked e.queue
            let m := m.setParser d { m.parser d with exp := none }
            let w' := { w.step with launches := w.launches ++ ls, rngCtr := w.rngCtr + .ofNat 64 (x.adv + also.elim 0 (·.adv)) }
            .next { s with m := (m.setWalk e.queue (some w')).refreshQueue e.queue, turn := .none }
        match s.m.parkedOf e.queue, e.fused with
        | some x, some (_, _, true) =>
          if fuseOk x e then finish x (some e)
          else .next { s with m := ((s.m.dropParked e.queue).setParser d { (s.m.dropParked e.queue).parser d with exp := none }).failQueue e.queue microFault x.fofs, turn := .none }
        | some x, _ => .next { s with m := ((s.m.dropParked e.queue).setParser d { (s.m.dropParked e.queue).parser d with exp := none }).failQueue e.queue microFault x.fofs, turn := .none }
        | none, some (_, _, false) =>
          .next { s with m := (s.m.setParser d { s.m.parser d with exp := none, parked := (s.m.parser d).parked ++ [e] }).setWalk e.queue (some w.step), turn := .none }
        | none, _ => finish e none
  | _ => .next s

/-! ### Custom opcodes (12 R289) -/

/-- The image that the package's custom table gives an opcode. -/
def Machine.customImage (m : Machine) (q : Nat) (w : Walk) (opc : Nat) : PRes OpImage := do
  let tab ← m.parserRead q (w.pkg + w.xoff) (8 * w.nx) (w.nx / 16 + 2)
  match ((List.range w.nx).map fun i => leNat ((tab.drop (8 * i)).take 8)).find? fun e => e % 256 == opc with
  | none => .error microFault
  | some e =>
    match (m.parser (q / 16)).ops.find? fun i => i.ident == e / 256 with
    | none => .error microFault
    | some i => .ok i


/-- A custom operator: its expansion begins; the words after it have the Parser's turn. -/
def execLbCustom (o : LbOp) (s : State) : Out State :=
  match s.turn with
  | .graph q =>
    match s.m.walkOf q with
    | none => .next { s with turn := .none }
    | some w =>
      match s.m.customImage q w o.op.toNat with
      | .error k => .next { s with m := if k = 0 then s.m else (s.m.dropParked q).failQueue q k ((s.m.parkedOf q).elim w.pos (·.fofs)), turn := .none }
      | .ok image => .next (s.expand (s.m.expansion q w o image 0))
  | _ => .next s

/-! ### Installation (R292-R295) -/

/-- The handles that a word names and that RD and WR must declare. -/
def namedHandle : Instr → Option Nat
  | .ucBind h .. => some h.toNat
  | .ucShard h _ _ => some h.toNat
  | .ucOshape _ (.dim h _) => some h.toNat
  | _ => none

/-- The constant entry that a word names. -/
def constOf : Instr → Option Nat
  | .ucBind _ _ _ _ _ _ k _ => some k.toNat
  | .ucDepend k => some k.toNat
  | .ucEpilog _ k => some k.toNat
  | _ => none

/-- How often a form may appear, `tiledim` once for each N (R295). -/
def formLimit (form : Nat) : Nat := match form with | 1 => 8192 | 2 => 4 | 4 => 16 | 5 => 256 | 8 => 4 | _ => 1

/-- Word `i` keeps the rules of R295 beside the words before it; a built-in image may have any OPC. -/
def wordOk (user : Bool) (ws : List Nat) (i : Nat) : Bool :=
  let w := ws.getD i 0
  let form := bits w 60 4
  let before := ws.take i
  let decoded := before.filterMap decodeMicrocode
  let same := before.filter fun v => bits v 60 4 == form
  let declared := bits (ws.headD 0) 56 4 ||| bits (ws.headD 0) 52 4
  let bound (h : BitVec 2) : Bool := decoded.any fun x => match x with
    | .ucBind g .. => g == h
    | _ => false
  match decodeMicrocode w with
  | none => false
  | some x =>
    (form == 0) == (i == 0) && (i == 0 || bits (ws.getD (i - 1) 0) 60 4 ≤ form) && same.length < formLimit form &&
      (form != 2 || same.all (fun v => bits v 56 2 != bits w 56 2)) &&
      (match namedHandle x with
        | some h => bit declared h
        | none => true) &&
      (match constOf x with
        | some k => (ws.zipIdx.all fun p => p.2 == i || match (decodeMicrocode p.1).bind constOf with
          | some j => k != j + 1
          | none => true)
        | none => true) &&
      (match x with
        | .ucOphdr _ _ n opc => n.toNat == ws.length && (!user || 0xC0 ≤ opc.toNat)
        | .ucBind _ t tid _ _ _ k _ => decoded.all fun y => match y with
          | .ucBind _ t' tid' _ _ _ k' _ => t != t' && tid != tid' && k != k'
          | _ => true
        | .ucStage _ _ _ _ stg _ h => bound h && (same.getLast?.elim true fun v => bits v 29 16 ≤ stg.toNat)
        | .ucFuse h _ _ => bound h

        | _ => true)

/-- The first word that breaks a rule, or the number of words when `routine` or `oend` is missing (R295). -/
def badWord (user : Bool) (ws : List Nat) : Option Nat :=
  match (List.range ws.length).find? fun i => !wordOk user ws i with
  | some i => some i
  | none => if ws.any (fun w => bits w 60 4 == 6) && bits (ws.getLastD 0) 60 4 == 11 then none else some ws.length

/-- The header of an image (R293). -/
def imageOk (h : Nat) : Bool :=
  bits h 0 32 == 0x504F4E4C && bits h 32 32 == 0x00010000 && bits h 64 72 == 0 && bits h 384 19 == 0 && 2 ≤ bits h 403 13 && bits h 403 13 ≤ 8191 &&
    bits h 416 32 % 8 == 0 && imgCoff h % 128 == 0 && bits h 416 32 + 8 * bits h 403 13 ≤ bits h 448 64 && imgCoff h + bits h 320 32 ≤ bits h 448 64

/-- The first place in the store where `n` words fit beside the images given. -/
def storeFit (used : List OpImage) (n : Nat) : Option Nat :=
  ((0 :: used.map fun i => i.first + i.words).filter fun a => a + n ≤ 8192 && used.all fun i => !overlaps a n i.first i.words).min?

/-- The status word of R294. -/
def Machine.ucStatus (m : Machine) (die wix cause : Nat) : Machine :=
  m.setWord (pcb m die + 8) (pack [(63, 1), (62, if cause = 0 then 1 else 0), (35, wix), (0, cause)])

/-- An installation request served (R294). -/
def Machine.installImage (m : Machine) (die base : Nat) : Machine :=
  let p := m.parser die
  let h := imgHeader m base
  let n := bits h 403 13
  let ident := bits h 136 56
  let ws := (List.range n).map fun i => m.word (base + bits h 416 32 + 8 * i)
  let others := p.ops.filter fun i => i.ident != ident
  if !imageOk h then m.ucStatus die 0 0x03
  else
    match badWord true ws with
    | some i => m.ucStatus die i 0x38
    | none =>
      match storeFit (p.builtin ++ others) n with
      | none => m.ucStatus die 0 0x38
      | some a =>
        if 64 ≤ others.length then m.ucStatus die 0 0x38
        else
          let image : OpImage := { ident, opc := bits (ws.headD 0) 31 8, first := a, words := n, base }
          (m.setParser die { p with ops := others ++ [image], store := SMap.setAll 0 p.store (ws.zipIdx.map fun x => (a + x.2, .ofNat 64 x.1)) }).ucStatus die 0 0

/-- No expansion is in progress on a die. -/
def Machine.parserIdle (m : Machine) (die : Nat) : Bool := (m.parser die).exp.isNone && (m.parser die).parked.isEmpty

def execMicrocodeInstall (die : Nat) (s : State) : Out State :=
  match s.m.takeWatch (pcb s.m die) with
  | some (m, v) => .next (if s.turn = .none ∧ m.parserIdle die = true then { s with m := m.installImage die v.toNat } else s)
  | none => .next s

/-- A removal request served; it waits while a launch of the image is in flight. -/
def Machine.removeImage (m : Machine) (die ident : Nat) : Machine :=
  let p := m.parser die
  if !p.ops.any fun i => i.ident == ident then m.ucStatus die 0 0x38
  else (m.setParser die { p with ops := p.ops.filter fun i => i.ident != ident }).ucStatus die 0 0

def Machine.imageBusy (m : Machine) (die ident : Nat) : Bool :=
  m.launches.any fun p => match p.2 with
    | some l => l.images.contains ident && l.queue / 16 == die && (m.liveLaunches l.queue).any fun x => x.1 == p.1
    | none => false

def execMicrocodeRemove (die : Nat) (s : State) : Out State :=
  match s.m.takeWatch (pcb s.m die + 0x10) with
  | some (m, v) => .next (if s.turn = .none ∧ m.parserIdle die = true ∧ m.imageBusy die (v.toNat % 2 ^ 56) = false then { s with m := m.removeImage die (v.toNat % 2 ^ 56) } else s)
  | none => .next s

end Sys2Proof.Machine
end

