-- ==== Sys2Proof/Machine/Store.lean ====
section
/-! DEFINITION. Store.lean: stores that reach their serialising points, codec flushes, snoops, ECC scrubbing, and accesses by the host and CXL peers (09_regions_and_visibility.md R211-R215, R232, R234, R236; 14 R309; 16 R342, R343; 17 R358-R361; 10 R256). -/

namespace Sys2Proof.Machine

/-! ### The store path -/

/-- No earlier store of the core's path stands before this one: one to the same home, which requests reach in the order in which they are sent (01 R22),
but a staged one that waits for a line only where the bytes meet (14 R309). -/
def Machine.pathFree (m : Machine) (path : List StoreEntry) (i : Nat) (e : StoreEntry) : Bool :=
  !(path.take i).any fun f =>
    if f.stage.all fun x => m.canStage x (f.key / 128) then sameHome f.key e.key || overlaps f.key f.bytes.length e.key e.bytes.length
    else overlaps f.key f.bytes.length e.key e.bytes.length

/-- STAGE_OVERFLOW of a store that finds no line (14 R309), raised once for each TRAPINFO2. -/
def Machine.overflow (m : Machine) (n i : Nat) (e : StoreEntry) (x : Nat) : Machine :=
  let why := if spillLimit m x = 0 then 0 else 1
  if e.told = why + 1 ∨ 384 ≤ e.ctx then m
  else
    let m := m.onCore n fun k => { k with path := k.path.set i { e with told := why + 1 } }
    m.async e.ctx { code := 0x28, i0 := homeSlice e.key, i1 := x, i2 := why }

/-- The home of a key can be reached (19 R387). -/
def Machine.reaches (m : Machine) (key : Nat) : Bool := !isFar key || routes m (key / 2 ^ 46 - 3) != []

/-- The i-th store of a core's path is performed, or staged for its group (R211, R236); one to another package waits for a route (19 R387). -/
def Machine.performAt (m : Machine) (n i : Nat) (e : StoreEntry) : Machine :=
  let k := m.core n
  if !m.pathFree k.path i e then m
  else
    match e.stage with
    | some x => if m.canStage x (e.key / 128) then (m.setCore n { k with path := k.path.eraseIdx i }).performStaged x e else m.overflow n i e x
    | none => if m.reaches e.key then (m.setCore n { k with path := k.path.eraseIdx i }).performPlain e else m.lostRoute e.ctx (.route (e.key / 2 ^ 46 - 3))

/-- A store to plain memory, or one that a group stages. -/
def execStorePerformed (core i : Nat) (s : State) : Out State :=
  match (s.m.core core).path[i]? with
  | some e => .next (if e.coded.isNone || e.stage.isSome then { s with m := s.m.performAt core i e } else s)
  | none => .next s

/-- A store into a coded block: merge, policy, encode, counters and flags in one step (17 R358-R360). -/
def execCodedStoreRmw (core i : Nat) (s : State) : Out State :=
  match (s.m.core core).path[i]? with
  | some e => .next (if e.coded.isSome && e.stage.isNone then { s with m := s.m.performAt core i e } else s)
  | none => .next s

/-! ### Codec flushes (17 R361) -/

/-- The counters of a slice added to those of the entry. -/
def CodecPart.merge (a b : CodecPart) : CodecPart :=
  { nenc := a.nenc + b.nenc, nlossy := a.nlossy + b.nlossy, nsub := a.nsub + b.nsub, maxe := max a.maxe b.maxe, t := (a.t.merge b.t).1 }

/-- A flush of one Coded Region Table entry whose FL is set. -/
def Machine.flushCodec (m : Machine) (cri : Nat) : Machine :=
  let key := crtb m + 128 * cri
  let e := m.nat key 128
  if !bit e 62 then m
  else
    let start : CodecPart := { nenc := bits e 512 64, nlossy := bits e 576 64, nsub := bits e 640 64, maxe := sgn 16 (bits e 704 16), t := .ofNat (bits e 768 192) }
    let sum := (List.range 96).foldl (fun (a : CodecPart) sl => a.merge (SMap.get {} m.codec (64 * sl + cri))) start
    let m := { m with codec := m.codec.filter fun p => 2 ^ 13 ≤ p.1 || p.1 % 64 != cri }
    let e := setBits (setBits (setBits (setBits e 512 64 sum.nenc) 576 64 sum.nlossy) 640 64 sum.nsub) 704 16 (wrap 16 sum.maxe)
    m.setNat key 128 (setBits (setBits e 768 192 sum.t.toNat) 62 1 0)

def execCodecFlush (cri : BitVec 6) (s : State) : Out State := .next { s with m := s.m.flushCodec cri.toNat }

/-! ### Snoops and errors -/

/-- A copy that the package's cache holds of a line is given up, and the snoop is answered; what the home slice holds is memory itself. -/
def Machine.snoop (m : Machine) (key : Nat) : Machine := { m with llc := SMap.set [] m.llc (key / 128) [], out := m.out ++ [OutMsg.snoop key] }

/-- A back-invalidate snoop of a shared expander, HDM-DB; a private one sends none (16 R342). -/
def execCxlBiSnoop (addr : Nat) (s : State) : Out State :=
  let key := 2 ^ 46 + addr % 2 ^ 44
  .next { s with m := if (s.m.hdmAt key).any (·.2.2.2) then s.m.snoop key else s.m }

/-- The host's snoop of a tier 3 line (09 R211). -/
def execHostCxlSnoop (addr : Nat) (s : State) : Out State := .next { s with m := s.m.snoop (hostKey addr) }

/-- The checkpointed group of a context whose superstep is open (14 R304). -/
def Machine.openGroupOf (m : Machine) (c : Nat) : Option Nat :=
  match ckOf c (m.ctx c) with
  | some x => let st := grState (m.groupRec x); if st = 1 ∨ st = 2 ∨ st = 3 then some x else none
  | none => none

/-- Scrubbing finds an error in what a context uses (10 R256): asynchronous, or the rollback of its group (14 R307). -/
def Machine.scrub (m : Machine) (c : Nat) : Machine :=
  if 384 ≤ c ∨ (m.ctx c).st = .free ∨ (m.ctx c).st = .retired then m
  else
    match m.openGroupOf c with
    | some x => m.rollback x 0x33 (selfPkg m * 512 + c)
    | none => m.async c { code := 0x33 }

def execScrubEcc (ctx : Nat) (s : State) : Out State := .next { s with m := s.m.scrub ctx }

/-- An address of a context lies in tier 2. -/
def Machine.inTier2 (m : Machine) (c va : Nat) : Bool :=
  match m.lookup (coreOf c) va .load with
  | .ok (_, e) => leafTier e.leaf == 2
  | .error _ => false

/-- The expander does not complete an access in time, or answers it with an error or poison (16 R343): of a transfer, whose elements before the access are transferred, and CXL_ERROR is its cause in
place of a translation cause; where the index names no transfer, the next access of the context's core to tier 2; and with 384 + d in a context's place the next of the Parser of die d (log 64, DEDUCED). -/
def Machine.cxlTimeout (m : Machine) (c i : Nat) : Machine :=
  if 384 ≤ c then m.setParser (c % 8) { m.parser (c % 8) with cxlBad := true } else
  match (m.ctx c).xfers[i]? with
  | none => m.onCore (coreOf c) fun k => { k with cxlBad := true }
  | some t =>
    if !m.xferReady c t ∨ t.isFire then m
    else
      let unit := if t.computes then 32 else 1
      match ((List.range (entCount t.mEnt)).drop t.prog).find? fun j => m.inTier2 c (t.va j) with
      | none => m
      | some j =>
        let r := xferLoop c ((List.range (j / unit)).map (· * unit)) { m, t, puts := [] }
        if r.waits then m
        else
          let k := r.cause.getD { code := 0x31, kind := 1, i0 := t.va j, i1 := t.pc, i2 := t.id, i3 := t.ch }
          r.m.onCtx c fun x => { x with xfers := x.xfers.set i { r.t with blocks := (r.puts.map (·.vline)).eraseDups, fault := some k } }

def execCxlCompletionTimeout (ctx i : Nat) (s : State) : Out State := .next { s with m := s.m.cxlTimeout ctx i }

/-! ### The host and CXL peers (09 R232; 21 R412, R418) -/

/-- Memory that an outside agent reaches: local HBM4E through the damper, which passes nothing before the lock or after the watchdog; and, by their keys,
expander and host memory and what other packages own, whose agents need no leave of this package (R211) (log 64, DEDUCED). -/
def Machine.agentReaches (m : Machine) (key n : Nat) : Bool :=
  if key < 2 ^ 46 then m.locked && !m.expired && key + n ≤ hbmSize
  else if 2 ^ 58 ≤ key then key + n ≤ 2 ^ 58 + 2 ^ 56
  else if 2 ^ 56 ≤ key then key + n ≤ 2 ^ 57 else key / 2 ^ 46 == (key + n - 1) / 2 ^ 46 && key / 2 ^ 46 < 3 + 512

/-- Parts of BAR 0 that hold what the host writes: shootdown slots, mailbox, MSI-X table (19 R395; 16 R335). -/
def barHeld (off : Nat) : Bool := (0x1000 ≤ off && off < 0x1800) || (0x2000 ≤ off && off < 0x3000) || (0x3000 ≤ off && off < 0x3200)

/-- A byte of BAR 0 as the host reads it; a reserved one reads 0 (19 R395). -/
def Machine.barByte (m : Machine) (off : Nat) : Byte := if off < 8 || barHeld off then SMap.get 0 m.bar0 off else 0

/-- Bytes that the host writes to BAR 0: those of reserved and read-only places are dropped, and the doorbell raises INTERRUPT (19 R395). -/
def Machine.barWrite (m : Machine) (off : Nat) (bs : List Byte) : Machine :=
  let m := { m with bar0 := bs.zipIdx.foldl (fun a p => if barHeld (off + p.2) then SMap.set 0 a (off + p.2) p.1 else a) m.bar0 }
  if off = 8 ∧ bs ≠ [] then m.irq (0x1100 + (bs.headD 0).toNat) else m

/-- An access of the host to BAR 0, whose bytes an agent names from 2^57 up. -/
def Machine.barAccess (m : Machine) (a : AgentAccess) : Machine :=
  let off := a.addr - 2 ^ 57
  if a.kind = 0 then { m with out := m.out ++ [OutMsg.reply 512 0 true ((List.range a.data.length).map fun i => m.barByte (off + i))] }
  else if a.kind = 1 ∧ !m.expired then m.barWrite off a.data
  else m

/-- An access by an outside agent, at the serialising point of the line: a read is answered, a write or an atomic addition of 8 bytes is
performed; the host reads and writes BAR 0 too. The system block is not theirs to write (log 64, DEDUCED). -/
def Machine.agentAccess (m : Machine) (a : AgentAccess) : Machine :=
  let n := a.data.length
  let dst := if a.cxl then 513 else 512
  if 2 ^ 57 ≤ a.addr ∧ a.addr < 2 ^ 58 then (if a.cxl then m else m.barAccess a)
  else if !m.agentReaches a.addr n then { m with out := m.out ++ [OutMsg.reply dst 0 false []] }
  else if a.kind = 0 then { m with out := m.out ++ [OutMsg.reply dst 0 true (m.bytes a.addr n)] }
  else if a.addr < 0x10000 then { m with out := m.out ++ [OutMsg.reply dst 0 false []] }
  else if a.kind = 1 then m.performPlain { ctx := 384, key := a.addr, bytes := a.data }
  else if a.kind = 2 then
    let key := a.addr / 8 * 8
    let m' := m.performPlain { ctx := 384, key, bytes := leBytes 8 ((m.word key + leNat (a.data.take 8)) % 2 ^ 64) }
    { m' with out := m'.out ++ [OutMsg.reply dst 0 true (m.bytes key 8)] }
  else m

def execHostAgentAccess (acc : AgentAccess) (s : State) : Out State := .next { s with m := s.m.agentAccess acc }

end Sys2Proof.Machine
end

