-- ==== Sys2Proof/Machine/Service.lean ====
section
/-! DEFINITION. Service.lean: package reset and the boot ROM, service commands, the damper and its watchdog, clocks, management rings, and the host port (21_service_boot_damper.md R410-R420; 16_pages_and_capabilities.md R335, R336; 19_links_and_connections.md R395). -/

namespace Sys2Proof.Machine

/-! ### Reset and the boot ROM (R411) -/

/-- Fields of a boot image header. -/
def rbSize (h : Nat) : Nat := bits h 448 64
def rbLoad (h : Nat) : Nat := bits h 384 64
def rbEoff (h : Nat) : Nat := bits h 352 32

/-- An image with its signature taken as zero (R293, R411): bytes 64 to 127. -/
def unsigned (bs : List Byte) : List Byte := bs.take 64 ++ List.replicate 64 0 ++ bs.drop 128

/-- The ROM's checks of a boot image. -/
def bootOk (bs : List Byte) : Bool :=
  let h := leNat (bs.take 128)
  128 ≤ bs.length && bits h 0 32 == 0x54424E52 && bits h 32 32 == 0x00010000 && bits h 64 256 == 0 && 128 ≤ rbSize h && rbSize h ≤ bs.length &&
    rbLoad h % 0x10000 == 0 && 0x10000 ≤ rbLoad h && rbLoad h + rbSize h ≤ hbmSize && rbEoff h % 4 == 0 && Config.minSvn ≤ bits h 320 32 &&
    Config.sm2Verify (bits h 512 512) (Config.sm3 (unsigned (bs.take (rbSize h))))

/-- Measurement register `i`, also in the system block (R410). -/
def Machine.setMr (m : Machine) (i x : Nat) : Machine := { m.setNat (0x200 + 32 * i) 32 x with mr := SMap.set 0 m.mr i (.ofNat 256 x) }

/-- The ROM's launch record: ENTRY, and every other field at its default, of which the spec names none (log 2, DESIGN CHOICE). -/
def romLaunch (entry : Nat) : Launch := { lrec := entry + 0xF * 2 ^ 1024 + 0x0C * 2 ^ 1239, queue := 0 }

/-- Context 0 as the ROM binds it: ready, with no table to fill and its first coordinate in tc0 (10 R240). -/
def romCtx (entry : Nat) : Ctx :=
  (({ (romLaunch entry).newCtx 0 0 { reg := 0, val := some 0 } with launch := none, queue := none, filled := true, stage0 := false, nxt := [] } : Ctx).setTc 0 0).bindDone

/-- The machine after a package reset: memory and the boot flash keep their bytes (log 63, DEDUCED). -/
def Machine.afterReset (m : Machine) : Machine :=
  let links (a : Machine) : Machine := if m.locked then (List.range 18).foldl (fun a p => a.setNat (lcb m + 0x880 + 64 * p) 64 0) a else a
  links { mem := m.mem, flash := m.flash, out := m.out, idKey := m.idKey, hdm := m.hdm, fresh := m.fresh }

/-- The boot ROM on context 0. -/
def Machine.rom (m : Machine) : Machine :=
  match m.flash.find? bootOk with
  | some bs =>
    let h := leNat (bs.take 128)
    let image := bs.take (rbSize h)
    let m := (((m.setBytes (rbLoad h) image).setMr 0 (Config.sm3 image % 2 ^ 256)).setMr 1 0).setMr 2 0 |>.setMr 3 0
    let m := (((m.setNat 0 16 1).setNat 0x280 64 m.idKey.toNat).setWord 0x2C0 0).setNat 0x400 256 m.limits
    { m.setCtx 0 (romCtx (rbLoad h + rbEoff h)) with sys := SMap.set 0 [] 0 1, boot := .running }
  | none =>
    let (m, code) := m.free
    { m with bar0 := (List.range 8).foldl (fun a i => SMap.set 0 a (0x2000 + i) (.ofNat 8 (code.toNat / 2 ^ (8 * i)))) m.bar0, boot := .halted }

def execReset (s : State) : Out State := .next { s with m := s.m.afterReset.rom, snap := none, turn := .none }

/-- PERST# on the host port ends the state after the watchdog (R418) (log 62, DESIGN CHOICE). -/
def execHostPerst (s : State) : Out State := .next { s with m := { s.m with expired := false } }

/-! ### Service commands (R413-R415, R420) -/

/-- A command's end: DONE with its RESULT. -/
def Machine.sstat (m : Machine) (result : Nat) : Machine := m.setWord 0x108 (2 ^ 62 + result)

/-- The store to SCMD that an event acts on; another one at the head is not this event's (log 62, DESIGN CHOICE). -/
def scmd (code : Nat) (arg : Nat) (f : Machine → Machine × Nat) (s : State) : Out State :=
  match s.m.takeWatch 0x100 with
  | some (m, v) => .next (if v.toNat = code * 2 ^ 56 + arg then let r := f m; { s with m := r.1.sstat r.2 } else s)
  | none => .next s

/-- Fields of a limit block (R415). -/
def lbPkga (b : Nat) : Nat := bits b 1536 512
def lbMac (b j : Nat) : Nat := bits b (1024 + 64 * j) 64
def lbHlim (b : Nat) : Nat := bits b 960 64
def lbHbase (b : Nat) : Nat := bits b 896 64
def lbCxl (b p : Nat) : Nat := bits b (832 + 16 * p) 16
def lbWdt (b : Nat) : Nat := bits b 800 32
def lbFmax (b : Nat) : Nat := bits b 784 16
def lbPmax (b : Nat) : Nat := bits b 768 16
def lbMrate (b : Nat) : Nat := bits b 752 16
def lbSrate (b : Nat) : Nat := bits b 736 16

/-- The ranges of R415; a host window of base and end 0 is empty, as before the lock. -/
def limitsOk (b : Nat) : Bool :=
  bits b 0 736 == 0 && lbPkga b < 2 ^ 432 && (List.range 8).all (fun j => bits (lbMac b j) 48 15 == 0) && lbHlim b % 4096 == 0 && lbHbase b % 4096 == 0 &&
    (lbHbase b < lbHlim b || (lbHbase b == 0 && lbHlim b == 0)) && (List.range 4).all (fun p => lbCxl b p ≤ 4096) && 100 ≤ lbWdt b && lbWdt b ≤ 10000000 &&
    800 ≤ lbFmax b && lbFmax b ≤ 3600 && lbFmax b % 100 == 0 && 1000 ≤ lbPmax b && lbPmax b ≤ 4400 && lbMrate b ≤ 100 && lbSrate b ≤ 800

/-- A block that widens nothing. -/
def tighter (old new : Nat) : Bool :=
  lbPkga new &&& lbPkga old == lbPkga new && (List.range 8).all (fun j => lbMac new j == lbMac old j || lbMac new j == lbMac old j % 2 ^ 63) &&
    lbHbase old ≤ lbHbase new && lbHlim new ≤ lbHlim old && (List.range 4).all (fun p => lbCxl new p ≤ lbCxl old p) && lbWdt new ≤ lbWdt old &&
    lbFmax new ≤ lbFmax old && lbPmax new ≤ lbPmax old && lbMrate new ≤ lbMrate old && lbSrate new ≤ lbSrate old

/-- POWER_CLAMP on IRQCTX (R419). -/
def Machine.clamp (m : Machine) (mhz why core : Nat) : Machine := m.async (irqCtx m) { code := 0x3C, i0 := mhz, i1 := why, i2 := core }

/-- Limits in force, written at 0x0400; a lower FMAX lowers the package clock at once (R415, R419). -/
def Machine.install (m : Machine) (b : Nat) : Machine :=
  let m := { m.setNat 0x400 256 b with limits := b }
  if lbFmax b < m.mhz then { m with mhz := lbFmax b }.clamp (lbFmax b) 2 (2 ^ 64 - 1) else m

/-- The alignments of the base words (07 to 20), GRATE, the reserved bits of RCORES, IRQCTX, SELF (R410, R414). -/
def sysOk (m : Machine) : Bool :=
  qtb m % 64 == 0 && pcb m 0 % 4096 == 0 && grb m % 64 == 0 && crtb m % 4096 == 0 && cdir m % 8 == 0 && lcb m % 4096 == 0 && tcb m % 4096 == 0 && cab m % 64 == 0 &&
    rvb m % 16 == 0 && kvsb m % 32 == 0 && kvrb m % 64 == 0 && heapBase m % 4096 == 0 && (List.range 4).all (fun i => m.sysWord (0xA0 + 8 * i) % 4096 == 0) &&
    m.sysWord 0x98 % 4 == 0 && m.sysWord 0x18 ≤ 8 && m.sysWord 8 < 2 ^ 32 && m.sysWord 0x10 < 384 && isRcore m (coreOf (irqCtx m)) && selfPkg m < 432

/-- The words of the built-in image, cut after every `oend`, one run for each operator. -/
def operatorRuns (ws : List Nat) : List (List Nat) :=
  let r := ws.foldl (fun (a : List (List Nat) × List Nat) w => if bits w 60 4 = 11 then (a.1 ++ [a.2 ++ [w]], []) else (a.1, a.2 ++ [w])) ([], [])
  if r.2 = [] then r.1 else r.1 ++ [r.2]

/-- The system block as the part copies it at the lock. -/
def Machine.readSys (m : Machine) : Machine := { m with sys := SMap.setAll 0 [] ((List.range 24).map fun i => (i, .ofNat 64 (m.word (8 * i)))) }

/-- Every Parser loads the built-in image. -/
def Machine.loadBuiltins (m : Machine) (ws : List Nat) (base : Nat) : Machine :=
  let runs := operatorRuns ws
  let ops := (runs.foldl (fun (a : List OpImage × Nat) r => (a.1 ++ [{ ident := 0, opc := bits (r.headD 0) 31 8, first := a.2, words := r.length, base }], a.2 + r.length)) ([], 0)).1
  (List.range 8).foldl (fun (m : Machine) d => m.setParser d { m.parser d with builtin := ops, store := SMap.setAll 0 [] (ws.zipIdx.map fun x => (x.2, .ofNat 64 x.1)) }) m

/-- The operators of the built-in image: each of an opcode that has a built-in entry, and words that fit the store (13 R292). -/
def builtinsOk (ws : List Nat) : Bool :=
  ws.length ≤ 8192 && (operatorRuns ws).all fun r => (badWord false r).isNone && 1 ≤ bits (r.headD 0) 31 8 && bits (r.headD 0) 31 8 < 0xC0

/-- LOCK (R414): the new machine and the RESULT. -/
def Machine.lock (m0 : Machine) (arg : Nat) : Machine × Nat :=
  let m := m0.readSys
  let b := m.nat arg 256
  let u := m.sysWord 0x88
  let h := imgHeader m u
  let image := m.bytes u (bits h 448 64)
  let ws := (List.range (bits h 403 13)).map fun i => m.word (u + bits h 416 32 + 8 * i)
  if m0.locked then (m0, 5)
  else if arg % 256 ≠ 0 ∨ sysOk m = false ∨ limitsOk b = false ∨ imageOk h = false then (m0, 2)
  else if !Config.sm2Verify (bits h 512 512) (Config.sm3 (unsigned image)) then (m0, 4)
  else if !builtinsOk ws then (m0, 2)
  else
    let m := ((m.setMr 1 (Config.sm3 image % 2 ^ 256)).loadBuiltins ws u).install b
    ({ m with
        locked := true
        dog := true
        cores := m.cores.map fun (p : Nat × Core) => (p.1, { p.2 with tlb := [] })
        bar0 := (List.range 8).foldl (fun a i => SMap.set 0 a i (.ofNat 8 ((selfPkg m + 2 ^ 63) / 2 ^ (8 * i)))) m.bar0 }, 0)

def execLock (arg : BitVec 56) (s : State) : Out State := scmd 1 arg.toNat (fun m => m.lock arg.toNat) s

/-- TIGHTEN (R415). -/
def Machine.tighten (m : Machine) (arg : Nat) : Machine × Nat :=
  let b := m.nat arg 256
  if !m.locked then (m, 5)
  else if arg % 256 ≠ 0 ∨ limitsOk b = false then (m, 2)
  else if !tighter m.limits b then (m, 3)
  else (m.install b, 0)

def execTighten (arg : BitVec 56) (s : State) : Out State := scmd 2 arg.toNat (fun m => m.tighten arg.toNat) s

/-- QUOTE (R420). -/
def Machine.quote (m : Machine) (arg : Nat) : Machine × Nat :=
  if !m.locked then (m, 5)
  else if arg % 256 ≠ 0 then (m, 2)
  else
    let m := (List.range 4).foldl (fun (m : Machine) i => m.setNat (arg + 0x20 + 32 * i) 32 (SMap.get 0 m.mr i).toNat) m
    let m := (m.setWord (arg + 0xA0) (selfPkg m)).setWord (arg + 0xA8) (m.qcnt + 1)
    let sig := Config.sm2Sign (Config.sm3 (m.bytes arg 0xB0))
    ({ (m.setNat (arg + 0xB0) 64 sig).setWord 0x2C0 (m.qcnt + 1) with qcnt := m.qcnt + 1 }, 0)

def execQuote (arg : BitVec 56) (s : State) : Out State := scmd 3 arg.toNat (fun m => m.quote arg.toNat) s

/-- EXTEND (R420): MR := SM3(MR ‖ D). -/
def Machine.extend (m : Machine) (i arg : Nat) : Machine × Nat :=
  if !m.locked then (m, 5) else (m.setMr i (Config.sm3 (leBytes 32 (SMap.get 0 m.mr i).toNat ++ m.bytes arg 32) % 2 ^ 256), 0)

def execExtendMr2 (arg : BitVec 56) (s : State) : Out State := scmd 4 arg.toNat (fun m => m.extend 2 arg.toNat) s
def execExtendMr3 (arg : BitVec 56) (s : State) : Out State := scmd 5 arg.toNat (fun m => m.extend 3 arg.toNat) s

/-- An unassigned code: RESULT 6 and nothing else (R413). -/
def execScmdUnassigned (code : BitVec 8) (s : State) : Out State :=
  match s.m.takeWatch 0x100 with
  | some (m, v) => .next (if v.toNat / 2 ^ 56 = code.toNat ∧ (code = 0 ∨ 6 ≤ code.toNat) then { s with m := m.sstat 6 } else s)
  | none => .next s

/-! ### The watchdog and the clocks (R418, R419) -/

/-- A store to KICK restarts the watchdog; its time is not modelled. -/
def execKick (s : State) : Out State :=
  match s.m.takeWatch 0x110 with
  | some (m, _) => .next { s with m := { m with dog := m.locked } }
  | none => .next s

/-- The watchdog expires: cores halt at their boundaries, the damper shuts, and the host receives vector 0. -/
def execWatchdog (s : State) : Out State :=
  .next (if s.m.dog && !s.m.expired then { s with m := { s.m with expired := true, out := s.m.out ++ [OutMsg.msix 0] } } else s)

/-- A power sample steps the package clock by 100 MHz (log 62, DESIGN CHOICE). -/
def Machine.powerSample (m : Machine) (avg : Nat) : Machine :=
  let step (f : Nat) : Machine := { m with mhz := f }.clamp f 0 (2 ^ 64 - 1)
  if lbPmax m.limits < avg then (if m.mhz ≤ 100 then m else step (m.mhz - 100))
  else if avg * 100 ≤ lbPmax m.limits * 95 ∧ m.mhz < lbFmax m.limits then step (min (m.mhz + 100) (lbFmax m.limits))
  else m

def execPowerClamp (avgW : Nat) (s : State) : Out State := .next { s with m := s.m.powerSample avgW }

/-- The clock of a core: the package's, or the lower one that heat leaves it. -/
def Machine.clockOf (m : Machine) (n : Nat) : Nat := min (m.core n).mhz m.mhz

/-- A core's sensors slow it alone, and let it come back to the package clock. -/
def Machine.thermal (m : Machine) (n : Nat) (hot : Bool) : Machine :=
  let f := m.clockOf n
  let g := if hot then (if f ≤ 100 then f else f - 100) else min (f + 100) m.mhz
  if g = f ∨ 96 ≤ n then m else (m.onCore n fun k => { k with mhz := if g = m.mhz then 3600 else g }).clamp g 1 n

def execThermalClamp (core : Nat) (hot : Bool) (s : State) : Out State := .next { s with m := s.m.thermal core hot }

/-! ### Management rings (R416, R417) -/

/-- The base of a ring: the part's copy, and before the lock the word in memory. -/
def ringBase (m : Machine) (ring : Nat) : Nat := if m.locked then m.sysWord (0xA0 + 8 * ring) else m.word (0xA0 + 8 * ring)

/-- A destination MAC address is on the allow-list. -/
def macAllowed (m : Machine) (mac : Nat) : Bool := (List.range 8).any fun j => bit (lbMac m.limits j) 63 && lbMac m.limits j % 2 ^ 48 == mac

/-- The descriptors with OWN = 1 of a transmit ring, in ring order. -/
def Machine.sendRing (m : Machine) (ring : Nat) : Nat → Machine
  | 0 => m
  | fuel + 1 =>
    let pos := SMap.get 0 m.rings ring
    let key := ringBase m ring + 16 * pos
    let d := m.nat key 16
    if !bit d 80 then m
    else
      let data := m.bytes (bits d 0 64) (bits d 64 16)
      let ok := macAllowed m (leNat (data.take 6)) && !m.expired
      let m := { m.setNat key 16 (setBits (setBits d 80 1 0) 81 1 (if ok then 0 else 1)) with rings := SMap.set 0 m.rings ring ((pos + 1) % 256) }
      let m := if ok then { m with out := m.out ++ [OutMsg.mgmt (ring == 2) data] } else m.irq (0x1200 + ring / 2)
      Machine.sendRing m ring fuel

/-- A doorbell: a transmit ring is processed; the descriptors of a receive ring wait for frames. -/
def execMgmtRingDoorbell (ring : BitVec 2) (s : State) : Out State :=
  match s.m.takeWatch (0xC0 + 8 * ring.toNat) with
  | some (m, _) => .next { s with m := if ring.toNat % 2 = 0 then m.sendRing ring.toNat 256 else m }
  | none => .next s

/-- A frame into the next descriptor with OWN = 1 of the port's receive ring; a frame longer than the buffer is marked ERR. -/
def Machine.receiveMgmt (m : Machine) (port : Bool) (data : List Byte) : Machine :=
  let ring := if port then 3 else 1
  let pos := SMap.get 0 m.rings ring
  let key := ringBase m ring + 16 * pos
  let d := m.nat key 16
  if !m.locked || m.expired || !bit d 80 then m
  else
    let room := bits d 64 16
    let m := m.setBytes (bits d 0 64) (data.take room)
    { m.setNat key 16 (setBits (setBits (setBits d 64 16 (min room data.length)) 80 1 0) 81 1 (if room < data.length then 1 else 0)) with
        rings := SMap.set 0 m.rings ring ((pos + 1) % 256) }

def execMgmtFrameReceive (port : Bool) (data : List Byte) (s : State) : Out State := .next { s with m := s.m.receiveMgmt port data }

/-! ### The host port (16 R335, R336; 19 R395) -/

/-- A store to the host interrupt word sends a vector. -/
def execHostIrqWord (v : Word) (s : State) : Out State :=
  match s.m.takeWatch (lcb s.m + 0x10) with
  | some (m, w) => .next (if w = v then { s with m := { m with out := m.out ++ [OutMsg.msix (v.toNat % 32)] } } else s)
  | none => .next s

/-- A host write to the doorbell of BAR 0. -/
def execHostDoorbell (v : Word) (s : State) : Out State := .next { s with m := s.m.irq (0x1100 + v.toNat % 256) }

/-- Bytes of BAR 0. -/
def Machine.barNat (m : Machine) (off n : Nat) : Nat := leNat ((List.range n).map fun i => SMap.get 0 m.bar0 (off + i))

/-- An entry of a TLB that a shootdown slot names. -/
def shotDown (slot : Nat) (t : TlbEntry) : Bool :=
  match t.host with
  | none => false
  | some asid =>
    (bit slot 16 || asid == bits slot 0 16) && (bits slot 24 40 == 0 || t.meets (bits slot 64 64) (4096 * bits slot 24 40))

/-- The write of an acknowledgement to host memory, inside the damper's window. -/
def Machine.acknowledge (m : Machine) (a v : Nat) : Machine :=
  if damperAllows m (hostKey a) then m.performPlain { ctx := 384, key := hostKey a, bytes := leBytes 8 v } else m

/-- The stores of a core's path to host memory are performed, and with them those that were sent to a local home before one of them. -/
def Machine.drainHost (m : Machine) (n : Nat) : Machine :=
  let k := m.core n
  let hit (e : StoreEntry) : Bool := !isFar e.key && e.stage.isNone
  (k.path.filter hit).foldl Machine.performStore (m.setCore n { k with path := k.path.filter fun e => !hit e })

/-- A slot served (R336): entries removed, stores that used them performed, SEQ written. A reserved bit: SEQ with bit 63 inverted (R335). -/
def Machine.shoot (m : Machine) (slot : Nat) : Machine :=
  let d := m.barNat (0x1000 + 32 * slot) 32
  let seq := bits d 128 64
  if bits d 17 7 ≠ 0 ∨ bits d 64 12 ≠ 0 then m.acknowledge (bits d 192 64) (if bit seq 63 then seq - 2 ^ 63 else seq + 2 ^ 63)
  else
    let m := { m with cores := m.cores.map fun (p : Nat × Core) => (p.1, p.2.dropPages (shotDown d)) }.dropWalkers (fun _ => true) (shotDown d)
    let m := (m.cores.map (·.1)).foldl Machine.drainHost m
    m.acknowledge (bits d 192 64) seq

def execShootdown (slot : BitVec 6) (s : State) : Out State := .next { s with m := if s.m.locked && !s.m.expired then s.m.shoot slot.toNat else s.m }

/-- An MSI of identity 65 to 2047. -/
def execHostMsiInterrupt (id : BitVec 11) (s : State) : Out State :=
  .next { s with m := if s.m.locked && !s.m.expired && decide (65 ≤ id.toNat) then s.m.irq (0x8000 + id.toNat) else s.m }

end Sys2Proof.Machine
end

