-- ==== Sys2Proof/Machine/Vector.lean ====
section
/-! DEFINITION. Vector.lean: floating-point and integer lanes, moves, conversions, random bits and reductions (05_vector_lanes.md R120-R137). -/

namespace Sys2Proof.Machine

def execFadd (_ : VSlot) (o : VOp) (s : State) : Out State := fpLaneOp 4 true false (fun p v a b _ => p.add v false a b) o s
def execFsub (_ : VSlot) (o : VOp) (s : State) : Out State := fpLaneOp 4 true false (fun p v a b _ => p.add v true a b) o s
def execFmul (_ : VSlot) (o : VOp) (s : State) : Out State := fpLaneOp 4 true false (fun p v a b _ => p.mul v a b) o s
def execFma (_ : VSlot) (o : VOp) (s : State) : Out State := fpLaneOp 4 true true (fun p v a b c => p.fma v false false a b c) o s
def execFms (_ : VSlot) (o : VOp) (s : State) : Out State := fpLaneOp 4 true true (fun p v a b c => p.fma v false true a b c) o s
def execFnma (_ : VSlot) (o : VOp) (s : State) : Out State := fpLaneOp 4 true true (fun p v a b c => p.fma v true false a b c) o s
def execFnms (_ : VSlot) (o : VOp) (s : State) : Out State := fpLaneOp 4 true true (fun p v a b c => p.fma v true true a b c) o s

/-- `fmin` and `fmax` do not round; F is a function code (R124, R126). -/
def execFmin (_ : VSlot) (o : VOp) (s : State) : Out State := fpLaneOp 1 true false (fun p v a b _ => p.minmax v false a b) o s
def execFmax (_ : VSlot) (o : VOp) (s : State) : Out State := fpLaneOp 1 true false (fun p v a b _ => p.minmax v true a b) o s
def execFabs (_ : VSlot) (o : VOp) (s : State) : Out State := fpLaneOp 1 false false (fun p _ a _ _ => (a % p.signBit, 0)) o s
def execFneg (_ : VSlot) (o : VOp) (s : State) : Out State :=
  fpLaneOp 1 false false (fun p _ a _ _ => (if p.signBit ≤ a then a - p.signBit else a + p.signBit, 0)) o s

/-- A compare into a mask (R127, R130). -/
def maskOp (f : Env → VOp → Nat → Nat → Option (Bool × Nat)) (o : VOp) (s : State) : Out State :=
  syllable (fun e m => do
    let (m, pop) ← m.popIf e (isV63 o.a || isV63 o.b)
    let code := tyCode o.ty.toNat
    let rs ← forLanes (fun g =>
      match f e o (e.x.elem pop e.x.nf code o.a g) (e.x.elem pop e.x.nf code o.b g) with
      | some r => Except.ok r
      | none => laneFormat g) (e.x.lanes o.ms o.ce)
    m.maskResult e o.d.toNat o.ce.toNat (rs.foldl (fun fl p => fl ||| p.2.2) 0) (rs.map fun p => (p.1, p.2.1))) s

def execFcmp (_ : VSlot) (o : VOp) (s : State) : Out State :=
  maskOp (fun e o a b => (fpOfCode (tyCode o.ty.toNat)).map fun p => p.cmp e.x.env o.f.toNat a b) o s

/-- `fclass` writes an `.i64` value (R128). -/
def execFclass (_ : VSlot) (o : VOp) (s : State) : Out State :=
  laneOp 1 tyOf (fun _ _ => 6) false false (fun _ o _ a _ _ => (fpOfCode (tyCode o.ty.toNat)).map fun p => (p.classify a, 0)) o s

/-- An integer lane operation (R129). -/
def intLaneOp (op : IOp) (useB : Bool) (o : VOp) (s : State) : Out State :=
  laneOp 1 tyOf tyOf useB false (fun e o _ a b _ => (op.run e.x.nf (tyCode o.ty.toNat) (o.f == 1) a b).map (·, 0)) o s

def execVAdd (_ : VSlot) (o : VOp) (s : State) : Out State := intLaneOp .add true o s
def execVSub (_ : VSlot) (o : VOp) (s : State) : Out State := intLaneOp .sub true o s
def execVMul (_ : VSlot) (o : VOp) (s : State) : Out State := intLaneOp .mul true o s
def execVMulh (_ : VSlot) (o : VOp) (s : State) : Out State := intLaneOp .mulh true o s
def execVMin (_ : VSlot) (o : VOp) (s : State) : Out State := intLaneOp .min true o s
def execVMax (_ : VSlot) (o : VOp) (s : State) : Out State := intLaneOp .max true o s
def execVAbs (_ : VSlot) (o : VOp) (s : State) : Out State := intLaneOp .abs false o s
def execVNeg (_ : VSlot) (o : VOp) (s : State) : Out State := intLaneOp .neg false o s
def execVAnd (_ : VSlot) (o : VOp) (s : State) : Out State := intLaneOp .and true o s
def execVOr (_ : VSlot) (o : VOp) (s : State) : Out State := intLaneOp .or true o s
def execVXor (_ : VSlot) (o : VOp) (s : State) : Out State := intLaneOp .xor true o s
def execVAndn (_ : VSlot) (o : VOp) (s : State) : Out State := intLaneOp .andn true o s
def execVShl (_ : VSlot) (o : VOp) (s : State) : Out State := intLaneOp .shl true o s
def execVShr (_ : VSlot) (o : VOp) (s : State) : Out State := intLaneOp .shr true o s
def execVSra (_ : VSlot) (o : VOp) (s : State) : Out State := intLaneOp .sra true o s
def execSadd (_ : VSlot) (o : VOp) (s : State) : Out State := intLaneOp .sadd true o s
def execSsub (_ : VSlot) (o : VOp) (s : State) : Out State := intLaneOp .ssub true o s

/-- An integer compare (R130): `.n` compares decoded values, `.ltu` and `.geu` its codes, `.any` and `.none` the codes. -/
def intCmp (n : NFmt) (code : Nat) (c : Cond) (a b : Nat) : Option Bool :=
  match c with
  | .ltu => some (decide (a < b))
  | .geu => some (decide (b ≤ a))
  | .any => some (decide (a &&& b ≠ 0))
  | .none => some (decide (a &&& b = 0))
  | _ =>
    match intDecode n code a, intDecode n code b with
    | some x, some y => some (match c with
      | .eq => decide (x = y)
      | .ne => decide (x ≠ y)
      | .lt => decide (x < y)
      | _ => decide (y ≤ x))
    | _, _ => none

/-- `cmp` (R130). A reserved code of `.n` raises FORMAT_REG under every condition, and `.any` and `.none` act on the codes (log 86, DESIGN CHOICE). -/
def execVCmp (_ : VSlot) (o : VOp) (s : State) : Out State :=
  maskOp (fun e o a b =>
    let code := tyCode o.ty.toNat
    if (intDecode e.x.nf code a).isNone ∨ (intDecode e.x.nf code b).isNone then none
    else (intCmp e.x.nf code (.fromCode o.f.toNat) a b).map (·, 0)) o s

/-- A lane moved as it is: a register's whole lane, a literal under R60 (R120, R131). -/
def moveLane (e : Env) (pop : List Word) (code : Nat) (a : Src) (g : Nat) : Nat :=
  match a with
  | .l6 _ | .l32 _ => e.x.elem pop e.x.nf code a g
  | .r0 r => laneCode e.x.nf code (e.x.vsrc pop r g)
  | .r1 r => laneCode e.x.nf code (e.x.sreg r)
  | .k i => laneCode e.x.nf code (e.x.konstAt i.toNat)

def execMov (_ : VSlot) (o : VOp) (s : State) : Out State :=
  laneOp 1 tyOf tyOf false false (fun _ _ _ a _ _ => some (a, 0)) o s

/-- `sel` writes every lane of the enabled clusters: A where the lane's bit of MS is set, B where it is clear (R131). -/
def execVSel (_ : VSlot) (o : VOp) (s : State) : Out State :=
  syllable (fun e m => do
    let (m, pop) ← m.popIf e (isV63 o.a || isV63 o.b)
    let code := tyCode o.ty.toNat
    m.vecResult e o 1 code ((e.x.lanes 0 o.ce).map fun g =>
      (g, moveLane e pop code (if e.x.mbit o.ms.toNat g then o.a else o.b) g, 0))) s

/-- The two formats of `cvt` (R132). -/
def cvtFormats (o : VOp) : Nat × Nat :=
  let b := o.b.num
  if bit b 5 then (b % 16, tyCode o.ty.toNat) else (tyCode o.ty.toNat, b % 16)

def execCvt (_ : VSlot) (o : VOp) (s : State) : Out State :=
  laneOp 2 (fun _ o => (cvtFormats o).1) (fun _ o => (cvtFormats o).2) false false
    (fun e o _ a _ _ => convert (vecEnv e.x o) e.x.nf [] [] (cvtFormats o).1 (cvtFormats o).2 a) o s

/-- `vlane`: A + g, wrapping in the type (R133). -/
def execVlane (_ : VSlot) (o : VOp) (s : State) : Out State :=
  laneOp 1 tyOf tyOf false false (fun e o g a _ _ => some ((a + g) % 2 ^ codeWidth e.x.nf (tyCode o.ty.toNat), 0)) o s

/-- `vrng` takes RNGCTR of the bundle's start plus the number of `vrng` syllables in lower slots; the bundle's end advances RNGCTR (R134). -/
def execVrng (_ : VSlot) (o : VOp) (s : State) : Out State :=
  syllable (fun e m => do
    let code := tyCode o.ty.toNat
    let n := (e.x.cr 0x51).toNat + m.bun.vrngs
    let rs := (e.x.lanes o.ms o.ce).map fun g => (g, (rngCode code (e.x.cr 0x50).toNat n g, 0))
    let m ← m.vecResult e o 2 code rs
    .ok { m with bun := { m.bun with vrngs := m.bun.vrngs + 1 } }) s

/-- The operation of a reduction's nodes (R136); `none` for a reserved narrow code. -/
def redOp (e : Env) (code f : Nat) (a b : Nat) : Option FRes :=
  match fpOfCode code with
  | some p =>
    some (match f with
      | 0 => p.add e.x.env false a b
      | 1 => p.minmax e.x.env false a b
      | _ => p.minmax e.x.env true a b)
  | none =>
    let op : IOp := match f with
      | 0 => .add
      | 1 => .min
      | 2 => .max
      | 3 => .and
      | 4 => .or
      | _ => .xor
    (op.run e.x.nf code false a b).map (·, 0)

/-- A reduction node over values with flags; a stop stays a stop. -/
def redNode (e : Env) (code f : Nat) (a b : Option FRes) : Option FRes :=
  match a, b with
  | some x, some y => (redOp e code f x.1 y.1).map fun r => (r.1, x.2 ||| y.2 ||| r.2)
  | _, _ => none

/-- `vred` (R136): the lane tree of each enabled cluster, written to every lane that took part. -/
def execVred (_ : VSlot) (o : VOp) (s : State) : Out State :=
  syllable (fun e m => do
    let (m, pop) ← m.popIf e (isV63 o.a)
    let code := tyCode o.ty.toNat
    let n := e.x.nf
    let f := o.f.toNat
    let decodes := code = 9 ∧ f < 3
    let _ ← forLanes (fun g => check (!decodes || (intDecode n code (e.x.elem pop n code o.a g)).isSome) 0x19 1 (some 0) (some g)) (e.x.lanes o.ms o.ce)
    let rs := (clusters o.ce).flatMap fun c =>
      let on (l : Nat) : Bool := e.x.mbit o.ms.toNat (16 * c + l)
      let leaves := (List.range 16).map fun l => if on l then some (some ((e.x.elem pop n code o.a (16 * c + l), 0) : FRes)) else none
      match tree (redNode e code f) leaves with
      | some (some r) => ((List.range 16).filter on).map fun l => (16 * c + l, r)
      | _ => []
    let fl := orFlags (rs.map (·.2))
    m.vecResult e o (if f = 0 ∧ code < 4 then 16 else 2) code (rs.map fun p => (p.1, (p.2.1, fl)))) s

end Sys2Proof.Machine
end

