-- ==== Sys2Proof/Machine/Dispatch.lean ====
section
/-! DEFINITION. Dispatch.lean: one arm per instruction, each one call of its meaning. -/

namespace Sys2Proof.Machine

def exec (i : Instr) (s : State) : Host.Outcome State Fault Refusal :=
  match i with
  | .nop slot => Sys2Proof.Machine.execNop slot s
  | .sAdd d a b => Sys2Proof.Machine.execSAdd d a b s
  | .sSub d a b => Sys2Proof.Machine.execSSub d a b s
  | .sMul d a b => Sys2Proof.Machine.execSMul d a b s
  | .sMulh d a b => Sys2Proof.Machine.execSMulh d a b s
  | .sMulhu d a b => Sys2Proof.Machine.execSMulhu d a b s
  | .sDiv d a b => Sys2Proof.Machine.execSDiv d a b s
  | .sDivu d a b => Sys2Proof.Machine.execSDivu d a b s
  | .sRem d a b => Sys2Proof.Machine.execSRem d a b s
  | .sRemu d a b => Sys2Proof.Machine.execSRemu d a b s
  | .sAnd d a b => Sys2Proof.Machine.execSAnd d a b s
  | .sOr d a b => Sys2Proof.Machine.execSOr d a b s
  | .sXor d a b => Sys2Proof.Machine.execSXor d a b s
  | .sAndn d a b => Sys2Proof.Machine.execSAndn d a b s
  | .sShl d a b => Sys2Proof.Machine.execSShl d a b s
  | .sShr d a b => Sys2Proof.Machine.execSShr d a b s
  | .sSra d a b => Sys2Proof.Machine.execSSra d a b s
  | .sMin d a b => Sys2Proof.Machine.execSMin d a b s
  | .sMax d a b => Sys2Proof.Machine.execSMax d a b s
  | .sMinu d a b => Sys2Proof.Machine.execSMinu d a b s
  | .sMaxu d a b => Sys2Proof.Machine.execSMaxu d a b s
  | .sCmp cond d a b => Sys2Proof.Machine.execSCmp cond d a b s
  | .sSel d a b c => Sys2Proof.Machine.execSSel d a b c s
  | .li d a => Sys2Proof.Machine.execLi d a s
  | .liHi d a => Sys2Proof.Machine.execLiHi d a s
  | .lk d ix => Sys2Proof.Machine.execLk d ix s
  | .tcrd d n f => Sys2Proof.Machine.execTcrd d n f s
  | .b off => Sys2Proof.Machine.execB off s
  | .bc cond a b off => Sys2Proof.Machine.execBc cond a b off s
  | .j a => Sys2Proof.Machine.execJ a s
  | .call d off => Sys2Proof.Machine.execCall d off s
  | .ret a => Sys2Proof.Machine.execRet a s
  | .loop d off => Sys2Proof.Machine.execLoop d off s
  | .waitCount a cls => Sys2Proof.Machine.execWaitCount a cls s
  | .waitWatermark a ch => Sys2Proof.Machine.execWaitWatermark a ch s
  | .nxt n => Sys2Proof.Machine.execNxt n s
  | .trap t => Sys2Proof.Machine.execTrap t s
  | .brk tag => Sys2Proof.Machine.execBrk tag s
  | .csrr d num => Sys2Proof.Machine.execCsrr d num s
  | .csrw num a => Sys2Proof.Machine.execCsrw num a s
  | .csrwFpc a => Sys2Proof.Machine.execCsrwFpc a s
  | .csrwFmt a => Sys2Proof.Machine.execCsrwFmt a s
  | .csrwDmr a => Sys2Proof.Machine.execCsrwDmr a s
  | .csrwKbase a => Sys2Proof.Machine.execCsrwKbase a s
  | .csrwSchedptr a => Sys2Proof.Machine.execCsrwSchedptr a s
  | .csrwRngctr a => Sys2Proof.Machine.execCsrwRngctr a s
  | .ld sz d a b => Sys2Proof.Machine.execLd sz d a b s
  | .st sz d a b => Sys2Proof.Machine.execSt sz d a b s
  | .fence cls sc => Sys2Proof.Machine.execFence cls sc s
  | .amo op w sc d a b off => Sys2Proof.Machine.execAmo op w sc d a b off s
  | .cas w sc d a b c off => Sys2Proof.Machine.execCas w sc d a b c off s
  | .acq sc d a b => Sys2Proof.Machine.execAcq sc d a b s
  | .rel sc d a => Sys2Proof.Machine.execRel sc d a s
  | .bar sc d a => Sys2Proof.Machine.execBar sc d a s
  | .waitf cond sc d a b c => Sys2Proof.Machine.execWaitf cond sc d a b c s
  | .sbind sc a b c => Sys2Proof.Machine.execSbind sc a b c s
  | .sunbind a b => Sys2Proof.Machine.execSunbind a b s
  | .alloc d a => Sys2Proof.Machine.execAlloc d a s
  | .free a => Sys2Proof.Machine.execFree a s
  | .cld sz d a b => Sys2Proof.Machine.execCld sz d a b s
  | .cst sz d a b => Sys2Proof.Machine.execCst sz d a b s
  | .cderive d a b c pm => Sys2Proof.Machine.execCderive d a b c pm s
  | .cget d a fld => Sys2Proof.Machine.execCget d a fld s
  | .ldc d a b => Sys2Proof.Machine.execLdc d a b s
  | .stc d a b => Sys2Proof.Machine.execStc d a b s
  | .tlbinv sc kind a b => Sys2Proof.Machine.execTlbinv sc kind a b s
  | .bankmode a clm mode => Sys2Proof.Machine.execBankmode a clm mode s
  | .fmtw a => Sys2Proof.Machine.execFmtw a s
  | .tidw cb num a => Sys2Proof.Machine.execTidw cb num a s
  | .tidr cb num a => Sys2Proof.Machine.execTidr cb num a s
  | .fadd sl o => Sys2Proof.Machine.execFadd sl o s
  | .fsub sl o => Sys2Proof.Machine.execFsub sl o s
  | .fmul sl o => Sys2Proof.Machine.execFmul sl o s
  | .fma sl o => Sys2Proof.Machine.execFma sl o s
  | .fms sl o => Sys2Proof.Machine.execFms sl o s
  | .fnma sl o => Sys2Proof.Machine.execFnma sl o s
  | .fnms sl o => Sys2Proof.Machine.execFnms sl o s
  | .fmin sl o => Sys2Proof.Machine.execFmin sl o s
  | .fmax sl o => Sys2Proof.Machine.execFmax sl o s
  | .fabs sl o => Sys2Proof.Machine.execFabs sl o s
  | .fneg sl o => Sys2Proof.Machine.execFneg sl o s
  | .fcmp sl o => Sys2Proof.Machine.execFcmp sl o s
  | .fclass sl o => Sys2Proof.Machine.execFclass sl o s
  | .vAdd sl o => Sys2Proof.Machine.execVAdd sl o s
  | .vSub sl o => Sys2Proof.Machine.execVSub sl o s
  | .vMul sl o => Sys2Proof.Machine.execVMul sl o s
  | .vMulh sl o => Sys2Proof.Machine.execVMulh sl o s
  | .vMin sl o => Sys2Proof.Machine.execVMin sl o s
  | .vMax sl o => Sys2Proof.Machine.execVMax sl o s
  | .vAbs sl o => Sys2Proof.Machine.execVAbs sl o s
  | .vNeg sl o => Sys2Proof.Machine.execVNeg sl o s
  | .vAnd sl o => Sys2Proof.Machine.execVAnd sl o s
  | .vOr sl o => Sys2Proof.Machine.execVOr sl o s
  | .vXor sl o => Sys2Proof.Machine.execVXor sl o s
  | .vAndn sl o => Sys2Proof.Machine.execVAndn sl o s
  | .vShl sl o => Sys2Proof.Machine.execVShl sl o s
  | .vShr sl o => Sys2Proof.Machine.execVShr sl o s
  | .vSra sl o => Sys2Proof.Machine.execVSra sl o s
  | .sadd sl o => Sys2Proof.Machine.execSadd sl o s
  | .ssub sl o => Sys2Proof.Machine.execSsub sl o s
  | .vCmp sl o => Sys2Proof.Machine.execVCmp sl o s
  | .mov sl o => Sys2Proof.Machine.execMov sl o s
  | .vSel sl o => Sys2Proof.Machine.execVSel sl o s
  | .cvt sl o => Sys2Proof.Machine.execCvt sl o s
  | .vrng sl o => Sys2Proof.Machine.execVrng sl o s
  | .vred sl o => Sys2Proof.Machine.execVred sl o s
  | .vacc sl o => Sys2Proof.Machine.execVacc sl o s
  | .vlane sl o => Sys2Proof.Machine.execVlane sl o s
  | .qclr sl o => Sys2Proof.Machine.execQclr sl o s
  | .qupd sl o => Sys2Proof.Machine.execQupd sl o s
  | .qupw sl o => Sys2Proof.Machine.execQupw sl o s
  | .qmrg sl o => Sys2Proof.Machine.execQmrg sl o s
  | .qred sl o => Sys2Proof.Machine.execQred sl o s
  | .qxc sl o => Sys2Proof.Machine.execQxc sl o s
  | .qxcMerge sl o => Sys2Proof.Machine.execQxcMerge sl o s
  | .qdrn sl o => Sys2Proof.Machine.execQdrn sl o s
  | .qld sl o => Sys2Proof.Machine.execQld sl o s
  | .qst sl o => Sys2Proof.Machine.execQst sl o s
  | .aadd d a b => Sys2Proof.Machine.execAadd d a b s
  | .asub d a b => Sys2Proof.Machine.execAsub d a b s
  | .ashl d a b => Sys2Proof.Machine.execAshl d a b s
  | .lq sz ms ce a b => Sys2Proof.Machine.execLq sz ms ce a b s
  | .lqs sz ms ce a b c => Sys2Proof.Machine.execLqs sz ms ce a b c s
  | .lqg sz ms ce a b c => Sys2Proof.Machine.execLqg sz ms ce a b c s
  | .vld g ms ce d a b => Sys2Proof.Machine.execVld g ms ce d a b s
  | .vst g ms ce d a b => Sys2Proof.Machine.execVst g ms ce d a b s
  | .vldg g ms ce d a b c => Sys2Proof.Machine.execVldg g ms ce d a b c s
  | .vsts sz ms ce d a b c => Sys2Proof.Machine.execVsts sz ms ce d a b c s
  | .mand ce d a b => Sys2Proof.Machine.execMand ce d a b s
  | .mor ce d a b => Sys2Proof.Machine.execMor ce d a b s
  | .mxor ce d a b => Sys2Proof.Machine.execMxor ce d a b s
  | .mandn ce d a b => Sys2Proof.Machine.execMandn ce d a b s
  | .mnot ce d a => Sys2Proof.Machine.execMnot ce d a s
  | .mmov ce d a => Sys2Proof.Machine.execMmov ce d a s
  | .mset ce d v => Sys2Proof.Machine.execMset ce d v s
  | .mcnt ce d a => Sys2Proof.Machine.execMcnt ce d a s
  | .mfst ce d a => Sys2Proof.Machine.execMfst ce d a s
  | .mlim ce d a perCluster => Sys2Proof.Machine.execMlim ce d a perCluster s
  | .frcp o => Sys2Proof.Machine.execFrcp o s
  | .frsqrt o => Sys2Proof.Machine.execFrsqrt o s
  | .fsqrt o => Sys2Proof.Machine.execFsqrt o s
  | .fdiv o => Sys2Proof.Machine.execFdiv o s
  | .fexp2 o => Sys2Proof.Machine.execFexp2 o s
  | .flog2 o => Sys2Proof.Machine.execFlog2 o s
  | .fsin o => Sys2Proof.Machine.execFsin o s
  | .fcos o => Sys2Proof.Machine.execFcos o s
  | .ftanh o => Sys2Proof.Machine.execFtanh o s
  | .ferf o => Sys2Proof.Machine.execFerf o s
  | .fexp o => Sys2Proof.Machine.execFexp o s
  | .perm o => Sys2Proof.Machine.execPerm o s
  | .rev o => Sys2Proof.Machine.execRev o s
  | .rot o => Sys2Proof.Machine.execRot o s
  | .zip o => Sys2Proof.Machine.execZip o s
  | .unzip o => Sys2Proof.Machine.execUnzip o s
  | .xcopy o => Sys2Proof.Machine.execXcopy o s
  | .xbcast o => Sys2Proof.Machine.execXbcast o s
  | .cpush o => Sys2Proof.Machine.execCpush o s
  | .cpop o => Sys2Proof.Machine.execCpop o s
  | .cpopCnt o => Sys2Proof.Machine.execCpopCnt o s
  | .xroute o => Sys2Proof.Machine.execXroute o s
  | .mma d a b rm z0 => Sys2Proof.Machine.execMma d a b rm z0 s
  | .mlatch d a => Sys2Proof.Machine.execMlatch d a s
  | .mlatchMem d a tid => Sys2Proof.Machine.execMlatchMem d a tid s
  | .mzero d => Sys2Proof.Machine.execMzero d s
  | .mst d a rm clr => Sys2Proof.Machine.execMst d a rm clr s
  | .msv d a => Sys2Proof.Machine.execMsv d a s
  | .mrst d a => Sys2Proof.Machine.execMrst d a s
  | .mq d a merge blk ms ce => Sys2Proof.Machine.execMq d a merge blk ms ce s
  | .macq mask => Sys2Proof.Machine.execMacq mask s
  | .mrls mask => Sys2Proof.Machine.execMrls mask s
  | .tdef d a b => Sys2Proof.Machine.execTdef d a b s
  | .trel d => Sys2Proof.Machine.execTrel d s
  | .tmov d a tid => Sys2Proof.Machine.execTmov d a tid s
  | .tld o => Sys2Proof.Machine.execTld o s
  | .tst o => Sys2Proof.Machine.execTst o s
  | .tldm o => Sys2Proof.Machine.execTldm o s
  | .tstage b => Sys2Proof.Machine.execTstage b s
  | .ttrans o => Sys2Proof.Machine.execTtrans o s
  | .tred opr o => Sys2Proof.Machine.execTred opr o s
  | .tfire d a b => Sys2Proof.Machine.execTfire d a b s
  | .tfireOpen a => Sys2Proof.Machine.execTfireOpen a s
  | .tsend d a b => Sys2Proof.Machine.execTsend d a b s
  | .tsendOpen a b => Sys2Proof.Machine.execTsendOpen a b s
  | .tsendClose b => Sys2Proof.Machine.execTsendClose b s
  | .trecv d a b => Sys2Proof.Machine.execTrecv d a b s
  | .attn d a b rm noMask => Sys2Proof.Machine.execAttn d a b rm noMask s
  | .kvmap d a b c fn3 tt => Sys2Proof.Machine.execKvmap d a b c fn3 tt s
  | .kvmapPro a b c => Sys2Proof.Machine.execKvmapPro a b c s
  | .kvmapDem a b c tt => Sys2Proof.Machine.execKvmapDem a b c tt s
  | .lbNop o => Sys2Proof.Machine.execLbNop o s
  | .lbMatmul o => Sys2Proof.Machine.execLbMatmul o s
  | .lbEwise o => Sys2Proof.Machine.execLbEwise o s
  | .lbUnary o => Sys2Proof.Machine.execLbUnary o s
  | .lbCast o => Sys2Proof.Machine.execLbCast o s
  | .lbSoftmax o => Sys2Proof.Machine.execLbSoftmax o s
  | .lbRstats o => Sys2Proof.Machine.execLbRstats o s
  | .lbRdrain o => Sys2Proof.Machine.execLbRdrain o s
  | .lbNorm o => Sys2Proof.Machine.execLbNorm o s
  | .lbAttn o => Sys2Proof.Machine.execLbAttn o s
  | .lbCopy o => Sys2Proof.Machine.execLbCopy o s
  | .lbTranspose o => Sys2Proof.Machine.execLbTranspose o s
  | .lbGather o => Sys2Proof.Machine.execLbGather o s
  | .lbScatter o => Sys2Proof.Machine.execLbScatter o s
  | .lbView o => Sys2Proof.Machine.execLbView o s
  | .lbConcat o => Sys2Proof.Machine.execLbConcat o s
  | .lbFill o => Sys2Proof.Machine.execLbFill o s
  | .lbAllreduce o => Sys2Proof.Machine.execLbAllreduce o s
  | .lbAllgather o => Sys2Proof.Machine.execLbAllgather o s
  | .lbRscatter o => Sys2Proof.Machine.execLbRscatter o s
  | .lbAlltoall o => Sys2Proof.Machine.execLbAlltoall o s
  | .lbBcast o => Sys2Proof.Machine.execLbBcast o s
  | .lbReshard o => Sys2Proof.Machine.execLbReshard o s
  | .lbKvappend o => Sys2Proof.Machine.execLbKvappend o s
  | .lbKvtrunc o => Sys2Proof.Machine.execLbKvtrunc o s
  | .lbKvpromote o => Sys2Proof.Machine.execLbKvpromote o s
  | .lbRngsave o => Sys2Proof.Machine.execLbRngsave o s
  | .lbRngset o => Sys2Proof.Machine.execLbRngset o s
  | .lbRngfill o => Sys2Proof.Machine.execLbRngfill o s
  | .lbCkptsave o => Sys2Proof.Machine.execLbCkptsave o s
  | .lbCkptload o => Sys2Proof.Machine.execLbCkptload o s
  | .lbDset o => Sys2Proof.Machine.execLbDset o s
  | .lbDop o => Sys2Proof.Machine.execLbDop o s
  | .lbDext o => Sys2Proof.Machine.execLbDext o s
  | .lbDld o => Sys2Proof.Machine.execLbDld o s
  | .lbBr o => Sys2Proof.Machine.execLbBr o s
  | .lbBrc o => Sys2Proof.Machine.execLbBrc o s
  | .lbCall o => Sys2Proof.Machine.execLbCall o s
  | .lbRet o => Sys2Proof.Machine.execLbRet o s
  | .lbEnd o => Sys2Proof.Machine.execLbEnd o s
  | .lbHbind o => Sys2Proof.Machine.execLbHbind o s
  | .lbNotify o => Sys2Proof.Machine.execLbNotify o s
  | .lbCustom o => Sys2Proof.Machine.execLbCustom o s
  | .ucOphdr rd wr nwords opc => Sys2Proof.Machine.execUcOphdr rd wr nwords opc s
  | .ucOshape n src => Sys2Proof.Machine.execUcOshape n src s
  | .ucTiledim n ts => Sys2Proof.Machine.execUcTiledim n ts s
  | .ucOrder perm cyclic => Sys2Proof.Machine.execUcOrder perm cyclic s
  | .ucBind h t tid g rows rowb8 k fx => Sys2Proof.Machine.execUcBind h t tid g rows rowb8 k fx s
  | .ucStage store t ch lay stg sreg h => Sys2Proof.Machine.execUcStage store t ch lay stg sreg h s
  | .ucRoutine ssz lm koff eoff => Sys2Proof.Machine.execUcRoutine ssz lm koff eoff s
  | .ucFuse h t consumer => Sys2Proof.Machine.execUcFuse h t consumer s
  | .ucShard h act inst => Sys2Proof.Machine.execUcShard h act inst s
  | .ucDepend k => Sys2Proof.Machine.execUcDepend k s
  | .ucEpilog merge k => Sys2Proof.Machine.execUcEpilog merge k s
  | .endNxt => Sys2Proof.Machine.execEndNxt s
  | .yield => Sys2Proof.Machine.execYield s
  | .rts => Sys2Proof.Machine.execRts s
  | .ucOend => Sys2Proof.Machine.execUcOend s
  | .reset => Sys2Proof.Machine.execReset s
  | .hostPerst => Sys2Proof.Machine.execHostPerst s
  | .lock arg => Sys2Proof.Machine.execLock arg s
  | .tighten arg => Sys2Proof.Machine.execTighten arg s
  | .quote arg => Sys2Proof.Machine.execQuote arg s
  | .extendMr2 arg => Sys2Proof.Machine.execExtendMr2 arg s
  | .extendMr3 arg => Sys2Proof.Machine.execExtendMr3 arg s
  | .scmdUnassigned code => Sys2Proof.Machine.execScmdUnassigned code s
  | .kick => Sys2Proof.Machine.execKick s
  | .watchdog => Sys2Proof.Machine.execWatchdog s
  | .powerClamp avgW => Sys2Proof.Machine.execPowerClamp avgW s
  | .thermalClamp core hot => Sys2Proof.Machine.execThermalClamp core hot s
  | .mgmtRingDoorbell ring => Sys2Proof.Machine.execMgmtRingDoorbell ring s
  | .hostIrqWord v => Sys2Proof.Machine.execHostIrqWord v s
  | .hostDoorbell v => Sys2Proof.Machine.execHostDoorbell v s
  | .shootdown slot => Sys2Proof.Machine.execShootdown slot s
  | .hostMsiInterrupt id => Sys2Proof.Machine.execHostMsiInterrupt id s
  | .interruptPost ctx v => Sys2Proof.Machine.execInterruptPost ctx v s
  | .queueDoorbell q => Sys2Proof.Machine.execQueueDoorbell q s
  | .ringEntryTake q => Sys2Proof.Machine.execRingEntryTake q s
  | .operatorIssue q => Sys2Proof.Machine.execOperatorIssue q s
  | .microcodeInstall die => Sys2Proof.Machine.execMicrocodeInstall die s
  | .microcodeRemove die => Sys2Proof.Machine.execMicrocodeRemove die s
  | .launchBind launch => Sys2Proof.Machine.execLaunchBind launch s
  | .coordLanding ctx n => Sys2Proof.Machine.execCoordLanding ctx n s
  | .tileDone launch ti => Sys2Proof.Machine.execTileDone launch ti s
  | .graphComplete q => Sys2Proof.Machine.execGraphComplete q s
  | .issueSelect core => Sys2Proof.Machine.execIssueSelect core s
  | .agingLimit ctx => Sys2Proof.Machine.execAgingLimit ctx s
  | .holdRelease ctx => Sys2Proof.Machine.execHoldRelease ctx s
  | .progressPreempt ctx => Sys2Proof.Machine.execProgressPreempt ctx s
  | .resultLanding ctx => Sys2Proof.Machine.execResultLanding ctx s
  | .interlockedLanding ctx vi => Sys2Proof.Machine.execInterlockedLanding ctx vi s
  | .trapEntry ctx => Sys2Proof.Machine.execTrapEntry ctx s
  | .preempt ctx => Sys2Proof.Machine.execPreempt ctx s
  | .resume ctx launch => Sys2Proof.Machine.execResume ctx launch s
  | .lqEntryResolve ctx vi => Sys2Proof.Machine.execLqEntryResolve ctx vi s
  | .transferStart ctx vi => Sys2Proof.Machine.execTransferStart ctx vi s
  | .transferComplete ctx vi => Sys2Proof.Machine.execTransferComplete ctx vi s
  | .transferFault ctx vi => Sys2Proof.Machine.execTransferFault ctx vi s
  | .privTransferComplete core ch => Sys2Proof.Machine.execPrivTransferComplete core ch s
  | .matrixCmdStart core => Sys2Proof.Machine.execMatrixCmdStart core s
  | .matrixCmdComplete core => Sys2Proof.Machine.execMatrixCmdComplete core s
  | .storePerformed core vi => Sys2Proof.Machine.execStorePerformed core vi s
  | .codedStoreRmw core vi => Sys2Proof.Machine.execCodedStoreRmw core vi s
  | .codecFlush cri => Sys2Proof.Machine.execCodecFlush cri s
  | .cxlBiSnoop addr => Sys2Proof.Machine.execCxlBiSnoop addr s
  | .scrubEcc ctx => Sys2Proof.Machine.execScrubEcc ctx s
  | .allocRefill rec => Sys2Proof.Machine.execAllocRefill rec s
  | .barrierDeparture ctx => Sys2Proof.Machine.execBarrierDeparture ctx s
  | .barrierUnreachable obj => Sys2Proof.Machine.execBarrierUnreachable obj s
  | .commitDecision x => Sys2Proof.Machine.execCommitDecision x s
  | .rollbackTrigger x cause pkg ctx => Sys2Proof.Machine.execRollbackTrigger x cause pkg ctx s
  | .groupCmdReplay x => Sys2Proof.Machine.execGroupCmdReplay x s
  | .groupCmdRollback x => Sys2Proof.Machine.execGroupCmdRollback x s
  | .groupCmdFail x => Sys2Proof.Machine.execGroupCmdFail x s
  | .groupCmdInvalid x => Sys2Proof.Machine.execGroupCmdInvalid x s
  | .kvPromotion gbn => Sys2Proof.Machine.execKvPromotion gbn s
  | .kvDemotion gbn tier => Sys2Proof.Machine.execKvDemotion gbn tier s
  | .stovePartial ctx vi blk => Sys2Proof.Machine.execStovePartial ctx vi blk s
  | .flueFold ctx vi blk => Sys2Proof.Machine.execFlueFold ctx vi blk s
  | .kvmapComplete ctx vi => Sys2Proof.Machine.execKvmapComplete ctx vi s
  | .linkTrain port => Sys2Proof.Machine.execLinkTrain port s
  | .linkTakeDown port => Sys2Proof.Machine.execLinkTakeDown port s
  | .linkClear port => Sys2Proof.Machine.execLinkClear port s
  | .linkCmdInvalid port => Sys2Proof.Machine.execLinkCmdInvalid port s
  | .bringUpEnd port lanes => Sys2Proof.Machine.execBringUpEnd port lanes s
  | .blockLockLoss port => Sys2Proof.Machine.execBlockLockLoss port s
  | .frameReceive f => Sys2Proof.Machine.execFrameReceive f s
  | .ackTimeout port pkg => Sys2Proof.Machine.execAckTimeout port pkg s
  | .remoteRequest r => Sys2Proof.Machine.execRemoteRequest r s
  | .connBreakTimeout e => Sys2Proof.Machine.execConnBreakTimeout e s
  | .tsendDataPhase ctx vi => Sys2Proof.Machine.execTsendDataPhase ctx vi s
  | .trecvComplete ctx vi rows rowb data => Sys2Proof.Machine.execTrecvComplete ctx vi rows rowb data s
  | .tsendComplete ctx vi result => Sys2Proof.Machine.execTsendComplete ctx vi result s
  | .collArrival a => Sys2Proof.Machine.execCollArrival a s
  | .ringHop inst entry => Sys2Proof.Machine.execRingHop inst entry s
  | .collDelivery inst entry => Sys2Proof.Machine.execCollDelivery inst entry s
  | .collFireComplete inst entry => Sys2Proof.Machine.execCollFireComplete inst entry s
  | .collStallTimeout inst entry => Sys2Proof.Machine.execCollStallTimeout inst entry s
  | .mgmtFrameReceive port data => Sys2Proof.Machine.execMgmtFrameReceive port data s
  | .hostAgentAccess acc => Sys2Proof.Machine.execHostAgentAccess acc s
  | .hostCxlSnoop addr => Sys2Proof.Machine.execHostCxlSnoop addr s
  | .cxlCompletionTimeout ctx vi => Sys2Proof.Machine.execCxlCompletionTimeout ctx vi s
  | .queueDisable q => Sys2Proof.Machine.execQueueDisable q s
  | .groupRecordRewrite x => Sys2Proof.Machine.execGroupRecordRewrite x s

end Sys2Proof.Machine
end

