-- ==== Sys2Proof/Machine/Named.lean ====
section
/-! DEFINITION. Named.lean: the scalar and the capability registers that a syllable names as source or destination, for the interlock of 04_scalar_control_system.md R84. -/

namespace Sys2Proof.Machine

/-- The scalar register of a source in the S, A and C slots, where both register kinds name one (03 R58). -/
def srcScalar : Src → List Reg
  | .r0 n | .r1 n => [n]
  | _ => []

/-- The scalar register of a source in the VA, VB, M and X slots: that of kind 0b01 (03 R58). -/
def srcBroadcast : Src → List Reg
  | .r1 n => [n]
  | _ => []

/-- The scalar registers of the S slot. -/
def namedS : Instr → List Reg
  | .sAdd d a b | .sSub d a b | .sMul d a b | .sMulh d a b | .sMulhu d a b | .sDiv d a b | .sDivu d a b | .sRem d a b | .sRemu d a b
  | .sAnd d a b | .sOr d a b | .sXor d a b | .sAndn d a b | .sShl d a b | .sShr d a b | .sSra d a b | .sMin d a b | .sMax d a b
  | .sMinu d a b | .sMaxu d a b | .sCmp _ d a b => d :: srcScalar a ++ srcScalar b
  | .sSel d a b c => d :: c :: srcScalar a ++ srcScalar b
  | .li d a | .liHi d a => d :: srcScalar a
  | .lk d (.reg b _) => [d, b]
  | .lk d _ | .tcrd d _ _ | .call d _ | .loop d _ | .csrr d _ | .cget d _ _ => [d]
  | .bc _ a b _ | .trap (.ops a b) => srcScalar a ++ srcScalar b
  | .j a | .waitCount a _ | .waitWatermark a _ | .csrw _ a | .csrwFpc a | .csrwFmt a | .csrwDmr a | .csrwKbase a | .csrwSchedptr a
  | .csrwRngctr a | .alloc _ a | .bankmode a _ _ | .fmtw a => srcScalar a
  | .ret a | .tidw _ _ a | .tidr _ _ a => [a]
  | .ld _ d a b | .st _ d a b | .amo _ _ _ d a b _ | .acq _ d a b => d :: a :: srcScalar b
  | .cas _ _ d a b c _ => [d, a, b, c]
  | .rel _ d a | .bar _ d a => [d, a]
  | .waitf _ _ d a b c => d :: a :: c :: srcScalar b
  | .sbind _ a b c => [a, b, c]
  | .sunbind a b | .tlbinv _ _ a b => [a, b]
  | .cld _ d _ b | .cst _ d _ b => d :: srcScalar b
  | .cderive _ _ b c _ => c :: srcScalar b
  | .ldc _ a b | .stc _ a b => a :: srcScalar b
  | _ => []

/-- The scalar registers of the A, C, P and M slots. -/
def namedMem : Instr → List Reg
  | .aadd d a b | .asub d a b | .ashl d a b => d :: srcScalar a ++ srcScalar b
  | .lq _ _ _ a b | .lqg _ _ _ a b _ | .vld _ _ _ _ a b | .vst _ _ _ _ a b | .vldg _ _ _ _ a b _ => a :: srcScalar b
  | .lqs _ _ _ a b c | .vsts _ _ _ _ a b c => a :: c :: srcScalar b
  | .mcnt _ d _ | .mfst _ d _ => [d]
  | .mlim _ _ a _ | .mlatchMem _ a _ | .tsend _ a _ | .trecv _ a _ | .tfireOpen a => [a]
  | .mq _ _ _ (.row b) _ _ => srcBroadcast b
  | .tdef _ a b => [a, b]
  | .tld o | .tst o | .tldm o | .ttrans o | .tred _ o => o.a :: o.c :: srcScalar o.b
  | .tstage b => srcScalar b
  | .tfire _ a b => a :: srcScalar b
  | .tsendOpen a _ => srcScalar a
  | .attn _ _ b _ _ => [b]
  | .kvmap _ a b c _ _ | .kvmapPro a b c | .kvmapDem a b c _ => a :: c :: srcScalar b
  | _ => []

/-- The scalar registers that a syllable names. -/
def namedScalars (i : Instr) : List Reg :=
  namedS i ++ namedMem i ++ match vshape i with
    | some (_, o) => srcBroadcast o.a ++ srcBroadcast o.b
    | none => []

/-- The capability registers that a syllable names (04 R107-R115). -/
def namedCaps : Instr → List (BitVec 4)
  | .alloc d _ | .ldc d _ _ | .stc d _ _ => [d]
  | .free a | .cld _ _ a _ | .cst _ _ a _ | .cget _ a _ => [a]
  | .cderive d a _ _ _ => [d, a]
  | _ => []

/-- A syllable names the register of an interlocked result (R84). -/
def namesResult (i : Instr) (r : Interlock) : Bool :=
  if r.cap then (namedCaps i).any fun c => c.toNat == r.reg else (namedScalars i).any fun s => s.toNat == r.reg

end Sys2Proof.Machine
end

