-- ==== Sys2Proof/Machine/Issue.lean ====
section
/-! DEFINITION. Issue.lean: a bundle from its fetch to its end: fences, fetch, decoding, the syllables in slot order, and what the end of a bundle does (03_bundles_and_encoding.md R63-R67, R79; 04 R84-R86; 08 R208; 10_contexts.md R240-R246, R433). -/

namespace Sys2Proof.Machine

/-! ### Fetch (R64, R79) -/

/-- An address lies in an enabled pool fence of the context. -/
def Ctx.fenced (x : Ctx) (va : Nat) : Bool :=
  (List.range 4).any fun f =>
    let base := (x.cr (0x40 + f)).toNat
    let l := (x.cr (0x44 + f)).toNat
    bit l 63 && base ≤ va && va < base + bits l 0 32

/-- EXEC_POOL at the first fenced byte of `n` bytes. -/
def Ctx.fenceCheck (x : Ctx) (va n : Nat) : Res Unit :=
  match ((List.range n).map (va + ·)).find? x.fenced with
  | some a => raise 0x04 a
  | none => .ok ()

/-- Four bytes of code, translated and read as the core's own stores and its group's lines leave them. -/
def Machine.fetchWord (m : Machine) (c va : Nat) : Res (Machine × Nat) := do
  let n := coreOf c
  let (m, p) ← m.translate n va .fetch
  check (!leafCAP p.leaf) 0x06 va
  check (damperAllows m p.key) 0x3B va
  m.farCheck va 4 .fetch p.key
  .ok (m, leNat (m.seen c p.key (m.bytes p.key 4)))

/-- Further words of a syllable. -/
def Machine.fetchRest (m : Machine) (c va : Nat) : Nat → Res (Machine × Nat)
  | 0 => .ok (m, 0)
  | n + 1 => do
    let (m, w) ← m.fetchWord c va
    let (m, r) ← Machine.fetchRest m c (va + 4) n
    .ok (m, w + 2 ^ 32 * r)

/-- The length of the syllable at an address, from its first word, whether or not it may be executed (R59). -/
def Machine.syllableAt (m : Machine) (c va : Nat) : Res Nat := do
  let e ← m.mapped (coreOf c) va
  let key := physKey e.leaf (e.pa va)
  .ok (syllableBytes (leNat (m.seen c key (m.bytes key 4))))

/-- Every word of a range of code is mapped. -/
def Machine.mappedAll (m : Machine) (c va : Nat) : Nat → Res Unit
  | 0 => .ok ()
  | n + 1 => do
    let _ ← m.mapped (coreOf c) va
    Machine.mappedAll m c (va + 4) n

/-- Checks 1 to 3 of R64, each on all the bytes of the syllable at an address, and its fields. -/
def Machine.fetchSyllable (m : Machine) (c : Nat) (x : Ctx) (va : Nat) : Res (Machine × Raw) := do
  x.fenceCheck va 4
  let n ← m.syllableAt c va
  x.fenceCheck (va + 4) (n - 4)
  m.mappedAll c (va + 4) ((n - 4) / 4)
  let (m, r) ← m.fetchRest c va (n / 4)
  .ok (m, .ofNat r)

/-- A decoded syllable and its offset in the bundle. -/
structure Syl where
  off : Nat
  raw : Raw
  ins : Instr
  deriving DecidableEq, Repr

/-- `brk` is found at decoding (04 R101; 10 R256) (log 66, DEDUCED). -/
def isBrk : Instr → Bool
  | .brk _ => true
  | _ => false

/-- The checks of R64 on the syllables of a bundle in address order, from offset `off`; `prev` is the previous slot plus 1. A
ninth syllable fails check 5. -/
def Machine.fetchBundle (m : Machine) (c : Nat) (x : Ctx) : Nat → Nat → Nat → Res (Machine × List Syl)
  | 0, _, _ => .ok (m, [])
  | n + 1, off, prev =>
    match m.fetchSyllable c x ((x.pc.toNat + off) % 2 ^ 64) with
    | .error (.trap k) => .error (.trap { k with off })
    | .error (.hold h) => .error (.hold h)
    | .ok (m, r) =>
      match decodeSyllable (x.depth != 0) prev r with
      | .error f => .error (.trap { code := f.cause, i0 := f.info, off })
      | .ok i =>
        if r.eob = 1 ∨ isBrk i = true then .ok (m, [{ off, raw := r, ins := i }])
        else
          match Machine.fetchBundle m c x n (off + 4 * r.len) (r.slot + 1) with
          | .ok (m, ys) => .ok (m, { off, raw := r, ins := i } :: ys)
          | .error e => .error e

/-- The bundle at the context's PC. A PC that is not a multiple of 4 raises ALIGNMENT (log 36, DEDUCED). -/
def Machine.fetch (m : Machine) (c : Nat) : Res (Machine × List Syl) :=
  let x := m.ctx c
  if x.pc.toNat % 4 = 0 then m.fetchBundle c x 9 0 0 else raise 0x0A x.pc.toNat

/-! ### Issue -/

/-- A vector syllable pops the load-data queue (03 R65) (log 66, DEDUCED). -/
def popsEntry (i : Instr) : Bool :=
  match vshape i with
  | some (sh, o) =>
    (sh.ak != 0 && sh.aw == 6 && bit sh.ak 0 && isV63 o.a) || (sh.bk != 0 && sh.bw == 6 && bit sh.bk 0 && isV63 o.b) || (sh.useC && o.c == 63)
  | none => false


/-- The bytes of a bundle. -/
def bundleBytes (ys : List Syl) : Nat := match ys.getLast? with
  | some y => y.off + 4 * y.raw.len
  | none => 4

/-- A bundle begins: what its syllables read is set apart, and stage 0 of the copy schedule is taken up if it is due (08 R208). -/
def State.beginBundle (s : State) (m : Machine) (c : Nat) (ys : List Syl) : State :=
  let x := m.ctx c
  { s with
    snap := some m
    m := { (if x.stage0 && x.depth == 0 then m.setCtx c { x with stage0 := false } else m) with
            bun := { ctx := c, pc := x.pc, len := bundleBytes ys, pops := (ys.filter fun y => popsEntry y.ins).length } } }

/-- The syllable in turn. -/
def State.at_ (s : State) (off slot : Nat) : State := { s with m := { s.m with bun := { s.m.bun with off, slot } } }

/-- The syllables in address order, which is slot order (R63). -/
def State.runSyllables (s : State) : List Syl → Out State
  | [] => .next s
  | y :: ys =>
    match exec y.ins (s.at_ y.off y.raw.slot) with
    | .next s => State.runSyllables s ys
    | .fault r => .fault r
    | .refused r => .refused r

/-- Stage 0 of the copy schedule issues after the first bundle's own C syllable, when STAGE is 0 (08 R208), unless a `tstage` of that bundle has issued it. -/
def stageZero (s : State) : Out State :=
  syllable (fun e m => if e.x.stageZeroDue && !m.bun.stage0 then Machine.runSchedule e.m0 m e.c e.x (· == 0) else .ok m) s

/-- The end of a bundle that took effect: results land, counts go on, causes delivered after it are noted, and the PC moves (R67, R94; 05 R134; 10 R243, R433). -/
def Ctx.commit (y x : Ctx) (b : Bun) : Ctx :=
  let pc := b.next.getD (b.pc + .ofNat 64 b.len)
  if b.quiet then { y with pc, st := if y.st = .running then .ready else y.st }
  else
    let y := y.endBundle
    let step : List Cause := if x.stepArmed then [{ code := 0x3D }] else []
    let ks := (b.after ++ step).map fun k => { k with lv := x.depth }
    let y := { y with pc, after := y.after ++ ks, stepArmed := false, st := if y.st = .running then .ready else y.st }
    let y := if x.depth = 0 then y.setCr 0x61 (x.cr 0x61 + 1) else y
    if b.vrngs = 0 ∨ b.rngSet = true then y else y.setCr 0x51 (x.cr 0x51 + .ofNat 64 b.vrngs)

/-- Flags that land in the bundle with which a context leaves its operator join the graph's (26 R431). -/
def Machine.leaveFlags (m : Machine) (c : Nat) : Machine :=
  let y := m.ctx c
  match y.launch with
  | some li => match m.launch li with
    | some l => if y.st = .retired then m.setLaunch li { l with flg := l.flg ||| bits (y.cr 0x01).toNat 16 5 } else m
    | none => m
  | none => m

/-- A bundle has issued: its context's count starts again, those of the core's other ready contexts go on, and the rotation goes on from it (R242; 11 R269). -/
def Machine.issued (m : Machine) (c : Nat) : Machine :=
  ((List.range 4).foldl (fun (m : Machine) j =>
    let d := 4 * coreOf c + j
    if d = c then m.onCtx d fun x => { x with aging := 0 }
    else if (m.ctx d).st = .ready ∧ (m.ctx d).canIssue = true then m.onCtx d fun x => { x with aging := x.aging + 1 } else m) m).onCore (coreOf c)
    fun k => { k with last := c % 4 }

/-- The bundle's end on the machine; the checkpoint of an arrival at a group's barrier follows it (14 R305). -/
def Machine.commitBundle (m : Machine) (c : Nat) (x : Ctx) : Machine :=
  let m := m.issued c
  let y := m.ctx c
  let b := m.bun
  let m := { m with bun := {} }
  if y.killed then m.settle c
  else ((m.setCtx c (y.commit x b)).leaveFlags c).checkpoint c

/-- The turn is over. -/
def State.rest (s : State) (m : Machine) : State := { s with m := { m with bun := {} }, snap := none, turn := .none }

/-- What stands after the syllables (R86, R122, R85): a cause taken, a hold, or the bundle's end. -/
def State.finish (s : State) (c : Nat) (x : Ctx) : Out State :=
  match stageZero (s.at_ 0 0) with
  | .next s =>
    .next (s.rest (match s.m.bun.status with
      | .trapped => s.m.settle c
      | .held => s.m
      | .clean => s.m.commitBundle c x))
  | o => o

/-- A cause of the bundle at the PC; that of a blocked fetch or fill is a deferred one, after which it is tried again (10 R256) (log 99, DEDUCED). -/
def State.trapAt (s : State) (m : Machine) (c : Nat) (k : Cause) : State :=
  s.rest ((m.takeCause c (if k.blocked then { k with kind := 1 } else k) (m.ctx c).pc).settle c)

/-- A decoded bundle at work. -/
def State.issueBundle (s : State) (m : Machine) (c : Nat) (ys : List Syl) : Out State :=
  match (s.beginBundle m c ys).runSyllables ys with
  | .next s' => s'.finish c (m.ctx c)
  | o => o

/-- The context's turn (R242): a cause at its boundary, a fill that faulted, or its next bundle. -/
def State.issue (s : State) (c : Nat) : Out State :=
  let m := s.m
  let x := m.ctx c
  if x.due.isSome then .next (s.rest ((m.takeDue c).settle c))
  else if !x.filled && x.depth == 0 then
    match m.fills c with
    | .ok m => .next { s with m := m.onCtx c fun x => { x with filled := true } }
    | .error (.trap k) => .next (s.trapAt m c k)
    | .error (.hold h) => .next (s.rest (m.enterHold c h))
  else
    match x.deferredNow with
    | some k => .next (s.rest ((m.takeDeferred c k).settle c))
    | none =>
      match m.fetch c with
      | .error (.trap k) => .next (s.trapAt m c k)
      | .error (.hold h) => .next (s.rest (m.enterHold c h))
      | .ok (m, ys) =>
        if x.intl.any fun i => ys.any fun y => namesResult y.ins i then .next (s.rest (m.enterHold c .interlock))
        else s.issueBundle m c ys

end Sys2Proof.Machine
end

