-- ==== Sys2Proof/Machine/Events.lean ====
section
/-! DEFINITION. Events.lean: what the package does of its own accord when no turn is under way: the events whose conditions have come about (log 4 says in which order they go). -/

namespace Sys2Proof.Machine

/-- An event or command, which no bundle, graph or image can hold: it has no encoding. -/
def isEvent (i : Instr) : Bool := (encode i).isEmpty

/-- One thing that the package can do. -/
abbrev Move := State → Out State

def when_ (c : Bool) (e : Move) : List Move := if c then [e] else []

/-- Places of a list whose entries meet a condition. -/
def places {α : Type} (xs : List α) (f : α → Bool) : List Nat := (xs.zipIdx.filter fun p => f p.1).map (·.2)

/-- A class 7 operation's next moves (18 R371, R372, R377). -/
def Machine.kvEvents (m : Machine) (c i : Nat) (op : KvOp) : List Move :=
  if op.fault.isSome then []
  else if op.kind ≠ .attn then [execKvmapComplete c i]
  else if op.nb = 0 then [execFlueFold c i 0]
  else
    let p := m.progress c op
    let blks := (List.range (min op.nb (p.1 + 16))).drop p.1
    (op.parts.map fun q => execFlueFold c i q.1) ++
      (blks.filter fun b => SMap.get [] op.parts b == [] && !bit p.2 (b - p.1) && !op.hasFailed b).map fun b => execStovePartial c i b

/-- The moves of KV blocks that are in progress, and the requests of other packages that wait at their blocks (18 R365-R367). -/
def Machine.blockEvents (m : Machine) : List Move :=
  ((m.moves.filter (·.why.isNone)).map fun v => if v.tier = 0 then execKvPromotion (v.pkg * 2 ^ 40 + v.gbn) else execKvDemotion (v.pkg * 2 ^ 40 + v.gbn) (.ofNat 2 v.tier)) ++
    m.kvReqs.map fun r => fun s => .next { s with m := s.m.kvServe r }

/-- The fills of a bound context are tried again (10 R240). -/
def finishBinding (c : Nat) : Move := fun s => .next { s with m := s.m.fillOrTrap c }

/-- A retired context with nothing left is freed (10 R240). -/
def freeRetired (c : Nat) : Move := fun s => .next { s with m := s.m.release c }

/-- A bundle held for a resource of its core would be held again if it were issued now. -/
def Machine.stillBusy (m : Machine) (c : Nat) : Bool :=
  match State.issue { m := m.onCtx c fun x => { x with hold := none } } c with
  | .next s => (s.m.ctx c).hold == some .busy
  | _ => false

/-- The hold of a context clears (10 R242) (log 50, DESIGN CHOICE). -/
def Machine.holdOver (m : Machine) (c : Nat) (h : Hold) : Bool := m.holdCleared c h && (h != .busy || !m.stillBusy c)

/-- A context at a boundary: a cause to take, a hold that clears, a request to make again. -/
def Machine.boundaryEvents (m : Machine) (c : Nat) (x : Ctx) : List Move :=
  let causes := x.due.isSome || (x.hold.isSome && x.deferredNow.isSome) ||
    (x.st == .retired && !x.killed && (x.after != [] || x.deferred != [] || (x.oldestCause fun _ _ => true).isSome))
  when_ causes (execTrapEntry c) ++
    when_ (x.hold.any fun h => m.holdOver c h) (execHoldRelease c)

/-- A context waits for a package that no route reaches: it is told (19 R387). -/
def lostWait (c pkg : Nat) : Move := fun s => .next { s with m := s.m.lostRoute c (.route pkg) }

/-- The packages that the messages of a context wait for without a route, and of which it has not been told. -/
def Machine.lostFor (m : Machine) (x : Ctx) : List Nat :=
  ((x.msgs.filter fun t => t.fault.isNone && !t.parked).map fun t => connPeer (m.connWord t.ent)).eraseDups.filter fun p => routes m p == [] && !x.told.contains p

/-- The events of a context. -/
def Machine.ctxEvents (m : Machine) (c : Nat) (x : Ctx) : List Move :=
  when_ (x.hold.any fun h => match h with | .word .. => true | _ => false) (execProgressPreempt c) ++
    (match x.hold with | some (.alloc r) => [execAllocRefill r] | _ => []) ++
    when_ (x.intl != []) (execInterlockedLanding c 0) ++
    (match x.nxt.find? fun q => q.val.isNone with
      | some q => when_ (m.firstAsked c q && (m.request c).2.isSome) (execCoordLanding c (.ofNat 2 q.reg))
      | none => []) ++
    ((x.nxt.filter fun q => q.val.isSome && m.ready (coreOf c) == []).map fun q => execCoordLanding c (.ofNat 2 q.reg)) ++
    ((places x.lq fun q => q.st != .resolved).take 1).map (execLqEntryResolve c) ++
    (if x.preempting then [] else ((places x.xfers fun t => !t.started).take 1).map (execTransferStart c)) ++
    (places x.xfers fun t => t.started && t.fault.isNone).flatMap (fun i => [execTransferComplete c i, execTransferFault c i]) ++
    (x.kvops.zipIdx.flatMap fun p => m.kvEvents c p.2 p.1) ++
    (places x.msgs fun t => t.send && !t.begun && !t.parked && t.fault.isNone && m.posted (m.connWord t.ent) t.num && !x.preempting).map (execTsendDataPhase c) ++
    (m.lostFor x).map (lostWait c) ++ when_ (x.dep.any (m.mayDepart c)) (execBarrierDeparture c) ++
    when_ x.aged (execAgingLimit c) ++ when_ (x.st == .bound && !x.filled) (finishBinding c) ++ when_ (m.ctxIdle c) (freeRetired c)

/-- The objects that have arrivals which can no longer be joined (15 R321). -/
def Machine.objectEvents (m : Machine) : List Move :=
  ((m.objs.map fun p => (p.1, p.2.toNat)) ++ m.groups.flatMap fun g => g.2.objs.map fun o => (o.1, o.2.1)).filterMap fun p =>
    if bit p.2 191 && m.outOfReach p.1 p.2 then some (execBarrierUnreachable p.1) else none

/-- A store of the path is performed. -/
def storeEvent (n : Nat) (p : StoreEntry × Nat) : Move :=
  if p.1.coded.isSome && p.1.stage.isNone then execCodedStoreRmw n p.2 else execStorePerformed n p.2

/-- The stores of a path that are offered: the oldest that may be performed and waits for no grate line, and one in rotation. -/
def Machine.storesOffered (m : Machine) (k : Core) (rot : Nat) : List (StoreEntry × Nat) :=
  let ps := k.path.zipIdx
  let free (p : StoreEntry × Nat) : Bool := m.pathFree k.path p.2 p.1
  (ps.find? fun p => p.1.told == 0 && free p).toList ++ (ps[rot % ps.length]?.toList.filter free)

/-- The events of a core. -/
def Machine.coreEvents (m : Machine) (rot n : Nat) (k : Core) : List Move :=
  when_ (k.mrun.isNone && k.mq != []) (execMatrixCmdStart n) ++
    when_ k.mrun.isSome (execMatrixCmdComplete n) ++
    when_ (k.routing != [] && m.ready n == []) (fun s => .next { s with m := s.m.endRoutes n }) ++
    (m.storesOffered k rot).map (storeEvent n) ++
    [false, true].flatMap (fun ch => when_ (k.priv.any fun p => p.2.ch == b2n ch && p.2.fault.isNone) (execPrivTransferComplete n ch))

/-- The event of a store to a watched word. -/
def Machine.watchEvents (m : Machine) (p : Nat × Word) : List Move :=
  let k := p.1
  let v := p.2
  let o := k - pcb m 0
  if k = 0x100 then
    let arg : BitVec 56 := v.setWidth 56
    match v.toNat / 2 ^ 56 with
    | 1 => [execLock arg]
    | 2 => [execTighten arg]
    | 3 => [execQuote arg]
    | 4 => [execExtendMr2 arg]
    | 5 => [execExtendMr3 arg]
    | n => [execScmdUnassigned (.ofNat 8 n)]
  else if k = 0x110 then [execKick]
  else if 0xC0 ≤ k ∧ k < 0xE0 then [execMgmtRingDoorbell (.ofNat 2 ((k - 0xC0) / 8))]
  else if k = lcb m + 0x10 then [execHostIrqWord v]
  else if groupWord m k then [execGroupRecordRewrite ((k - grb m) / 64)]
  else if postWord m k then [execInterruptPost (48 * (o / 4096) + (o % 4096 - 0x100) / 8) v]
  else if pcb m 0 ≤ k ∧ k < pcb m 8 then
    let d := o / 4096
    if o % 4096 = 0 then when_ (m.parserIdle d) (execMicrocodeInstall d)
    else when_ (m.parserIdle d && !m.imageBusy d (v.toNat % 2 ^ 56)) (execMicrocodeRemove d)
  else if routeWord m k then [fun s => .next { s with m := { s.m with watch := s.m.watch.erase p }.routeRewritten k }]
  else if sharedWord m k then [fun s => .next { s with m := s.m.declareShared k }]
  else [execQueueDoorbell ((k - qtb m) / 64)]

/-- The events of a launch. -/
def Machine.launchEvents (m : Machine) (li : Nat) (l : Launch) : List Move :=
  match l.coll with
  | some j => when_ (!l.complete && !l.failed) (if j.gen.isNone then execLaunchBind li else execTileDone li 0)
  | none =>
    when_ (m.hungry l) (execLaunchBind li) ++
      (l.places.flatMap fun c => let x := m.ctx c
        if x.launch = some li then (x.tasks.filter fun t => !m.taskBusy c t x).map (execTileDone li) else []) ++
      (l.preempted.flatMap fun p => let x := SMap.get {} m.images (savedKey li p.1)
        (x.tasks.filter fun t => !m.taskBusy 384 t x).map (execTileDone li))

/-- The 16 bytes at a walk's place: SHAPE_FAULT past the end of the code section, code 0x01 for an unassigned opcode (12 R277, R280). -/
def Machine.fetchOp (m : Machine) (q : Nat) (w : Walk) : Except Nat Instr :=
  if w.clen < w.pos + 16 then .error 0x3A
  else
    match m.parserRead q (w.pkg + w.coff + w.pos) 16 2 with
    | .error k => .error k
    | .ok bs =>
      match decodeBytecode (leNat bs) with
      | some i => .ok i
      | none => .error 0x01

/-- A queue whose walk is to go on. -/
def Machine.walking (m : Machine) (q : Nat) : Bool :=
  (qState (m.queueDesc q) == 2 || qState (m.queueDesc q) == 3) && (m.walkOf q).any fun w => !w.ended

/-- The rank of the operator at a walk's place, lower first: the lane of R264, the queue's level and its number (R268; 12 R290). -/
def Machine.opRank (m : Machine) (q : Nat) : Nat :=
  let d := m.queueDesc q
  let ln := match (m.walkOf q).map (m.fetchOp q) with
    | some (.ok i) => bits ((encodeBytecode i).getD 0) 14 2
    | _ => 0
  max (qLane d) ln * 2 ^ 16 + (15 - qLevel d) * 2 ^ 8 + q

/-- The operator at the walk's place can be issued now: its turn changes the machine. -/
def Machine.canMove (m : Machine) (q : Nat) : Bool :=
  match m.walkOf q with
  | none => false
  | some w => match m.fetchOp q w with
    | .error k => k != 0
    | .ok i => match exec i { m := m, turn := .graph q } with
      | .next s => s.m != m
      | _ => true

/-- The Parser of the die turns to the queue: to the one whose expansion is in progress, or else to the highest ranked whose operator can be issued (12 R290). -/
def Machine.parserTurn (m : Machine) (q : Nat) : Bool :=
  match (m.parser (q / 16)).exp with
  | some e => e.queue == q
  | none => ((List.range 16).map (16 * (q / 16) + ·)).all fun p => p == q || !m.walking p || m.opRank q < m.opRank p || !m.canMove p

/-- An event named from outside comes about only in its turn: the Parser takes operators in the order of R290 alone. -/
def Machine.inTurn (m : Machine) : Instr → Bool
  | .operatorIssue q => m.parserTurn q
  | _ => true

/-- The events of a queue. -/
def Machine.queueEvents (m : Machine) (q : Nat) : List Move :=
  let d := m.queueDesc q
  let st := qState d
  when_ (!qEn d && (st == 1 || st == 4)) (execQueueDisable q) ++
    (match m.walkOf q with
      | some w => if w.ended then when_ (m.liveLaunches q == []) (execGraphComplete q) else when_ (m.walking q && m.parserTurn q) (execOperatorIssue q)
      | none => when_ ((st == 2 || st == 3) && qHead d != qTail d) (execRingEntryTake q))

/-- The members of a group that rolls back are restored (14 R307). -/
def restoring (x : Nat) : Move := fun s => .next { s with m := s.m.restore x }

/-- The events of a checkpointed group. -/
def Machine.groupEvents (m : Machine) (x : Nat) : List Move :=
  let r := m.groupRec x
  (match grCmd r with
    | 0 => []
    | 1 => [execGroupCmdReplay x]
    | 2 => [execGroupCmdRollback x]
    | 3 => [execGroupCmdFail x]
    | 0xFF => []
    | _ => [execGroupCmdInvalid x]) ++ when_ ((grState r == 2 || grState r == 3) && !m.spansOut x) (execCommitDecision x) ++
    when_ (grState r == 4) (restoring x)

/-- The records of the groups that the package's contexts and saved progress name. -/
def Machine.groupsInUse (m : Machine) : List Nat :=
  ((m.groups.map (·.1)) ++ m.ctxs.filterMap fun p => ckOf p.1 p.2).eraseDups

/-- The events of a link record (19 R382). -/
def Machine.linkEvents (m : Machine) (p : Nat) : List Move :=
  match linkCmd m p with
  | 0 => []
  | 1 => [execLinkTrain p]
  | 2 => [execLinkTakeDown p]
  | 3 => [execLinkClear p]
  | 0xFF => []
  | _ => [execLinkCmdInvalid p]

/-- The events of a collective entry (20 R401-R407). -/
def collEvents (n : Nat) (s : CollState) : List Move :=
  when_ (s.contributed && !s.hopDone) (execRingHop (n / 4096) (n % 4096)) ++
    when_ (s.pay != [] && !s.delivered) (execCollDelivery (n / 4096) (n % 4096)) ++
    when_ (s.hopDone && s.pay == [] && !s.acked) (execCollFireComplete (n / 4096) (n % 4096))

/-- Cores that have a context which may issue. -/
def Machine.selectEvents (m : Machine) : List Move :=
  if m.expired then []
  else (((m.ctxs.filter fun p => p.2.canIssue).map fun p => coreOf p.1).eraseDups).map execIssueSelect

/-- What the units that the lock brings to life can do. -/
def Machine.serviceEvents (m : Machine) : List Move :=
  if !m.locked then []
  else
    (List.range 128).flatMap m.queueEvents ++ m.groupsInUse.flatMap m.groupEvents ++ (List.range 18).flatMap m.linkEvents ++
      ((List.range 64).filter fun i => bit (m.nat (crtb m + 128 * i) 128) 62).map (fun i => execCodecFlush (.ofNat 6 i))

/-- Every event of the contexts' boundaries, and every core that may give a turn. -/
def Machine.turns (m : Machine) : List Move := m.ctxs.flatMap (fun p => m.boundaryEvents p.1 p.2) ++ m.selectEvents

/-- Every other event whose condition has come about. -/
def Machine.pending (m : Machine) (rot : Nat) : List Move :=
  m.watch.flatMap m.watchEvents ++ m.ctxs.flatMap (fun p => m.ctxEvents p.1 p.2) ++ m.cores.flatMap (fun p => m.coreEvents rot p.1 p.2) ++
    m.launches.flatMap (fun p => match p.2 with | some l => m.launchEvents p.1 l | none => []) ++
    m.colls.flatMap (fun p => collEvents p.1 p.2) ++ m.objectEvents ++ m.blockEvents ++ m.serviceEvents

/-- The `i`th of some moves, counted round. -/
def moveAt (i : Nat) (es : List Move) : Option Move := es[i % es.length]?

/-- One of the moves that are due: a context's turn at every fourth move and another event at the rest, each kind in rotation, and of
the other kind where one has none. The machine stands still when nothing is due. -/
def State.nextMove (s : State) : Out State :=
  let own := s.rot % 4 = 0
  let turn (_ : Unit) : Option Move := moveAt (s.rot / 4) s.m.turns
  let event (_ : Unit) : Option Move := moveAt (s.rot - s.rot / 4) (s.m.pending s.rot)
  match (if own then (turn ()).orElse event else (event ()).orElse turn) with
  | none => .next s
  | some e => e { s with rot := s.rot + 1 }

/-! ### Fetching a bytecode instruction and a microcode word -/

/-- The queue waits for a route (code 0), or fails at its bytecode instruction, or at the operator that waits to be fused with it (12 R280; 13 R300). -/
def State.failGraph (s : State) (q : Nat) (w : Walk) (k : Nat) : State :=
  { s with m := if k = 0 then s.m else (s.m.dropParked q).failQueue q k ((s.m.parkedOf q).elim w.pos (·.fofs)), turn := .none }

/-- The next word of an expansion (13 R296): none past its image's words, or where no form has the word. -/
def Machine.fetchMicro (m : Machine) (d : Nat) (e : Expansion) : Option Instr :=
  if e.pos < e.image.words then decodeMicrocode (SMap.get 0 (m.parser d).store (e.image.first + e.pos)).toNat else none

/-! ### An instruction placed for the next step -/

/-- Where an instruction is placed: behind the system block (log 67, DESIGN CHOICE). -/
def placeBase : Nat := 0x10000

/-- A syllable placed as a whole bundle, its EOB set, at the PC of context 0, in task code or at service depth 1, with the turn. -/
def State.placeBundle (s : State) (svc : Bool) (w : Nat) : State :=
  let w := if bit w 2 then w else w + 4
  let x : Ctx := { s.m.ctx 0 with pc := .ofNat 64 placeBase, st := if svc then .inService else .running, depth := if svc then 1 else 0, hold := none, filled := true, stage0 := false,
                                  after := [], async := [], ints := [], deferred := [], intl := [], dep := none }
  { s with m := { (s.m.setBytes placeBase (leBytes 16 w)).setCtx 0 x with boot := .running }, turn := .bundle 0, snap := none, agenda := [] }

/-- A bytecode instruction placed as the code section of queue 0's graph, with the turn. -/
def State.placeOp (s : State) (w : Nat) : State :=
  let g : Walk := { slot := 0, pkg := placeBase, args := 0, tag := 0, coff := 0, clen := 16, xoff := 0, nx := 0, nh := 0, pos := 0 }
  { s with m := { (s.m.setBytes placeBase (leBytes 16 w)).setWalk 0 (some g) with boot := .running }, turn := .graph 0, snap := none, agenda := [] }

/-- A microcode word placed as the only word of an image in die 0's store, its expansion in progress, with the turn. -/
def State.placeMicro (s : State) (w : Nat) : State :=
  let g : Walk := { slot := 0, pkg := placeBase, args := 0, tag := 0, coff := 0, clen := 16, xoff := 0, nx := 0, nh := 0, pos := 0 }
  let e : Expansion := { queue := 0, op := { op := 0xC0, md := 0, ln := 0, d := 0, a := 0, b := 0, c := 0, imm := 0 }, fofs := 0,
                         image := { ident := 0, opc := 0xC0, first := 0, words := 1, base := placeBase } }
  let p := s.m.parser 0
  { s with m := { (s.m.setParser 0 { p with store := SMap.set 0 p.store 0 (.ofNat 64 w), exp := some e, parked := [] }).setWalk 0 (some g) with boot := .running },
           turn := .micro 0, snap := none, agenda := [] }

/-- The level of a table word, as `decodeTableWord` reads it. -/
def State.placeWord (s : State) (nbits w : Nat) : State :=
  if 96 < nbits then s.placeOp w
  else if nbits = 64 ∧ bits w 0 2 ≠ 1 then s.placeMicro w
  else s.placeBundle (decode (.tile false) (leBytes 16 w)).isNone w

end Sys2Proof.Machine
end

