-- ==== Sys2Proof/Machine/Step.lean ====
section
/-! DEFINITION. Step.lean: one step: the bundle, bytecode instruction or microcode word that has the turn, or else the next event; and an instruction placed where the next step fetches it (10_contexts.md R242; 11 R258, R259; 12 R277, R280; 13 R295; notes/assumptions/4.md). -/

namespace Sys2Proof.Machine

/-- A bytecode instruction: fetched at the walk's place, decoded and run (12 R277, R280). -/
def State.graphStep (s : State) (q : Nat) : Out State :=
  match s.m.walkOf q with
  | none => .next { s with turn := .none }
  | some w =>
    match s.m.fetchOp q w with
    | .ok i => exec i s
    | .error k => .next (s.failGraph q w k)

/-- A microcode word of the expansion in progress (13 R295, R296). -/
def State.microStep (s : State) (d : Nat) : Out State :=
  match (s.m.parser d).exp with
  | none => .next { s with turn := .none }
  | some e =>
    match s.m.fetchMicro d e with
    | some i => exec i s
    | none => s.abandon d e 0x38

/-- No turn is under way: the next event of the agenda, the boot ROM, or one of the events that are due, in rotation (log 4, DESIGN CHOICE). -/
def State.idleStep (s : State) : Out State :=
  match s.agenda with
  | e :: rest => if !isEvent e then .refused .notAnEvent else if s.m.inTurn e then exec e { s with agenda := rest } else .next { s with agenda := rest }
  | [] =>
    match s.m.boot with
    | .rom => exec .reset s
    | .halted => .next s
    | .running => s.nextMove

/-- One step; then every `waitf` that holds a context sees its word (15 R322). -/
def step (s : State) : Host.Outcome State Fault Refusal :=
  noted <| match s.turn with
  | .bundle c => if c < 384 then s.issue c else .fault .noSuchUnit
  | .graph q => if q < 128 then s.graphStep q else .fault .noSuchUnit
  | .micro d => if d < 8 then s.microStep d else .fault .noSuchUnit
  | .none => s.idleStep

/-- `s` with an instruction placed where the next step fetches it (see `placeWord`). -/
def State.withFetchWord (s : State) (nbits w : Nat) : State := s.placeWord nbits w

end Sys2Proof.Machine
end

