-- ==== Sys2Proof/Safety.lean ====
section
/-! DEFINITION. Safety.lean: what counts as a safe state and a safe run: canonical memory, no bundle half issued between steps, a turn that names a unit of the package, and no stop. -/

namespace Sys2Proof.Machine

/-- Memory lists its bytes in rising order and lists none that an unlisted address would read as. -/
def Machine.memOk (m : Machine) : Bool := Memory.wf m.mem

/-- The turn names a context, a queue or a die that the package has (01 R11; 11 R257). -/
def Turn.ok : Turn → Bool
  | .none => true
  | .bundle c => decide (c < 384)
  | .graph q => decide (q < 128)
  | .micro d => decide (d < 8)

/-- Between steps no bundle is half issued (03 R63), and the turn names a unit of the package. -/
def State.Inv (s : State) : Prop := s.snap = none ∧ s.turn.ok = true

/-! ### What the syllables of a bundle see and do, as statements name it -/

/-- The machine as it stood when the bundle in progress began: what its syllables read (03 R67). -/
def State.start (s : State) : Machine := s.snap.getD s.m

/-- The context of the bundle in progress. -/
abbrev State.c (s : State) : Nat := s.m.bun.ctx

/-- The registers that its syllables read. -/
def State.x (s : State) : Ctx := s.start.ctx s.c

/-- The core that its syllables read. -/
def State.k (s : State) : Core := s.start.core (coreOf s.c)

/-- What a syllable is given. -/
def State.env (s : State) : Env := { m0 := s.start, c := s.c, x := s.x }

/-- Its context as the syllables so far have left it. -/
def State.cur (s : State) : Ctx := s.m.ctx s.c

/-- No syllable of the bundle has stopped it. -/
def State.going (s : State) : Prop := s.m.bun.status = .clean

/-- The state with another machine. -/
def State.withM (s : State) (m : Machine) : State := { s with m }

/-- The state with the bundle's context replaced. -/
def State.withCtx (s : State) (x : Ctx) : State := s.withM (s.m.setCtx s.c x)

/-- The state with the core of the bundle's context replaced. -/
def State.withCore (s : State) (f : Core → Core) : State := s.withM (s.m.onCore (coreOf s.c) f)

/-- The exposed results in flight, and those that the bundle has issued by the time the machine is `m`, leave room for one more (10 R244). -/
def State.roomIn (s : State) (m : Machine) : Prop :=
  s.x.pend.length + (((m.ctx s.c).pend.drop s.x.pend.length).filter fun r => 1 < r.off).length < 32

def State.room (s : State) : Prop := s.roomIn s.m

/-- The state in which the syllable in turn has issued a result, its other effects having made the machine `m` (03 R67). -/
def State.issuedIn (s : State) (m : Machine) (p : Pend) : State :=
  s.withM (m.setCtx s.c ((m.ctx s.c).issue { p with pc := m.bun.pc, en := s.x.en }))

def State.issued (s : State) (p : Pend) : State := s.issuedIn s.m p

/-- Lanes of a vector register as codes of a format with their flags (05 R120, R121); a cluster mask of 0 issues nothing (03 R61). -/
def State.lanesOut (s : State) (m : Machine) (o : VOp) (lat code : Nat) (rs : List (Nat × FRes)) : State :=
  if o.ce = 0 then s.withM m
  else s.issuedIn m { off := lat, file := .v, reg := o.d.toNat, ce := o.ce.toNat, fl := orFlags (rs.map (·.2)),
                      writes := rs.map fun p => (128 * o.d.toNat + p.1, (laneOf s.x.nf code p.2.1).toNat) }

/-- Whole lanes of a vector register. -/
def State.wordsOut (s : State) (m : Machine) (o : VOp) (lat : Nat) (rs : List (Nat × Word)) : State :=
  if o.ce = 0 then s.withM m
  else s.issuedIn m { off := lat, file := .v, reg := o.d.toNat, ce := o.ce.toNat, writes := rs.map fun p => (128 * o.d.toNat + p.1, p.2.toNat) }

/-- The 64-bit lane that a source gives a stream (05 R143). -/
def Ctx.laneWord (x : Ctx) (pop : List Word) (code : Nat) (a : Src) (g : Nat) : Word :=
  match a with
  | .r0 r => x.vsrc pop r g
  | .r1 r => x.sreg r
  | .k i => x.konstAt i.toNat
  | a => laneOf x.nf code (x.elem pop x.nf code a g)

/-- Bits of a mask register (05 R127, R138). -/
def State.maskOut (s : State) (m : Machine) (d ce fl : Nat) (rs : List (Nat × Bool)) : State :=
  if ce = 0 then s.withM m
  else s.issuedIn m { off := 1, file := .m, reg := d, ce, fl, writes := rs.map fun p => (128 * d + p.1, if p.2 then 1 else 0) }

/-- Lanes of a statistics register with their flags (06 R163). -/
def State.statsOut (s : State) (m : Machine) (o : VOp) (lat : Nat) (rs : List (Nat × Triple × Nat)) : State :=
  if o.ce = 0 then s.withM m
  else s.issuedIn m { off := lat, file := .q, reg := o.d.toNat, ce := o.ce.toNat, fl := rs.foldl (fun f p => f ||| p.2.2) 0,
                      writes := rs.map fun p => (128 * o.d.toNat + p.1, p.2.1.toNat) }

/-- Triples that a statistics instruction computes, empty ones in their one form (02 R53). -/
def State.triplesOut (s : State) (m : Machine) (o : VOp) (lat : Nat) (rs : List (Nat × Triple × Nat)) : State :=
  s.statsOut m o lat (rs.map fun p => (p.1, p.2.1.written, p.2.2))

/-- A scalar result of latency `lat`. -/
def State.wrote (s : State) (lat : Nat) (d : Reg) (v : Word) : State :=
  s.issued { off := lat, file := .s, reg := d.toNat, writes := [(d.toNat, v.toNat)] }

/-- An interlocked result (04 R84). -/
def State.loaded (s : State) (d : Reg) (v : Nat) : State := s.withCtx { s.cur with intl := s.cur.intl ++ [{ reg := d.toNat, value := v }] }

/-- The next bundle comes from `pc`. -/
def State.goesTo (s : State) (pc : Word) : State := s.withM { s.m with bun := { s.m.bun with next := some pc } }

/-- The bundle takes a cause: none of its syllables has an effect, and the context enters service code (03 R64; 10 R249; 05 R122). An access that the
damper blocks completes without effect instead, and the cause stands before the next bundle (10 R256). -/
def State.trapped (s : State) (k : Cause) : State :=
  if k.blocked then s.withM (s.m.deferDamper s.c k)
  else s.withM { ((s.start.markRaised s.c k).takeCause s.c { k with off := if s.m.bun.slot = 0 then 0 else s.m.bun.off } s.m.bun.pc) with
         bun := { s.m.bun with status := .trapped } }

/-- The bundle is held: none of its syllables has an effect, and the context waits (04 R85, R86). -/
def State.heldBy (s : State) (h : Hold) : State := s.withM { s.start.enterHold s.c h with bun := { s.m.bun with status := .held } }

/-- The conditions of 04 R91, as the rule words them. -/
def condMeans (c : Cond) (a b : Word) : Prop :=
  (c = .eq ∧ a = b) ∨ (c = .ne ∧ a ≠ b) ∨ (c = .lt ∧ a.toInt < b.toInt) ∨ (c = .ge ∧ b.toInt ≤ a.toInt) ∨
    (c = .ltu ∧ a.toNat < b.toNat) ∨ (c = .geu ∧ b.toNat ≤ a.toNat) ∨ (c = .any ∧ a &&& b ≠ 0) ∨ (c = .none ∧ a &&& b = 0)

/-- The control registers that the table of 03 R76 lets code read: those that task code may, and two more for service code. -/
def csrReadable (svc : Bool) (n : Nat) : Prop :=
  n ≤ 0x03 ∨ (0x10 ≤ n ∧ n ≤ 0x15) ∨ (svc = true ∧ (n = 0x16 ∨ n = 0x17)) ∨ (0x20 ≤ n ∧ n ≤ 0x24) ∨ (0x30 ≤ n ∧ n ≤ 0x37) ∨
    (0x40 ≤ n ∧ n ≤ 0x47) ∨ n = 0x50 ∨ n = 0x51 ∨ n = 0x60 ∨ n = 0x61

/-- The numbers that the table assigns. -/
def csrAssigned (n : Nat) : Prop := csrReadable true n

/-- The control registers that the table lets code write. -/
def csrWritable (svc : Bool) (n : Nat) : Prop :=
  n = 0x01 ∨ n = 0x02 ∨ n = 0x22 ∨ n = 0x50 ∨ n = 0x51 ∨
    (svc = true ∧ (n = 0x03 ∨ (0x10 ≤ n ∧ n ≤ 0x17) ∨ n = 0x20 ∨ n = 0x21 ∨ n = 0x23 ∨ n = 0x24 ∨ (0x40 ≤ n ∧ n ≤ 0x47)))

/-- What an `amo` leaves in memory and the flags that it raises (04 R107). -/
def amoMeans (op : AmoOp) (e : FEnv) (w old b : Nat) : Nat × Nat :=
  match op with
  | .add => ((old + b) % 2 ^ w, 0)
  | .and => (old &&& b, 0)
  | .or => (old ||| b, 0)
  | .xor => (old ^^^ b, 0)
  | .min => (if sgn w b < sgn w old then b else old, 0)
  | .max => (if sgn w old < sgn w b then b else old, 0)
  | .minu => (if b < old then b else old, 0)
  | .maxu => (if old < b then b else old, 0)
  | .swap => (b, 0)
  | .fadd => Fp.d.add { e with ftz := false, daz := false } false old b

/-! ### Bytecode operators and microcode words -/

/-- The Parser is at an operator of queue `q`, and no expansion waits for the operator fused to it (11 R259; 13 R300). -/
def State.graphAt (s : State) (q : Nat) (w : Walk) : Prop := s.turn = .graph q ∧ s.m.walkOf q = some w ∧ s.m.parkedOf q = none

/-- The operator is done, with the walk at its next one. -/
def State.graphDone (s : State) (q : Nat) (m : Machine) (w : Walk) : State := { s with m := (m.setWalk q (some w)).refreshQueue q, turn := .none }

/-- The operator has its effect on memory, and its flags join the graph's (12 R281). -/
def State.graphWrote (s : State) (q : Nat) (w : Walk) (r : Machine × Nat) : State := s.graphDone q r.1 { w.step with flg := w.flg ||| r.2 }

/-- The operator is tried again later. -/
def State.graphAgain (s : State) (m : Machine) : State := { s with m, turn := .none }

/-- The operator sends its queue to failed, with FOFS its offset (12 R280). -/
def State.graphFails (s : State) (q : Nat) (w : Walk) (k : Nat) : State := { s with m := s.m.failQueue q k w.pos, turn := .none }

/-- How the instruction `i` of an operator of whole tensors runs, once the checks of its own rule are met: operands of two fuse groups fail it (12 R287); the words of the Parser's
entry for its opcode expand it (11 R259); where the table has none it waits for the launches that its roots depend on (12 R290) and then has the effect `eff`, or fails with its cause. -/
def State.runsWhole (s : State) (q : Nat) (w : Walk) (o : LbOp) (i : Instr) (rds wrs : List Tensor) (eff : PRes (Machine × Nat)) (adv : Nat := 0) : Prop :=
  (fuseGroup (rds ++ wrs) ≠ .ok () → exec i s = .next (s.graphFails q w 0x39)) ∧
  (fuseGroup (rds ++ wrs) = .ok () →
    (∀ image, s.m.builtinOf q o = some image → exec i s = .next (s.expand (s.m.expansion q w o image adv))) ∧
    (s.m.builtinOf q o = none → s.m.opReady (rds.map (·.root)) (wrs.map (·.root)) = false → exec i s = .next (s.graphAgain s.m)) ∧
    (s.m.builtinOf q o = none → s.m.opReady (rds.map (·.root)) (wrs.map (·.root)) = true →
      (∀ r, eff = .ok r → exec i s = .next (s.graphDone q r.1 { w.step with flg := w.flg ||| r.2, rngCtr := w.rngCtr + .ofNat 64 adv })) ∧
      (∀ k, eff = .error k → k ≠ 0 → exec i s = .next (s.graphFails q w k))))

/-- A field that names a shape register (12 R277). -/
def dregField (r : BitVec 6) : BitVec 12 := r.zeroExtend 12

/-- The operators of 12 R279 with their opcodes; every opcode from 0xC0 on is a custom operator. -/
def lbForms : List (Nat × (LbOp → Instr)) :=
  [(0x00, .lbNop), (0x01, .lbMatmul), (0x02, .lbEwise), (0x03, .lbUnary), (0x04, .lbCast), (0x05, .lbSoftmax), (0x06, .lbRstats), (0x07, .lbRdrain),
   (0x08, .lbNorm), (0x09, .lbAttn), (0x20, .lbCopy), (0x21, .lbTranspose), (0x22, .lbGather), (0x23, .lbScatter), (0x24, .lbView), (0x25, .lbConcat),
   (0x26, .lbFill), (0x30, .lbAllreduce), (0x31, .lbAllgather), (0x32, .lbRscatter), (0x33, .lbAlltoall), (0x34, .lbBcast), (0x35, .lbReshard), (0x40, .lbKvappend),
   (0x41, .lbKvtrunc), (0x42, .lbKvpromote), (0x48, .lbRngsave), (0x49, .lbRngset), (0x4A, .lbRngfill), (0x50, .lbCkptsave), (0x51, .lbCkptload), (0x60, .lbDset),
   (0x61, .lbDop), (0x62, .lbDext), (0x63, .lbDld), (0x70, .lbBr), (0x71, .lbBrc), (0x72, .lbCall), (0x73, .lbRet), (0x74, .lbEnd),
   (0x75, .lbHbind), (0x76, .lbNotify)]

/-- The arithmetic of `dop`; none for a zero divisor (12 R288). -/
def dopMeans (fn : BitVec 3) (x y : Int) : Option Int :=
  if fn = 0 then some (x + y) else if fn = 1 then some (x - y) else if fn = 2 then some (x * y) else if fn = 4 then some (min x y) else if fn = 5 then some (max x y)
  else if y = 0 then none else if fn = 3 then some (x.fdiv y) else some (-((-x).fdiv y))

/-- The Parser of die `d` is at a microcode word of an expansion (13 R296). -/
def State.microAt (s : State) (d : Nat) (e : Expansion) (w : Walk) : Prop := s.turn = .micro d ∧ (s.m.parser d).exp = some e ∧ s.m.walkOf e.queue = some w

/-- The word is done, with the expansion as it leaves it, and the next word has the turn. -/
def State.microDone (s : State) (d : Nat) (e e' : Expansion) : State := { s with m := s.m.setParser d { s.m.parser d with exp := some { e' with pos := e.pos + 1 } } }

/-- The expansion is given up, with the one that waits to be fused to it, and its queue fails at the operator (12 R280). -/
def State.microFails (s : State) (d : Nat) (e : Expansion) (k : Nat) : State :=
  let m := s.m.dropParked e.queue
  { s with m := (m.setParser d { m.parser d with exp := none }).failQueue e.queue k e.fofs, turn := .none }

/-! ### Runs -/

/-- The events to come are events. -/
def State.agendaOk (s : State) : Bool := s.agenda.all isEvent

/-- A state from which the next step does not stop. -/
def State.goesOn (s : State) : Prop := ∃ t, step s = .next t

/-- A run of `k` steps that does not stop. -/
def State.runsFor : Nat → State → Prop
  | 0, _ => True
  | k + 1, s => ∃ t, step s = .next t ∧ State.runsFor k t

end Sys2Proof.Machine
end

