-- ==== Sys2Proof/Certificates/Slice0/Obligations.lean ====
section
/-! DEFINITION. Obligations.lean: the statements for the provers, from the numbered rules of the spec. -/

open Sys2Proof Sys2Proof.Machine

/-! ### Scalar instructions and branches -/

/-- 03 R58-R60: what a source of each kind reads in a scalar instruction: a scalar register, an entry of the constant bank, a literal extended by sign.
04 R89, R83: the scalar arithmetic and logic of the S slot and the address arithmetic of the A slot.
04 R89, R90, R83: division, with the wrap of the most negative number by −1; a divisor of 0 raises DIV_ZERO with TRAPINFO0 = 0.
04 R91-R93, R83: selections, literals, constants and coordinates. -/
def Obligations.ScalarInstructions : Prop :=
  (∀ (x : Ctx), (∀ r, x.src (.r0 r) = x.sreg r ∧ x.src (.r1 r) = x.sreg r) ∧ (∀ i, x.src (.k i) = x.konstAt i.toNat) ∧
     (∀ v, x.src (.l6 v) = v.signExtend 64) ∧ ∀ v, x.src (.l32 v) = v.signExtend 64) ∧
  ((∀ (s : State) (d : Reg) (p q : Src), s.going →
      let a := s.x.src p
      let b := s.x.src q
      let n := b.toNat % 64
      exec (.sAdd d p q) s = .next (s.wrote 1 d (a + b)) ∧
      exec (.sSub d p q) s = .next (s.wrote 1 d (a - b)) ∧
      (s.room → exec (.sMul d p q) s = .next (s.wrote 2 d (.ofNat 64 (a.toNat * b.toNat)))) ∧
      (s.room → exec (.sMulh d p q) s = .next (s.wrote 2 d (.ofInt 64 (a.toInt * b.toInt / 2 ^ 64)))) ∧
      (s.room → exec (.sMulhu d p q) s = .next (s.wrote 2 d (.ofNat 64 (a.toNat * b.toNat / 2 ^ 64)))) ∧
      exec (.sAnd d p q) s = .next (s.wrote 1 d (a &&& b)) ∧
      exec (.sOr d p q) s = .next (s.wrote 1 d (a ||| b)) ∧
      exec (.sXor d p q) s = .next (s.wrote 1 d (a ^^^ b)) ∧
      exec (.sAndn d p q) s = .next (s.wrote 1 d (a &&& ~~~b)) ∧
      exec (.sShl d p q) s = .next (s.wrote 1 d (.ofNat 64 (a.toNat * 2 ^ n))) ∧
      exec (.sShr d p q) s = .next (s.wrote 1 d (.ofNat 64 (a.toNat / 2 ^ n))) ∧
      exec (.sSra d p q) s = .next (s.wrote 1 d (.ofInt 64 (a.toInt / 2 ^ n))) ∧
      exec (.sMin d p q) s = .next (s.wrote 1 d (if a.toInt ≤ b.toInt then a else b)) ∧
      exec (.sMax d p q) s = .next (s.wrote 1 d (if a.toInt ≤ b.toInt then b else a)) ∧
      exec (.sMinu d p q) s = .next (s.wrote 1 d (if a.toNat ≤ b.toNat then a else b)) ∧
      exec (.sMaxu d p q) s = .next (s.wrote 1 d (if a.toNat ≤ b.toNat then b else a)) ∧
      exec (.aadd d p q) s = .next (s.wrote 1 d (a + b)) ∧
      exec (.asub d p q) s = .next (s.wrote 1 d (a - b)) ∧
      exec (.ashl d p q) s = .next (s.wrote 1 d (.ofNat 64 (a.toNat * 2 ^ n)))) ∧
   (∀ (s : State) (d : Reg) (p q : Src), s.going →
      let a := s.x.src p
      let b := s.x.src q
      let zero := s.trapped { code := 0x09, i0 := some 0 }
      (b = 0 → exec (.sDiv d p q) s = .next zero ∧ exec (.sDivu d p q) s = .next zero ∧
        exec (.sRem d p q) s = .next zero ∧ exec (.sRemu d p q) s = .next zero) ∧
      (b ≠ 0 → s.room →
        exec (.sDiv d p q) s = .next (s.wrote 16 d (if a = 0x8000000000000000 ∧ b = -1 then 0x8000000000000000 else .ofInt 64 (a.toInt.tdiv b.toInt))) ∧
        exec (.sDivu d p q) s = .next (s.wrote 16 d (.ofNat 64 (a.toNat / b.toNat))) ∧
        exec (.sRem d p q) s = .next (s.wrote 16 d (if a = 0x8000000000000000 ∧ b = -1 then 0 else a - b * .ofInt 64 (a.toInt.tdiv b.toInt))) ∧
        exec (.sRemu d p q) s = .next (s.wrote 16 d (a - b * .ofNat 64 (a.toNat / b.toNat)))))) ∧
  (∀ (s : State) (d : Reg) (p q : Src), s.going →
     (∀ c, (condMeans c (s.x.src p) (s.x.src q) → exec (.sCmp c d p q) s = .next (s.wrote 1 d 1)) ∧
       (¬ condMeans c (s.x.src p) (s.x.src q) → exec (.sCmp c d p q) s = .next (s.wrote 1 d 0))) ∧
     (∀ c, (s.x.sreg c ≠ 0 → exec (.sSel d p q c) s = .next (s.wrote 1 d (s.x.src p))) ∧
       (s.x.sreg c = 0 → exec (.sSel d p q c) s = .next (s.wrote 1 d (s.x.src q)))) ∧
     exec (.li d p) s = .next (s.wrote 1 d (s.x.src p)) ∧
     exec (.liHi d p) s = .next (s.wrote 1 d (.ofNat 64 ((s.x.src p).toNat % 2 ^ 32 * 2 ^ 32 + (s.x.sreg d).toNat % 2 ^ 32))) ∧
     (∀ i, exec (.lk d (.num i)) s = .next (s.wrote 1 d (s.x.konstAt i.toNat))) ∧
     (∀ r imm, exec (.lk d (.reg r imm)) s = .next (s.wrote 1 d (s.x.konstAt ((s.x.sreg r).toNat + imm.toNat)))) ∧
     (∀ n, exec (.tcrd d n none) s = .next (s.wrote 1 d (s.x.tcreg n.toNat))) ∧
     (∀ n g, exec (.tcrd d n (some g)) s =
       .next (s.wrote 1 d (.ofNat 64 ((s.x.tcreg n.toNat).toNat / 2 ^ g.lo.toNat % 2 ^ (g.wm1.toNat + 1))))))

/-- 04 R94: where each branch goes, what it writes, and that a target that is not a multiple of 4 raises ALIGNMENT and nothing else.
04 R95-R98; 11 R260, R265, R266: `nxt` asks for a coordinate once, and the next unread one of the core's own table is due six core clocks later;
`end.nxt` waits for tc1 and then moves the coordinates down, to the end of the operator or to the next task's entry; of a failed launch only the running task runs out. -/
def Obligations.BranchesAndCoordinates : Prop :=
  (∀ (s : State) (off : BitVec 32), s.going →
     let pc := s.m.bun.pc
     let t := pc + off.signExtend 64
     let mis (t : Word) : State := s.trapped { code := 0x0A, i0 := t.toNat }
     ((t.toNat % 4 = 0 → exec (.b off) s = .next (s.goesTo t)) ∧ (t.toNat % 4 ≠ 0 → exec (.b off) s = .next (mis t))) ∧
     (∀ c p q, (condMeans c (s.x.src p) (s.x.src q) →
         (t.toNat % 4 = 0 → exec (.bc c p q off) s = .next (s.goesTo t)) ∧ (t.toNat % 4 ≠ 0 → exec (.bc c p q off) s = .next (mis t))) ∧
       (¬ condMeans c (s.x.src p) (s.x.src q) → exec (.bc c p q off) s = .next s)) ∧
     (∀ p, ((s.x.src p).toNat % 4 = 0 → exec (.j p) s = .next (s.goesTo (s.x.src p))) ∧
       ((s.x.src p).toNat % 4 ≠ 0 → exec (.j p) s = .next (mis (s.x.src p)))) ∧
     (∀ d, (t.toNat % 4 = 0 → exec (.call d off) s = .next ((s.goesTo t).wrote 1 d (pc + .ofNat 64 s.m.bun.len))) ∧
       (t.toNat % 4 ≠ 0 → exec (.call d off) s = .next (mis t))) ∧
     (∀ r, ((s.x.sreg r).toNat % 4 = 0 → exec (.ret r) s = .next (s.goesTo (s.x.sreg r))) ∧
       ((s.x.sreg r).toNat % 4 ≠ 0 → exec (.ret r) s = .next (mis (s.x.sreg r)))) ∧
     (∀ d, (s.x.sreg d = 1 → exec (.loop d off) s = .next (s.wrote 1 d 0)) ∧
       (s.x.sreg d ≠ 1 → t.toNat % 4 = 0 → exec (.loop d off) s = .next ((s.goesTo t).wrote 1 d (s.x.sreg d - 1))) ∧
       (s.x.sreg d ≠ 1 → t.toNat % 4 ≠ 0 → exec (.loop d off) s = .next (mis t)))) ∧
  (∀ (s : State), s.going →
     (∀ n : BitVec 2, (s.x.tcreg n.toNat ≠ tcEmpty ∨ (s.x.nxt.any fun q => q.reg == n.toNat) = true) → exec (.nxt n) s = .next s) ∧
     (∀ (n : BitVec 2) (li : Nat) (l : Launch) (w : Word) (ws : List Word),
       s.x.tcreg n.toNat = tcEmpty → (s.x.nxt.any fun q => q.reg == n.toNat) = false → s.m.asking (coreOf s.c) = false →
       s.cur.launch = some li → s.m.launch li = some l → l.unread (coreOf s.c) = w :: ws →
       exec (.nxt n) s = .next (s.withM ((s.m.deal li (l.setHead (coreOf s.c) (l.head (coreOf s.c) + 1))).onCtx s.c fun x =>
         { x with nxt := x.nxt ++ [{ reg := n.toNat, val := some w, due := (s.m.core (coreOf s.c)).cycle + 6, asked := (s.m.core (coreOf s.c)).cycle }] }))) ∧
     (let failed := ((s.x.launch.bind s.m.launch).map Launch.failed).getD false
      let moved : Ctx := { ((((s.cur.setTc 0 (s.x.tcreg 1)).setTc 1 (s.x.tcreg 2)).setTc 2 (s.x.tcreg 3)).setTc 3 tcEmpty) with
         nxt := s.cur.nxt.map fun p => { p with reg := p.reg - 1 }, tasks := s.cur.tasks ++ [s.cur.ti] }
      (s.x.tcreg 1 = tcEmpty → failed = false → exec .endNxt s = .next (s.heldBy .coord)) ∧
      (s.x.tcreg 1 = tcEnd ∨ failed = true → exec .endNxt s = .next (s.withM ((s.m.setCtx s.c moved).leave s.c))) ∧
      (∀ li l, failed = false → s.x.tcreg 1 ≠ tcEmpty → s.x.tcreg 1 ≠ tcEnd → s.cur.launch = some li → s.m.launch li = some l →
         exec .endNxt s = .next ((s.goesTo (.ofNat 64 l.entry)).withCtx
           { moved.setCr 0x24 0 with ti := bits (s.x.tcreg 1).toNat 40 23, stage0 := true }))))

/-- 03 R69, 04 R98, R100, R101: `nop` and `yield` change nothing; `trap` leaves its cause for the bundle's end; `brk` takes BREAKPOINT.
04 R99; 08 R203, R204: a `wait` raises the oldest covered cause, or else goes on when its limit is met, and is held when it is not. -/
def Obligations.TrapsAndWaits : Prop :=
  (∀ (s : State), (∀ slot, exec (.nop slot) s = .next s) ∧ exec .yield s = .next s ∧
     (s.going →
       (∀ n, exec (.trap (.code n)) s =
         .next (s.withM { s.m with bun := { s.m.bun with after := s.m.bun.after ++ [{ code := 0x08, i0 := n.toNat, i1 := some 0 }] } })) ∧
       (∀ p q, exec (.trap (.ops p q)) s =
         .next (s.withM { s.m with bun := { s.m.bun with after := s.m.bun.after ++ [{ code := 0x08, i0 := (s.x.src p).toNat, i1 := (s.x.src q).toNat }] } })) ∧
       (∀ tag, exec (.brk tag) s = .next (s.trapped { code := 0x07, i0 := tag.toNat })))) ∧
  (∀ (s : State) (a : Src), s.going →
     let n := (s.x.src a).toNat
     (∀ cls : BitVec 8,
       let cause := s.x.oldestCause fun k _ => bit cls.toNat k
       let met := ∀ i, i < 8 → bit cls.toNat i = true → s.start.classCount s.c i ≤ n
       (∀ k, cause = some k → exec (.waitCount a cls) s = .next (s.trapped k)) ∧
       (cause = none → met → exec (.waitCount a cls) s = .next s) ∧
       (cause = none → ¬ met → exec (.waitCount a cls) s = .next (s.heldBy (.count n cls.toNat)))) ∧
     (∀ ch : BitVec 2,
       let cause := s.x.oldestCause fun k i => k == ch.toNat && i ≤ n
       (∀ k, cause = some k → exec (.waitWatermark a ch) s = .next (s.trapped k)) ∧
       (cause = none → n < s.x.xwm ch.toNat → exec (.waitWatermark a ch) s = .next s) ∧
       (cause = none → s.x.xwm ch.toNat ≤ n → exec (.waitWatermark a ch) s = .next (s.heldBy (.watermark n ch.toNat)))))

/-- 03 R76, 04 R103; 08 R203; 11 R263: what `csrr` reads, and which numbers it refuses.
03 R76-R78, 02 R33, R39, 04 R103, 11 R263, 14 R301: what `csrw` and its named forms write, and what they refuse. -/
def Obligations.ControlRegisters : Prop :=
  (∀ (s : State) (d : Reg) (num : BitVec 8), s.going →
     let n := num.toNat
     let svc := s.x.depth != 0
     (¬ csrAssigned n → exec (.csrr d num) s = .next (s.trapped { code := 0x01, i0 := some 4 })) ∧
     (csrAssigned n → ¬ csrReadable svc n → exec (.csrr d num) s = .next (s.trapped { code := 0x01, i0 := some 6 })) ∧
     (n = 0x00 → exec (.csrr d num) s = .next (s.wrote 1 d s.m.bun.pc)) ∧
     (n = 0x60 → exec (.csrr d num) s = .next (s.wrote 1 d s.k.cycle)) ∧
     (0x30 ≤ n → n ≤ 0x33 →
       (∀ k, s.x.oldestCause (fun c _ => c == n - 0x30) = some k → exec (.csrr d num) s = .next (s.trapped k)) ∧
       (s.x.oldestCause (fun c _ => c == n - 0x30) = none → exec (.csrr d num) s = .next (s.wrote 1 d (.ofNat 64 (s.x.xwm (n - 0x30)))))) ∧
     (csrReadable svc n → n ≠ 0x00 → n ≠ 0x60 → ¬ (0x30 ≤ n ∧ n ≤ 0x33) → (n = 0x23 → s.x.launch = none) →
       exec (.csrr d num) s = .next (s.wrote 1 d (s.x.cr n))) ∧
     (n = 0x23 → ∀ li l base, s.start.schedTable s.c = some (li, l, base) → (l.table (coreOf s.c)).length ≤ 8192 →
       exec (.csrr d num) s = .next (s.wrote 1 d (.ofNat 64 (base + 8 * l.head (coreOf s.c)))))) ∧
  (∀ (s : State) (a : Src), s.going →
     let v := s.x.src a
     let svc := s.x.depth != 0
     (∀ num : BitVec 8, ¬ csrAssigned num.toNat → exec (.csrw num a) s = .next (s.trapped { code := 0x01, i0 := some 4 })) ∧
     (∀ num : BitVec 8, csrReadable svc num.toNat → ¬ csrWritable svc num.toNat → exec (.csrw num a) s = .next (s.trapped { code := 0x01, i0 := some 5 })) ∧
     (∀ num : BitVec 8, csrAssigned num.toNat → ¬ csrReadable svc num.toNat → exec (.csrw num a) s = .next (s.trapped { code := 0x01, i0 := some 6 })) ∧
     (∀ num : BitVec 8, csrWritable svc num.toNat → num ≠ 0x02 → csrBad num.toNat v.toNat ≠ [] →
       ∃ i ∈ csrBad num.toNat v.toNat, exec (.csrw num a) s = .next (s.trapped { code := 0x03, i0 := i })) ∧
     (∀ num : BitVec 8, csrWritable svc num.toNat → csrBad num.toNat v.toNat = [] → num ∉ [0x01, 0x02, 0x03, 0x22, 0x23, 0x51] →
       exec (.csrw num a) s = .next (s.withCtx (s.cur.setCr num.toNat v))) ∧
     (∀ num : BitVec 8, csrWritable svc num.toNat → csrBad num.toNat v.toNat = [] → num = 0x51 →
       exec (.csrw num a) s = .next ((s.withCtx (s.cur.setCr 0x51 v)).withM
         { (s.withCtx (s.cur.setCr 0x51 v)).m with bun := { s.m.bun with rngSet := true } })) ∧
     (csrBad 0x01 v.toNat = [] → exec (.csrw 0x01 a) s = .next (s.withCtx
       (if s.cur.depth = 0 then { s.cur.setCr 0x01 v with fpcW := s.cur.fpcW ++ [(3, v)] } else { s.cur.setCr 0x01 v with fpc := v, fpcW := [] }))) ∧
     (csrBad 0x02 v.toNat = [] → v.toNat % 8 < 5 → exec (.csrw 0x02 a) s = .next (s.withCtx
       (if s.cur.depth = 0 then { s.cur.setCr 0x02 v with fmtW := s.cur.fmtW ++ [(3, v)] } else { s.cur.setCr 0x02 v with fmt := v, fmtW := [] }))) ∧
     (csrBad 0x02 v.toNat = [] → 5 ≤ v.toNat % 8 → exec (.csrw 0x02 a) s = .next (s.trapped { code := 0x19, i0 := some 0 })) ∧
     (svc = true → csrBad 0x03 v.toNat = [] → bits v.toNat 40 7 = 0 → bits (s.x.cr 0x03).toNat 40 7 = 0 →
       exec (.csrw 0x03 a) s = .next (s.withCtx (s.cur.setCr 0x03 (v ||| 1)))) ∧
     (svc = true → csrBad 0x03 v.toNat = [] → dmrOk 0 (v ||| 1).toNat false = false → exec (.csrw 0x03 a) s = .next (s.trapped { code := 0x03, i0 := some 40 })) ∧
     (∀ m, csrBad 0x22 v.toNat = [] → s.m.fillKonst s.c v.toNat = .ok m → exec (.csrw 0x22 a) s = .next (s.withM (m.onCtx s.c fun x => x.setCr 0x22 v))) ∧
     (svc = true → csrBad 0x23 v.toNat = [] → s.cur.launch = none → exec (.csrw 0x23 a) s = .next (s.withCtx (s.cur.setCr 0x23 v))) ∧
     (svc = true → csrBad 0x23 v.toNat = [] → ∀ li l base i, s.m.schedTable s.c = some (li, l, base) → (l.table (coreOf s.c)).length ≤ 8192 → v.toNat = base + 8 * i →
       (i ≤ (l.table (coreOf s.c)).length → exec (.csrw 0x23 a) s = .next (s.withM (s.m.setLaunch li (l.setHead (coreOf s.c) i)))) ∧
       ((l.table (coreOf s.c)).length < i → exec (.csrw 0x23 a) s = .next (s.trapped { code := 0x03, i0 := some 3 }))) ∧
     exec (.csrwFpc a) s = exec (.csrw 0x01 a) s ∧ exec (.csrwFmt a) s = exec (.csrw 0x02 a) s ∧
     exec (.csrwDmr a) s = exec (.csrw 0x03 a) s ∧ exec (.csrwKbase a) s = exec (.csrw 0x22 a) s ∧
     exec (.csrwSchedptr a) s = exec (.csrw 0x23 a) s ∧ exec (.csrwRngctr a) s = exec (.csrw 0x51 a) s ∧
     exec (.fmtw a) s = exec (.csrw 0x02 a) s)

/-! ### Memory, atomics and synchronisation -/

/-- 04 R84, R104, R105; 05 R154: scalar loads and stores. A load answers the bytes read, extended to 64 bits, as an interlocked result; a store enters the
core's store path and changes no byte of memory until it is performed; both wait for a tile transfer over their bytes and take the cause of a failed check.
That a load is performed in the step that issues it is the model's choice (notes/assumptions/28.md). -/
def Obligations.ScalarLoadsAndStores : Prop :=
  ∀ (s : State) (d a : Reg) (b : Src), s.going →
    let va := (s.x.sreg a + s.x.src b).toNat
    (∀ sz : BitVec 3, sz ≠ 7 →
      let n := 2 ^ (sz.toNat % 4)
      (s.start.tileOver s.c true va n = true → exec (.ld sz d a b) s = .next (s.heldBy (.tileOp va n))) ∧
      (s.start.tileOver s.c true va n = false → ∀ k, s.m.loadChecked s.c va n = .error (.trap k) → exec (.ld sz d a b) s = .next (s.trapped k)) ∧
      (s.start.tileOver s.c true va n = false → ∀ h, s.m.loadChecked s.c va n = .error (.hold h) → exec (.ld sz d a b) s = .next (s.heldBy h)) ∧
      (s.start.tileOver s.c true va n = false → ∀ m v, s.m.loadChecked s.c va n = .ok (m, v) →
        exec (.ld sz d a b) s = .next (s.withM (m.onCtx s.c fun x =>
          { x with intl := x.intl ++ [{ reg := d.toNat, value := if sz.toNat < 4 then (BitVec.ofInt 64 (sgn (8 * n) v)).toNat else v % 2 ^ 64, va, len := n }] })))) ∧
    (∀ sz : BitVec 2,
      let n := 2 ^ sz.toNat
      (s.start.tileOver s.c true va n = true → exec (.st sz d a b) s = .next (s.heldBy (.tileOp va n))) ∧
      (s.start.tileOver s.c true va n = false → ∀ k, s.m.access (coreOf s.c) va n .store = .error (.trap k) → exec (.st sz d a b) s = .next (s.trapped k)) ∧
      (s.start.tileOver s.c true va n = false → ∀ m p, s.m.access (coreOf s.c) va n .store = .ok (m, p) → sysBlockRefused m (coreOf s.c) p = false → p.cri = none →
        exec (.st sz d a b) s = .next (s.withM (m.store s.c va p (leBytes n ((s.x.sreg d).toNat % 2 ^ (8 * n))) (m.stageOf s.c va p.key)))))

/-- 09 R212, R214: a store in the path leaves every byte of memory, every register and every other core as it was, and its own core reads its bytes;
performed, it changes the bytes it covers and no other.
09 R212, R214: a load of bytes in one line that its core holds no copy of reads them from memory, and keeps a copy of the line; with a copy of the line it answers the copy's bytes.
That a copy stays until something named drops it, and which copy makes room, is the model's choice (notes/assumptions/10.md). -/
def Obligations.MemoryContents : Prop :=
  ((∀ (m : Machine) (c va : Nat) (p : Phys) (bs : List Byte) (st : Option Nat),
     (∀ k, (m.store c va p bs st).byte k = m.byte k) ∧ (∀ j, (m.store c va p bs st).ctx j = m.ctx j) ∧
     (SMap.rising m.cores = true →
       (∀ j, j ≠ coreOf c → (m.store c va p bs st).core j = m.core j) ∧
       ((m.store c va p bs st).core (coreOf c)).path = (m.core (coreOf c)).path ++ [{ ctx := c, va, key := p.key, bytes := bs, coded := p.cri, stage := st }])) ∧
   (∀ (key : Nat) (old : List Byte) (e : StoreEntry), e.key = key → e.bytes.length = old.length → overlay key old e = e.bytes) ∧
   (∀ (m : Machine) (e : StoreEntry) (k : Nat), Memory.wf m.mem = true → e.stage = none → e.coded = none →
     (m.performStore e).byte k = if e.key ≤ k ∧ k < e.key + e.bytes.length then e.bytes.getD (k - e.key) 0 else m.byte k)) ∧
  (∀ (m : Machine) (c : Nat) (p : Phys) (len : Nat), SMap.rising m.cores = true → p.key % 128 + len ≤ 128 → (m.core (coreOf c)).path = [] → m.ckGroup c = none →
     (p.cri = none → p.key < 3 * 2 ^ 46 → SMap.get [] (m.core (coreOf c)).l1 (p.key / 128) = [] →
       ∃ m', m.readCached c p len = .ok (m', m.bytes p.key len) ∧ (∀ k, m'.byte k = m.byte k) ∧
         (SMap.rising (m.core (coreOf c)).l1 = true → (m.core (coreOf c)).l1.length - (m.core (coreOf c)).way.length < l1Lines →
           SMap.get [] (m'.core (coreOf c)).l1 (p.key / 128) = m.bytes (p.key / 128 * 128) 128)) ∧
     (∀ bs, bs ≠ [] → SMap.get [] (m.core (coreOf c)).l1 (p.key / 128) = bs → m.readCached c p len = .ok (m, (bs.drop (p.key % 128)).take len)))

/-- 04 R107, R108: `amo` and `cas` at an address that is no word of a bound object, or whose object the scope covers: the old value is the interlocked
result, and the new one is written at the serialising point, where a group may have to make room for it first; `cas` writes only where the old value equals B. A scope that the context is not in raises SCOPE_MISMATCH.
That the step is performed as it issues and drops its own core's copy is the model's choice (notes/assumptions/28.md, 41.md). -/
def Obligations.AtomicSteps : Prop :=
  ∀ (s : State) (w : Bool) (sc : Scope) (d a : Reg) (off : BitVec 32), s.going →
    let va := (s.x.sreg a + off.signExtend 64).toNat
    let n := if w then 4 else 8
    s.start.tileOver s.c true va n = false →
    (s.x.scopeOk sc.toNat = false →
      (∀ op b, exec (.amo op w sc d a b off) s = .next (s.trapped { code := 0x24 })) ∧
      (∀ b c, exec (.cas w sc d a b c off) s = .next (s.trapped { code := 0x24 }))) ∧
    (∀ m1 p m2 old, s.x.scopeOk sc.toNat = true → s.m.access (coreOf s.c) va n .rmw = .ok (m1, p) → p.cri = none →
      sysBlockRefused m1 (coreOf s.c) p = false →
      (∀ v, m1.objectOf s.c (p.key / 32 * 32) = some v → (8 ≤ p.key % 32 ∨ m1.coversObj s.env sc.toNat v = true)) →
      m1.atomicRead s.c p n = .ok (m2, old) →
      let res := if w then (BitVec.ofInt 64 (sgn 32 old)).toNat else old
      let put (v : Nat) : Res Machine := m2.atomicWrite s.c va p n (v % 2 ^ (8 * n))
      let done (m : Machine) : State := s.withM (m.onCtx s.c fun x => { x with intl := x.intl ++ [{ reg := d.toNat, value := res, va, len := n }] })
      (∀ op b, let new := amoMeans op s.x.env (8 * n) old ((s.x.src b).toNat % 2 ^ (8 * n))
        (∀ m3, put new.1 = .ok m3 → exec (.amo op w sc d a b off) s = .next (done (m3.onCtx s.c fun x => x.orFlg new.2))) ∧
        (∀ h, put new.1 = .error (.hold h) → exec (.amo op w sc d a b off) s = .next (s.heldBy h))) ∧
      (∀ b c,
        (old ≠ (s.x.sreg b).toNat % 2 ^ (8 * n) → exec (.cas w sc d a b c off) s = .next (done m2)) ∧
        (old = (s.x.sreg b).toNat % 2 ^ (8 * n) →
          (∀ m3, put (s.x.sreg c).toNat = .ok m3 → exec (.cas w sc d a b c off) s = .next (done m3)) ∧
          (∀ h, put (s.x.sreg c).toNat = .error (.hold h) → exec (.cas w sc d a b c off) s = .next (s.heldBy h)))) ∧
      (m2.ckGroup s.c = none → ∀ v, ∃ m3, put v = .ok m3))

/-- 04 R106; 09 R230: a fence at a scope that the context is in raises the cause of a faulted tile store that it waits for, goes on when the
accesses before it are performed, and is held until then.
15 R314, R316: `sbind` without a region binds an unbound object at its scope and instance, and `sunbind` unbinds a bound one without arrivals, with all its regions;
`sunbind` of an unbound object raises SYNC_UNBOUND.
That a resolved queue entry with a fault counts as performed, and that a binding changes the unit's copy at once, are the model's choices (notes/assumptions/48.md, 77.md). -/
def Obligations.FencesAndBinding : Prop :=
  (∀ (s : State) (cls : BitVec 2) (sc : Scope), s.going →
     let faults := s.start.causesOf s.c Xfer.writesMem
     (s.x.scopeOk sc.toNat = false → exec (.fence cls sc) s = .next (s.trapped { code := 0x24 })) ∧
     (s.x.scopeOk sc.toNat = true → cls ≠ 2 → ∀ k ks, faults = k :: ks → exec (.fence cls sc) s = .next (s.trapped k)) ∧
     (s.x.scopeOk sc.toNat = true → (cls = 2 ∨ faults = []) → s.start.fenceDone s.c cls.toNat = true → exec (.fence cls sc) s = .next s) ∧
     (s.x.scopeOk sc.toNat = true → (cls = 2 ∨ faults = []) → s.start.fenceDone s.c cls.toNat = false →
       exec (.fence cls sc) s = .next (s.heldBy (.fence cls.toNat sc)))) ∧
  (∀ (s : State) (a b : Reg), s.going →
     let va := (s.x.sreg a).toNat
     (∀ sc c m p, 2 ≤ sc.toNat → s.x.sreg c = 0 → (s.x.sreg b).toNat % 128 = 0 → va % 32 = 0 → s.m.syncWord s.env va 32 .rmw = .ok (m, p) →
       let m1 := m.drain (coreOf s.c) p.key 32
       let mem := leNat (m1.seen s.c (p.key + 8) (m1.bytes (p.key + 8) 24))
       let dmr := (s.x.cr 0x03).toNat
       let grp := if sc.toNat = 4 then bits dmr 16 8 else if sc.toNat = 5 then bits dmr 24 8 else if sc.toNat = 6 then bits dmr 32 8 else 0
       m1.objectOf s.c p.key = none →
       (objReserved mem = true ∨ objArr mem ≠ 0 → exec (.sbind sc a b c) s = .next (s.trapped { code := 0x25, i0 := some 5, i1 := va })) ∧
       (objReserved mem = false → objArr mem = 0 → s.x.scopeOk sc.toNat = false →
         exec (.sbind sc a b c) s = .next (s.trapped { code := 0x24, i0 := sc.toNat, i1 := va })) ∧
       (objReserved mem = false → objArr mem = 0 → s.x.scopeOk sc.toNat = true → ∀ m2, m1.changeObject s.c p.key
         (setBits mem 160 32 (pack [(8, grp), (16, dieOf s.c), (19, selfPkg m1), (28, sc.toNat), (31, 1)])) (m1.bindings s.c ++ [(p.key, spaceBase m1 (coreOf s.c) + va, 0)]) = .ok m2 →
         exec (.sbind sc a b c) s = .next (s.withM m2))) ∧
     (∀ m p o m2, s.m.syncWord s.env va 32 .rmw = .ok (m, p) → m.objectOf s.c p.key = some o → objArr o = 0 → m.inInstance s.c o = true → s.x.sreg b = 0 →
       let m1 := m.drain (coreOf s.c) p.key 32
       m1.changeObject s.c p.key (setBits (setBits o 160 5 0) 191 1 0) ((m1.bindings s.c).filter fun r => r.1 != p.key) = .ok m2 →
       exec (.sunbind a b) s = .next (s.withM m2)) ∧
     (∀ (m : Machine) key v rs, m.ckGroup s.c = none →
       m.changeObject s.c key v rs = .ok (({ m with regions := rs }.setObject key v).onCore (coreOf s.c) fun k => k.dropRange key 32)) ∧
     (∀ m p, s.m.syncWord s.env va 32 .rmw = .ok (m, p) → m.objectOf s.c p.key = none → exec (.sunbind a b) s = .next (s.trapped { code := 0x25, i0 := some 0, i1 := va })))

/-- 09 R219-R222; 15 R316-R319, R322: `acq`, `rel`, `bar` and `waitf` on a bound object that the scope covers: an acquire whose version has come drops copies and
answers it; a release whose earlier accesses are performed advances the version; an arrival counts, and the last one advances generation and version;
`waitf` answers a value that meets its condition, the first one seen while it was held.
What counts as an access to a region at its edge, and that an object changes at once, are the model's choices (notes/assumptions/41.md, 48.md). -/
def Obligations.Synchronisation : Prop :=
  ∀ (s : State) (sc : Scope) (d a : Reg), s.going →
    let va := (s.x.sreg a).toNat
    let res (m : Machine) (v : Nat) : State := s.withM (m.onCtx s.c fun x => { x with intl := x.intl ++ [{ reg := d.toNat, value := v }] })
    (∀ b m p o m2 v, s.m.syncWord s.env va 32 .rmwLoad = .ok (m, p) → m.objectOf s.c p.key = some o → s.x.scopeOk sc.toNat = true →
      m.coversObj s.env sc.toNat o = true → m.atomicRead s.c p 8 = .ok (m2, v) →
      let v := s.x.seen.getD v
      ((s.x.src b).toNat ≤ v → exec (.acq sc d a b) s = .next (res ((m2.forgetSeen s.env).dropCopies s.c sc.toNat p.key) v)) ∧
      (v < (s.x.src b).toNat → (s.x.src b).toNat - v ≤ 2 ^ 32 → exec (.acq sc d a b) s = .next (s.heldBy (.version p.key (s.x.src b).toNat))) ∧
      (2 ^ 32 < (s.x.src b).toNat - v → exec (.acq sc d a b) s = .next (s.trapped { code := 0x26, i0 := v, i1 := va }))) ∧
    (∀ m p o m2 v, s.m.syncWord s.env va 32 .rmw = .ok (m, p) → m.objectOf s.c p.key = some o →
      (objExp o = 0 → exec (.bar sc d a) s = .next (s.trapped { code := 0x25, i0 := some 5, i1 := va })) ∧
      (s.x.scopeOk sc.toNat = true → m.coversObj s.env sc.toNat o = true → m.atomicRead s.c p 8 = .ok (m2, v) →
        (m.releaseReady s.c p.key sc = .ok () →
          (∀ m3, v ≠ 2 ^ 64 - 1 → m2.stagedWrite s.c va p 8 (v + 1) (m2.stageObject s.c 7) = .ok m3 → exec (.rel sc d a) s = .next (res m3 (v + 1))) ∧
          (v = 2 ^ 64 - 1 → exec (.rel sc d a) s = .next (s.trapped { code := 0x26, i0 := v, i1 := va }))) ∧
        (∀ k, m.releaseReady s.c p.key sc = .error (.trap k) → exec (.rel sc d a) s = .next (s.trapped k)) ∧
        (∀ h, m.releaseReady s.c p.key sc = .error (.hold h) → exec (.rel sc d a) s = .next (s.heldBy h)) ∧
        (objExp o ≠ 0 → m.barReady s.c p.key sc = .ok () →
          let wait (m : Machine) : Machine := m.onCtx s.c fun x => { x with dep := some { key := p.key, gen := objGen o, d, sc, pc := m.bun.pc } }
          (objArr o + 1 ≠ objExp o ∨ (m.commitsAt s.c p.key = true ∧ v ≠ 2 ^ 64 - 1) →
            ∀ m3, (wait m2).changeObject s.c p.key (setBits o 64 24 (objArr o + 1)) ((wait m2).bindings s.c) = .ok m3 → exec (.bar sc d a) s = .next (s.withM m3)) ∧
          (objArr o + 1 = objExp o → v = 2 ^ 64 - 1 → exec (.bar sc d a) s = .next (s.trapped { code := 0x26, i0 := v, i1 := va })) ∧
          (objArr o + 1 = objExp o → v ≠ 2 ^ 64 - 1 → m.commitsAt s.c p.key = false →
            ∀ m3 m4, (wait m2).changeObject s.c p.key (setBits (setBits o 64 24 0) 0 64 (objGen o + 1)) ((wait m2).bindings s.c) = .ok m3 → m3.atomicWrite s.c va p 8 (v + 1) = .ok m4 →
            exec (.bar sc d a) s = .next (s.withM m4))))) ∧
    (∀ cond b c m p m2 v, s.m.syncWord s.env va 8 .rmwLoad = .ok (m, p) → (p.key % 32 ≠ 0 ∨ m.objectOf s.c p.key = none) →
      m.atomicRead s.c p 8 = .ok (m2, v) →
      let v := s.x.seen.getD v
      (condMeans cond (.ofNat 64 v &&& s.x.sreg c) (s.x.src b) → exec (.waitf cond sc d a b c) s = .next (res (m2.forgetSeen s.env) v)) ∧
      (¬ condMeans cond (.ofNat 64 v &&& s.x.sreg c) (s.x.src b) →
        exec (.waitf cond sc d a b c) s = .next (s.heldBy (.word p.key (s.x.sreg c).toNat cond (s.x.src b).toNat)))) ∧
    (∀ cond b c m p o m2 v, s.m.syncWord s.env va 8 .rmwLoad = .ok (m, p) → p.key % 32 = 0 → m.objectOf s.c p.key = some o → s.x.scopeOk sc.toNat = true →
      m.coversObj s.env sc.toNat o = true → m.atomicRead s.c p 8 = .ok (m2, v) → condMeans cond (.ofNat 64 (s.x.seen.getD v) &&& s.x.sreg c) (s.x.src b) →
      exec (.waitf cond sc d a b c) s = .next (res (m2.forgetSeen s.env) (s.x.seen.getD v))) ∧
    (∀ b m p, s.m.syncWord s.env va 32 .rmwLoad = .ok (m, p) → m.objectOf s.c p.key = none →
      exec (.acq sc d a b) s = .next (s.trapped { code := 0x25, i0 := some 0, i1 := va }))

/-- 04 R110-R115; 16 R338-R341: capabilities. `cget` reads a field; a live capability with the right derives a narrower one, loads and stores inside its bounds,
and is freed; a request outside the bounds raises CAP_BOUNDS, without the right CAP_PERMISSION, and an invalid one CAP_TAG. -/
def Obligations.Capabilities : Prop :=
  ∀ (s : State) (d : Reg) (r a : BitVec 4) (b : Src), s.going →
    let v := s.x.capBits a
    let o := (s.x.src b).toNat
    (∀ fld, exec (.cget d a fld) s = .next (s.wrote 1 d (.ofNat 64 (match fld with
      | .base => v % 2 ^ 64
      | .length => v / 2 ^ 64 % 2 ^ 40
      | .perms => v / 2 ^ 104 % 2 ^ 4
      | .id => v / 2 ^ 108 % 2 ^ 20
      | .v => if s.x.capV.getLsbD a.toNat then 1 else 0)))) ∧
    (s.x.capV.getLsbD a.toNat = false →
      (∀ sz, exec (.cld sz d a b) s = .next (s.trapped { code := 0x12, i0 := a.toNat })) ∧
      (∀ sz, exec (.cst sz d a b) s = .next (s.trapped { code := 0x12, i0 := a.toNat })) ∧
      (∀ c pm, exec (.cderive r a b c pm) s = .next (s.trapped { code := 0x12, i0 := a.toNat })) ∧
      exec (.free a) s = .next (s.trapped { code := 0x12, i0 := some 0 })) ∧
    (∀ m w, s.x.capV.getLsbD a.toNat = true → s.m.revCached (coreOf s.c) (capId v / 128) = (m, w) → bit w (capId v % 128) = true →
      let revoked := s.trapped { code := 0x10, i0 := capId v }
      (∀ sz, exec (.cld sz d a b) s = .next revoked) ∧ (∀ sz, exec (.cst sz d a b) s = .next revoked) ∧
      (∀ c pm, exec (.cderive r a b c pm) s = .next revoked) ∧ exec (.free a) s = .next revoked) ∧
    (∀ m w, s.x.capV.getLsbD a.toNat = true → s.m.revCached (coreOf s.c) (capId v / 128) = (m, w) → bit w (capId v % 128) = false →
      (∀ c pm, capDerive v = true → o + (s.x.sreg c).toNat ≤ capLen v →
        exec (.cderive r a b c pm) s = .next (s.withM (m.onCtx s.c fun x => x.setCap r
          (pack [(0, (capBase v + o) % 2 ^ 64), (64, (s.x.sreg c).toNat), (104, bits v 104 3 &&& (pm.toNat &&& 7)), (108, capId v)]) true))) ∧
      (∀ c pm, capDerive v = true → capLen v < o + (s.x.sreg c).toNat → exec (.cderive r a b c pm) s = .next (s.trapped { code := 0x0F, i0 := o })) ∧
      (∀ c pm, capDerive v = false → exec (.cderive r a b c pm) s = .next (s.trapped { code := 0x11, i0 := capId v })) ∧
      (capFree v = true → exec (.free a) s = .next (s.withM ((m.revoke (coreOf s.c) (capId v) true).onCtx s.c fun x => x.setCap a (x.capRaw a) false))) ∧
      (∀ sz : BitVec 3, sz ≠ 7 →
        let n := 2 ^ (sz.toNat % 4)
        let va := (capBase v + o) % 2 ^ 64
        (capLoad v = false → exec (.cld sz d a b) s = .next (s.trapped { code := 0x11, i0 := capId v })) ∧
        (capLoad v = true → capLen v < o + n → exec (.cld sz d a b) s = .next (s.trapped { code := 0x0F, i0 := o })) ∧
        (∀ m' x, capLoad v = true → o + n ≤ capLen v → s.start.tileOver s.c true va n = false → m.loadChecked s.c va n = .ok (m', x) →
          exec (.cld sz d a b) s = .next (s.withM (m'.onCtx s.c fun y =>
            { y with intl := y.intl ++ [{ reg := d.toNat, value := if sz.toNat < 4 then (BitVec.ofInt 64 (sgn (8 * n) x)).toNat else x % 2 ^ 64, va, len := n }] })))) ∧
      (∀ sz : BitVec 2,
        let n := 2 ^ sz.toNat
        let va := (capBase v + o) % 2 ^ 64
        (capStore v = false → exec (.cst sz d a b) s = .next (s.trapped { code := 0x11, i0 := capId v })) ∧
        (capStore v = true → capLen v < o + n → exec (.cst sz d a b) s = .next (s.trapped { code := 0x0F, i0 := o })) ∧
        (∀ m', capStore v = true → o + n ≤ capLen v → s.start.tileOver s.c true va n = false → m.storeChecked s.c va n ((s.x.sreg d).toNat % 2 ^ (8 * n)) = .ok m' →
          exec (.cst sz d a b) s = .next (s.withM m')))) ∧
    (∀ (ra : Reg) m p, s.m.capGranule s.env (s.x.sreg ra + s.x.src b).toNat .load = .ok (m, p) →
      exec (.ldc r ra b) s = .next (s.withM (m.onCtx s.c fun x =>
        { x with intl := x.intl ++ [{ cap := true, reg := r.toNat, value := m.nat p.key 16 + (if SMap.get false m.tags (p.key / 16) then 2 ^ 128 else 0) }] }))) ∧
    (∀ (ra : Reg) m p, s.m.capGranule s.env (s.x.sreg ra + s.x.src b).toNat .store = .ok (m, p) →
      exec (.stc r ra b) s = .next (s.withM { m.setNat p.key 16 (s.x.capBits r) with
        tags := SMap.set false (m.setNat p.key 16 (s.x.capBits r)).tags (p.key / 16) (s.x.capV? r) }))

/-- 04 R111; 16 R339, R340: `alloc` of a legal size, with entries on both stacks, pops one of each and answers a capability of the class's size with every right;
an illegal size raises CAP_BOUNDS; a class that has nothing and will get nothing answers zero; one that waits for a refill, or behind an `alloc` on the record that has waited longer, holds the bundle.
That `alloc` leaves the block's bytes alone, and when it answers zero, are the model's choices (notes/assumptions/16.md, 68.md). -/
def Obligations.Allocation : Prop :=
  ∀ (s : State) (r : BitVec 4) (q : Src), s.going →
    let n := (s.x.src q).toNat
    let k := allocClass n
    let md := (s.m.drain (coreOf s.c) (allocRecord s.m k) 64).drain (coreOf s.c) (allocRecord s.m 26) 64
    let m := (md.refill (allocRecord md k)).refill (allocRecord md 26)
    let turn (r : Nat) : Bool := s.start.allocTurn s.c r
    let rk := m.nat (allocRecord m k) 64
    let ri := m.nat (allocRecord m 26) 64
    let land (m : Machine) (v : Nat) : State := s.withM (m.onCtx s.c fun x => { x with asked := none, intl := x.intl ++ [{ cap := true, reg := r.toNat, value := v }] })
    ((n = 0 ∨ 2 ^ 32 < n) → exec (.alloc r q) s = .next (s.trapped { code := 0x0F, i0 := n })) ∧
    (1 ≤ n → n ≤ 2 ^ 32 →
      ((recNever rk = true ∨ recNever ri = true) → exec (.alloc r q) s = .next (land m 0)) ∧
      (recNever rk = false → recNever ri = false → (recNfree rk = 0 ∨ turn k = false) → exec (.alloc r q) s = .next (s.heldBy (.alloc k))) ∧
      (recNever ri = false → recNfree rk ≠ 0 → turn k = true → (recNfree ri = 0 ∨ turn 26 = false) → exec (.alloc r q) s = .next (s.heldBy (.alloc 26))) ∧
      (recNfree rk ≠ 0 → recNfree ri ≠ 0 → turn k = true → turn 26 = true →
        let b := m.popRecord (allocRecord m k) (0x0300 + k)
        let i := b.1.popRecord (allocRecord m 26) (0x0300 + 26)
        exec (.alloc r q) s = .next (land (i.1.revoke (coreOf s.c) (i.2 % 2 ^ 20) false) (pack [(0, b.2), (64, 128 * 2 ^ k), (104, 15), (108, i.2 % 2 ^ 20), (128, 1)]))))

/-! ### Translation buffers, bank modes and tensor identifiers -/

/-- 04 R116, R117, R119; 16 R331: `tlbinv` leaves the matching translations of the cores in scope out of their TLBs and of the walker caches of their dies, once no store that used one waits; `bankmode` with free, empty banks, which no unfinished `xroute` uses, sets their mode
and clears their words; `tidw` loads a legal entry or a codebook table, and `tidr` stores one.
That a TLB keeps a translation until one of the named events is the model's choice (notes/assumptions/9.md). -/
def Obligations.Configuration : Prop :=
  ∀ (s : State) (a b : Reg), s.going →
    (∀ sc kind,
      let hit := tlbHit (BitVec.toNat (w := 2) kind) (s.x.sreg a).toNat (s.x.sreg b).toNat
      (((scopeCores s.c sc).any fun n => (s.m.core n).storesThrough hit) = true → exec (.tlbinv sc kind a b) s = .next (s.heldBy .busy)) ∧
      (((scopeCores s.c sc).any fun n => (s.m.core n).storesThrough hit) = false →
      exec (.tlbinv sc kind a b) s = .next (s.withM ((scopeCores s.c sc).foldl
        (fun m n => m.onCore n fun k => { k with utlb := k.utlb.filter fun t => !hit t, tlb := k.tlb.filter fun t => !hit t })
        { s.m with walkers := s.m.walkers.filter fun w => !(scopeDie s.c sc w.die && hit w.t) })))) ∧
    (∀ q clm mode,
      let v := (s.x.src q).toNat
      let k := s.m.core (coreOf s.c)
      let sel := ((List.range 8).filter (bit clm.toNat)).flatMap fun c => ((List.range 16).filter (bit v)).map fun b => (c, b)
      let change := sel.filter fun p => k.bankMode p.1 p.2 != mode.toNat
      (2 ^ 16 ≤ v → exec (.bankmode q clm mode) s = .next (s.trapped { code := 0x03, i0 := some 16 })) ∧
      (v < 2 ^ 16 → (sel.any fun p => (s.m.tileUsers (coreOf s.c)).any fun d => descUses d p.1 p.2) = true →
        exec (.bankmode q clm mode) s = .next (s.heldBy .busy)) ∧
      (v < 2 ^ 16 → (sel.any fun p => (s.m.tileUsers (coreOf s.c)).any fun d => descUses d p.1 p.2) = false →
        (sel ≠ [] → s.k.routed v = true → exec (.bankmode q clm mode) s = .next (s.heldBy .busy)) ∧
        ((sel = [] ∨ s.k.routed v = false) → (∀ p ∈ change, k.bankMode p.1 p.2 = 2 → k.stream p.1 p.2 = []) →
        exec (.bankmode q clm mode) s = .next (s.withCore fun k => change.foldl (fun k p => k.setBank p.1 p.2 mode.toNat) k)))) ∧
    (∀ (n : BitVec 8) m bs, (s.x.sreg a).toNat % 128 = 0 → s.m.readRange s.c (s.x.sreg a).toNat 128 2 = .ok (m, bs) →
      (entOk (leNat bs) = true → exec (.tidw false n a) s = .next (s.withM (m.onCtx s.c fun x => { x with tid := SMap.set 0 x.tid n.toNat (.ofNat 1024 (leNat bs)) }))) ∧
      (entOk (leNat bs) = false → exec (.tidw false n a) s = .next (s.trapped { code := 0x16, i0 := n.toNat }))) ∧
    (∀ (n : BitVec 8) m bs, n.toNat % 16 ≠ 0 → (s.x.sreg a).toNat % 32 = 0 → s.m.readRange s.c (s.x.sreg a).toNat 32 2 = .ok (m, bs) →
      exec (.tidw true n a) s = .next (s.withM (m.onCtx s.c fun x => { x with cb := SMap.set 0 x.cb (n.toNat % 16) (.ofNat 256 (leNat bs)) }))) ∧
    (∀ (n : BitVec 8), n.toNat % 16 = 0 → exec (.tidw true n a) s = .next (s.trapped { code := 0x16, i0 := some 0 })) ∧
    (∀ cb (n : BitVec 8) m, (s.x.sreg a).toNat % (if cb then 32 else 128) = 0 →
      s.m.writeRange s.c (s.x.sreg a).toNat (if cb then leBytes 32 (s.x.codebook (n.toNat % 16)) else leBytes 128 (s.x.entry n.toNat)) = .ok m →
      exec (.tidr cb n a) s = .next (s.withM m)) ∧
    (∀ cb (n : BitVec 8), (s.x.sreg a).toNat % (if cb then 32 else 128) ≠ 0 →
      exec (.tidr cb n a) s = .next (s.trapped { code := 0x0A, i0 := (s.x.sreg a).toNat }))

/-! ### Vector lanes -/

/-- 05 R120-R126, R139: every floating-point lane operation of the V and X slots, in FP64, FP32, FP16 or BF16: with what the syllable pops from the load-data queue, it issues one result of
the latency of R121, whose lanes are those in use and hold the operation's value, with the lanes' flags together. A cluster mask of 0 issues nothing.
That a literal's rounding raises no flag is the model's choice (notes/assumptions/83.md). -/
def Obligations.FloatLanes : Prop :=
  ∀ (s : State) (sl : VSlot) (o : VOp) (p : Fp) (m : Machine) (pop : List Word), s.going → s.roomIn m → fpOfCode (tyCode o.ty.toNat) = some p →
    let e := vecEnv s.x o
    let lanes := s.x.lanes o.ms o.ce
    let A (g : Nat) : Nat := s.x.elem pop s.x.nf (tyCode o.ty.toNat) o.a g
    let B (g : Nat) : Nat := s.x.elem pop s.x.nf (tyCode o.ty.toNat) o.b g
    let C (g : Nat) : Nat := laneCode s.x.nf (tyCode o.ty.toNat) (s.x.vsrc pop o.c g)
    let out (lat : Nat) (f : Nat → FRes) : State := s.lanesOut m o lat (tyCode o.ty.toNat) (lanes.map fun g => (g, f g))
    let long := if o.ty = 0 then 16 else 8
    (s.m.popIf s.env (isV63 o.a) = .ok (m, pop) →
      exec (.fabs sl o) s = .next (out 1 fun g => (A g % p.signBit, 0)) ∧
      exec (.fneg sl o) s = .next (out 1 fun g => (if p.signBit ≤ A g then A g - p.signBit else A g + p.signBit, 0)) ∧
      exec (.frcp o) s = .next (out 8 fun g => p.rcp e (A g)) ∧
      exec (.frsqrt o) s = .next (out 8 fun g => p.rsqrt e (A g)) ∧
      exec (.fsqrt o) s = .next (out long fun g => p.sqrt e (A g)) ∧
      exec (.fexp2 o) s = .next (out 8 fun g => Fn.exp2.run p e (A g)) ∧
      exec (.flog2 o) s = .next (out 8 fun g => Fn.log2.run p e (A g)) ∧
      exec (.fsin o) s = .next (out 8 fun g => Fn.sin.run p e (A g)) ∧
      exec (.fcos o) s = .next (out 8 fun g => Fn.cos.run p e (A g)) ∧
      exec (.ftanh o) s = .next (out 8 fun g => Fn.tanh.run p e (A g)) ∧
      exec (.ferf o) s = .next (out 8 fun g => Fn.erf.run p e (A g)) ∧
      exec (.fexp o) s = .next (out 8 fun g => Fn.exp.run p e (A g))) ∧
    (s.m.popIf s.env (isV63 o.a || isV63 o.b) = .ok (m, pop) →
      exec (.fadd sl o) s = .next (out 4 fun g => p.add e false (A g) (B g)) ∧
      exec (.fsub sl o) s = .next (out 4 fun g => p.add e true (A g) (B g)) ∧
      exec (.fmul sl o) s = .next (out 4 fun g => p.mul e (A g) (B g)) ∧
      exec (.fmin sl o) s = .next (out 1 fun g => p.minmax e false (A g) (B g)) ∧
      exec (.fmax sl o) s = .next (out 1 fun g => p.minmax e true (A g) (B g)) ∧
      exec (.fdiv o) s = .next (out long fun g => p.div e (A g) (B g))) ∧
    (s.m.popIf s.env (isV63 o.a || isV63 o.b || o.c == 63) = .ok (m, pop) →
      exec (.fma sl o) s = .next (out 4 fun g => p.fma e false false (A g) (B g) (C g)) ∧
      exec (.fms sl o) s = .next (out 4 fun g => p.fma e false true (A g) (B g) (C g)) ∧
      exec (.fnma sl o) s = .next (out 4 fun g => p.fma e true false (A g) (B g) (C g)) ∧
      exec (.fnms sl o) s = .next (out 4 fun g => p.fma e true true (A g) (B g) (C g)))

/-- 05 R129, R131-R133: integer lane operations, moves, conversions and `vlane`: one result over the lanes in use; a lane without a value, a reserved code of `.n`, raises FORMAT_REG.
05 R129: what the integer operations of the 64-bit type compute, wrapping, by their two's complement or unsigned value.
That the shifts of `.n` act on codes is the model's choice (notes/assumptions/85.md). -/
def Obligations.IntegerLanes : Prop :=
  (∀ (s : State) (sl : VSlot) (o : VOp) (m : Machine) (pop : List Word), s.going → s.roomIn m →
     let code := tyCode o.ty.toNat
     let A (g : Nat) : Nat := s.x.elem pop s.x.nf code o.a g
     let B (g : Nat) : Nat := s.x.elem pop s.x.nf code o.b g
     let gives (i : Instr) (lat code : Nat) (val : Nat → Option FRes) : Prop :=
       ((∀ g ∈ s.x.lanes o.ms o.ce, (val g).isSome = true) →
         exec i s = .next (s.lanesOut m o lat code ((s.x.lanes o.ms o.ce).map fun g => (g, (val g).getD (0, 0))))) ∧
       (∀ pre g post, s.x.lanes o.ms o.ce = pre ++ g :: post → (∀ h ∈ pre, (val h).isSome = true) → val g = none →
         exec i s = .next (s.trapped { code := 0x19, i0 := some 1, i1 := some 0, i2 := g }))
     (s.m.popIf s.env (isV63 o.a || isV63 o.b) = .ok (m, pop) →
       ∀ t ∈ [(Instr.vAdd sl o, IOp.add), (.vSub sl o, .sub), (.vMul sl o, .mul), (.vMulh sl o, .mulh), (.vMin sl o, .min), (.vMax sl o, .max),
              (.vAnd sl o, .and), (.vOr sl o, .or), (.vXor sl o, .xor), (.vAndn sl o, .andn), (.vShl sl o, .shl), (.vShr sl o, .shr), (.vSra sl o, .sra),
              (.sadd sl o, .sadd), (.ssub sl o, .ssub)],
         gives t.1 1 code fun g => (t.2.run s.x.nf code (o.f == 1) (A g) (B g)).map (·, 0)) ∧
     (s.m.popIf s.env (isV63 o.a) = .ok (m, pop) →
       (∀ t ∈ [(Instr.vAbs sl o, IOp.abs), (.vNeg sl o, .neg)], gives t.1 1 code fun g => (t.2.run s.x.nf code (o.f == 1) (A g) 0).map (·, 0)) ∧
       gives (.mov sl o) 1 code (fun g => some (A g, 0)) ∧
       gives (.vlane sl o) 1 code (fun g => some ((A g + g) % 2 ^ codeWidth s.x.nf code, 0)) ∧
       gives (.cvt sl o) 2 (cvtFormats o).2 (fun g => convert (vecEnv s.x o) s.x.nf [] [] (cvtFormats o).1 (cvtFormats o).2 (s.x.elem pop s.x.nf (cvtFormats o).1 o.a g)) ∧
       gives (.fclass sl o) 1 6 (fun g => (fpOfCode code).map fun p => (p.classify (A g), 0)))) ∧
  (∀ (n : NFmt) (a b : Word),
     let r (op : IOp) : Option Nat := op.run n 6 false a.toNat b.toNat
     r .add = some (a + b).toNat ∧ r .sub = some (a - b).toNat ∧ r .mul = some (a * b).toNat ∧
     r .mulh = some (BitVec.ofInt 64 (a.toInt * b.toInt / 2 ^ 64)).toNat ∧
     r .min = some (if a.toInt ≤ b.toInt then a else b).toNat ∧ r .max = some (if a.toInt ≤ b.toInt then b else a).toNat ∧
     r .and = some (a &&& b).toNat ∧ r .or = some (a ||| b).toNat ∧ r .xor = some (a ^^^ b).toNat ∧ r .andn = some (a &&& ~~~b).toNat ∧
     r .shl = some (a <<< (b.toNat % 64)).toNat ∧ r .shr = some (a >>> (b.toNat % 64)).toNat ∧ r .sra = some (a.sshiftRight (b.toNat % 64)).toNat ∧
     r .sadd = some (BitVec.ofInt 64 (max (-2 ^ 63) (min (2 ^ 63 - 1) (a.toInt + b.toInt)))).toNat ∧
     r .ssub = some (BitVec.ofInt 64 (max (-2 ^ 63) (min (2 ^ 63 - 1) (a.toInt - b.toInt)))).toNat)

/-- 05 R127, R130: compares write a mask bit for every lane in use, with the lanes' flags together.
05 R131, R134, R136: `sel` takes A or B in each lane of the enabled clusters by the mask; `vrng` draws from RNGKEY and RNGCTR, each later `vrng` of the bundle from the next counter;
`vred` writes the tree's value of each enabled cluster to its lanes in use.
`.any` and `.none` on `.n`, and its reserved code under every condition, are the model's choice (notes/assumptions/86.md). -/
def Obligations.ComparesSelectionsReductions : Prop :=
  (∀ (s : State) (sl : VSlot) (o : VOp) (m : Machine) (pop : List Word), s.going → s.m.popIf s.env (isV63 o.a || isV63 o.b) = .ok (m, pop) →
     let code := tyCode o.ty.toNat
     let lanes := s.x.lanes o.ms o.ce
     let A (g : Nat) : Nat := s.x.elem pop s.x.nf code o.a g
     let B (g : Nat) : Nat := s.x.elem pop s.x.nf code o.b g
     (∀ p, fpOfCode code = some p →
       exec (.fcmp sl o) s = .next (s.maskOut m o.d.toNat o.ce.toNat ((lanes.map fun g => (p.cmp s.x.env o.f.toNat (A g) (B g)).2).foldl (· ||| ·) 0)
         (lanes.map fun g => (g, (p.cmp s.x.env o.f.toNat (A g) (B g)).1)))) ∧
     (∀ va vb : Nat → Int, (∀ g ∈ lanes, intDecode s.x.nf code (A g) = some (va g) ∧ intDecode s.x.nf code (B g) = some (vb g)) → o.f.toNat < 8 →
       let holds (g : Nat) : Bool :=
         if o.f = 0 then va g == vb g else if o.f = 1 then va g != vb g else if o.f = 2 then decide (va g < vb g) else if o.f = 3 then decide (vb g ≤ va g)
         else if o.f = 4 then decide (A g < B g) else if o.f = 5 then decide (B g ≤ A g) else if o.f = 6 then A g &&& B g != 0 else A g &&& B g == 0
       exec (.vCmp sl o) s = .next (s.maskOut m o.d.toNat o.ce.toNat 0 (lanes.map fun g => (g, holds g)))) ∧
     (∀ pre g post, lanes = pre ++ g :: post → (∀ h ∈ pre, (intDecode s.x.nf code (A h)).isSome = true ∧ (intDecode s.x.nf code (B h)).isSome = true) →
       (intDecode s.x.nf code (A g) = none ∨ intDecode s.x.nf code (B g) = none) → exec (.vCmp sl o) s = .next (s.trapped { code := 0x19, i0 := some 1, i1 := some 0, i2 := g }))) ∧
  (∀ (s : State) (sl : VSlot) (o : VOp) (m : Machine) (pop : List Word), s.going →
     let code := tyCode o.ty.toNat
     let A (g : Nat) : Nat := s.x.elem pop s.x.nf code o.a g
     let B (g : Nat) : Nat := s.x.elem pop s.x.nf code o.b g
     (s.m.popIf s.env (isV63 o.a || isV63 o.b) = .ok (m, pop) →
       exec (.vSel sl o) s = .next (s.lanesOut m o 1 code
         (((List.range 128).filter fun g => bit o.ce.toNat (g / 16)).map fun g => (g, if s.x.mbit o.ms.toNat g then A g else B g, 0)))) ∧
     (s.room → exec (.vrng sl o) s =
       let t := s.lanesOut s.m o 2 code ((s.x.lanes o.ms o.ce).map fun g => (g, rngCode code (s.x.cr 0x50).toNat ((s.x.cr 0x51).toNat + s.m.bun.vrngs) g, 0))
       .next (t.withM { t.m with bun := { t.m.bun with vrngs := s.m.bun.vrngs + 1 } })) ∧
     (s.m.popIf s.env (isV63 o.a) = .ok (m, pop) → s.roomIn m →
       (code = 9 → o.f.toNat < 3 → ∀ g ∈ s.x.lanes o.ms o.ce, (intDecode s.x.nf code (A g)).isSome = true) →
       let on (c l : Nat) : Bool := s.x.mbit o.ms.toNat (16 * c + l)
       let rs := (clusters o.ce).flatMap fun c =>
         match tree (redNode s.env code o.f.toNat) ((List.range 16).map fun l => if on c l then some (some (A (16 * c + l), 0)) else none) with
         | some (some r) => ((List.range 16).filter (on c)).map fun l => (16 * c + l, r)
         | _ => []
       exec (.vred sl o) s = .next (s.lanesOut m o (if o.f = 0 ∧ code < 4 then 16 else 2) code (rs.map fun p => (p.1, p.2.1, orFlags (rs.map (·.2)))))))

/-- 05 R140, R141: permutes within a cluster and copies across clusters: each lane in use takes the lane that the rule names, whole. -/
def Obligations.Permutes : Prop :=
  ∀ (s : State) (o : VOp) (m : Machine) (pop : List Word), s.going → s.roomIn m →
    let lanes := s.x.lanes o.ms o.ce
    let A (g : Nat) : Word := s.x.vsrc pop (srcReg o.a) g
    let B (g : Nat) : Word := s.x.vsrc pop (srcReg o.b) g
    let out (f : Nat → Nat → Word) : State := s.wordsOut m o 2 (lanes.map fun g => (g, f (g / 16) (g % 16)))
    let n := (s.x.src o.b).toNat
    (s.m.popIf s.env (isV63 o.a || isV63 o.b) = .ok (m, pop) →
      (∀ r, o.b = .r0 r → exec (.perm o) s = .next (out fun c l => A (16 * c + (B (16 * c + l)).toNat % 16))) ∧
      ((∀ r, o.b ≠ .r0 r) → exec (.perm o) s = .next (out fun c _ => A (16 * c + n % 16))) ∧
      exec (.rev o) s = .next (out fun c l => A (16 * c + (15 - l))) ∧
      exec (.rot o) s = .next (out fun c l => A (16 * c + (l + n) % 16)) ∧
      (o.f = 0 → exec (.zip o) s = .next (out fun c l => if l % 2 = 1 then B (16 * c + l / 2) else A (16 * c + l / 2))) ∧
      (o.f = 1 → exec (.zip o) s = .next (out fun c l => if l % 2 = 1 then B (16 * c + (8 + l / 2)) else A (16 * c + (8 + l / 2)))) ∧
      (o.f = 0 → exec (.unzip o) s = .next (out fun c l => if 8 ≤ l then B (16 * c + 2 * (l % 8)) else A (16 * c + 2 * (l % 8)))) ∧
      (o.f = 1 → exec (.unzip o) s = .next (out fun c l => if 8 ≤ l then B (16 * c + (2 * (l % 8) + 1)) else A (16 * c + (2 * (l % 8) + 1))))) ∧
    (s.m.popIf s.env (isV63 o.a) = .ok (m, pop) →
      exec (.xcopy o) s = .next (out fun c l => A (16 * ((c + n % 8) % 8) + l)) ∧
      exec (.xbcast o) s = .next (out fun _ l => A (16 * (n % 8) + l)))

/-- 05 R142-R145: streams. A push adds the lanes in use to the bank's stream in each enabled cluster, a pop takes as many from its head, the count reads its length, and `xroute` deals the
batches of sixteen to the eight clusters in rotation, in ⌈N / 16⌉ + 4 clocks of the core. A bank that is no FIFO raises TILE_SHAPE, a push past 8192 words STREAM,
and one of an unfinished `xroute` holds the bundle.
That the records of an `xroute` move in its own bundle is the model's choice (notes/assumptions/39.md). -/
def Obligations.Streams : Prop :=
  ∀ (s : State) (o : VOp) (m : Machine) (pop : List Word), s.going →
    let b := (s.x.src o.b).toNat
    let n := coreOf s.c
    let lanes (c : Nat) : List Nat := (List.range 16).filter fun l => s.x.mbit o.ms.toNat (16 * c + l)
    ((∀ c ∈ clusters o.ce, s.k.bankMode c b = 2) → b < 16 → s.k.routed (2 ^ b) = true →
      exec (.cpop o) s = .next (s.heldBy .busy) ∧ exec (.cpopCnt o) s = .next (s.heldBy .busy) ∧
      (s.m.popIf s.env (isV63 o.a) = .ok (m, pop) → exec (.cpush o) s = .next (s.heldBy .busy))) ∧
    (s.m.popIf s.env (isV63 o.a) = .ok (m, pop) → (∀ c ∈ clusters o.ce, s.k.bankMode c b = 2) → b < 16 → s.k.routed (2 ^ b) = false →
      let new (c : Nat) : List Word := (lanes c).map fun l => s.x.laneWord pop (tyCode o.ty.toNat) o.a (16 * c + l)
      ((∀ c ∈ clusters o.ce, ((m.core n).stream c b).length + (new c).length ≤ 8192) →
        exec (.cpush o) s = .next (s.withM (m.onCore n fun k => (clusters o.ce).foldl (fun k c => k.setStream c b (k.stream c b ++ new c)) k))) ∧
      (∀ c, (clusters o.ce).find? (fun c => decide (8192 < ((m.core n).stream c b).length + (new c).length)) = some c →
        exec (.cpush o) s = .next (s.trapped { code := 0x1C, i0 := some (16 * c + b) }))) ∧
    (∀ c, (clusters o.ce).find? (fun c => decide (15 < b) || s.k.bankMode c b != 2) = some c →
      let t := s.trapped { code := 0x14, i0 := some (16 * c + b % 16) }
      exec (.cpop o) s = .next t ∧ exec (.cpopCnt o) s = .next t ∧ (s.m.popIf s.env (isV63 o.a) = .ok (m, pop) → exec (.cpush o) s = .next t)) ∧
    ((∀ c ∈ clusters o.ce, s.k.bankMode c b = 2) → b < 16 → s.k.routed (2 ^ b) = false →
      let k := s.m.core n
      let m' := s.m.setCore n ((clusters o.ce).foldl (fun k c => k.setStream c b ((k.stream c b).drop (lanes c).length)) k)
      (s.roomIn m' → exec (.cpop o) s = .next (s.wordsOut m' o 2
        ((clusters o.ce).flatMap fun c => ((lanes c).zip (k.stream c b)).map fun p => (16 * c + p.1, p.2)))) ∧
      exec (.cpopCnt o) s = .next (s.wordsOut s.m o 1 ((s.x.lanes o.ms o.ce).map fun g => (g, .ofNat 64 (s.k.stream (g / 16) b).length)))) ∧
    ((b = 0 ∨ 2 ^ 16 ≤ b) → exec (.xroute o) s = .next (s.trapped { code := 0x03, i0 := some 16 })) ∧
    (0 < b → b < 2 ^ 16 →
      let banks := (List.range 16).filter (bit b)
      let k := s.m.core n
      (∀ c < 8, ∀ i ∈ banks, s.k.bankMode c i = 2) →
      (s.k.routed b = true → exec (.xroute o) s = .next (s.heldBy .busy)) ∧
      (s.k.routed b = false → (∀ c < 8, ∀ i ∈ banks, (k.stream c i).length = (k.stream c (banks.headD 0)).length) →
        let n := ((List.range 8).map fun c => (k.stream c (banks.headD 0)).length).sum
        exec (.xroute o) s = .next (s.withCore fun k =>
          { (banks.foldl (fun k i => (List.range 8).foldl (fun k' c => k'.setStream c i (dealBatches ((List.range 8).flatMap fun c => k.stream c i) c)) k) k) with
            routing := (k.routing.filter fun r => k.cycle.toNat < r.2) ++ [(b, k.cycle.toNat + (n + 15) / 16 + 4)] })))

/-- 05 R138: the P slot. Masks are computed bit by bit in the enabled clusters; `mcnt` counts the set bits, and `mfst` answers the first set lane, or 128. -/
def Obligations.Masks : Prop :=
  ∀ (s : State) (ce : BitVec 8) (d a b : BitVec 4) (r q : Reg), s.going →
    let on := (List.range 128).filter fun g => bit ce.toNat (g / 16)
    let A (g : Nat) : Bool := s.x.mbit a.toNat g
    let B (g : Nat) : Bool := s.x.mbit b.toNat g
    let out (f : Nat → Bool) : State := s.maskOut s.m d.toNat ce.toNat 0 (on.map fun g => (g, f g))
    exec (.mand ce d a b) s = .next (out fun g => A g && B g) ∧
    exec (.mor ce d a b) s = .next (out fun g => A g || B g) ∧
    exec (.mxor ce d a b) s = .next (out fun g => A g != B g) ∧
    exec (.mandn ce d a b) s = .next (out fun g => A g && !B g) ∧
    exec (.mnot ce d a) s = .next (out fun g => !A g) ∧
    exec (.mmov ce d a) s = .next (out A) ∧
    (∀ n, exec (.mset ce d (.upto n)) s = .next (out fun g => decide (g % 16 < n.toNat))) ∧
    (∀ w, exec (.mset ce d (.mask w)) s = .next (out fun g => bit w.toNat (g % 16))) ∧
    exec (.mlim ce d q true) s = .next (out fun g => decide (g % 16 < (s.x.sreg q).toNat)) ∧
    exec (.mlim ce d q false) s = .next (out fun g => decide (g < (s.x.sreg q).toNat)) ∧
    (ce = 0 → exec (.mcnt ce r a) s = .next s ∧ exec (.mfst ce r a) s = .next s) ∧
    (ce ≠ 0 → exec (.mcnt ce r a) s = .next (s.wrote 1 r (.ofNat 64 (on.filter A).length)) ∧
      exec (.mfst ce r a) s = .next (s.wrote 1 r (.ofNat 64 ((on.filter A).headD 128))))

/-! ### Statistics, the load-data queue and scratchpad -/

/-- 06 R155-R165: statistics registers. `qclr` empties lanes; updates, merges, reductions, exchanges and drains take the triples as they stand when no used one is malformed;
a malformed one raises STATISTIC.
What an update that overflows stores, and the order of the lanes' checks, are the model's choices (notes/assumptions/71.md, 72.md). -/
def Obligations.Statistics : Prop :=
  ∀ (s : State) (sl : VSlot) (o : VOp) (m : Machine) (pop : List Word), s.going → s.roomIn m →
    let lanes := s.x.lanes o.ms o.ce
    let q := qNum o.a
    let r := qNum o.b
    let D (g : Nat) : Triple := s.x.qlane o.d.toNat g
    let Q (g : Nat) : Triple := s.x.qlane q g
    (s.room → exec (.qclr sl o) s = .next (s.triplesOut s.m o 1 (lanes.map fun g => (g, .empty, 0)))) ∧
    (s.m.popIf s.env (isV63 o.a) = .ok (m, pop) → (∀ g ∈ lanes, (D g).malformed = false) →
      ∀ X : Nat → Nat, (∀ g ∈ lanes, updateSource s.env pop o o.a g = .ok (X g)) →
      exec (.qupd sl o) s = .next (s.triplesOut m o 16 (lanes.map fun g => (g, ((D g).update (X g)).1, ((D g).update (X g)).2 ||| updateFlags s.env pop o o.a g)))) ∧
    (s.m.popIf s.env (isV63 o.a || isV63 o.b) = .ok (m, pop) →
      ∀ X W : Nat → Nat,
      let zero (g : Nat) : Bool := (Fp.d.unpack (W g)).isZero
      (∀ g ∈ lanes, updateSource s.env pop o o.b g = .ok (W g)) →
      ((∀ g ∈ lanes, (D g).malformed = false ∧ badWeight (W g) = false ∧ (zero g = false → updateSource s.env pop o o.a g = .ok (X g))) →
        exec (.qupw sl o) s = .next (s.triplesOut m o 20 (lanes.map fun g =>
          (g, if zero g then (D g, 0) else (((D g).updateW (X g) (W g)).1, ((D g).updateW (X g) (W g)).2 ||| updateFlags s.env pop o o.a g))))) ∧
      (∀ g ls, lanes = g :: ls → (D g).malformed = false → badWeight (W g) = true →
        exec (.qupw sl o) s = .next (s.trapped { code := 0x1E, i0 := some 2, i2 := g }))) ∧
    (s.room → (∀ g ∈ lanes, (Q g).malformed = false ∧ (s.x.qlane r g).malformed = false) →
      exec (.qmrg sl o) s = .next (s.triplesOut s.m o 16 (lanes.map fun g => (g, (Q g).merge (s.x.qlane r g))))) ∧
    (s.room → (∀ g ∈ lanes, (Q g).malformed = false) →
      let on (c l : Nat) : Bool := s.x.mbit o.ms.toNat (16 * c + l)
      exec (.qred sl o) s = .next (s.triplesOut s.m o 64 ((clusters o.ce).flatMap fun c =>
        let t := mergeTree ((List.range 16).map fun l => if on c l then some (Q (16 * c + l)) else none)
        ((List.range 16).filter (on c)).map fun l => (16 * c + l, t)))) ∧
    (s.room →
      let k := (s.x.src o.b).toNat % 8
      let other (g : Nat) : Nat := 16 * ((g / 16) ^^^ k) + g % 16
      (∀ g ∈ lanes, (Q g).malformed = false ∧ (Q (other g)).malformed = false) →
      exec (.qxc sl o) s = .next (s.triplesOut s.m o 18 (lanes.map fun g => (g, Q (other g), 0))) ∧
      (k = 0 → exec (.qxcMerge sl o) s = .next (s.triplesOut s.m o 18 (lanes.map fun g => (g, Q g, 0)))) ∧
      (k ≠ 0 → exec (.qxcMerge sl o) s = .next (s.triplesOut s.m o 18 (lanes.map fun g => (g, (Q (min g (other g))).merge (Q (max g (other g)))))))) ∧
    (let f := o.f.toNat
     let B (g : Nat) : Nat := if f = 5 ∨ f = 7 then s.x.elem pop s.x.nf 0 o.b g else 0
     let E (g : Nat) : Nat := if f = 5 then B g else if f = 7 then (s.x.vsrc pop o.c g).toNat else 0
     s.m.popIf s.env (((f == 5 || f == 7) && isV63 o.b) || (f == 7 && o.c == 63)) = .ok (m, pop) →
      (∀ g ∈ lanes, (Q g).malformed = false) → ((f = 5 ∨ f = 7) → ∀ g ∈ lanes, badEps (E g) = false) →
      exec (.qdrn sl o) s = .next (s.lanesOut m o (if f = 0 ∨ f = 1 ∨ f = 6 then 4 else 16) 0 (lanes.map fun g => (g, (Q g).drain f (B g) (E g))))) ∧
    (∀ pre g post, lanes = pre ++ g :: post → (∀ h ∈ pre, (Q h).malformed = false) → (Q g).malformed = true →
      let bad := s.trapped { code := 0x1E, i0 := some 1, i1 := q, i2 := g }
      exec (.qred sl o) s = .next bad ∧ (pre = [] → exec (.qmrg sl o) s = .next bad))

/-- 05 R149-R153: a push of the load-address queue adds an entry with its lanes' addresses at the end; a full queue raises QUEUE_ORDER. An entry of one lane
is translated, then performed a cluster at a time, and resolves to the value loaded, extended to 64 bits, or to the tag of its failed load, with the data of the lanes before it kept (16 R331, R332)
(log 75, the model's choice of steps). -/
def Obligations.LoadQueue : Prop :=
  (∀ (s : State) (sz : BitVec 3) (ms : BitVec 4) (ce : BitVec 8) (a c : Reg) (b : Src), s.going →
    let base : Int := (s.x.sreg a + s.x.src b).toNat
    let n : Int := (szBytes sz.toNat : Nat)
    let on := s.x.lanes ms ce
    let entry (addr : Nat → Int) : LqEntry :=
      { sz := sz.toNat, ce := ce.toNat, lanes := on.foldl (fun n g => n + 2 ^ g) 0, pc := s.m.bun.pc, ti := s.x.ti, addrs := (List.range 128).map fun g => wrap 64 (addr g),
        st := if on = [] then .resolved else .queued, data := if on = [] then List.replicate 128 0 else [] }
    let pushed (addr : Nat → Int) : State :=
      s.withM { (s.m.onCtx s.c fun x => { x with lq := x.lq ++ [entry addr] }) with bun := { s.m.bun with pushed := 1 } }
    (s.x.lq.length < 64 + s.m.bun.pops →
      exec (.lq sz ms ce a b) s = .next (pushed fun g => base + n * g) ∧
      exec (.lqs sz ms ce a b c) s = .next (pushed fun g => base + ((s.x.sreg c).toNat : Nat) * g) ∧
      exec (.lqg sz ms ce a b c) s = .next (pushed fun g => base + n * (s.x.vreg c.toNat g).toInt)) ∧
    (64 + s.m.bun.pops ≤ s.x.lq.length →
      let full := s.trapped { code := 0x1B, i0 := some 0 }
      exec (.lq sz ms ce a b) s = .next full ∧ exec (.lqs sz ms ce a b c) s = .next full ∧ exec (.lqg sz ms ce a b c) s = .next full)) ∧
  (∀ (s : State) (c i : Nat) (q : LqEntry), (s.m.ctx c).lq[i]? = some q → (s.m.ctx c).depth = 0 → s.m.xfersOf c = [] →
    let put (m : Machine) (q : LqEntry) : State := s.withM (m.onCtx c fun y => { y with lq := y.lq.set i q })
    let tagged (k : Cause) : State := put (s.m.discard (coreOf c) k) { q with st := .resolved, tag := some (k.code, k.i0.getD 0, 0), tag3 := k.i3, again := false }
    (q.st = .queued → q.again = false → q.lanes = 1 → q.data ≠ [] → exec (.lqEntryResolve c i) s = .next (put s.m { q with st := .performing })) ∧
    (q.st = .queued → q.again = false → q.lanes = 1 → q.data = [] →
      (∀ m p, s.m.access (coreOf c) (q.addrs.getD 0 0) (szBytes q.sz) .load = .ok (m, p) → exec (.lqEntryResolve c i) s = .next (put m { q with st := .performing })) ∧
      (∀ k, s.m.access (coreOf c) (q.addrs.getD 0 0) (szBytes q.sz) .load = .error (.trap k) → exec (.lqEntryResolve c i) s = .next (tagged k))) ∧
    (q.st = .performing → q.again = false → q.lanes = 1 → q.data = [] →
      (∀ m v, s.m.loadChecked c (q.addrs.getD 0 0) (szBytes q.sz) = .ok (m, v) →
        exec (.lqEntryResolve c i) s = .next (put m { q with data := szExtend q.sz v :: List.replicate 15 0 })) ∧
      (∀ k, s.m.loadChecked c (q.addrs.getD 0 0) (szBytes q.sz) = .error (.trap k) → exec (.lqEntryResolve c i) s = .next (tagged k))) ∧
    (q.st = .performing → q.again = false → q.lanes = 1 → q.data.length = 112 →
      exec (.lqEntryResolve c i) s = .next (put s.m { q with st := .resolved, data := q.data ++ List.replicate 16 0, tag := none })) ∧
    (q.st = .resolved → exec (.lqEntryResolve c i) s = .next s))

/-- 05 R146-R148, R154; 06 R166: vectors and statistics registers loaded from and stored to scratchpad at a 256-byte offset, and strided stores to memory, held behind a tile transfer over their bytes: every lane is
checked first; an offset that is no multiple of 256 raises ALIGNMENT, and one outside scratchpad banks TILE_SHAPE.
06 R166: `qld` and `qst` move the three planes of a statistics register between its lanes in use and scratchpad.
06 R157-R161; 02 R53: merging with an empty triple gives the other one, unchanged and without flags; the first value of an empty triple becomes its mean, with count one and M2 zero;
an update of weight zero changes nothing. -/
def Obligations.Scratchpad : Prop :=
  (∀ (s : State) (g : BitVec 2) (ms : BitVec 4) (ce : BitVec 8) (d a c : Reg) (b : Src), s.going →
     let o := s.x.sreg a + s.x.src b
     let on := s.x.lanes ms ce
     let at_ (l : Nat) : Nat := laneOffset o.toNat l
     (ce ≠ 0 → o.toNat % 256 ≠ 0 → exec (.vld g ms ce d a b) s = .next (s.trapped { code := 0x0A, i0 := o.toNat }) ∧
       exec (.vst g ms ce d a b) s = .next (s.trapped { code := 0x0A, i0 := o.toNat })) ∧
     ((ce = 0 ∨ o.toNat % 256 = 0) → (∀ l ∈ on, s.k.padOk g.toNat (at_ l) = true) →
       (s.room → exec (.vld g ms ce d a b) s = .next (if ce = 0 then s else
         s.issued { off := 3, file := .v, reg := d.toNat, ce := ce.toNat, writes := on.map fun l => (128 * d.toNat + l, (s.k.padWord g.toNat (at_ l)).toNat) })) ∧
       exec (.vst g ms ce d a b) s = .next (s.withCore fun k => on.foldl (fun k l => k.setPadWord g.toNat (at_ l) (s.x.vreg d.toNat l)) k)) ∧
     (o.toNat % 256 = 0 → ∀ w, ((on.map at_).filter fun f => !s.k.padOk g.toNat f).min? = some w →
       exec (.vld g ms ce d a b) s = .next (s.trapped { code := 0x14, i0 := w }) ∧ exec (.vst g ms ce d a b) s = .next (s.trapped { code := 0x14, i0 := w })) ∧
     (let off (l : Nat) : Nat := (o + s.x.vreg c.toNat l).toNat
      s.room → (∀ l ∈ on, off l % 8 = 0 ∧ unitCluster (off l) = l / 16 ∧ s.k.padOk g.toNat (off l) = true) →
       exec (.vldg g ms ce d a b c) s = .next (if ce = 0 then s else
         s.issued { off := 3, file := .v, reg := d.toNat, ce := ce.toNat, writes := on.map fun l => (128 * d.toNat + l, (s.k.padWord g.toNat (off l)).toNat) })) ∧
     (∀ sz : BitVec 2, let n := 2 ^ sz.toNat
       let addr (l : Nat) : Nat := wrap 64 ((o.toNat : Int) + (s.x.sreg c).toNat * l)
       let over_ := on.find? fun l => s.start.tileOver s.c true (addr l) n
       (∀ l, over_ = some l → exec (.vsts sz ms ce d a b c) s = .next (s.heldBy (.tileOp (addr l) n))) ∧
       (over_ = none →
         (∀ m, on.foldlM (fun m l => m.storeChecked s.c (addr l) n (s.x.vreg d.toNat l).toNat) s.m = .ok m → exec (.vsts sz ms ce d a b c) s = .next (s.withM m)) ∧
         (∀ l ls k, on = l :: ls → s.m.storeChecked s.c (addr l) n (s.x.vreg d.toNat l).toNat = .error (.trap k) → k.blocked = false →
           exec (.vsts sz ms ce d a b c) s = .next (s.trapped { k with i1 := l }))))) ∧
  ((∀ (s : State) (sl : VSlot) (o : VOp), s.going →
      let b := (s.x.src o.a + s.x.src o.b).toNat
      let lanes := s.x.lanes o.ms o.ce
      let w (p g : Nat) : Nat := (s.k.padWord o.f.toNat (laneOffset p g)).toNat
      (o.ce ≠ 0 → b % 256 ≠ 0 → exec (.qld sl o) s = .next (s.trapped { code := 0x0A, i0 := b }) ∧ exec (.qst sl o) s = .next (s.trapped { code := 0x0A, i0 := b })) ∧
      (o.ce = 0 ∨ b % 256 = 0 → (∀ p ∈ [b, b + 1024, b + 2048], ∀ g ∈ lanes, s.k.padOk o.f.toNat (laneOffset p g) = true) →
        (s.room → exec (.qld sl o) s = .next (s.statsOut s.m o 3 (lanes.map fun g => (g, ⟨w b g, w (b + 1024) g, w (b + 2048) g⟩, 0)))) ∧
        (∀ g ls, lanes = g :: ls → (s.x.qlane o.d.toNat g).malformed = true →
          exec (.qst sl o) s = .next (s.trapped { code := 0x1E, i0 := some 1, i1 := o.d.toNat, i2 := g })) ∧
        ((∀ g ∈ lanes, (s.x.qlane o.d.toNat g).malformed = false) → exec (.qst sl o) s = .next (s.withCore fun k => lanes.foldl (fun k g =>
          let t := s.x.qlane o.d.toNat g
          ((k.setPadWord o.f.toNat (laneOffset b g) (.ofNat 64 t.w)).setPadWord o.f.toNat (laneOffset (b + 1024) g) (.ofNat 64 t.mean)).setPadWord
            o.f.toNat (laneOffset (b + 2048) g) (.ofNat 64 t.m2)) k)))) ∧
   (∀ (t : Triple) (x w : Nat),
      (t.isEmpty = false → t.merge .empty = (t, 0) ∧ Triple.empty.merge t = (t, 0)) ∧
      (t.isEmpty = true → (Fp.d.unpack x).isNan = false → (Fp.d.unpack x).isSnan = false → t.update x = (⟨0x3FF0000000000000, x, 0⟩, 0)) ∧
      ((Fp.d.unpack w).isZero = true → t.updateW x w = (t, 0)) ∧ Triple.empty.malformed = false))

/-! ### Tiles and the matrix array -/

/-- 07 R175-R179: `tdef` of a well-formed descriptor, `tmov` of a defined register and `trel` write their tile register when no pending operation uses it; a malformed descriptor
raises TILE_SHAPE, an undefined source TILE_UNDEFINED, and a register in use holds the bundle.
07 R183, R184: `macq` of what the context holds changes nothing; from a context that holds nothing, with no older request and tiles enough, it grants them as zeros, and else waits or
raises ACC_GRANT; `mrls` gives tiles back when no command uses them. -/
def Obligations.TilesAndGrants : Prop :=
  (∀ (s : State) (d a b : Reg), s.going →
     let v := (s.x.sreg b).toNat * 2 ^ 64 + (s.x.sreg a).toNat
     let free := s.start.pendingRead s.c d.toNat = false ∧ s.start.pendingWrite s.c d.toNat = false
     let put (v : Nat) : State :=
       s.withM (s.m.onCtx s.c fun x => { x with t := SMap.set 0 x.t d.toNat (.ofNat 128 v), tDef := x.tDef ||| ((1 : BitVec 64) <<< d.toNat) })
     (tdOk v = true → free → exec (.tdef d a b) s = .next (put v)) ∧
     (tdOk v = false → exec (.tdef d a b) s = .next (s.trapped { code := 0x14, i0 := some 0 })) ∧
     (tdOk v = true → ¬ free → exec (.tdef d a b) s = .next (s.heldBy .busy)) ∧
     (free → exec (.trel d) s = .next (s.withM (s.m.onCtx s.c fun x => { x with t := SMap.set 0 x.t d.toNat 0, tDef := x.tDef &&& ~~~((1 : BitVec 64) <<< d.toNat) }))) ∧
     (¬ free → exec (.trel d) s = .next (s.heldBy .busy)) ∧
     (s.x.tDef.getLsbD a.toNat = false → ∀ t, exec (.tmov d a t) s = .next (s.trapped { code := 0x15, i0 := a.toNat })) ∧
     (s.x.tDef.getLsbD a.toNat = true → free →
       let w := (SMap.get 0 s.x.t a.toNat).toNat
       (tdOk w = true → exec (.tmov d a none) s = .next (put w)) ∧
       (∀ t : BitVec 8, tdOk (w % 2 ^ 120 + t.toNat * 2 ^ 120) = true → exec (.tmov d a (some t)) s = .next (put (w % 2 ^ 120 + t.toNat * 2 ^ 120))))) ∧
  (∀ (s : State) (mask : BitVec 4), s.going →
     let need := mask &&& ~~~s.x.accHeld
     let older := (s.start.poolWants (coreOf s.c)).takeWhile fun p => p.1 != s.c
     (need = 0 → exec (.macq mask) s = .next s) ∧
     (need ≠ 0 → s.x.accHeld ≠ 0 → exec (.macq mask) s = .next (s.trapped { code := 0x18, i0 := some 8, i1 := s.x.accHeld.toNat })) ∧
     (need ≠ 0 → s.x.accHeld = 0 → (older ≠ [] ∨ s.start.poolFree (coreOf s.c) < popcount4 need) → exec (.macq mask) s = .next (s.heldBy (.grant mask.toNat))) ∧
     (need ≠ 0 → s.x.accHeld = 0 → older = [] → popcount4 need ≤ s.start.poolFree (coreOf s.c) →
       exec (.macq mask) s = .next (s.withM ((s.m.onCore (coreOf s.c) fun k => { k with wants := k.wants.filter fun p => p.1 != s.c }).onCtx s.c fun x =>
         { x.clearShared need with accHeld := s.x.accHeld ||| need }))) ∧
     ((∀ i < 4, mask.getLsbD i = true → s.start.accBusy s.c (4 + i) = false) →
       exec (.mrls mask) s = .next (s.withM (s.m.onCtx s.c fun x => { x.clearShared mask with accHeld := x.accHeld &&& ~~~mask }))) ∧
     (∀ i < 4, mask.getLsbD i = true → s.start.accBusy s.c (4 + i) = true → exec (.mrls mask) s = .next (s.heldBy .busy)))

/-- 02 R33; 07 R181, R182, R185-R188: the matrix commands. With room in the queue and registers that no earlier operation blocks, a syllable queues its command with FPC, FMT and
the operands that it captures, and changes nothing else. -/
def Obligations.MatrixCommands : Prop :=
  ∀ (s : State), s.going → s.k.mq.length < 16 →
    let queued (q : MCmd) : State := s.withCore fun k => { k with mq := k.mq ++ [q] }
    let ready (q : MCmd) : Prop := (∀ r ∈ q.reads, s.start.pendingWrite s.c r = false) ∧
      ∀ r ∈ q.writes, s.start.pendingRead s.c r = false ∧ s.start.pendingWrite s.c r = false
    let cmd (kind : MKind) : MCmd := { ctx := s.c, kind, fpc := s.x.fpc, fmt := s.x.fmt, pc := s.m.bun.pc.toNat, ti := s.x.ti, clk := s.k.cycle.toNat }
    (∀ d : BitVec 3, s.x.holdsAcc d.toNat = true → s.start.followInto s.c d.toNat = false →
      exec (.mzero d) s = .next (queued { cmd .mzero with acc := d.toNat })) ∧
    (∀ d : BitVec 3, s.x.holdsAcc d.toNat = false → exec (.mzero d) s = .next (s.trapped { code := 0x18, i0 := d.toNat, i1 := d.toNat })) ∧
    (∀ (d : Reg) (a : BitVec 3) t, s.x.holdsAcc a.toNat = true → s.start.followInto s.c a.toNat = false → s.x.captureTile d.toNat false = .ok t →
      32 ≤ tdRows t.desc → 256 ≤ tdRowb t.desc → s.k.tileOk t.desc = true →
      (ready { cmd .msv with acc := a.toNat, a := t } → exec (.msv d a) s = .next (queued { cmd .msv with acc := a.toNat, a := t })) ∧
      (ready { cmd .mrst with acc := a.toNat, a := t } → exec (.mrst a d) s = .next (queued { cmd .mrst with acc := a.toNat, a := t }))) ∧
    (∀ (d : Reg) (a rm : BitVec 3) (clr : Bool) t, s.x.holdsAcc a.toNat = true → s.start.followInto s.c a.toNat = false → s.x.captureTile d.toNat true = .ok t →
      entFmt t.ent ≠ 11 → (entFmt t.ent = 10 → cb4Ordered (tableCodes t.cb) = true) →
      32 + (if entScaled t.ent then 1 else 0) ≤ tdRows t.desc → 4 * widthOf s.x.fmt (entFmt t.ent) ≤ tdRowb t.desc → (entScaled t.ent = true → 32 ≤ tdRowb t.desc) →
      s.k.tileOk t.desc = true →
      let q : MCmd := { cmd .mst with acc := a.toNat, a := t, rm := if rm = 7 then bits s.x.fpc.toNat 0 3 else rm.toNat, clr }
      ready q → exec (.mst d a rm clr) s = .next (queued q)) ∧
    (∀ (d : BitVec 2) (a : Reg) t, s.x.lm.getLsbD d.toNat = true → s.x.captureTile a.toNat true = .ok t → Machine.pairOk (entFmt t.ent) (entFmt t.ent) = true →
      operandShape s.x.fmt t = true → s.k.tileOk t.desc = true →
      let q : MCmd := { cmd .mlatch with lat := d.toNat, a := t }
      ready q → exec (.mlatch d a) s = .next (queued q)) ∧
    (∀ (d : BitVec 2) (a : Reg) (tid : BitVec 8) t, s.x.lm.getLsbD d.toNat = true → s.x.useEntry tid.toNat = .ok t → Machine.pairOk (entFmt t) (entFmt t) = true →
      (s.x.sreg a).toNat % 256 = 0 →
      exec (.mlatchMem d a tid) s = .next (queued { cmd .mlatchMem with lat := d.toNat, a := { ent := t, cb := s.x.entryTable t }, addr := (s.x.sreg a).toNat })) ∧
    (∀ (d : BitVec 3) (a b : Reg) (rm : BitVec 3) (z0 : Bool) ta tb, s.x.holdsAcc d.toNat = true → s.start.followInto s.c d.toNat = false →
      s.x.captureTile a.toNat true = .ok ta → s.x.captureTile b.toNat true = .ok tb → Machine.pairOk (entFmt ta.ent) (entFmt tb.ent) = true →
      operandShape s.x.fmt ta = true → operandShape s.x.fmt tb = true → s.k.tileOk ta.desc = true → s.k.tileOk tb.desc = true → tdG ta.desc ≠ tdG tb.desc →
      let q : MCmd := { cmd .mma with acc := d.toNat, a := ta, b := tb, rm := if rm = 7 then bits s.x.fpc.toNat 0 3 else rm.toNat, z0 }
      ready q → exec (.mma d a (.tile b) rm z0) s = .next (queued q)) ∧
    (∀ (d : BitVec 3) (a : Reg) (l : BitVec 2) (rm : BitVec 3) (z0 : Bool) ta, s.x.holdsAcc d.toNat = true → s.start.followInto s.c d.toNat = false →
      s.x.captureTile a.toNat true = .ok ta → s.x.lm.getLsbD l.toNat = true → (∀ code, s.start.latchCode s.c l.toNat = some code → Machine.pairOk (entFmt ta.ent) code = true) →
      operandShape s.x.fmt ta = true → s.k.tileOk ta.desc = true →
      let q : MCmd := { cmd .mma with acc := d.toNat, a := ta, b := { reg := l.toNat, latch := true }, rm := if rm = 7 then bits s.x.fpc.toNat 0 3 else rm.toNat, z0 }
      ready q → exec (.mma d a (.latch l) rm z0) s = .next (queued q))

/-- 05 R137; 06 R168, R169: `vacc` reads a row block of an accumulator, and `mq` makes a triple of each row or column, merged with the old one or not.
07 R187, R189, R191; 02 R34: the queue's next command starts with what it will write; a cause of its operand fetch keeps it, with what it has read (16 R332), and the context's later commands, and is deferred to the next bundle, but
a command that the damper blocks leaves the queue (10 R256); one that waits for a route stays;
a command that completes writes its results and its flags. `mzero` writes zeros, and `msv` the accumulator's elements row by row.
That a command computes its result at its start is the model's choice (notes/assumptions/42.md). -/
def Obligations.AccumulatorReadsAndMatrixEvents : Prop :=
  (∀ (s : State), s.going → s.room →
     (∀ (sl : VSlot) (o : VOp),
       let acc := (srcReg o.a).toNat % 8
       let b := (s.x.src o.b).toNat
       (o.ce = 0 → exec (.vacc sl o) s = .next s) ∧
       (o.ce ≠ 0 → 7 < b → exec (.vacc sl o) s = .next (s.trapped { code := 0x14, i0 := b })) ∧
       (o.ce ≠ 0 → b ≤ 7 → s.x.holdsAcc acc = false → exec (.vacc sl o) s = .next (s.trapped { code := 0x18, i0 := acc })) ∧
       (o.ce ≠ 0 → b ≤ 7 → s.x.holdsAcc acc = true → s.start.accWriting s.c acc = true → exec (.vacc sl o) s = .next (s.heldBy .busy)) ∧
       (o.ce ≠ 0 → b ≤ 7 → s.x.holdsAcc acc = true → s.start.accWriting s.c acc = false →
         exec (.vacc sl o) s = .next (s.wordsOut s.m o 4 ((s.x.lanes o.ms o.ce).map fun g =>
           (g, s.x.accv acc (4 * b + g / 32) (16 * (g / 16 % 2) + g % 16)))))) ∧
     (∀ (d : BitVec 4) (a : BitVec 3) (blk : MqBlock) (ms : BitVec 4) (ce : BitVec 8), ce ≠ 0 → s.x.holdsAcc a.toNat = true → s.start.accWriting s.c a.toNat = false →
       (∀ b, blk = .row b → (s.x.src b).toNat ≤ 7) →
       let T (g : Nat) : Triple × Nat := accTriple (match blk with
         | .row b => (List.range 32).map fun j => s.x.accv a.toNat (4 * (s.x.src b).toNat + g / 32) j
         | .col => (List.range 32).map fun i => s.x.accv a.toNat i (16 * (g / 16 % 2) + g % 16))
       let out (f : Nat → Triple × Nat) : State :=
         let rs := (s.x.lanes ms ce).map fun g => (g, f g)
         s.withCtx (s.cur.issue { off := 40, file := .q, reg := d.toNat, ce := ce.toNat, fl := rs.foldl (fun f p => f ||| p.2.2) 0, pc := s.m.bun.pc, en := 0,
                                  writes := rs.map fun p => (128 * d.toNat + p.1, p.2.1.toNat) })
       exec (.mq d a false blk ms ce) s = .next (out T) ∧
       ((∀ g ∈ s.x.lanes ms ce, (s.x.qlane d.toNat g).malformed = false) →
         exec (.mq d a true blk ms ce) s = .next (out fun g =>
           (((s.x.qlane d.toNat g).merge (T g).1).1, (T g).2 ||| ((s.x.qlane d.toNat g).merge (T g).1).2))))) ∧
  (∀ (s : State) (n : Nat) (q : MCmd) (rest : List MCmd),
     let k := s.m.core n
     (k.mrun = none → k.mq = q :: rest →
       let kept (m : Machine) (q : MCmd) (c : Cause) : State :=
         s.withM ((m.onCore n fun k => { k with mq := rest.filter fun r => r.ctx != q.ctx }).onCtx q.ctx fun x =>
           { x with retained := x.retained ++ q :: rest.filter fun r => r.ctx == q.ctx, deferred := x.deferred ++ [c] })
       let passed (m : Machine) (q : MCmd) (c : Cause) : State :=
         s.withM ((m.onCore n fun k => { k with mq := rest }).onCtx q.ctx fun x => { x with deferred := x.deferred ++ [c] })
       (∀ m q' m' o, s.m.gatherAll q = (m, q', none) → m.fetchCmd q' = (m', .ok o) →
         exec (.matrixCmdStart n) s = .next (s.withM (m'.onCore n fun k => { k with mq := rest, mrun := some (q', o) }))) ∧
       (∀ m q' m' c, s.m.gatherAll q = (m, q', none) → m.fetchCmd q' = (m', .error c) → exec (.matrixCmdStart n) s = .next (kept m' q' c)) ∧
       (∀ m q' t, s.m.gatherAll q = (m, q', some (.trap t)) →
         let c : Cause := { t with kind := 1, i1 := q'.pc, i2 := q'.kind.op }
         (t.code ≠ 0x3B → exec (.matrixCmdStart n) s = .next (kept m q' c)) ∧ (t.code = 0x3B → exec (.matrixCmdStart n) s = .next (passed m q' c))) ∧
       (∀ m q' h, s.m.gatherAll q = (m, q', some (.hold h)) →
         exec (.matrixCmdStart n) s = .next (s.withM ((m.onCore n fun k => { k with mq := q' :: rest }).lostRoute q'.ctx h)))) ∧
     (q.kind ≠ .mlatchMem → s.m.gatherAll q = (s.m, q, none)) ∧
     (k.mq = [] → exec (.matrixCmdStart n) s = .next s) ∧
     (∀ o, k.mrun = some (q, o) →
       exec (.matrixCmdComplete n) s = .next (s.withM ((s.m.setCore n (o.pad.foldl (fun k p => k.setPadByte (p.1 / 2 ^ 21) (p.1 % 2 ^ 21) p.2)
         { k with mrun := none, latch := (match o.lat with | some (l, v) => SMap.set {} k.latch l v | none => k.latch) })).onCtx q.ctx fun x =>
           ({ x with acc := SMap.setAll 0 x.acc o.acc }).orFlg o.fl))) ∧
     (q.kind = .mzero → s.m.fetchCmd q = (s.m, .ok { acc := (List.range 1024).map fun i => (1024 * q.acc + i, 0) })) ∧
     (let row (i : Nat) : List Byte := (List.range 32).flatMap fun j => leBytes 8 ((s.m.ctx q.ctx).accv q.acc i j).toNat
      let pad : List (Nat × Byte) := (List.range 32).flatMap fun i => padKeys (tdG q.a.desc) (tdOff q.a.desc + i * tdPitch q.a.desc) (row i)
      q.kind = .msv → s.m.fetchCmd q = (s.m, .ok { pad })))

/-! ### Copies, messages and collective fires -/

/-- 08 R193-R198, R205, R207; 20 R408: a copy syllable asks its channel for the transfer that its fields name; a request that passes the checks is issued under the channel's next
identifier, and one that fails raises its cause. -/
def Obligations.CopyIssue : Prop :=
  ∀ (s : State) (o : CopyOp), s.going →
    let aux := s.x.sreg o.c
    let req (kind : XKind) (follow : Bool) : CopyReq :=
      { kind, follow, d := o.d.toNat, tid := o.tid.toNat, ch := o.ch.toNat, lay := o.lay.toNat, base := (s.x.sreg o.a + s.x.src o.b).toNat, aux := aux.toNat, pc := s.m.bun.pc.toNat }
    ∀ c ∈ [(Instr.tld o, req .tld false), (.tst o, req .tst false), (.tldm o, req .tld true), (.ttrans o, req (.ttrans (bit aux.toNat 8)) false),
           (.tred .sum o, req (.tred .sum) false), (.tred .max o, req (.tred .max) false), (.tred .min o, req (.tred .min) false), (.tred .merge o, req (.tred .merge) false)],
      (∀ k, s.start.copyCheck s.c s.x c.2 = .error (.trap k) → exec c.1 s = .next (s.trapped k)) ∧
      (∀ t, s.start.copyCheck s.c s.x c.2 = .ok t →
        let free := (∀ r ∈ t.roles.1, s.start.pendingWrite s.c r = false) ∧ ∀ r ∈ t.roles.2, s.start.pendingRead s.c r = false ∧ s.start.pendingWrite s.c r = false
        (¬ free → exec c.1 s = .next (s.heldBy .busy)) ∧
        (free → o.prv = true →
          let n := ((s.m.core (coreOf s.c)).priv.filter fun p => p.2.ch == t.ch).length
          (64 ≤ n → exec c.1 s = .next (s.heldBy .busy)) ∧
          (n < 64 → exec c.1 s = .next (s.withM (((s.withCtx { s.cur with opSeq := s.cur.opSeq + 1 }).m.onCore (coreOf s.c) fun k =>
            { k with priv := k.priv ++ [(s.c, { t with seq := s.cur.opSeq })] }).bumpCount s.c (0x380 + 16 * t.ch))))) ∧
        (free → o.prv = false →
          let n := (s.cur.xfers.filter fun u => u.ch == t.ch && !u.isFire).length
          let id := s.cur.cr (0x34 + t.ch)
          (64 ≤ n → exec c.1 s = .next (s.heldBy .busy)) ∧
          (n < 64 → exec c.1 s = .next (s.withCtx
            { s.cur.setCr (0x34 + t.ch) (id + 1) with xfers := s.cur.xfers ++ [{ t with id := id.toNat, seq := s.cur.opSeq }], opSeq := s.cur.opSeq + 1 }))))

/-- 02 R33; 07 R174; 08 R204: a request that passes the checks becomes a transfer that has captured its tile descriptor, its two entries, FPC and FMT, and its base.
08 R206, R208: `tstage` advances STAGE and issues the schedule's entries up to it; a stage past 65535 raises COPY_SCHEDULE. -/
def Obligations.CopyCaptureAndStages : Prop :=
  (∀ (m : Machine) (c : Nat) (x : Ctx) (r : CopyReq) (t : Xfer), m.copyCheck c x r = .ok t →
     x.tDef.getLsbD r.d = true ∧ t.desc = (SMap.get 0 x.t r.d).toNat ∧ t.reg = r.d ∧ t.ch = r.ch ∧ t.kind = r.kind ∧ t.lay = r.lay ∧ t.base = r.base ∧
     t.fpc = x.fpc ∧ t.fmt = x.fmt ∧ t.started = false ∧ t.fault = none ∧ t.prog = 0 ∧ t.tEnt = x.entry (tdTid t.desc) ∧ entV t.tEnt = true ∧
     ((∀ up, r.kind ≠ .ttrans up) → t.mEnt = x.entry r.tid ∧ entV t.mEnt = true) ∧ (m.core (coreOf c)).tileOk t.desc = true) ∧
  (∀ (s : State) (b : Src), s.going →
     let n := (s.x.cr 0x24).toNat + (s.x.src b).toNat
     (65535 < n → exec (.tstage b) s = .next (s.trapped { code := 0x23, i0 := n })) ∧
     (n ≤ 65535 → s.x.src b = 0 → exec (.tstage b) s = .next s) ∧
     (n ≤ 65535 → s.x.src b ≠ 0 →
       let stage (g : Nat) : Bool := g ≤ n && (decide ((s.x.cr 0x24).toNat < g) || (g == 0 && s.x.stageZeroDue))
       let moved (m : Machine) : State := s.withM { (m.onCtx s.c fun x => x.setCr 0x24 (.ofNat 64 n)) with bun := { m.bun with stage0 := true } }
       let todo := s.x.sched.zipIdx.filter fun p => stage (schedStg p.1)
       let form (p : Nat × Nat) : Bool := schedOk (if p.2 = 0 then 0 else schedStg (s.x.sched.getD (p.2 - 1) 0)) p.1
       (todo = [] → exec (.tstage b) s = .next (moved s.m)) ∧
       (∀ p rest, todo = p :: rest → (form p = false ∨ ∃ k, s.start.copyCheck s.c s.x (schedReq s.x p.2 p.1) = .error (.trap k)) →
         exec (.tstage b) s = .next (s.trapped { code := 0x23, i0 := p.2 })) ∧
       (∀ p t m, todo = [p] → form p = true → s.start.copyCheck s.c s.x (schedReq s.x p.2 p.1) = .ok t → Machine.issueXfer s.start s.m s.c t = .ok m →
         exec (.tstage b) s = .next (moved m)) ∧
       (∀ m, Machine.runSchedule s.start s.m s.c s.x stage = .ok m → exec (.tstage b) s = .next (moved m))))

/-- 19 R389-R393; 21 R416: connections. `tsend.open` takes a valid, closed entry of its queue and clears its counts and slots; `tsend` and `trecv` on an open connection queue a message with
the entry's next number, and where no route leads to the peer its LINK_DOWN; `tsend.close` closes both sides when nothing is unfinished. What is missing raises CONNECTION with its sub-code. -/
def Obligations.Messages : Prop :=
  ∀ (s : State) (r : BitVec 4), s.going →
    (∀ a : Src,
      let i := (s.x.src a).toNat
      let w := s.m.connWord i
      (∀ e, s.x.connOf r.toNat = some e → exec (.tsendOpen a r) s = .next (s.trapped { code := 0x29, i0 := some 4, i1 := r.toNat })) ∧
      (s.x.connOf r.toNat = none → nconn s.m ≤ i → exec (.tsendOpen a r) s = .next (s.trapped { code := 0x29, i0 := some 3, i1 := r.toNat })) ∧
      (s.x.connOf r.toNat = none → i < nconn s.m → bit w 63 = true → connOpen w = false → s.x.ownsQueue (bits w 32 8) = true →
        exec (.tsendOpen a r) s = .next (s.withM (((((s.m.setWord (connKey s.m i) (setBits w 61 2 2)).setNat (connKey s.m i + 48) 16 0).setNat
          (connKey s.m i + 64) 192 0)).onCtx s.c fun x => x.setConn r.toNat (some i))))) ∧
    (s.x.connOf r.toNat = none → exec (.tsendClose r) s = .next (s.trapped { code := 0x29, i0 := some 1, i1 := r.toNat }) ∧
      ∀ d a, exec (.tsend d a r) s = .next (s.trapped { code := 0x29, i0 := some 1, i1 := r.toNat }) ∧ exec (.trecv d a r) s = .next (s.trapped { code := 0x29, i0 := some 1, i1 := r.toNat })) ∧
    (∀ i, s.x.connOf r.toNat = some i →
      (s.x.connBusy r.toNat = true → exec (.tsendClose r) s = .next (s.heldBy (.conn r.toNat))) ∧
      (s.x.connBusy r.toNat = false → s.cur.connOf r.toNat = some i →
        exec (.tsendClose r) s = .next (s.withM ((s.m.setWord (connKey s.m i) (setBits (s.m.connWord i) 61 2 0)).onCtx s.c fun x => x.setConn r.toNat none))) ∧
      (connBrk (s.m.connWord i) = true → ∀ d a, exec (.tsend d a r) s = .next (s.trapped { code := 0x29, i0 := some 2, i1 := r.toNat }) ∧
        exec (.trecv d a r) s = .next (s.trapped { code := 0x29, i0 := some 2, i1 := r.toNat })) ∧
      (connBrk (s.m.connWord i) = false → bit s.m.limits (1536 + connPeer (s.m.connWord i)) = true → ∀ (d a : Reg) t, s.x.sreg a = 0 →
        s.x.captureTile d.toNat false = .ok t → s.k.tileOk t.desc = true →
        let queued (send : Bool) (num : Nat) : State :=
          let slot := num % 4 + if send then 0 else 4
          let msg : Msg := { send, cn := r.toNat, ent := i, num, tile := t, pc := s.m.bun.pc.toNat, ti := s.x.ti, seq := s.cur.opSeq, slot }
          let m := (s.m.setNat (connKey s.m i + slotOff slot) 24 t.desc).onCtx s.c fun x => { x with msgs := x.msgs ++ [msg], opSeq := x.opSeq + 1 }
          s.withM (if routes m (connPeer (s.m.connWord i)) = [] then m.lostRoute s.c (.route (connPeer (s.m.connWord i))) else m)
        let mine (send : Bool) : Nat := (s.x.msgs.filter fun t => t.ent == i && t.send == send && t.fault.isNone).length
        (mine true < 4 → s.start.classCount s.c 5 < 65535 → s.start.pendingWrite s.c d.toNat = false →
          exec (.tsend d a r) s = .next (queued true (s.m.word (connKey s.m i + 48) + mine true))) ∧
        (mine false < 4 → s.start.classCount s.c 6 < 65535 → s.start.pendingRead s.c d.toNat = false → s.start.pendingWrite s.c d.toNat = false →
          exec (.trecv d a r) s = .next (queued false (s.m.word (connKey s.m i + 56) + mine false)))))

/-- 20 R405, R406: a fire of a legal, open entry that has not fired in this generation marks it fired and queues the copy of its tile; an illegal instance or entry raises COLL_TABLE with its
sub-code; the open form opens the next generation of a closed instance, which closes at once where nothing is to be fired or delivered (R403), and waits for an open one. -/
def Obligations.Fires : Prop :=
  ∀ (s : State) (d a : Reg) (b : Src), s.going →
    let n := (s.x.sreg a).toNat
    let i := (s.x.src b).toNat
    let r := collRec s.m n
    let t := collEnt s.m r i
    let valid := n < 1024 ∧ dirOk (dirWord s.m n) = true
    (¬ valid → exec (.tfire d a b) s = .next (s.trapped { code := 0x2C, i0 := some 1, i1 := n, i2 := i }) ∧
      exec (.tfireOpen a) s = .next (s.trapped { code := 0x2C, i0 := some 1, i1 := n, i2 := some 0 })) ∧
    (valid → recOk s.m r = true → s.x.ownsQueue (crOwnq r) = true →
      (∀ x, i < crNent r → entryOk s.m r t = true → s.x.captureTile d.toNat false = .ok x → s.k.tileOk x.desc = true →
        ceOpr t ≠ 4 → tdRows x.desc * tdRowb x.desc = ceLen t → crOpen r = true → ceFired t < crGen r → (ceOpr t ≠ 0 ∨ ceSrc t = crRank r) → ceSob t = 0 →
        s.start.classCount s.c 5 < 65535 → s.start.pendingWrite s.c d.toNat = false →
        let m := s.m.setNat (entKey r i) 64 (setBits t 128 64 (crGen r))
        let job : Xfer := { ch := 4, id := 0, kind := .fire n i, reg := d.toNat, lay := 0, desc := x.desc, mEnt := 0, tEnt := 0, base := ceCaddr t, aux := crGen r,
                            pc := s.m.bun.pc.toNat, ti := s.x.ti, seq := s.x.opSeq }
        exec (.tfire d a b) s = .next (s.withM (m.onCtx s.c fun y => { y with xfers := y.xfers ++ [job], opSeq := y.opSeq + 1 }))) ∧
      ((∃ j < crNent r, mustFire r (collEnt s.m r j) = true ∧ ceFired (collEnt s.m r j) ≠ crGen r) →
        exec (.tfireOpen a) s = .next (s.trapped { code := 0x2C, i0 := some 7, i1 := n, i2 := some 0 })) ∧
      ((∀ j < crNent r, mustFire r (collEnt s.m r j) = true → ceFired (collEnt s.m r j) = crGen r) →
        (crOpen r = true → exec (.tfireOpen a) s = .next (s.heldBy (.closed n))) ∧
        (crOpen r = false →
          let m := s.m.setNat (recKey s.m n) 64 (setBits (setBits r 320 64 (crGen r + 1)) 264 2 1)
          (∀ j < crNent (collRec m n), ceSh (collEnt m (collRec m n) j) = false) →
          exec (.tfireOpen a) s = .next (s.withM (m.tryClose n)))))

/-- 18 R368-R370, R377: `kvmap` on a legal root, with its request word and position in range and every block of the range mapped, queues its operation, and `attn` queues its own with the tables
as it read them; the illegal FN bit and a root that breaks its alignment are refused.
Which cause a corner of the request raises is in part the model's choice (notes/assumptions/35.md, 55.md). -/
def Obligations.KvIssue : Prop :=
  ∀ (s : State) (d a c : Reg) (b : Src), s.going →
    let kroot := (s.x.sreg a).toNat
    let w := (s.x.sreg c).toNat
    let pos := (s.x.src b).toNat
    let lg := bits w 10 6
    let req (op : KvOp) : KvOp :=
      { op with kroot, lg, layer := bits w 6 4, head := bits w 0 6, vals := bit w 16, pos, fpc := s.x.fpc, fmt := s.x.fmt, pc := s.m.bun.pc.toNat, ti := s.x.ti }
    let joined (m : Machine) (op : KvOp) : State := s.withM (m.onCtx s.c fun x => { x with kvops := x.kvops ++ [{ op with seq := x.opSeq }], opSeq := x.opSeq + 1 })
    (∀ tt, exec (.kvmap d a b c true tt) s = .next (s.trapped { code := 0x2F, i0 := some 6, i1 := kroot })) ∧
    (kroot % 2048 ≠ 0 → (∀ t, s.x.captureTile d.toNat true = .ok t → ∀ tt, exec (.kvmap d a b c false tt) s = .next (s.trapped { code := 0x0A, i0 := kroot })) ∧
      exec (.kvmapPro a b c) s = .next (s.trapped { code := 0x0A, i0 := kroot }) ∧ ∀ tt, exec (.kvmapDem a b c tt) s = .next (s.trapped { code := 0x0A, i0 := kroot })) ∧
    (kroot % 2048 = 0 → ∀ src m r leaves (tt : BitVec 2), s.x.captureTile d.toNat true = .ok src →
      s.m.kvTables s.c kroot lg (fun r => if tdRows src.desc = 0 then 0 else pos / rootB r) (fun r => if tdRows src.desc = 0 then 0 else ceilDiv (pos + tdRows src.desc) (rootB r)) = .ok (m, r, leaves) →
      kvRootCheck m kroot r lg (bits w 6 4) (bits w 0 6) = .ok () → pos + tdRows src.desc ≤ rootNlb r * rootB r →
      kvTileOk s.k s.x { src with desc := setBits src.desc 96 16 (min 32 (tdRows src.desc)) } 5 (rootD r) = true → bits w 17 23 = 0 → bits w 40 24 = 0 →
      (tdRows src.desc ≠ 0 → ∀ e ∈ leaves.drop (pos / rootB r), leafMapped e = true) → s.start.pendingWrite s.c d.toNat = false → (m.ctx s.c).kvops.length < 65535 →
      exec (.kvmap d a b c false tt) s = .next (joined m (req { kind := .write, src, kroot, lg, root := r, leaves, len := tdRows src.desc }))) ∧
    (kroot % 2048 = 0 → ∀ m r leaves (tt : BitVec 2), let len := bits w 40 24
      s.m.kvTables s.c kroot lg (fun r => if len = 0 then 0 else pos / rootB r) (fun r => if len = 0 then 0 else ceilDiv (pos + len) (rootB r)) = .ok (m, r, leaves) → kvRootCheck m kroot r lg (bits w 6 4) (bits w 0 6) = .ok () →
      pos + len ≤ rootNlb r * rootB r → bits w 17 23 = 0 → bit w 16 = false → bits w 6 4 = 0 → bits w 0 6 = 0 →
      (len ≠ 0 → ∀ e ∈ leaves.drop (pos / rootB r), leafMapped e = true) → (m.ctx s.c).kvops.length < 65535 →
      exec (.kvmapPro a b c) s = .next (joined m (req { kind := .promote, kroot, lg, root := r, leaves, len })) ∧
      exec (.kvmapDem a b c tt) s = .next (joined m (req { kind := .demote, kroot, lg, root := r, leaves, len, tier := tt.toNat }))) ∧
    ((s.x.sreg c).toNat % 256 ≠ 0 → ∀ dst src, s.x.captureTile d.toNat true = .ok dst → s.x.captureTile a.toNat true = .ok src → ∀ rm nm,
      exec (.attn d a c rm nm) s = .next (s.trapped { code := 0x0A, i0 := (s.x.sreg c).toNat })) ∧
    (let area := (s.x.sreg c).toNat
     area % 256 = 0 → ∀ dst src m1 p m2 r leaves m3 (rm : BitVec 3) nm, s.x.captureTile d.toNat true = .ok dst → s.x.captureTile a.toNat true = .ok src →
      s.m.access (coreOf s.c) area 1 .store = .ok (m1, p) → ((m1.core (coreOf s.c)).path.any fun e => overlaps e.key e.bytes.length p.key 256) = false →
      let hd := leNat (m1.stagedOver s.c p.key (m1.bytes p.key 256))
      let root := bits hd 0 64
      let q := bits hd 64 64
      let len := bits q 40 24
      root % 2048 = 0 → m1.kvTables s.c root (bits q 10 6) (fun _ => 0) (fun r => ceilDiv len (rootB r)) = .ok (m2, r, leaves) →
      let pages := pagesOf area (256 + 17 * slotBytes (tdRows src.desc) (rootD r))
      pages.foldlM (fun (m : Machine) pg => (m.access (coreOf s.c) (max area (pg * 4096)) 1 .store).map (·.1)) m2 = .ok m3 →
      (∀ pg ∈ pages, (m3.pinned (coreOf s.c) (max area (pg * 4096))).isSome = true) → kvRootCheck m3 root r (bits q 10 6) (bits q 6 4) (bits q 0 6) = .ok () →
      ceilDiv len (rootB r) ≤ rootNlb r → kvTileOk s.k s.x src 3 (rootD r) = true → kvTileOk s.k s.x dst 3 (rootD r) = true → tdRows src.desc = tdRows dst.desc →
      bits hd 240 1808 = 0 → bits hd 216 8 = 0 → (∀ e ∈ leaves, leafMapped e = true) →
      let m4 := m3.setNat (p.key + 24) 6 0
      s.start.pendingWrite s.c a.toNat = false → s.start.pendingRead s.c d.toNat = false → s.start.pendingWrite s.c d.toNat = false → (m4.ctx s.c).kvops.length < 65535 →
      let op : KvOp := { kind := .attn, src, dst, area, kroot := root, lg := bits q 10 6, root := r, leaves, layer := bits q 6 4, head := bits q 0 6, pos := bits q 16 24, len,
                         scale := bits hd 128 64, noMask := nm, rm := if rm = 7 then bits s.x.fpc.toNat 0 3 else rm.toNat, fpc := s.x.fpc, fmt := s.x.fmt,
                         pc := s.m.bun.pc.toNat, ti := s.x.ti }
      exec (.attn d a c rm nm) s = .next (joined m4 op))

/-! ### Results landing, taking a cause, returning -/

/-- 03 R65, R67: at the end of its last bundle a scalar result without flags is what its register reads, but s0 reads zero, and every register that no due result names reads as before;
a result with bundles still to go changes no register.
02 R34: a result lands with its flags ORed into FPC.FLG; with an enabled flag its destination is not written, and FP_ENABLED_EXCEPTION is left for the bundle's end. -/
def Obligations.ResultsLand : Prop :=
  (∀ (x : Ctx) (p : Pend), SMap.rising x.s = true → SMap.rising x.mask = true → x.pend = [] → p.fl = 0 →
     (∀ (d : Reg) (v : Word), p.file = .s → p.off = 1 → p.writes = [(d.toNat, v.toNat)] →
       ({ x with pend := [p] } : Ctx).endBundle.sreg d = (if d = 0 then 0 else v) ∧ ∀ r, r ≠ d → ({ x with pend := [p] } : Ctx).endBundle.sreg r = x.sreg r) ∧
     (∀ (d g : Nat) (b : Bool), p.file = .m → p.off = 1 → g < 128 → p.writes = [(128 * d + g, if b then 1 else 0)] →
       ({ x with pend := [p] } : Ctx).endBundle.mbit d g = (if d = 0 then true else b)) ∧
     (1 < p.off → ({ x with pend := [p] } : Ctx).endBundle.pend = [{ p with off := p.off - 1 }] ∧ ∀ r, ({ x with pend := [p] } : Ctx).endBundle.sreg r = x.sreg r)) ∧
  (∀ (x : Ctx) (p : Pend), SMap.rising x.csr = true → p.fl < 32 →
     (x.land p).cr 0x01 = (x.cr 0x01 ||| .ofNat 64 (p.fl * 2 ^ 16)) ∧
     (p.fl &&& p.en ≠ 0 → (x.land p).s = x.s ∧ (x.land p).v = x.v ∧ (x.land p).mask = x.mask ∧ (x.land p).q = x.q) ∧
     (x.pend = [] → p.off = 1 → x.depth = 0 → p.fl &&& p.en ≠ 0 →
       ({ x with pend := [p] } : Ctx).endBundle.after = x.after ++ [{ code := 0x1D, kind := 1, i0 := p.fl, i1 := p.pc.toNat }]) ∧
     (p.fl &&& p.en = 0 → enabledCause [p] = []))

/-- 10 R245, R249, R253: taking a cause writes the frame below SVCSTACK in pinned pages, sets the trap registers and SVCSTACK, goes one service level deeper and to SVCBASE, and leaves the
registers as they are; the issuing PC of each result in flight is kept for the return (02 R34); what the TLBs held for a refused address leaves them (16 R331); a ninth level, a stack that is not 128-byte aligned, or a page that is not pinned kills the context.
10 R249, R250: the frame's words: TRAPCAUSE, the PC at which the cause is delivered, the four TRAPINFOs (each what the cause gives; one that it does not give is a free value, the model's choice of notes/assumptions/33.md), the frame's size, and s1 at byte 0x88 up to s63; without exposed results it is 0x280 bytes. -/
def Obligations.TakingACause : Prop :=
  (∀ (m : Machine) (c : Nat) (k : Cause) (pc : Word),
     let m0 := (m.discard (coreOf c) k).onCore (coreOf c) fun q => { q with wants := q.wants.filter (fun p => p.1 != c), cxlBad := q.cxlBad && k.code != 0x31 }
     let x := (m.ctx c).landInterlocks
     let stack := (x.cr 0x17).toNat
     let size := roundUp (0x280 + (x.pend.map fun p => (replayEntry p).length).sum) 128
     let base := wrap 64 ((stack : Int) - size)
     let info := m0.trapInfo k
     let frame := { m0 with fresh := m0.fresh + 4 }.writePinned (coreOf c) base (frameBytes x k.word info pc.toNat size) 40
     ((8 ≤ x.depth ∨ stack % 128 ≠ 0 ∨ frame = none) → m.takeCause c k pc = m0.setCtx c x.kill ∧ x.kill.st = .retired ∧ x.kill.killed = true) ∧
     (∀ m', x.depth < 8 → stack % 128 = 0 → frame = some m' → SMap.rising x.csr = true →
       ∃ y, m.takeCause c k pc = m'.setCtx c y ∧ y.pc = x.cr 0x16 ∧ y.st = .inService ∧ y.depth = x.depth + 1 ∧ y.pend = [] ∧ y.hold = none ∧ y.stepArmed = x.stepArmed ∧
         y.frames = (sortPend x.pend).map (·.pc) :: x.frames ∧ y.lq = x.lq.map LqEntry.saved ∧
         y.cr 0x10 = .ofNat 64 k.word ∧ y.cr 0x15 = pc ∧ (∀ j, j < 4 → y.cr (0x11 + j) = .ofNat 64 (info.getD j 0)) ∧
         y.cr 0x17 = .ofNat 64 base ∧ (∀ n, n ∉ [0x10, 0x11, 0x12, 0x13, 0x14, 0x15, 0x17] → y.cr n = x.cr n) ∧
         y.s = x.s ∧ y.v = x.v ∧ y.mask = x.mask ∧ y.q = x.q ∧ y.acc = x.acc ∧ y.t = x.t ∧ y.cap = x.cap ∧ y.konst = x.konst ∧ y.tc = x.tc)) ∧
  (∀ (m : Machine) (k : Cause), (m.trapInfo k).length = 4 ∧
     ∀ v : Nat, (k.i0 = some v → (m.trapInfo k).getD 0 0 = v) ∧ (k.i1 = some v → (m.trapInfo k).getD 1 0 = v) ∧ (k.i2 = some v → (m.trapInfo k).getD 2 0 = v) ∧ (k.i3 = some v → (m.trapInfo k).getD 3 0 = v)) ∧
  (∀ (x : Ctx) (cause : Nat) (info : List Nat) (pc size : Nat), info.length = 4 →
     let bs := frameBytes x cause info pc size
     let w (o : Nat) : Nat := leNat ((bs.drop o).take 8)
     (x.pend = [] → bs.length = 0x280) ∧
     w 0x00 = cause % 2 ^ 64 ∧ w 0x08 = pc % 2 ^ 64 ∧ (∀ j, j < 4 → w (0x10 + 8 * j) = info.getD j 0 % 2 ^ 64) ∧
     w 0x30 = size % 2 ^ 64 ∧ w 0x80 = (x.cr 0x17).toNat ∧ ∀ i : Reg, i ≠ 0 → w (0x80 + 8 * i.toNat) = (x.sreg i).toNat)

/-- 10 R252, R253: `rts` with a legal frame and no replay entries, back to task code: the scalar registers, SVCSTACK and the depth come from the frame, the next bundle from TRAPPC, and what waits for the
return starts again; a frame whose bytes, replay entries included, are not pinned kills the context, and one that breaks STATE's form raises RESERVED_FIELD with the lowest offset.
That interlocked results land before the scalars are loaded is the model's choice (notes/assumptions/13.md). -/
def Obligations.ReturnFromService : Prop :=
  ∀ (s : State), s.going →
    let frame := (s.x.cr 0x17).toNat
    (s.m.readPinned (coreOf s.c) frame 0x280 2 = none → exec .rts s = .next (s.withM (s.m.onCtx s.c Ctx.kill))) ∧
    (∀ rec, s.m.readPinned (coreOf s.c) frame 0x280 2 = some rec →
      let w (o : Nat) : Nat := leNat ((rec.drop o).take 8)
      let st := w 0x38
      let entries := readEntries s.m (coreOf s.c) frame (bits st 32 8) 0x280 (s.cur.frames.headD [])
      (entries = none → exec .rts s = .next (s.withM (s.m.onCtx s.c Ctx.kill))) ∧
      (∀ o r, entries = some r → (stateBad st).min? = some o → exec .rts s = .next (s.trapped { code := 0x03, i0 := o })) ∧
      (stateBad st = [] → bits st 32 8 = 0 → bit st 0 = true →
        let x := s.cur.landInterlocks.restart
        let y : Ctx := { x with s := SMap.setAll 0 [] ((List.range 63).map fun i => (i + 1, .ofNat 64 (w (0x88 + 8 * i)))), pend := [], depth := x.depth - 1, stepArmed := bit st 3, frames := x.frames.tail }
        let z : Ctx := { y.setCr 0x17 (.ofNat 64 (w 0x80)) with st := if bit st 2 then .retired else if x.depth - 1 = 0 then .running else .inService }
        exec .rts s = .next (s.withM (({ s.m with bun := { s.m.bun with next := some (s.x.cr 0x15), quiet := true } }.setCtx s.c z).requeue s.c))))

/-! ### Bytecode -/

/-- 12 R277, R288: the shape and control operators with their unused fields zero. `nop` has no effect; `dset` and `dop` write a shape register, with a zero divisor a SHAPE_FAULT; `br`, `brc` and `call` go to
this + 16 × IMM if that lies in the code section; `ret` pops; `end` ends the walk; `notify` waits for every launch, then raises INTERRUPT on Rianami's context; $d0 reads zero and takes no write (R276).
12 R276, R288, R290: the control operators that name a handle. `dext` reads an extent; `dld` an INT64 element, once no launch writes A; `hbind` gives D the BASE that $dA holds, once no launch reads or
writes D. That `hbind` also ends the taking of BASE from ARGS is the model's choice (notes/assumptions/52.md). -/
def Obligations.GraphControl : Prop :=
  (∀ (s : State) (q : Nat) (w : Walk) (op : BitVec 8) (d a b : BitVec 6) (v : Word), s.graphAt q w →
     let goes (o : Instr) (w' : Walk) : Prop := exec o s = .next (s.graphDone q s.m w')
     let fails (o : Instr) (k : Nat) : Prop := exec o s = .next (s.graphFails q w k)
     let to_ : Int := w.pos + 16 * v.toInt
     let inCode : Prop := 0 ≤ to_ ∧ to_ < w.clen
     (∀ ln, goes (.lbNop { op, md := 0, ln, d := 0, a := 0, b := 0, c := 0, imm := 0 }) w.step) ∧
     goes (.lbDset { op, md := 0, ln := 0, d := dregField d, a := 0, b := 0, c := 0, imm := v }) (w.step.setReg d.toNat v) ∧
     (∀ (fn : BitVec 3) (lit : Bool),
       let i : Instr := .lbDop { op, md := (if lit then 8 else 0) ||| fn.zeroExtend 6, ln := 0, d := dregField d, a := dregField a, b := if lit then 0 else dregField b, c := 0, imm := if lit then v else 0 }
       (fn = 7 → fails i 0x03) ∧
       (fn ≠ 7 → ∀ r, dopMeans fn (w.reg a.toNat).toInt (if lit then v else w.reg b.toNat).toInt = some r → goes i (w.step.setReg d.toNat (.ofInt 64 r))) ∧
       (fn ≠ 7 → dopMeans fn (w.reg a.toNat).toInt (if lit then v else w.reg b.toNat).toInt = none → fails i 0x3A)) ∧
     (let i : Instr := .lbBr { op, md := 0, ln := 0, d := 0, a := 0, b := 0, c := 0, imm := v }
      (inCode → goes i { w with pos := to_.toNat }) ∧ (¬ inCode → fails i 0x3A)) ∧
     (∀ c : BitVec 3,
       let i : Instr := .lbBrc { op, md := c.zeroExtend 6, ln := 0, d := 0, a := dregField a, b := dregField b, c := 0, imm := v }
       let holds := condMeans (condOf c.toNat) (w.reg a.toNat) (w.reg b.toNat)
       (holds → inCode → goes i { w with pos := to_.toNat }) ∧ (holds → ¬ inCode → fails i 0x3A) ∧ (¬ holds → goes i w.step)) ∧
     (let i : Instr := .lbCall { op, md := 0, ln := 0, d := 0, a := 0, b := 0, c := 0, imm := v }
      (inCode → w.stack.length < 16 → goes i { w with pos := to_.toNat, stack := (w.pos + 16) :: w.stack }) ∧ (¬ (inCode ∧ w.stack.length < 16) → fails i 0x3A)) ∧
     (let i : Instr := .lbRet { op, md := 0, ln := 0, d := 0, a := 0, b := 0, c := 0, imm := 0 }
      (w.stack = [] → fails i 0x3A) ∧ ∀ t ts, w.stack = t :: ts → (t < w.clen → goes i { w with pos := t, stack := ts }) ∧ (w.clen ≤ t → fails i 0x3A)) ∧
     goes (.lbEnd { op, md := 0, ln := 0, d := 0, a := 0, b := 0, c := 0, imm := 0 }) { w with ended := true } ∧
     (let i : Instr := .lbNotify { op, md := 0, ln := 0, d := 0, a := 0, b := 0, c := 0, imm := v }
      (s.m.liveLaunches q = [] → exec i s = .next (s.graphDone q (s.m.irq (0x200 + q) v.toNat) w.step)) ∧ (s.m.liveLaunches q ≠ [] → exec i s = .next (s.graphAgain s.m))) ∧
     (w.setReg 0 v = w ∧ w.reg 0 = 0 ∧ (d ≠ 0 → SMap.rising w.dreg = true → (w.setReg d.toNat v).reg d.toNat = v))) ∧
  (∀ (s : State) (q : Nat) (w : Walk) (op : BitVec 8) (h : BitVec 12) (r : BitVec 6) (t : Tensor) (key dsc : Nat), s.graphAt q w →
     (∀ ax : BitVec 3, s.m.descOf q w h.toNat = .ok (key, dsc) →
       let i : Instr := .lbDext { op, md := 0, ln := 0, d := dregField r, a := h, b := 0, c := 0, imm := ax.zeroExtend 64 }
       let f := hExt dsc ax.toNat
       let n : Int := if bit f 15 then (w.reg (f % 64)).toInt else f
       (ax.toNat < hRank dsc → 1 ≤ n → n < 2 ^ 24 → exec i s = .next (s.graphDone q s.m (w.step.setReg r.toNat (.ofNat 64 n.toNat)))) ∧
       ((hRank dsc ≤ ax.toNat ∨ n < 1 ∨ 2 ^ 24 ≤ n) → exec i s = .next (s.graphFails q w 0x3A))) ∧
     (∀ v : Word, s.m.plain q w h.toNat = .ok t →
       let i : Instr := .lbDld { op, md := 0, ln := 0, d := dregField r, a := h, b := 0, c := 0, imm := v }
       (t.fmt ≠ 6 → exec i s = .next (s.graphFails q w 0x39)) ∧
       (t.fmt = 6 → t.count ≤ v.toNat → exec i s = .next (s.graphFails q w 0x3A)) ∧
       (t.fmt = 6 → v.toNat < t.count → (s.m.rootWritten t.root = true ∨ s.m.lastCommitted t.root = false) → exec i s = .next (s.graphAgain s.m)) ∧
       (t.fmt = 6 → v.toNat < t.count → s.m.rootWritten t.root = false → s.m.lastCommitted t.root = true → ∀ xs, s.m.readCodes q t = .ok xs →
         exec i s = .next (s.graphDone q s.m (w.step.setReg r.toNat (.ofNat 64 (xs.getD v.toNat 0)))))) ∧
     (s.m.descOf q w h.toNat = .ok (key, dsc) →
       let i : Instr := .lbHbind { op, md := 0, ln := 0, d := h, a := dregField r, b := 0, c := 0, imm := 0 }
       let v := w.reg r.toNat
       let root := rootKey q key dsc
       (v.toNat % baseAlign dsc ≠ 0 → exec i s = .next (s.graphFails q w 0x39)) ∧
       (v.toNat % baseAlign dsc = 0 → (s.m.rootWritten root = true ∨ s.m.rootRead root = true) → exec i s = .next (s.graphAgain s.m)) ∧
       (v.toNat % baseAlign dsc = 0 → s.m.rootWritten root = false → s.m.rootRead root = false → ∃ e : BitVec 512,
         exec i s = .next (s.graphDone q (s.m.setHandle key { s.m.handle key with desc := e }) w.step) ∧ hBase e.toNat = v.toNat ∧ hArg e.toNat = 0xFF ∧
         hFmt e.toNat = hFmt dsc ∧ hExt e.toNat 0 = hExt dsc 0)))

/-- 12 R277, R280, R288: what fails every operator of a kind: a lane attribute on a control operator and a field that the operator does not use are RESERVED_FIELD, a number that names no declared handle is
HANDLE_FAULT, and an operator that follows a fused producer without being its consumer is MICROCODE_FAULT at the producer's offset (13 R300).
The cause of a lane attribute or unused field, and that any other operator after a producer fails it, are the model's choices (notes/assumptions/60.md, 61.md). -/
def Obligations.GraphFailures : Prop :=
  ∀ (s : State) (q : Nat) (w : Walk) (o : LbOp), s.turn = .graph q → s.m.walkOf q = some w →
    let fails (i : Instr) (k : Nat) : Prop := exec i s = .next (s.graphFails q w k)
    (s.m.parkedOf q = none → o.ln ≠ 0 →
      ∀ f ∈ [Instr.lbDset, .lbDop, .lbDext, .lbDld, .lbBr, .lbBrc, .lbCall, .lbRet, .lbEnd, .lbHbind, .lbNotify], fails (f o) 0x03) ∧
    (s.m.parkedOf q = none → o.c ≠ 0 →
      ∀ f ∈ [Instr.lbNop, .lbDset, .lbDop, .lbDext, .lbDld, .lbBr, .lbBrc, .lbCall, .lbRet, .lbEnd, .lbHbind, .lbNotify, .lbCopy, .lbTranspose, .lbGather, .lbScatter, .lbView, .lbConcat, .lbFill, .lbRngsave,
        .lbRngfill, .lbCkptsave, .lbCkptload, .lbEwise, .lbUnary, .lbCast, .lbSoftmax, .lbRdrain, .lbAttn, .lbKvappend, .lbKvtrunc, .lbKvpromote, .lbAllreduce, .lbAllgather, .lbRscatter, .lbAlltoall, .lbBcast,
        .lbReshard], fails (f o) 0x03) ∧
    (s.m.parkedOf q = none → o.b = 0 → o.c = 0 → o.md = 0 → o.imm = 0 → (o.d = 0 ∨ (s.m.handle (handleKey q o.d.toNat)).declared = false) →
      ∀ f ∈ [Instr.lbCopy, .lbTranspose, .lbCkptsave, .lbCkptload, .lbUnary, .lbCast, .lbSoftmax], fails (f o) 0x39) ∧
    (∀ x, s.m.parkedOf q = some x →
      let breaks (i : Instr) : Prop := exec i s = .next { s with m := (s.m.dropParked q).failQueue q 0x38 x.fofs, turn := .none }
      (∀ f ∈ [Instr.lbNop, .lbDset, .lbBr, .lbEnd, .lbNotify, .lbRngset, .lbKvtrunc], breaks (f o)) ∧
      (s.m.builtinOf q o = none → ∀ f ∈ [Instr.lbMatmul, .lbEwise, .lbSoftmax, .lbAttn, .lbCopy, .lbFill, .lbCkptload, .lbAllreduce, .lbReshard], breaks (f o)))

/-- 12 R283, R287, R290; 11 R259: data movement is expanded by the words of its opcode's entry; without one it waits for the launches that its roots depend on, then moves codes: `copy` all of A,
`transpose` the element whose index along p_i is D's along i, `gather` the slices that B's indices name, with +0 and the invalid flag for an index outside A, and `concat` A and then B.
That an operator whose opcode has no entry has its whole effect at once is the model's choice (notes/assumptions/11.md). -/
def Obligations.GraphMoves : Prop :=
  ∀ (s : State) (q : Nat) (w : Walk) (o : LbOp) (d a b : Tensor), s.graphAt q w → o.c = 0 →
    let same (x y : Tensor) : Prop := x.fmt = y.fmt ∧ (y.fmt = 9 → hNf x.desc = hNf y.desc)
    let apart (x y : Tensor) : Prop := x.root ≠ y.root
    let ax := o.md.toNat % 8
    let moves (i : Instr) (srcs : List Tensor) (rds : List Tensor) (picks : PRes (List (Option (Nat × Nat)))) (fl : List (Option (Nat × Nat)) → Nat) : Prop :=
      s.runsWhole q w o i rds [d] (do
        let ps ← picks
        let r ← s.m.moveElems q d srcs ps
        .ok (r.1, r.2 ||| fl ps))
    s.m.target q w o.d.toNat = .ok d → s.m.plain q w o.a.toNat = .ok a →
    (o.b = 0 → o.md = 0 → o.imm = 0 → same a d → a.scaled = d.scaled → apart a d → d.ext = a.ext →
      s.runsWhole q w o (.lbCopy o) [a] [d] (do
        let xs ← s.m.readCodes q a
        let ss ← s.m.readScales q a
        s.m.writeCodes q d xs ss)) ∧
    (∀ ps : List Nat, o.b = 0 → o.md = 0 → o.imm.toNat < 2 ^ 24 → ps = (List.range a.ext.length).map (fun i => bits o.imm.toNat (3 * i) 3) → same a d → apart a d →
      (∀ p ∈ ps, p < a.ext.length) → ps.eraseDups.length = a.ext.length → d.ext = ps.map (a.ext.getD · 0) →
      moves (.lbTranspose o) [a] [a] (.ok ((List.range d.count).map fun e => some (0, linear a.ext ((List.range a.ext.length).map fun j => (coords d.ext e).getD (ps.idxOf j) 0)))) fun _ => 0) ∧
    (s.m.plain q w o.b.toNat = .ok b → (b.fmt = 6 ∨ b.fmt = 7) → b.ext.length = 1 → o.md.toNat < 8 → o.imm = 0 → same a d → apart a d → apart b d →
      sameBut ax d.ext a.ext = true → d.ext.getD ax 0 = b.count →
      moves (.lbGather o) [a] [a, b] ((s.m.readCodes q b).map fun bs => (List.range d.count).map fun e =>
          let i := (bs.map fun x => sgn b.width x).getD ((coords d.ext e).getD ax 0) 0
          if 0 ≤ i ∧ i < (a.ext.getD ax 0 : Int) then some (0, linear a.ext ((coords d.ext e).set ax i.toNat)) else none)
        fun ps => if ps.any Option.isNone then 16 else 0) ∧
    (s.m.plain q w o.b.toNat = .ok b → o.md.toNat < 8 → o.imm = 0 → same a d → same b d → apart a d → apart b d → sameBut ax d.ext a.ext = true → sameBut ax d.ext b.ext = true →
      d.ext.getD ax 0 = a.ext.getD ax 0 + b.ext.getD ax 0 →
      moves (.lbConcat o) [a, b] [a, b] (.ok ((List.range d.count).map fun e =>
        if (coords d.ext e).getD ax 0 < a.ext.getD ax 0 then some (0, linear a.ext (coords d.ext e)) else some (1, linear b.ext ((coords d.ext e).set ax ((coords d.ext e).getD ax 0 - a.ext.getD ax 0)))))
        fun _ => 0)

/-- 12 R280, R283, R286, R287, R290; 11 R259: `scatter` gives each element of D the last slice that names it, or with `.add` its sum with all of them, exact until it is rounded once, while an element that no slice names passes as it is, with the scale byte of its block; `fill` converts IMM once for all elements; `view` gives D a BASE and A's root;
`rngsave`, `rngset` and `rngfill` read and write the graph's RNG state; `ckptsave` writes a header with the digest before A's bytes, and `ckptload` restores them only if header and digest agree.
The place of the descriptor in the header, ARG after `view`, and an effect at once where the opcode has no entry, are the model's choice (notes/assumptions/11.md, 52.md, 53.md). -/
def Obligations.GraphState : Prop :=
  ∀ (s : State) (q : Nat) (w : Walk) (o : LbOp) (d a b : Tensor), s.graphAt q w → o.c = 0 →
    let same (x y : Tensor) : Prop := x.fmt = y.fmt ∧ (y.fmt = 9 → hNf x.desc = hNf y.desc)
    let apart (x y : Tensor) : Prop := x.root ≠ y.root
    let ax := o.md.toNat % 8
    let goes (i : Instr) (m : Machine) (w' : Walk) : Prop := exec i s = .next (s.graphDone q m w')
    (s.m.target q w o.d.toNat = .ok d → s.m.plain q w o.a.toNat = .ok a → s.m.plain q w o.b.toNat = .ok b → (b.fmt = 6 ∨ b.fmt = 7) → b.ext.length = 1 → o.imm = 0 → o.md.toNat < 16 → same a d →
      (apart a d ∨ a.key = d.key) → apart b d → sameBut ax d.ext a.ext = true → a.ext.getD ax 0 = b.count →
      (8 ≤ o.md.toNat → 5 < d.fmt → exec (.lbScatter o) s = .next (s.graphFails q w 0x39)) ∧
      (let ix (bs : List Nat) : List Int := bs.map fun x => sgn b.width x
       let out (bs : List Nat) : Nat := if (ix bs).any (fun i => i < 0 || (d.ext.getD ax 0 : Int) ≤ i) then 16 else 0
       let hits (bs : List Nat) (e : Nat) : List Nat :=
         ((List.range (ix bs).length).filter fun i => (ix bs).getD i 0 == ((coords d.ext e).getD ax 0 : Int)).map fun i => linear a.ext ((coords d.ext e).set ax i)
       let sum (bs : List Nat) (vd va : List RVal) (e : Nat) : RVal × Nat :=
         (hits bs e).foldl (fun (s : RVal × Nat) i => ((addVals .rne s.1 (va.getD i (.zero false, 0))).1, s.2 ||| (addVals .rne s.1 (va.getD i (.zero false, 0))).2)) (vd.getD e (.zero false, 0), 0)
       (o.md.toNat < 8 → s.runsWhole q w o (.lbScatter o) [a, b] [d] (do
          let bs ← s.m.readCodes q b
          let r ← s.m.moveElems q d [d, a] ((List.range d.count).map fun e => match (hits bs e).getLast? with
            | some i => some (1, i)
            | none => some (0, e))
          .ok (r.1, r.2 ||| out bs))) ∧
       (8 ≤ o.md.toNat → d.fmt ≤ 5 → s.runsWhole q w o (.lbScatter o) [a, b] [d] (do
          let bs ← s.m.readCodes q b
          let xs ← s.m.readElems q d
          let vd ← s.m.readVals q d
          let va ← s.m.readVals q a
          let r ← s.m.writeElems q d (xs.zipIdx.map fun p => if hits bs p.2 = [] then p.1 else .value (sum bs vd va p.2).1 (sum bs vd va p.2).2)
          .ok (r.1, r.2 ||| out bs))))) ∧
    (s.m.target q w o.d.toNat = .ok d → o.a = 0 → o.b = 0 → o.md = 0 → d.fmt ≤ 10 →
      (d.scaled = true → s.runsWhole q w o (.lbFill o) [] [d]
        (s.m.writeVals q {} d (List.replicate d.count (if isIntCode d.fmt then (Val.ofInt (sgn 64 o.imm.toNat), 0) else realOf64 o.imm.toNat, 0)))) ∧
      (d.scaled = false → (d.fmt = 10 → cb4Ordered d.cb = true) → s.runsWhole q w o (.lbFill o) [] [d]
        ((s.m.writeCodes q d (List.replicate d.count (fillElem d o.imm.toNat).1) []).map fun r => (r.1, (fillElem d o.imm.toNat).2)))) ∧
    (o.b = 0 → o.md = 0 → s.m.plain q w o.a.toNat = .ok a → s.m.resolve q w o.d.toNat = .ok d → s.m.resolve q w (if hRoot a.desc = 0 then o.a.toNat else hRoot a.desc) = .ok b → same a d →
      let base : Int := a.base + o.imm.toInt * a.width / 8
      hKind d.desc = 0 → o.imm.toInt * a.width % 8 = 0 → (b.base : Int) ≤ base → base * 8 + (d.count * d.width : Nat) ≤ ((8 * b.base + b.count * b.width : Nat) : Int) →
      ((s.m.rootWritten a.root = true ∨ s.m.lastCommitted a.root = false) → exec (.lbView o) s = .next (s.graphAgain s.m)) ∧
      (s.m.rootWritten a.root = false → s.m.lastCommitted a.root = true → ∃ h, goes (.lbView o) (s.m.setHandle d.key h) w.step ∧ hRoot h.desc.toNat = (if hRoot a.desc = 0 then o.a.toNat else hRoot a.desc) ∧ hBase h.desc.toNat = base.toNat % 2 ^ 64)) ∧
    (s.m.target q w o.d.toNat = .ok d → o.a = 0 → o.b = 0 → o.md = 0 → o.imm = 0 →
      (d.fmt = 6 → d.count = 2 → s.runsWhole q w o (.lbRngsave o) [] [d] (s.m.writeCodes q d [w.rngKey.toNat, w.rngCtr.toNat] [])) ∧
      (let draw (code e : Nat) : Nat := rngCode code w.rngKey.toNat ((w.rngCtr.toNat + e / 128) % 2 ^ 64) (e % 128)
       (d.fmt ≤ 10 → isIntCode d.fmt = false →
         s.runsWhole q w o (.lbRngfill o) [] [d] (s.m.writeVals q {} d ((List.range d.count).map fun e => (realOf64 (draw 0 e), 0))) (ceilDiv d.count 128)) ∧
       (d.fmt ≤ 10 → isIntCode d.fmt = true → s.runsWhole q w o (.lbRngfill o) [] [d]
         (s.m.writeVals q {} d ((List.range d.count).map fun e => saturated true d ((Val.ofInt (sgn 64 (draw 6 e)), 0), 0))) (ceilDiv d.count 128)))) ∧
    (o.d = 0 → o.b = 0 →
      (o.md = 1 → o.a = 0 → goes (.lbRngset o) s.m { w.step with rngCtr := o.imm }) ∧
      (o.md = 2 → o.a = 0 → goes (.lbRngset o) s.m { w.step with rngKey := o.imm, rngCtr := 0 }) ∧
      (3 ≤ o.md.toNat → exec (.lbRngset o) s = .next (s.graphFails q w 0x03)) ∧
      (o.md = 0 → o.imm = 0 → s.m.plain q w o.a.toNat = .ok a → a.fmt = 6 → a.count = 2 →
        ((s.m.rootWritten a.root = true ∨ s.m.lastCommitted a.root = false) → exec (.lbRngset o) s = .next (s.graphAgain s.m)) ∧
        (s.m.rootWritten a.root = false → s.m.lastCommitted a.root = true → ∀ key ctr, s.m.readCodes q a = .ok [key, ctr] → goes (.lbRngset o) s.m { w.step with rngKey := .ofNat 64 key, rngCtr := .ofNat 64 ctr }))) ∧
    (o.b = 0 → o.md = 0 → o.imm = 0 → s.m.target q w o.d.toNat = .ok d → s.m.plain q w o.a.toNat = .ok a → apart a d →
      (d.fmt = 8 → 64 + a.bytes ≤ d.count → s.runsWhole q w o (.lbCkptsave o) [a] [d] (do
        let bs ← s.m.tensorBytes q a
        s.m.putTensorBytes q d (leBytes 32 a.header ++ leBytes 32 (Config.sm3 bs) ++ bs))) ∧
      (a.fmt = 8 → 64 ≤ a.count → ∀ image, s.m.tensorBytes q a = .ok image →
        let h := leNat (image.take 32)
        let bs := (image.drop 64).take (d.imageBytes h)
        let whole : Prop := leNat ((image.drop 32).take 32) = Config.sm3 bs % 2 ^ 256 ∧ h = d.header ∧ bs.length = d.bytes
        (64 + d.imageBytes h ≤ a.count → whole → s.runsWhole q w o (.lbCkptload o) [a] [d] (s.m.putTensorBytes q d bs)) ∧
        (64 + d.imageBytes h ≤ a.count → ¬ whole → s.runsWhole q w o (.lbCkptload o) [a] [d] (.error 0x39)) ∧
        (a.count < 64 + d.imageBytes h → s.runsWhole q w o (.lbCkptload o) [a] [d] (.error 0x3A))))

/-- 12 R281, R287, R290; 11 R259: the elementwise operators, `cast`, `softmax` and `matmul` are expanded by the words of their opcodes' entries; without one they wait for the launches that their roots depend
on, then write each element of D as the rule's function of the sources' elements, rounded once under RM and SATF. That the whole effect comes about at once where the opcode has no entry is the model's choice
(notes/assumptions/11.md). -/
def Obligations.GraphCompute : Prop :=
  ∀ (s : State) (q : Nat) (w : Walk) (o : LbOp) (d a b : Tensor) (env : FEnv), s.graphAt q w → lbEnv o = .ok env → o.imm.toNat < 16 →
    s.m.target q w o.d.toNat = .ok d → s.m.plain q w o.a.toNat = .ok a →
    let apart (x y : Tensor) : Prop := x.root ≠ y.root
    let onto (x y : Tensor) : Prop := x.root ≠ y.root ∨ (x.key = y.key ∧ x.width = y.width)
    let agree (ts : List Tensor) : Prop := ∃ nf, agreeNf ts = .ok nf
    let z : RVal := (.zero false, 0)
    (o.c = 0 → s.m.plain q w o.b.toNat = .ok b → o.md.toNat ≤ 5 → d.fmt ≤ 9 → a.fmt ≤ 9 → b.fmt ≤ 9 → agree [d, a, b] → onto a d → (apart b d ∨ (b.key = d.key ∧ a.key = d.key ∧ a.width = d.width)) → d.ext = a.ext → broadcasts a.ext b.ext = true →
      s.runsWhole q w o (.lbEwise o) [a, b] [d] (do
        let xs ← s.m.readVals q a
        let ys ← s.m.readVals q b
        s.m.writeVals q env d (xs.zipIdx.map fun p =>
          saturated (a.ints && b.ints) d (ewiseVal o.md.toNat env.rm (isIntCode a.fmt && isIntCode b.fmt) p.1 (ys.getD (broadcastAt a.ext b.ext p.2) z))))) ∧
    (o.b = 0 → o.c = 0 → o.md.toNat ≤ 8 → d.fmt ≤ 9 → a.fmt ≤ 9 → agree [d, a] → onto a d → d.ext = a.ext →
      s.runsWhole q w o (.lbUnary o) [a] [d] (do
        let xs ← s.m.readVals q a
        s.m.writeVals q env d (xs.map fun x => saturated (a.ints && (o.md.toNat ≤ 1 || o.md.toNat == 8)) d (unaryVal o.md.toNat (isIntCode a.fmt) x)))) ∧
    (o.b = 0 → o.c = 0 → o.md = 0 → d.fmt ≤ 10 → a.fmt ≤ 10 → agree [d, a] → onto a d → d.ext = a.ext →
      ((a.scaled || d.scaled) = true → s.runsWhole q w o (.lbCast o) [a] [d] (do
        let xs ← s.m.readVals q a
        s.m.writeVals q env d (xs.map fun x => saturated a.ints d (x, 0)))) ∧
      ((a.scaled || d.scaled) = false → (d.fmt = 10 → cb4Ordered d.cb = true) → s.runsWhole q w o (.lbCast o) [a] [d] (do
        let xs ← s.m.readCodes q a
        let rs ← xs.mapM fun x => match convert env (if d.fmt = 9 then d.nf else a.nf) a.cb d.cb a.fmt d.fmt x with
          | some r => Except.ok r
          | none => Except.error 0x19
        let r ← s.m.writeCodes q d (rs.map (·.1)) []
        .ok (r.1, r.2 ||| orFlags rs)))) ∧
    (o.b = 0 → o.c = 0 → o.md.toNat < a.ext.length → o.md.toNat < 8 → d.fmt ≤ 5 → a.fmt ≤ 5 → apart a d → d.ext = a.ext →
      s.runsWhole q w o (.lbSoftmax o) [a] [d] (do
        let xs ← s.m.readVals q a
        s.m.writeVals q env d (fromLines a.ext o.md.toNat (z, 0) ((axisLines a.ext o.md.toNat).map fun l => softmaxLine (l.map ((codes64 xs).getD · (0, 0))))))) ∧
    (∀ c : Option Tensor, (c = none ∧ o.c = 0) ∨ (∃ t, c = some t ∧ o.c ≠ 0 ∧ s.m.plain q w o.c.toNat = .ok t) → s.m.plain q w o.b.toNat = .ok b → o.md.toNat < 4 →
      (∀ t ∈ [d, a, b] ++ c.toList, t.fmt ≤ 10) → Machine.pairOk a.fmt b.fmt = true → agree ([d, a, b] ++ c.toList) → apart a d → apart b d → (∀ t ∈ c.toList, apart t d ∧ t.ext = d.ext) →
      let ta := bit o.md.toNat 0
      let tb := bit o.md.toNat 1
      ∀ n k p g : Nat, a.ext.getD (if ta then 1 else 0) 1 = k → a.ext.getD (if ta then 0 else 1) 1 = p → b.ext.getD (if tb then 0 else 1) 1 = k → b.ext.getD (if tb then 1 else 0) 1 = n →
        (d.ext = [n, p] ∧ a.ext.length = 2 ∧ b.ext.length = 2 ∧ g = 1) ∨ (d.ext = [n, p, g] ∧ a.ext.length = 3 ∧ b.ext.length = 3 ∧ a.ext.getD 2 1 = g ∧ b.ext.getD 2 1 = g) →
      s.runsWhole q w o (.lbMatmul o) ([a, b] ++ c.toList) [d] (do
        let xs ← s.m.readVals q a
        let ys ← s.m.readVals q b
        let zs ← match c with
          | some t => (s.m.readVals q t).map codes64
          | none => Except.ok []
        s.m.writeVals q env d ((List.range (n * p * g)).map fun e =>
          let j := e % n
          let i := e / n % p
          let h := e / (n * p)
          let at_ (kk : Nat) : Val × Val :=
            ((xs.getD (h * k * p + if ta then kk * p + i else i * k + kk) z).1, (ys.getD (h * k * n + if tb then j * k + kk else kk * n + j) z).1)
          joinFlags (of64 (dotChunks (zs.getD e (0, 0)).1 (runsOf (pePer a.fmt) ((List.range k).map at_)))) (zs.getD e (0, 0)).2)))

/-- 12 R281, R282, R287, R290; 06 R156-R162; 11 R259: `rstats` gives each line of A the merge of the triples of its runs of 32, weighted by B and without the elements whose mask is zero; `rdrain` drains each
triple by its option, and fails with STAT_DOMAIN for a malformed one; `norm` drains each element of a line against the line's own triple, times B plus C, rounded once. An epsilon that the drain refuses fails
the operator.
Where the mask and the weights come from is in part the model's choice (notes/assumptions/59.md). -/
def Obligations.GraphStatistics : Prop :=
  ∀ (s : State) (q : Nat) (w : Walk) (o : LbOp) (d a : Tensor) (b c : Option Tensor), s.graphAt q w → s.m.target q w o.d.toNat = .ok d → s.m.plain q w o.a.toNat = .ok a →
    let named (t : Option Tensor) (n : Nat) : Prop := (t = none ∧ n = 0) ∨ ∃ u, t = some u ∧ n ≠ 0 ∧ s.m.plain q w n = .ok u
    let vals (t : Option Tensor) : PRes (List RVal) := match t with
      | some u => s.m.readVals q u
      | none => .ok []
    let ax := o.md.toNat % 8
    named b o.b.toNat → named c o.c.toNat →
    (o.md.toNat < 8 → o.imm = 0 → (∀ t ∈ a :: (b.toList ++ c.toList), t.fmt ≤ 9 ∧ t.root ≠ d.root ∧ t.ext = a.ext) → d.fmt = 11 → (∃ nf, agreeNf (a :: (b.toList ++ c.toList)) = .ok nf) →
      ax < a.ext.length → d.ext = a.ext.set ax 1 →
      s.runsWhole q w o (.lbRstats o) (a :: (b.toList ++ c.toList)) [d] (do
        let xs ← s.m.readVals q a
        let ws ← vals b
        let ms ← vals c
        let ts ← (axisLines a.ext ax).mapM fun l => statLine (l.map fun e =>
          { x := (codes64 xs).getD e (0, 0), w := ((codes64 ws).map some).getD e none, skip := (ms.map fun v => v.1.isZero).getD e false })
        let r ← s.m.writeCodes q d (ts.map fun t => t.1.toNat) []
        .ok (r.1, r.2 ||| ts.foldl (fun f t => f ||| t.2) 0))) ∧
    (∀ rm, lbRm (o.md.toNat / 8) = .ok rm → c = none → (b ≠ none ↔ ax = 7) → a.fmt = 11 → (∀ t ∈ d :: b.toList, t.fmt ≤ 5) → (∀ t ∈ a :: b.toList, t.root ≠ d.root ∧ t.ext = d.ext) →
      ((ax = 5 ∨ ax = 7) → badEps o.imm.toNat = true → exec (.lbRdrain o) s = .next (s.graphFails q w 0x1E)) ∧
      (((ax = 5 ∨ ax = 7) → badEps o.imm.toNat = false) → s.runsWhole q w o (.lbRdrain o) (a :: b.toList) [d] (do
        let cs ← s.m.readCodes q a
        if ∃ x ∈ cs, (Triple.ofNat x).malformed = true then .error 0x1E
        else do
          let xs ← vals b
          s.m.writeVals q { rm } d ((cs.map Triple.ofNat).zipIdx.map fun p =>
            joinFlags (of64 (p.1.drain ax ((codes64 xs).getD p.2 (0, 0)).1 o.imm.toNat)) ((codes64 xs).getD p.2 (0, 0)).2)))) ∧
    (∀ rm tb tc, lbRm (o.md.toNat / 8) = .ok rm → b = some tb → c = some tc → (∀ t ∈ [d, a, tb, tc], t.fmt ≤ 5) → (∀ t ∈ [a, tb, tc], t.root ≠ d.root) → ax < a.ext.length → d.ext = a.ext →
      (∀ t ∈ [tb, tc], t.ext = (List.range a.ext.length).map fun i => if i = ax then a.ext.getD ax 1 else 1) →
      (badEps o.imm.toNat = true → exec (.lbNorm o) s = .next (s.graphFails q w 0x1E)) ∧
      (badEps o.imm.toNat = false → s.runsWhole q w o (.lbNorm o) [a, tb, tc] [d] (do
        let xs ← s.m.readVals q a
        let bs ← s.m.readVals q tb
        let cs ← s.m.readVals q tc
        let rows ← (axisLines a.ext ax).mapM fun l => (statLine (l.map fun e => { x := (codes64 xs).getD e (0, 0) })).map fun t =>
          (l.map fun e => (codes64 xs).getD e (0, 0)).zipIdx.map fun p =>
            let y := t.1.drain 7 p.1.1 o.imm.toNat
            let vb := bs.getD p.2 (.zero false, 0)
            let vc := cs.getD p.2 (.zero false, 0)
            joinFlags (liftNan [realOf64 y.1, vb, vc] (match mulVal (realOf64 y.1).1 vb.1 with
              | some v => addReal rm v vc.1
              | none => invalidVal)) (t.2 ||| y.2 ||| p.1.2)
        s.m.writeVals q { rm } d (fromLines a.ext ax ((.zero false, 0), 0) rows))))

/-- 12 R285; 18 R370-R378: the KV operators wait for the launches that their roots depend on and check the layer group: a group not in use is SHAPE_FAULT, a root entry that breaks its form, layer group 63, or a block
at or above NLB is 0x2F. `kvappend` maps the blocks of its positions and is then expanded by the words of its opcode's entry, its launch setting TLEN when it completes; without one it readies the blocks, writes
the rows (of a block-scaled handle its values, with their flags) and sets TLEN to the greater of the old one and the end; `kvtrunc` sets TLEN to the lesser and frees the
blocks from there on, in every group in use for 63; `kvpromote` and `attn` are expanded by the words of their opcodes' entries (11 R259), and without one move each block of the range, and attend each query
row, of at most 32, over the blocks in ascending order. What waits is done later, with what was done kept.
The causes of a position or group outside its range are in part the model's choice (notes/assumptions/55.md). -/
def Obligations.GraphKv : Prop :=
  ∀ (s : State) (q : Nat) (w : Walk) (o : LbOp) (d a b t : Tensor) (rt : Nat), s.graphAt q w → o.c = 0 → o.md = 0 →
    let lg := o.imm.toNat % 64
    let wreg (lo : Nat) : Int := (w.reg (bits o.imm.toNat lo 6)).toInt
    let free (reads writes : List Tensor) : Prop := s.m.opReady (reads.map (·.root)) (writes.map (·.root)) = true
    let fails (i : Instr) (k : Nat) : Prop := exec i s = .next (s.graphFails q w k)
    (∀ pos : Nat, o.imm.toNat &&& 0x3F3F = o.imm.toNat → s.m.kvHandle q w o.d.toNat true = .ok t → s.m.plain q w o.a.toNat = .ok a → s.m.plain q w o.b.toNat = .ok b → a.root ≠ t.root → b.root ≠ t.root →
      wreg 8 = pos → fuseGroup [a, b] = .ok () →
      (¬ free [a, b] [t] → exec (.lbKvappend o) s = .next (s.graphAgain s.m)) ∧
      (free [a, b] [t] → s.m.kvGroup q t lg = .ok rt → lg ≠ 63 → ∀ n, a.ext = [rootD rt, rootH rt, rootL rt, n] → b.ext = a.ext → a.fmt = rootFmt rt → b.fmt = rootFmt rt →
        (rootTlen rt < pos → fails (.lbKvappend o) 0x3A) ∧
        (pos ≤ rootTlen rt → (∃ x ∈ kvRange rt pos n, rootNlb rt ≤ x) → fails (.lbKvappend o) 0x2F) ∧
        (pos ≤ rootTlen rt → (∀ x ∈ kvRange rt pos n, x < rootNlb rt) →
          (∀ m1, stepsOn (fun m b => m.mapBlock q rt b) s.m (kvRange rt pos n) = .ok (m1, false) → exec (.lbKvappend o) s = .next (s.graphAgain m1)) ∧
          (∀ m1 image, stepsOn (fun m b => m.mapBlock q rt b) s.m (kvRange rt pos n) = .ok (m1, true) → m1.builtinOf q o = some image →
            exec (.lbKvappend o) s = .next ({ s with m := m1 }.expand { m1.expansion q w o image 0 with tlen := some (t.base + 32 * lg, pos + n) })) ∧
          (∀ m1 m2, stepsOn (fun m b => m.mapBlock q rt b) s.m (kvRange rt pos n) = .ok (m1, true) → m1.builtinOf q o = none → stepsOn (fun m b => m.blockReady q rt b) m1 (kvRange rt pos n) = .ok (m2, false) →
            exec (.lbKvappend o) s = .next (s.graphAgain m2)) ∧
          (∀ m1 m2 ks vs m3 m4, stepsOn (fun m b => m.mapBlock q rt b) s.m (kvRange rt pos n) = .ok (m1, true) → m1.builtinOf q o = none → stepsOn (fun m b => m.blockReady q rt b) m1 (kvRange rt pos n) = .ok (m2, true) →
            m2.rowCodes q a = .ok ks → m2.rowCodes q b = .ok vs → m2.appendRows q rt pos n (ks.map (·.1)) (vs.map (·.1)) = .ok m3 → m3.setRoot q t lg (setBits rt 128 24 (max (rootTlen rt) (pos + n))) = .ok m4 →
            exec (.lbKvappend o) s = .next (s.graphDone q m4 { w.step with flg := w.flg ||| orFlags (ks ++ vs) }))))) ∧
    (∀ len : Nat, o.a = 0 → o.b = 0 → o.imm.toNat &&& 0x3F3F = o.imm.toNat → s.m.kvHandle q w o.d.toNat true = .ok t → wreg 8 = len →
      (¬ free [] [t] → exec (.lbKvtrunc o) s = .next (s.graphAgain s.m)) ∧
      (free [] [t] → lg ≠ 63 → s.m.kvGroup q t lg = .ok rt →
        (∀ m', s.m.truncGroup q t len lg = .ok (m', true) → exec (.lbKvtrunc o) s = .next (s.graphDone q m' w.step)) ∧
        (∀ m', s.m.truncGroup q t len lg = .ok (m', false) → exec (.lbKvtrunc o) s = .next (s.graphAgain m'))) ∧
      (free [] [t] → lg = 63 → ∀ rs, (List.range 63).mapM (s.m.kvRoot q t) = .ok rs →
        ∀ m', stepsOn (fun m g => m.truncGroup q t len g) s.m ((List.range 63).filter fun g => rootV (rs.getD g 0)) = .ok (m', true) → exec (.lbKvtrunc o) s = .next (s.graphDone q m' w.step))) ∧
    (∀ pos len : Nat, o.a = 0 → o.b = 0 → o.imm.toNat &&& 0x33F3F3F = o.imm.toNat → s.m.kvHandle q w o.d.toNat true = .ok t →
      (bits o.imm.toNat 24 2 = 1 → fails (.lbKvpromote o) 0x3A) ∧
      (bits o.imm.toNat 24 2 ≠ 1 → wreg 8 = pos → wreg 16 = len →
        (¬ free [] [t] → exec (.lbKvpromote o) s = .next (s.graphAgain s.m)) ∧
        (free [] [t] → s.m.kvGroup q t lg = .ok rt → lg ≠ 63 → (∀ x ∈ kvRange rt pos len, x < rootNlb rt) →
          (∀ image, s.m.builtinOf q o = some image → exec (.lbKvpromote o) s = .next (s.expand (s.m.expansion q w o image 0))) ∧
          (∀ m', s.m.builtinOf q o = none → stepsOn (fun m b => m.moveBlock q rt (bits o.imm.toNat 24 2) b) s.m (kvRange rt pos len) = .ok (m', true) → exec (.lbKvpromote o) s = .next (s.graphDone q m' w.step)) ∧
          (∀ m', s.m.builtinOf q o = none → stepsOn (fun m b => m.moveBlock q rt (bits o.imm.toNat 24 2) b) s.m (kvRange rt pos len) = .ok (m', false) → exec (.lbKvpromote o) s = .next (s.graphAgain m'))))) ∧
    (∀ m' leaves qs r, o.imm.toNat &&& (0x3F + 0xFFFFFFFF * 2 ^ 32) = o.imm.toNat → s.m.target q w o.d.toNat = .ok d → s.m.plain q w o.a.toNat = .ok a → s.m.kvHandle q w o.b.toNat false = .ok t →
      d.fmt ≤ 5 → a.fmt ≤ 5 → a.root ≠ d.root → t.root ≠ d.root → fuseGroup [d, a] = .ok () → ∀ nq, a.ext = [rootD rt, rootH rt, rootL rt, nq] → d.ext = a.ext →
      (∀ image, s.m.builtinOf q o = some image → exec (.lbAttn o) s = .next (s.expand (s.m.expansion q w o image 0))) ∧
      (s.m.builtinOf q o = none → ¬ free [a, t] [d] → exec (.lbAttn o) s = .next (s.graphAgain s.m)) ∧
      (s.m.builtinOf q o = none → free [a, t] [d] → s.m.kvGroup q t lg 0x2F = .ok rt → lg ≠ 63 → 32 < nq → fails (.lbAttn o) 0x2F) ∧
      (s.m.builtinOf q o = none → free [a, t] [d] → s.m.kvGroup q t lg 0x2F = .ok rt → lg ≠ 63 →
      let nb := ceilDiv (rootTlen rt) (rootB rt)
      let scale := match Fp.s.unpack (bits o.imm.toNat 32 32) with
        | .nan .. => nanConvert .s .d (bits o.imm.toNat 32 32)
        | v => (Fp.d.ofVal {} false v).1
      let row (i l h : Nat) : List Nat × Nat := m'.attnRow rt scale leaves l h ((rootTlen rt : Int) - nq + i) ((List.range (rootD rt)).map fun j => qs.getD (headAt rt l h i j) (.zero false, 0))
      let quot (x sum : Nat) : RVal × Nat := if sum = 0 then ((.zero false, 0), 0) else liftNan [realOf64 x, realOf64 sum] (divReal (Fp.d.unpack x) (Fp.d.unpack sum))
      nb ≤ rootNlb rt → nq ≤ 32 → stepsOn (fun m b => m.blockReady q rt b) s.m (List.range nb) = .ok (m', true) → (List.range nb).mapM (m'.leafAt q rt) = .ok leaves → m'.readVals q a = .ok qs →
      m'.writeVals q {} d (((List.range nq).flatMap fun i => (List.range (rootL rt)).flatMap fun l => (List.range (rootH rt)).map fun h =>
        (List.range (rootD rt)).map fun j => joinFlags (quot ((row i l h).1.getD (2 + j) 0) ((row i l h).1.getD 1 0)) (row i l h).2).flatten) = .ok r →
      exec (.lbAttn o) s = .next (s.graphWrote q w r))) ∧
    (s.m.kvHandle q w o.d.toNat true = .ok t → o.a = 0 → o.b = 0 → o.imm.toNat < 63 → 0 ≤ (w.reg 0).toInt → free [] [t] → (∀ x, s.m.kvRoot q t lg = .ok x → rootV x = false → fails (.lbKvtrunc o) 0x3A) ∧
      (∀ x, s.m.kvRoot q t lg = .ok x → rootV x = true → rootOk s.m x = false → fails (.lbKvtrunc o) 0x2F))

/-- 12 R284; 11 R261, R264; 20 R408, R409: the collectives check the level, the instance, the group and the sharding, then are expanded by the words of their opcode's entry, and without one form one launch of the
instance whose entries are the rule's and whose record holds the queue's image area and level and the greater of its lane and LN, and the walk goes on; a level other
than 4 to 6, a group without this package, or a sharding that disagrees is SHAPE_FAULT, an instance below 960 MICROCODE_FAULT. Entries above 4096 are refused with MICROCODE_FAULT by the model's choice
(notes/assumptions/54.md). -/
def Obligations.GraphCollectives : Prop :=
  ∀ (s : State) (q : Nat) (w : Walk) (o : LbOp) (d a : Tensor), s.graphAt q w → o.b = 0 → o.c = 0 → s.m.target q w o.d.toNat = .ok d → s.m.plain q w o.a.toNat = .ok a →
    a.fmt = d.fmt → (d.fmt = 9 → hNf a.desc = hNf d.desc) → fuseGroup [d, a] = .ok () → a.root ≠ d.root →
    let imm := o.imm.toNat
    let lvl := bits imm 0 3
    let grp := bits imm 24 8
    let inst := bits imm 32 10
    let legal (root : Bool) : Prop := imm &&& (1023 * 2 ^ 32 + 255 * 2 ^ 24 + (if root then 1023 * 2 ^ 8 else 0) + 7 * 2 ^ 4 + 7) = imm ∧ bits imm 4 3 ≠ 5 ∧ bits imm 4 3 ≠ 6
    let fails (i : Instr) (k : Nat) : Prop := exec i s = .next (s.graphFails q w k)
    let job (parts : List CollPart) (stay : List (Nat × Nat)) : Launch :=
      { lrec := s.m.collRecord q w o.ln.toNat parts.length, queue := q, fofs := w.pos, coll := some { inst, lvl, grp, rm := bits imm 4 3 % 7, src := a.place, dst := d.place, parts, stay } }
    let launches (i : Instr) (parts : List CollPart) (stay : List (Nat × Nat)) : Prop :=
      (4096 < parts.length → fails i 0x38) ∧
      (∀ image, parts.length ≤ 4096 → s.m.builtinOf q o = some image → exec i s = .next (s.expand (s.m.expansion q w o image 0))) ∧
      (parts.length ≤ 4096 → s.m.builtinOf q o = none → s.m.roomFor q 1 [a.root] = false → exec i s = .next (s.graphAgain s.m)) ∧
      (parts.length ≤ 4096 → s.m.builtinOf q o = none → s.m.roomFor q 1 [a.root] = true →
        exec i s = .next (s.graphDone q (s.m.newLaunch (job parts stay) [a.root] [d.root]).1 { w.step with launches := w.launches ++ [s.m.nextLaunch] }))
    (∀ f ∈ [Instr.lbAllreduce, .lbAllgather, .lbRscatter, .lbAlltoall, .lbBcast, .lbReshard], o.md = 0 → legal false →
      (¬ (4 ≤ lvl ∧ lvl ≤ 6) → fails (f o) 0x3A) ∧ (4 ≤ lvl → lvl ≤ 6 → inst < 960 → fails (f o) 0x38) ∧ (4 ≤ lvl → lvl ≤ 6 → 960 ≤ inst → groupMember s.m lvl grp = none → fails (f o) 0x3A) ∧
      (4 ≤ lvl → lvl ≤ 6 → 960 ≤ inst → ∀ p k, groupMember s.m lvl grp = some (p, k) → (shardAgrees a lvl grp p k = false ∨ shardAgrees d lvl grp p k = false) → fails (f o) 0x3A)) ∧
    (∀ p k, 4 ≤ lvl → lvl ≤ 6 → 960 ≤ inst → groupMember s.m lvl grp = some (p, k) → shardAgrees a lvl grp p k = true → shardAgrees d lvl grp p k = true →
      (∀ opr, legal false → reduceOpr o.md.toNat a = .ok opr → a.ext = d.ext → globalExt a = globalExt d → launches (.lbAllreduce o) (allreduceParts a opr) []) ∧
      (legal false → o.md = 0 → (p = 1 ∨ hSn a.desc = p) → hSn d.desc = 1 → d.ext = globalExt a → launches (.lbAllgather o) (allgatherParts a d (if p = 1 then 0 else hSax a.desc) p k) []) ∧
      (∀ opr, legal false → reduceOpr o.md.toNat a = .ok opr → (p = 1 ∨ hSn d.desc = p) → hSn a.desc = 1 → a.ext = globalExt d →
        launches (.lbRscatter o) (rscatterParts a d (if p = 1 then 0 else hSax d.desc) opr p k) []) ∧
      (legal false → o.md.toNat < 8 → o.md.toNat < a.ext.length → a.ext.getD o.md.toNat 1 % p = 0 → globalExt a = globalExt d →
        (a.ext = d.ext → launches (.lbAlltoall o) (alltoallParts a d o.md.toNat o.md.toNat p k) []) ∧
        (a.ext ≠ d.ext → hSn a.desc = p → hSn d.desc = p → d.ext = (a.ext.set o.md.toNat (a.ext.getD o.md.toNat 1 / p)).set (hSax a.desc) (a.ext.getD (hSax a.desc) 1 * p) →
          launches (.lbAlltoall o) (alltoallParts a d o.md.toNat (hSax a.desc) p k) [])) ∧
      (legal true → o.md = 0 → a.ext = d.ext → globalExt a = globalExt d → (bits imm 8 10 < p → launches (.lbBcast o) (bcastParts a (bits imm 8 10) k) []) ∧ (p ≤ bits imm 8 10 → fails (.lbBcast o) 0x3A)) ∧
      (legal false → o.md = 0 → globalExt a = globalExt d → launches (.lbReshard o) (reshardParts a d p k).1 (reshardParts a d p k).2))

/-! ### Microcode -/

/-- 13 R295, R296, R299, R300; 12 R280: the words of an expansion. `ophdr` checks the operands that it declares, unless it expands a built-in operator, whose own checks were made; `oshape` gives a dimension its extent, from a handle, a shape register or a literal; `tiledim` notes the tile extent of a
dimension, unless that gives it more than 1,024 tiles or the operator 2^23 or more (SHAPE_FAULT); `order` and `depend` are noted; `bind` adds a tile register and `stage` a schedule entry for its TID; `routine` gives entry, stack, latch mask, bank and fences; `fuse`, `shard` and `epilog` are noted where they apply; and a
word that breaks a rule sends the queue to failed at the operator.
The corners of `ophdr`, `routine` and `shard` are the model's choices (notes/assumptions/61.md). -/
def Obligations.MicrocodeWords : Prop :=
  ∀ (s : State) (d : Nat) (e : Expansion) (w : Walk), s.microAt d e w →
    let goes (i : Instr) (e' : Expansion) : Prop := exec i s = .next (s.microDone d e e')
    let fails (i : Instr) (k : Nat) : Prop := exec i s = .next (s.microFails d e k)
    (∀ (rd wr : BitVec 4) nw opc ts, let e' := if rd = 0 ∧ wr = 0 then e else { e with rd := rd.toNat, wr := wr.toNat }
      (e.op.op.toNat < 0xC0 → goes (.ucOphdr rd wr nw opc) e') ∧
      (0xC0 ≤ e.op.op.toNat → (∃ h < 4, h ∉ e'.operands ∧ operandNum e.op h ≠ 0) → fails (.ucOphdr rd wr nw opc) 0x03) ∧
      (0xC0 ≤ e.op.op.toNat → (∀ h < 4, h ∉ e'.operands → operandNum e.op h = 0) → (e'.operands.mapM fun h => (s.m.tensor e'.queue w (operandNum e'.op h)).map fun t => (h, t)) = .ok ts →
        ((∃ p ∈ ts, bit e'.wr p.1 = true ∧ hRo p.2.desc = true) → fails (.ucOphdr rd wr nw opc) 0x39) ∧
        ((∀ p ∈ ts, bit e'.wr p.1 = true → hRo p.2.desc = false ∧ ∀ r ∈ ts, r.1 ≠ p.1 → r.2.root ≠ p.2.root) → ∀ nf, agreeNf (ts.map (·.2)) = .ok nf → goes (.ucOphdr rd wr nw opc) e'))) ∧
    (∀ n : BitVec 2, let old := SMap.get 0 e.ext n.toNat
      let takes (src : ShapeSrc) (x : Int) (f : List (Nat × Nat × Nat)) : Prop :=
        (1 ≤ x → x < 2 ^ 24 → (old = 0 ∨ (old : Int) = x) → goes (.ucOshape n src) { e with ext := SMap.set 0 e.ext n.toNat x.toNat, follows := e.follows ++ f }) ∧
        (¬ (1 ≤ x ∧ x < 2 ^ 24 ∧ (old = 0 ∨ (old : Int) = x)) → fails (.ucOshape n src) 0x3A)
      (∀ h i t, s.m.operand w e (BitVec.toNat h) = .ok t → i.toNat < t.ext.length → takes (.dim h i) (t.ext.getD i.toNat 0) [(h.toNat, i.toNat, n.toNat)]) ∧
      (∀ h i t, s.m.operand w e (BitVec.toNat h) = .ok t → t.ext.length ≤ i.toNat → fails (.ucOshape n (.dim h i)) 0x3A) ∧
      (∀ r, takes (.reg r) (w.reg r.toNat).toInt []) ∧ ∀ v, takes (.lit v) v.toNat []) ∧
    (∀ n ts, let e' := { e with ts := SMap.set 0 e.ts (BitVec.toNat n) (BitVec.toNat ts) }
      let count (j : Nat) : Nat := ceilDiv (e'.dimExt j) (e'.tileExt j)
      let fits : Prop := (∀ j < 4, count j ≤ 1024) ∧ count 0 * count 1 * count 2 * count 3 < 2 ^ 23
      (fits → goes (.ucTiledim n ts) e') ∧ (¬ fits → fails (.ucTiledim n ts) 0x3A)) ∧
    (∀ perm cyclic, goes (.ucOrder perm cyclic) { e with perm := perm.toNat, cyclic }) ∧
    (∀ h t tid g rows rowb8 k fx x, s.m.operand w e (BitVec.toNat h) = .ok x →
      let b : BindRec := { t := BitVec.toNat t, tid := tid.toNat, g := g.toNat, rows := rows.toNat, rowb := 8 * rowb8.toNat, k := k.toNat, h := h.toNat }
      let legal : Prop := (fx = 0 ∨ x.fmt = fx.toNat - 1) ∧ entOk (e.entry_ h.toNat x) = true ∧ (∀ i < x.ext.length, (x.ext.take i).foldl (· * ·) 1 < 2 ^ 31) ∧ tdOk (b.desc 0) = true ∧
        ceilDiv (b.rows * b.rowb) 4096 ≤ 512
      (legal → goes (.ucBind h t tid g rows rowb8 k fx) { e with binds := e.binds ++ [b] }) ∧ (¬ legal → fails (.ucBind h t tid g rows rowb8 k fx) 0x38)) ∧
    (∀ store t ch lay stg sreg h, let i : Instr := .ucStage store t ch lay stg sreg h
      (∀ b, e.binds.find? (fun b => b.h == h.toNat) = some b →
        goes i { e with sched := e.sched ++ [pack [(16, sreg.toNat), (22, lay.toNat), (24, b.tid), (32, ch.toNat), (34, t.toNat), (40, if store then 2 else 1), (48, stg.toNat)]] }) ∧
      ((∀ b ∈ e.binds, b.h ≠ h.toNat) → fails i 0x38)) ∧
    (∀ ssz lm koff eoff, ∃ f, goes (.ucRoutine ssz lm koff eoff)
        { e with entry := e.image.base + imgCoff (imgHeader s.m e.image.base) + eoff.toNat, koff := koff.toNat, ssz := ssz.toNat, lm := lm.toNat, fence := (List.range 4).map f } ∧
      ∀ n < 4, let hd := imgHeader s.m e.image.base; let len := bits hd (192 + 32 * n) 16
        f n = if len = 0 then (0, 0) else (e.image.base + imgCoff hd + 128 * bits hd (208 + 32 * n) 16, 2 ^ 63 + 4 * len)) ∧
    (∀ h t consumer x, s.m.operand w e (BitVec.toNat h) = .ok x → let i : Instr := .ucFuse h t consumer
      let legal : Prop := if consumer then s.m.parkedOf e.queue ≠ none else hTr x.desc = true ∧ hFuse x.desc ≠ 0
      (legal → goes i { e with fused := some (operandNum e.op h.toNat, t.toNat, consumer) }) ∧ (¬ legal → fails i 0x38)) ∧
    (∀ h act inst x, s.m.operand w e (BitVec.toNat h) = .ok x → let i : Instr := .ucShard h act inst
      (act.toNat ≤ 1 ∨ hSn x.desc = 1 → goes i e) ∧
      (2 ≤ act.toNat → hSn x.desc ≠ 1 → h = 0 → redAccepts .sum x.fmt = true → x.scaled = false → goes i { e with shards := e.shards ++ [(h.toNat, act.toNat, inst.toNat)] }) ∧
      (2 ≤ act.toNat → hSn x.desc ≠ 1 → h ≠ 0 → fails i 0x38)) ∧
    (∀ k, goes (.ucDepend k) { e with flags := some k.toNat }) ∧
    (∀ k, goes (.ucEpilog false k) e ∧ ∀ x, s.m.operand w e 0 = .ok x → (x.fmt = 11 → goes (.ucEpilog true k) { e with areas := some k.toNat }) ∧ (x.fmt ≠ 11 → fails (.ucEpilog true k) 0x39))

/-- 13 R296, R298, R300: `oend`. The operator's launch is built in the heap, or, while there is no room, tried again later; it enters the graph and the walk goes on. A producer to be fused is kept for the
operator after it, whichever other queues of the die keep one; its consumer joins it if the rule's conditions hold, and if they fail the producer's queue fails.
12 R289; 13 R296: a custom opcode without an entry in the package's table, or with an image that is not installed, is MICROCODE_FAULT; else its expansion begins and the Parser of the die goes on with its words.
That any other operator fails a producer is the model's choice (notes/assumptions/61.md). -/
def Obligations.CustomOperators : Prop :=
  (∀ (s : State) (d : Nat) (e : Expansion) (w : Walk), s.microAt d e w →
     let p := s.m.parser d
     (s.m.parkedOf e.queue = none → (∀ a t, e.fused ≠ some (a, t, false)) →
       (s.m.buildLaunch w e none = .ok none → exec .ucOend s = .next { s with turn := .none }) ∧
       (∀ k, s.m.buildLaunch w e none = .error k → exec .ucOend s = .next (if k = 0 then { s with turn := .none } else s.microFails d e k)) ∧
       (∀ m ls, s.m.buildLaunch w e none = .ok (some (m, ls)) →
         let m1 := m.dropParked e.queue
         exec .ucOend s = .next { s with m := ((m1.setParser d { m1.parser d with exp := none }).setWalk e.queue (some
           { w.step with launches := w.launches ++ ls, rngCtr := w.rngCtr + .ofNat 64 e.adv })).refreshQueue e.queue, turn := .none })) ∧
     (s.m.parkedOf e.queue = none → ∀ a t, e.fused = some (a, t, false) →
       exec .ucOend s = .next { s with m := (s.m.setParser d { p with exp := none, parked := p.parked ++ [e] }).setWalk e.queue (some w.step), turn := .none }) ∧
     (∀ x, s.m.parkedOf e.queue = some x →
       let drop := s.m.dropParked e.queue
       (((∀ a t, e.fused ≠ some (a, t, true)) ∨ fuseOk x e = false) → exec .ucOend s = .next { s with m := (drop.setParser d { drop.parser d with exp := none }).failQueue e.queue 0x38 x.fofs, turn := .none }) ∧
       (∀ a t, e.fused = some (a, t, true) → fuseOk x e = true → ∀ m ls, s.m.buildLaunch w x (some e) = .ok (some (m, ls)) →
         let m1 := m.dropParked e.queue
         exec .ucOend s =
           .next { s with m := ((m1.setParser d { m1.parser d with exp := none }).setWalk e.queue (some
             { w.step with launches := w.launches ++ ls, rngCtr := w.rngCtr + .ofNat 64 (x.adv + e.adv) })).refreshQueue e.queue, turn := .none }))) ∧
  (∀ (s : State) (q : Nat) (w : Walk) (o : LbOp) (tab : List Byte), s.graphAt q w → s.m.parserRead q (w.pkg + w.xoff) (8 * w.nx) (w.nx / 16 + 2) = .ok tab →
     let entries := (List.range w.nx).map fun i => leNat ((tab.drop (8 * i)).take 8)
     let p := s.m.parser (q / 16)
     ((∀ e ∈ entries, e % 256 ≠ o.op.toNat) → exec (.lbCustom o) s = .next (s.graphFails q w 0x38)) ∧
     (∀ e, entries.find? (fun e => e % 256 == o.op.toNat) = some e →
       ((∀ i ∈ p.ops, i.ident ≠ e / 256) → exec (.lbCustom o) s = .next (s.graphFails q w 0x38)) ∧
       (∀ i, p.ops.find? (fun i => i.ident == e / 256) = some i → exec (.lbCustom o) s = .next (s.expand (s.m.expansion q w o i 0)))))

/-! ### Events -/

/-- 21 R413-R415, R420; 13 R292: a performed store to SCMD is served and answered with DONE and RESULT. LOCK after the lock, or any other command before it, is RESULT 5; an invalid argument, limit block, system block or
image 2; a signature that fails 4; a TIGHTEN that widens a limit 3; an unassigned code 6; and then nothing else changes. A LOCK that passes takes the limits and starts the watchdog; TIGHTEN installs its block;
QUOTE writes MR0 to MR3, SELF, QCNT + 1 and the signature over the first 0xB0 bytes of its area, and advances QCNT; EXTEND replaces a digest by that of itself and the argument's 32 bytes.
That a command is one step, so that BUSY is not seen, is the model's choice (notes/assumptions/62.md). -/
def Obligations.ServiceCommands : Prop :=
  ∀ (s : State) (m : Machine) (v : Word) (arg : BitVec 56), s.m.takeWatch 0x100 = some (m, v) →
    let a := arg.toNat
    let asked (code : Nat) : Prop := v.toNat = code * 2 ^ 56 + a
    let answers (i : Instr) (m' : Machine) (res : Nat) : Prop := exec i s = .next { s with m := m'.setWord 0x108 (2 ^ 62 + res) }
    let b := m.nat a 256
    let c := m.readSys
    let u := c.sysWord 0x88
    let h := imgHeader c u
    let image := m.bytes u (bits h 448 64)
    let ws := (List.range (bits h 403 13)).map fun i => m.word (u + bits h 416 32 + 8 * i)
    let sound := a % 256 = 0 ∧ sysOk c = true ∧ limitsOk b = true ∧ imageOk h = true
    let loadable := ws.length ≤ 8192 ∧ ∀ r ∈ operatorRuns ws, badWord false r = none ∧ 1 ≤ bits (r.headD 0) 31 8 ∧ bits (r.headD 0) 31 8 < 0xC0
    let signed := Config.sm2Verify (bits h 512 512) (Config.sm3 (unsigned image)) = true
    (asked 1 →
      (m.locked = true → answers (.lock arg) m 5) ∧ (m.locked = false → ¬ sound → answers (.lock arg) m 2) ∧ (m.locked = false → sound → ¬ signed → answers (.lock arg) m 4) ∧
      (m.locked = false → sound → signed → ¬ loadable → answers (.lock arg) m 2) ∧
      (m.locked = false → sound → signed → loadable → ∃ m', answers (.lock arg) m' 0 ∧ m'.locked = true ∧ m'.dog = true ∧ m'.limits = b ∧ m'.sys = c.sys ∧ m'.fresh = m.fresh ∧ m'.launches = m.launches)) ∧
    (asked 2 →
      (m.locked = false → answers (.tighten arg) m 5) ∧ (m.locked = true → (a % 256 ≠ 0 ∨ limitsOk b = false) → answers (.tighten arg) m 2) ∧
      (m.locked = true → a % 256 = 0 → limitsOk b = true → tighter m.limits b = false → answers (.tighten arg) m 3) ∧
      (m.locked = true → a % 256 = 0 → limitsOk b = true → tighter m.limits b = true → ∃ m', answers (.tighten arg) m' 0 ∧ m'.limits = b ∧ m'.locked = true ∧ m'.mhz = min m.mhz (lbFmax b))) ∧
    (asked 3 →
      (m.locked = false → answers (.quote arg) m 5) ∧ (m.locked = true → a % 256 ≠ 0 → answers (.quote arg) m 2) ∧
      (m.locked = true → a % 256 = 0 →
        let q0 := (List.range 4).foldl (fun (m : Machine) i => m.setNat (a + 0x20 + 32 * i) 32 (SMap.get 0 m.mr i).toNat) m
        let q1 := (q0.setWord (a + 0xA0) (selfPkg q0)).setWord (a + 0xA8) (q0.qcnt + 1)
        let q2 := (q1.setNat (a + 0xB0) 64 (Config.sm2Sign (Config.sm3 (q1.bytes a 0xB0)))).setWord 0x2C0 (q1.qcnt + 1)
        answers (.quote arg) { q2 with qcnt := q1.qcnt + 1 } 0)) ∧
    (asked 4 → (m.locked = false → answers (.extendMr2 arg) m 5) ∧
      (m.locked = true → answers (.extendMr2 arg) (m.setMr 2 (Config.sm3 (leBytes 32 (SMap.get 0 m.mr 2).toNat ++ m.bytes a 32) % 2 ^ 256)) 0)) ∧
    (asked 5 → (m.locked = false → answers (.extendMr3 arg) m 5) ∧
      (m.locked = true → answers (.extendMr3 arg) (m.setMr 3 (Config.sm3 (leBytes 32 (SMap.get 0 m.mr 3).toNat ++ m.bytes a 32) % 2 ^ 256)) 0)) ∧
    (∀ code : BitVec 8, v.toNat / 2 ^ 56 = code.toNat → (code = 0 ∨ 6 ≤ code.toNat) → answers (.scmdUnassigned code) m 6)

/-- 16 R335, R336; 19 R395; 21 R410-R412, R416-R419; 22 R421: what reaches the part from outside. A package reset finds the first bootable image and starts it on context 0 at LOAD + EOFF with nothing locked, or halts; PERST# ends
the state after the watchdog; KICK restarts it; when it expires the cores halt and vector 0 goes out; power and heat move clocks by 100 MHz and raise POWER_CLAMP; doorbells, MSIs and the interrupt word raise INTERRUPT or
send a vector; a shootdown slot removes the entries of the TLBs and of the walker caches, performs the stores to host memory and is acknowledged; rings send and receive frames.
What a package reset keeps, the steps of the clocks at their ends and the frames of the rings are in part the model's choices (notes/assumptions/2.md, 62.md, 63.md, 64.md). -/
def Obligations.OutsideEvents : Prop :=
  ∀ s : State,
    let goes (i : Instr) (m : Machine) : Prop := exec i s = .next { s with m }
    (∀ bs, s.m.flash.find? bootOk = some bs → ∃ m', exec .reset s = .next { s with m := m', snap := none, turn := .none } ∧ m'.boot = .running ∧ m'.locked = false ∧ m'.expired = false ∧ m'.launches = [] ∧
      (m'.ctx 0).pc = .ofNat 64 (rbLoad (leNat (bs.take 128)) + rbEoff (leNat (bs.take 128))) ∧ (m'.ctx 0).st = .ready ∧ ∀ c, c ≠ 0 → m'.ctx c = {}) ∧
    (s.m.flash.find? bootOk = none → ∃ m', exec .reset s = .next { s with m := m', snap := none, turn := .none } ∧ m'.boot = .halted ∧ m'.locked = false ∧ ∀ c, m'.ctx c = {}) ∧
    goes .hostPerst { s.m with expired := false } ∧
    (∀ m v, s.m.takeWatch 0x110 = some (m, v) → goes .kick { m with dog := m.locked }) ∧
    (s.m.dog = true → s.m.expired = false → goes .watchdog { s.m with expired := true, out := s.m.out ++ [OutMsg.msix 0] }) ∧
    (∀ w : Nat,
      (lbPmax s.m.limits < w → 100 < s.m.mhz →
        goes (.powerClamp w) ({ s.m with mhz := s.m.mhz - 100 }.clamp (s.m.mhz - 100) 0 (2 ^ 64 - 1))) ∧
      (w * 100 ≤ lbPmax s.m.limits * 95 → s.m.mhz < lbFmax s.m.limits →
        let f := min (s.m.mhz + 100) (lbFmax s.m.limits)
        goes (.powerClamp w) ({ s.m with mhz := f }.clamp f 0 (2 ^ 64 - 1)))) ∧
    (∀ n, n < 96 →
      let f := min (s.m.core n).mhz s.m.mhz
      let g := min (f + 100) s.m.mhz
      (100 < f → goes (.thermalClamp n true) ((s.m.onCore n fun k => { k with mhz := f - 100 }).clamp (f - 100) 1 n)) ∧
      (f < s.m.mhz → goes (.thermalClamp n false) ((s.m.onCore n fun k => { k with mhz := if g = s.m.mhz then 3600 else g }).clamp g 1 n))) ∧
    (∀ (ring : BitVec 2) m v, s.m.takeWatch (0xC0 + 8 * ring.toNat) = some (m, v) →
      (ring.toNat % 2 = 0 → goes (.mgmtRingDoorbell ring) (m.sendRing ring.toNat 256)) ∧ (ring.toNat % 2 = 1 → goes (.mgmtRingDoorbell ring) m)) ∧
    (∀ (m : Machine) (ring n : Nat),
      let key := ringBase m ring + 16 * SMap.get 0 m.rings ring
      let d := m.nat key 16
      let data := m.bytes (bits d 0 64) (bits d 64 16)
      let on := { m.setNat key 16 (setBits (setBits d 80 1 0) 81 1 0) with rings := SMap.set 0 m.rings ring ((SMap.get 0 m.rings ring + 1) % 256) }
      (bit d 80 = false → m.sendRing ring n = m) ∧
      (bit d 80 = true → macAllowed m (leNat (data.take 6)) = true → m.expired = false → m.sendRing ring (n + 1) = Machine.sendRing { on with out := on.out ++ [OutMsg.mgmt (ring == 2) data] } ring n)) ∧
    (∀ port data, s.m.locked = true → s.m.expired = false →
      let ring := if port then 3 else 1
      let key := ringBase s.m ring + 16 * SMap.get 0 s.m.rings ring
      let d := s.m.nat key 16
      let n := bits d 64 16
      bit d 80 = true → ∃ m', goes (.mgmtFrameReceive port data) m' ∧ m'.rings = SMap.set 0 s.m.rings ring ((SMap.get 0 s.m.rings ring + 1) % 256) ∧
        m' = { (s.m.setBytes (bits d 0 64) (data.take n)).setNat key 16 (setBits (setBits (setBits d 64 16 (min n data.length)) 80 1 0) 81 1 (if n < data.length then 1 else 0)) with rings := m'.rings }) ∧
    (∀ m v, s.m.takeWatch (lcb s.m + 0x10) = some (m, v) → goes (.hostIrqWord v) { m with out := m.out ++ [OutMsg.msix (v.toNat % 32)] }) ∧
    (∀ v, goes (.hostDoorbell v) (s.m.irq (0x1100 + v.toNat % 256))) ∧
    (∀ id : BitVec 11, s.m.locked = true → s.m.expired = false → 65 ≤ id.toNat → goes (.hostMsiInterrupt id) (s.m.irq (0x8000 + id.toNat))) ∧
    (∀ slot : BitVec 6, s.m.locked = true → s.m.expired = false →
      let d := s.m.barNat (0x1000 + 32 * slot.toNat) 32
      let seq := bits d 128 64
      ((bits d 17 7 ≠ 0 ∨ bits d 64 12 ≠ 0) → goes (.shootdown slot) (s.m.acknowledge (bits d 192 64) (if bit seq 63 then seq - 2 ^ 63 else seq + 2 ^ 63))) ∧
      (bits d 17 7 = 0 → bits d 64 12 = 0 →
        let keeps (ts : List TlbEntry) : List TlbEntry := ts.filter fun t => !shotDown d t
        let m := { s.m with cores := s.m.cores.map (fun (p : Nat × Core) => (p.1, { p.2 with utlb := keeps p.2.utlb, tlb := keeps p.2.tlb })), walkers := s.m.walkers.filter fun x => !shotDown d x.t }
        goes (.shootdown slot) (((m.cores.map (·.1)).foldl Machine.drainHost m).acknowledge (bits d 192 64) seq))) ∧
    (∀ (m : Machine) a v, (damperAllows m (hostKey a) = false → m.acknowledge a v = m) ∧ (damperAllows m (hostKey a) = true → m.acknowledge a v = m.performPlain { ctx := 384, key := hostKey a, bytes := leBytes 8 v })) ∧
    (∀ c v m, s.m.takeWatch (pcb s.m (dieOf c) + 0x100 + 8 * (c % 48)) = some (m, v) →
      ((m.ctx c).st = .free ∨ (m.ctx c).st = .retired → goes (.interruptPost c v) m) ∧
      ((m.ctx c).st ≠ .free → (m.ctx c).st ≠ .retired → goes (.interruptPost c v) (m.post c (0x3000 + v.toNat % 256) v.toNat)))

/-- 11 R257-R259, R265-R267; 12 R271, R288, R291; 13 R294: the Parser at work. A doorbell makes a queue's control word read: one that breaks R258 fails with 0x03; an enabled queue that was disabled or idle is waiting once it has entries; clearing EN
disables an idle or failed queue; the next entry starts its graph or acts as `notify`, unless it must wait; an operator's turn is given to the graph or to its expansion; a graph that has ended, with nothing in flight and
nothing that others read waiting for a commit, writes STATUS; launches bind, coordinates land and tiles are counted; image requests are served between operators.
The moments of a signal and of the next entry, and when a coordinate table's place is used again, are the model's choices (notes/assumptions/19.md, 57.md). -/
def Obligations.QueueEvents : Prop :=
  ∀ (s : State) (q : Nat),
    let goes (i : Instr) (m : Machine) : Prop := exec i s = .next { s with m }
    let d := s.m.queueDesc q
    (∀ m v, s.m.takeWatch (queueKey s.m q + 48) = some (m, v) →
      let e := m.queueDesc q
      (m.locked = false → goes (.queueDoorbell q) m) ∧
      (m.locked = true → queueOk m q e = false → goes (.queueDoorbell q) (m.failQueue q 0x03 0)) ∧
      (m.locked = true → queueOk m q e = true → qEn e = false → goes (.queueDoorbell q) m) ∧
      (qEn e = true → m.locked = true → queueOk m q e = true → (2 ≤ qState e ∨ (qState e = 1 ∧ qHead e = qTail e)) → goes (.queueDoorbell q) m) ∧
      (qEn e = true → m.locked = true → queueOk m q e = true → qState e = 0 →
        let m1 := m.setQueue q 24 3 1
        let e1 := m1.queueDesc q
        goes (.queueDoorbell q) (if qState e1 = 1 ∧ qHead e1 ≠ qTail e1 then m1.setQueue q 24 3 2 else m1)) ∧
      (qEn e = true → m.locked = true → queueOk m q e = true → qState e = 1 → qHead e ≠ qTail e → goes (.queueDoorbell q) (m.setQueue q 24 3 2))) ∧
    (qEn d = false → (qState d = 1 ∨ qState d = 4) → goes (.queueDisable q) (((s.m.dropLocals q).setWalk q none).setQueue q 24 3 0)) ∧
    (s.m.locked = true → (qState d = 2 ∨ qState d = 3) → qHead d ≠ qTail d → s.m.walkOf q = none → s.m.liveLaunches q = [] →
      let slot := qHead d % 2 ^ (qRlog d + 4)
      let took := s.m.setQueue q 448 64 (qHead d + 1)
      (∀ k, s.m.parserNat q (qRing d + 32 * slot) 32 = .error k → goes (.ringEntryTake q) (if k = 0 then s.m else s.m.failQueue q k 0)) ∧
      (∀ e, s.m.parserNat q (qRing d + 32 * slot) 32 = .ok e →
        ((bits e 64 26 ≠ 0 ∨ (bits e 56 8 ≠ 1 ∧ bits e 56 8 ≠ 2)) → goes (.ringEntryTake q) (took.failQueue q 0x03 0)) ∧
        (bits e 64 26 = 0 → bits e 56 8 = 2 →
          (∀ m', (took.irq (0x200 + q) (bits e 0 56)).writeStatus q slot 0 = .ok m' → goes (.ringEntryTake q) (m'.refreshQueue q)) ∧
          (∀ k, (took.irq (0x200 + q) (bits e 0 56)).writeStatus q slot 0 = .error k → goes (.ringEntryTake q) (if k = 0 then s.m else took.failQueue q k 0))) ∧
        (bits e 64 26 = 0 → bits e 56 8 = 1 →
          (∀ k, took.startGraph q slot e = .error k → goes (.ringEntryTake q) (if k = 0 then s.m else took.failQueue q k 0)) ∧
          (∀ m', took.startGraph q slot e = .ok m' → m'.localsUsed (q / 16) ≤ 3840 → goes (.ringEntryTake q) (m'.refreshQueue q)) ∧
          (∀ m', took.startGraph q slot e = .ok m' → 3840 < m'.localsUsed (q / 16) → goes (.ringEntryTake q) s.m)))) ∧
    (∀ w, s.turn = .none → q < 128 → s.m.walkOf q = some w → w.ended = false → (qState d = 2 ∨ qState d = 3) →
      ((s.m.parser (q / 16)).exp = none → exec (.operatorIssue q) s = .next { s with turn := .graph q }) ∧
      (∀ e, (s.m.parser (q / 16)).exp = some e → e.queue = q → exec (.operatorIssue q) s = .next { s with turn := .micro (q / 16) }) ∧
      (∀ e, (s.m.parser (q / 16)).exp = some e → e.queue ≠ q → exec (.operatorIssue q) s = .next s)) ∧
    (∀ w, s.m.walkOf q = some w → w.ended = true → qState d ≠ 4 →
      let flg := w.launches.foldl (fun f li => f ||| ((s.m.launch li).map fun l => l.flg).getD 0) w.flg
      ((s.m.liveLaunches q ≠ [] ∨ s.m.graphPerformed w = false) → goes (.graphComplete q) s.m) ∧
      (s.m.liveLaunches q = [] → s.m.graphPerformed w = true →
        (∀ m', s.m.writeStatus q w.slot flg = .ok m' → goes (.graphComplete q) (((m'.dropLocals q).setWalk q none).refreshQueue q)) ∧
        (∀ k, s.m.writeStatus q w.slot flg = .error k → goes (.graphComplete q) (if k = 0 then s.m else s.m.failQueue q k w.pos)))) ∧
    (∀ li l, s.m.launch li = some l →
      (l.coll = none → goes (.launchBind li) (s.m.bindLaunch li)) ∧
      (∀ j, l.coll = some j → l.complete = false → l.failed = false → j.gen = none → s.m.depsMet l = true → goes (.launchBind li) ((s.m.openColl li l j).refreshQueue l.queue)) ∧
      (∀ ti, l.coll = none → goes (.tileDone li ti) (s.m.countTile li ti)) ∧
      (∀ ti j, l.coll = some j → l.complete = false → l.failed = false → j.overrun = true → goes (.tileDone li ti) (s.m.failLaunch li 0x2B))) ∧
    (∀ (n : BitVec 2) p w, (s.m.ctx q).nxt.find? (fun p => p.reg == n.toNat) = some p → p.val = some w →
      goes (.coordLanding q n) ((s.m.setCtx q ({ s.m.ctx q with nxt := (s.m.ctx q).nxt.erase p }.setTc n.toNat w).bindDone).onCore (coreOf q) fun k =>
        { k with cycle := if k.cycle.toNat < p.due.toNat then p.due else k.cycle })) ∧
    (∀ m v, s.turn = .none → s.m.takeWatch (pcb s.m q) = some (m, v) → (m.parser q).exp = none → (m.parser q).parked = [] → goes (.microcodeInstall q) (m.installImage q v.toNat)) ∧
    (∀ m v, s.turn = .none → s.m.takeWatch (pcb s.m q + 0x10) = some (m, v) → (m.parser q).exp = none → (m.parser q).parked = [] → m.imageBusy q (v.toNat % 2 ^ 56) = false →
      goes (.microcodeRemove q) (m.removeImage q (v.toNat % 2 ^ 56))) ∧
    (∀ (m : Machine) base,
      let h := imgHeader m base
      let ws := (List.range (bits h 403 13)).map fun i => m.word (base + bits h 416 32 + 8 * i)
      (imageOk h = false → m.installImage q base = m.ucStatus q 0 0x03) ∧ (∀ i, imageOk h = true → badWord true ws = some i → m.installImage q base = m.ucStatus q i 0x38) ∧
      ((∀ i ∈ (m.parser q).ops, i.ident ≠ base) → m.removeImage q base = m.ucStatus q 0 0x38))

/-- 10 R240, R241; 11 R260, R265-R267: what a binding gives a context, and what counting the last tile does. The first binding starts the launch, or fails it when its record or one of its declared bindings is refused; a free
context of the partition then takes a coordinate and is bound, with ENTRY as its PC and the record's registers, unless the request yields the end code; it is ready when its fills are complete and the coordinate has landed; the
last tile counted completes the launch.
Where a routine's declarations come from, and that a launch starts with its first binding, are the model's choices (notes/assumptions/58.md, 79.md). -/
def Obligations.LaunchesAtWork : Prop :=
  (∀ (l : Launch) (li c : Nat) (q : CoordReq) (w : Word), q.val = some w →
    let x := l.newCtx li c q
    x.pc = .ofNat 64 l.entry ∧ x.st = .bound ∧ x.filled = false ∧ x.nxt = [q] ∧ x.launch = some li ∧ x.queue = some l.queue ∧ x.depth = 0 ∧ x.cr 0x20 = .ofNat 64 l.prio ∧ x.cr 0x21 = .ofNat 64 l.tidbase ∧ x.cr 0x22 = .ofNat 64 l.kbase ∧
      x.cr 0x03 = .ofNat 64 (bits l.lrec 1024 64) ∧ x.cr 0x16 = .ofNat 64 l.svcbase ∧ x.cr 0x17 = .ofNat 64 (l.sstk + 4096 * l.ssz * (c + 1)) ∧ x.cr 0x50 = .ofNat 64 (bits l.lrec 1344 64) ∧ x.cr 0x51 = .ofNat 64 (bits l.lrec 1280 64) ∧ x.cr 0x02 = .ofNat 64 l.fmtv ∧
      (∀ i < 4, x.cr (0x40 + i) = .ofNat 64 (l.pfb i) ∧ x.cr (0x44 + i) = .ofNat 64 (l.pfl i)) ∧ x.lm = .ofNat 4 l.lm ∧ (∀ i, x.tcreg i = tcEmpty) ∧ x.ti = bits w.toNat 40 23 ∧
      x.cr 0x61 = 0 ∧ (∀ r, x.sreg r = 0)) ∧
  (∀ (x : Ctx), x.st = .bound → (x.filled = true → x.tcreg 0 ≠ tcEmpty → x.bindDone.st = .ready) ∧ ((x.filled = false ∨ x.tcreg 0 = tcEmpty) → x.bindDone = x)) ∧
  (∀ (m : Machine) (li c : Nat) (l : Launch), m.launch li = some l → isRcore m (coreOf c) = false → m.outranked li c l = false → m.hungry l = true → m.asking (coreOf c) = false → l.preempted = [] →
    let start : Res Machine := if l.started then .ok m else (m.dropReads l).startLaunch li l
    ((m.ctx c).st ≠ .free → m.bindPlace li c = m) ∧
    ((m.ctx c).st = .free → l.started = false → l.recordOk = false → m.bindPlace li c = m.failLaunch li 0x38) ∧
    ((m.ctx c).st = .free → ∀ k, start = .error (.trap k) → m.bindPlace li c = m.failLaunch li k.code) ∧
    ((m.ctx c).st = .free → ∀ m1, start = .ok m1 →
      (m1.grant li (coreOf c) = none → m.bindPlace li c = m1) ∧
      (∀ m2, m1.grant li (coreOf c) = some m2 →
        let r := (m2.setCtx c { launch := some li }).request c
        (r.2 = none → m.bindPlace li c = m1) ∧
        (∀ w lat l', r.2 = some (w, lat) → r.1.launch li = some l' →
          (bit w.toNat 63 = true → m.bindPlace li c = m1) ∧
          (bit w.toNat 63 = false → m.bindPlace li c = r.1.bindCtx c li l' (m1.served (coreOf c) 0 (w, lat))))))) ∧
  (∀ (m : Machine) (li ti : Nat) (l : Launch) (c : Nat), m.launch li = some l →
    (List.range 384).find? (fun c => (m.ctx c).launch == some li && (m.ctx c).tasks.contains ti && !m.taskBusy c ti (m.ctx c)) = some c →
    let gone := m.onCtx c fun x => { x with tasks := x.tasks.erase ti }
    let counted := gone.setLaunch li { l with done := l.done + 1 }
    (l.done + 1 ≠ l.ntile → m.countTile li ti = counted.release c) ∧ (l.done + 1 = l.ntile → m.countTile li ti = (counted.completeLaunch li { l with done := l.done + 1 }).release c))

/-- 10 R240, R242, R245, R246, R254; 15 R320; 16 R337; 04 R84, R97; 11 R269, R270: contexts between bundles. The core gives its next clock to a context at its limit in ascending number, else to the lowest lane in rotation, whose aging restarts while
the others' grows when it issues; a hold that clears makes its context ready; a cause due is taken; interlocked results land; a context in service is pre-empted later; a resumed task continues from its image, and is killed where the image is not
in pinned service pages (16 R337); a context in departure is only killed (15 R320).
When a held bundle is tried again, and causes of a retired task, are the model's choices (notes/assumptions/50.md, 65.md). -/
def Obligations.ContextEvents : Prop :=
  ∀ (s : State) (c : Nat),
    let goes (i : Instr) (m : Machine) : Prop := exec i s = .next { s with m }
    let x := s.m.ctx c
    (∀ core d, s.turn = .none → core < 96 → s.m.expired = false → s.m.boot ≠ .halted → s.m.choose core = some d →
      exec (.issueSelect core) s = .next { s with m := s.m.clock core d, turn := .bundle d }) ∧
    (∀ core, s.turn = .none → core < 96 → s.m.choose core = none → exec (.issueSelect core) s = .next s) ∧
    (s.turn = .none → c < 384 → s.m.expired = false → x.aged = true → s.m.choose (coreOf c) = some c → exec (.agingLimit c) s = .next { s with m := s.m.clock (coreOf c) c, turn := .bundle c }) ∧
    (∀ (m : Machine) n d, m.choose n = some d → d ∈ m.ready n ∧
      ((m.ctx d).aged = true → ∀ e ∈ m.ready n, (m.ctx e).aged = true → d ≤ e) ∧
      ((m.ctx d).aged = false → (∀ e ∈ m.ready n, (m.ctx e).aged = false) ∧ ∀ e ∈ m.ready n, (m.ctx d).lane ≤ (m.ctx e).lane)) ∧
    (∀ h, x.hold = some h →
      let told (x : Ctx) : List Nat := match h with
        | .stage _ _ => x.told.filter fun k => k < 512
        | _ => x.told
      (s.m.holdCleared c h = false → goes (.holdRelease c) s.m) ∧
      (s.m.holdCleared c h = true → goes (.holdRelease c) (s.m.onCtx c fun x => { x with hold := none, waitHeld := 0, st := if x.st = .switched then .ready else x.st, told := told x }))) ∧
    (s.turn = .none → x.st ≠ .retired → x.due ≠ none → goes (.trapEntry c) ((s.m.takeDue c).settle c)) ∧
    (∀ h k, s.turn = .none → x.st ≠ .retired → x.due = none → x.hold = some h → x.deferredNow = some k → goes (.trapEntry c) ((s.m.takeDeferred c k).settle c)) ∧
    (∀ k, s.turn = .none → x.st = .retired → goes (.trapEntry c) ((s.m.takeRetired c).settle c) ∧ (x.killed = false → x.after = [] → x.oldestCause (fun _ _ => true) = some k →
      s.m.takeRetired c = ((s.m.markRaised c k).onCtx c fun x => { x with pend := [] }).takeCause c k 0)) ∧
    (∀ (k : Cause) (m : Machine), (m.ctx c).due = some (.after k) → m.takeDue c = (m.setCtx c { m.ctx c with after := (m.ctx c).after.erase k }).takeCause c k (m.ctx c).pc) ∧
    (∀ (k : Cause) (m : Machine), (m.ctx c).due = some (.async k) → k.code = 0x37 → m.takeDue c = (m.setCtx c { m.ctx c with async := (m.ctx c).async.erase k }).setCtx c (m.ctx c).kill) ∧
    (∀ y : Ctx, y.dep ≠ none → ∀ d, y.due = some d → ∃ k, d = .async k ∧ (k.code = 0x37 ∨ k.code = 0x3F)) ∧
    (∀ (i0 i1 : Nat) (m : Machine), (m.ctx c).due = some (.interrupt i0 i1) →
      m.takeDue c = (m.setCtx c { m.ctx c with ints := (m.ctx c).ints.drop 1 }).takeCause c { code := 0x36, kind := 2, i0, i1 } (m.ctx c).pc) ∧
    (∀ i p, x.intl[i]? = some p → goes (.interlockedLanding c i) (s.m.setCtx c { ({ x with intl := [p] }.landInterlocks) with intl := x.intl.eraseIdx i })) ∧
    goes (.resultLanding c) (s.m.onCtx c Ctx.landDue) ∧
    (x.launch ≠ none → isRcore s.m (coreOf c) = false → 0 < x.depth → x.st = .inService → goes (.preempt c) (s.m.async c { code := 0x35 })) ∧
    (x.launch ≠ none → isRcore s.m (coreOf c) = false → x.depth = 0 → x.dep = none → x.after = [] → (x.st = .ready ∨ x.st = .running ∨ x.st = .switched) → ∀ m', s.m.preemptNow c = some m' → goes (.preempt c) m') ∧
    (∀ li l p, s.m.launch li = some l → l.nextSaved = some p →
      (s.m.canResume c li = false → goes (.resume c li) (s.m.awaitPool c li)) ∧
      (s.m.canResume c li = true → s.m.areaPinned (coreOf c) (l.area p.1) (2 ^ 19) = true →
        let y := s.m.readImage (coreOf c) (l.area p.1) (savedKey li p.1)
        ∃ m1, goes (.resume c li) (if y.deferred.all (fun k => k.lv != 0 || k.code == 0x3B) then m1.requeue c else m1) ∧
          (SMap.rising s.m.ctxs = true → ∃ now, m1.ctx c = { y with st := .ready, hold := none, msgs := y.msgs.map (fun t => { t with parked := false }), img := p.1, launch := some li,
                                                                    retained := y.retained.map (fun q => { q with clk := now }), stores := [] })) ∧
      (s.m.canResume c li = true → s.m.areaPinned (coreOf c) (l.area p.1) (2 ^ 19) = false → ∃ m1 : Machine, goes (.resume c li) (m1.setCtx c (m1.ctx c).kill))) ∧
    (s.turn = .none → goes (.progressPreempt c) (s.m.progressFor c)) ∧
    (∀ li l t m' (mask : Nat) k cd b, x.hold = some (.word k mask cd b) → x.launch = some li → s.m.launch li = some l → l.lowest x.ti = some t → s.m.startLowest li l t = some m' → s.m.progressFor c = m')

/-- 08 R194, R195, R201-R205, R209; 16 R343: transfers at work. One starts after the earlier ones of its channel; a started one that waits for no earlier one runs, and either completes, with its flags in FLG and its follow-on
command in the matrix queue, or is kept as faulted with its progress; none starts while a pre-emption waits; privileged ones run one at a time for each channel, and a cause of theirs is deferred and recorded in the
image. The completion of an expander access that never comes faults the
transfer there with CXL_ERROR; that where no transfer is named the core's, or the Parser's, next access to an expander meets it is the model's choice (notes/assumptions/64.md). -/
def Obligations.TransferEvents : Prop :=
  ∀ (s : State) (c i : Nat) (t : Xfer),
    let goes (e : Instr) (m : Machine) : Prop := exec e s = .next { s with m }
    let x := s.m.ctx c
    let done (m : Machine) (u : Xfer) : Machine :=
      let m' := m.onCtx c fun x => ({ x with xfers := x.xfers.eraseIdx i }).orFlg u.fl
      match u.follow with
      | some q => if 384 ≤ c ∨ (m'.owner c).retained ≠ [] then m'.onOwner c fun x => { x with retained := x.retained ++ [{ q with ctx := c }] }
        else m'.onCore (coreOf c) fun k => { k with mq := k.mq ++ [{ q with ctx := c }] }
      | none => m'
    let kept (m : Machine) (u : Xfer) : Machine := m.onCtx c fun x => { x with xfers := x.xfers.set i u }
    let before (u : Xfer) : Prop := t.waitsFor u = true ∨ (u.seq < t.seq ∧ s.m.fireMeets c t u = true)
    (x.xfers[i]? = some t →
      (x.preempting = true → goes (.transferStart c i) (s.m.setCtx c x)) ∧
      (t.started = false → x.preempting = false → (∀ u ∈ x.xfers.take i, u.ch = t.ch → u.started = true) → goes (.transferStart c i) (s.m.setCtx c { x with xfers := x.xfers.set i { t with started := true } })) ∧
      ((∃ u ∈ x.xfers.take i, u.ch = t.ch ∧ u.started = false) → goes (.transferStart c i) (s.m.setCtx c x)) ∧
      (t.started = true → t.fault = none → (∀ u ∈ s.m.xfersOf c, ¬ before u) → (t.follow = none ∨ (s.m.core (coreOf c)).mq.length < 16) → t.isFire = false →
        let r := s.m.runXfer c t
        (r.cause = none → r.waits = false → goes (.transferComplete c i) (done (r.m.clearTold c) r.t) ∧ goes (.transferFault c i) s.m) ∧
        (r.cause = none → r.waits = true → goes (.transferComplete c i) s.m ∧ goes (.transferFault c i) (kept r.m r.t)) ∧
        (∀ k, r.cause = some k → goes (.transferFault c i) (kept (r.m.clearTold c) { r.t with fault := some k }) ∧ goes (.transferComplete c i) s.m)) ∧
      (t.isFire = false → ((∃ u ∈ s.m.xfersOf c, before u) ∨ t.started = false) → goes (.transferComplete c i) s.m) ∧
      (c < 384 → s.m.xferReady c t = true → t.isFire = false → ∀ j,
        ((List.range (entCount t.mEnt)).drop t.prog).find? (fun j => s.m.inTier2 c (t.va j)) = some j →
        let unit := if t.computes then 32 else 1
        let r := xferLoop c ((List.range (j / unit)).map (· * unit)) { m := s.m, t, puts := [] }
        r.waits = false → r.cause = none →
        goes (.cxlCompletionTimeout c i) (r.m.onCtx c fun x => { x with xfers := x.xfers.set i { r.t with
          blocks := (r.puts.map (·.vline)).eraseDups, fault := some { code := 0x31, kind := 1, i0 := t.va j, i1 := t.pc, i2 := t.id, i3 := t.ch } } }))) ∧
    (384 ≤ c → goes (.cxlCompletionTimeout c i) (s.m.setParser (c % 8) { s.m.parser (c % 8) with cxlBad := true })) ∧
    (c < 384 → x.xfers[i]? = none → goes (.cxlCompletionTimeout c i) (s.m.onCore (coreOf c) fun k => { k with cxlBad := true })) ∧
    (∀ (n d k : Nat) (ch : Bool), (s.m.core n).priv.zipIdx.find? (fun p => p.1.2.ch == if ch then 1 else 0) = some ((d, t), k) → t.fault = none →
      (∀ u ∈ (s.m.owner d).xfers ++ s.m.privOf d, t.waitsFor u = false) → (t.follow = none ∨ 384 ≤ d ∨ (s.m.core (coreOf d)).mq.length < 16) →
      let r := s.m.runXfer (privActor n d) { t with started := true }
      (r.cause = none → r.waits = false → goes (.privTransferComplete n ch)
        (((((r.m.onCore n fun q => { q with priv := q.priv.eraseIdx k }).ownerFlags d r.t.fl).bumpCount d (0x388 + 16 * if ch then 1 else 0)).recordPriv d (if ch then 1 else 0) none).follow d t)) ∧
      (r.cause = none → r.waits = true → goes (.privTransferComplete n ch) (r.m.onCore n fun q => { q with priv := q.priv.set k (d, r.t) })) ∧
      (∀ e, r.cause = some e → goes (.privTransferComplete n ch)
        (((r.m.onCore n fun q => { q with priv := q.priv.set k (d, { r.t with fault := some { e with lv := 1 } }) }).recordPriv d (if ch then 1 else 0) (some e)).onOwner d fun x => { x with deferred := x.deferred ++ [{ e with lv := 1 }] })))

/-- 09 R211-R215, R232, R234, R236; 10 R256; 14 R304, R307, R309; 16 R340, R342; 17 R358-R361; 21 R412: what happens at memory. The i-th store of a path is performed once no earlier one of its home slice stands before it, in a coded region by decoding, merging and
encoding its block, or is staged for its group, or raises STAGE_OVERFLOW; a flush adds the counters of every slice to the entry; a snoop of host memory, or of an expander that shares it, gives up the package's copy; scrubbing raises 0x33 or rolls the group back; a refill moves addresses
to the stack; the host and peers read, write and add through the damper, and the host reads and writes BAR 0.
The home slice of a line of tier 2 or 3, what a partial store leaves of a reserved block, and what outside agents reach, are the model's choices (notes/assumptions/64.md, 73.md, 89.md). -/
def Obligations.MemoryEvents : Prop :=
  ∀ s : State,
    let goes (e : Instr) (m : Machine) : Prop := exec e s = .next { s with m }
    (∀ n i (e : StoreEntry), (s.m.core n).path[i]? = some e →
      let ev : Instr := if e.coded.isSome && e.stage.isNone then .codedStoreRmw n i else .storePerformed n i
      let off := s.m.setCore n { s.m.core n with path := (s.m.core n).path.eraseIdx i }
      let meets (f : StoreEntry) : Prop := overlaps f.key f.bytes.length e.key e.bytes.length = true ∨
        ((f.stage.all fun x => s.m.canStage x (f.key / 128)) = true ∧ ownerOf f.key = ownerOf e.key ∧ homeSlice f.key = homeSlice e.key)
      ((∃ f ∈ (s.m.core n).path.take i, meets f) → goes ev s.m) ∧
      ((∀ f ∈ (s.m.core n).path.take i, ¬ meets f) →
        (e.stage = none → s.m.reaches e.key = true → goes ev (off.performPlain e)) ∧
        (e.stage = none → s.m.reaches e.key = false → goes ev (s.m.lostRoute e.ctx (.route (e.key / 2 ^ 46 - 3)))) ∧
        (∀ x, e.stage = some x → s.m.canStage x (e.key / 128) = true → goes ev ((off.noteInput e).stage x e).noteWaits) ∧
        (∀ x, e.stage = some x → s.m.canStage x (e.key / 128) = false → goes ev (s.m.overflow n i e x)))) ∧
    (∀ (m0 : Machine) (e : StoreEntry) cri, let m := ((m0.noteInput e).dropLlc e.key).farRequest (coreOf e.ctx) e.key e.bytes.length e.bytes
      e.coded = some cri →
      (e.bytes.length ≠ 128 → e.ctx < 384 → codedLine m cri e.key = none → m0.performPlain e = (m.async e.ctx { code := 0x33, i0 := e.va }).noteWaits) ∧
      (∀ old m' fl, (e.bytes.length = 128 ∧ old = []) ∨ (e.bytes.length ≠ 128 ∧ codedLine m cri e.key = some old) →
        codedStore m cri e.key (lineWords ((lineBytes old).take (e.key % 128) ++ e.bytes ++ (lineBytes old).drop (e.key % 128 + e.bytes.length))) = .ok (m', fl) →
          m0.performPlain e = (if e.ctx < 384 then m'.onCtx e.ctx fun x => x.orFlg fl else m').noteWaits)) ∧
    (∀ cri : BitVec 6,
      let key := crtb s.m + 128 * cri.toNat
      let e := s.m.nat key 128
      (bit e 62 = false → goes (.codecFlush cri) s.m) ∧
      (bit e 62 = true →
        let start : CodecPart := { nenc := bits e 512 64, nlossy := bits e 576 64, nsub := bits e 640 64, maxe := sgn 16 (bits e 704 16), t := .ofNat (bits e 768 192) }
        let sum := (List.range 96).foldl (fun (a : CodecPart) sl => a.merge (SMap.get {} s.m.codec (64 * sl + cri.toNat))) start
        ∃ e', goes (.codecFlush cri) ({ s.m with codec := s.m.codec.filter fun p => 2 ^ 13 ≤ p.1 || p.1 % 64 != cri.toNat }.setNat key 128 e') ∧
          bits e' 512 64 = sum.nenc % 2 ^ 64 ∧ bits e' 576 64 = sum.nlossy % 2 ^ 64 ∧ bits e' 640 64 = sum.nsub % 2 ^ 64 ∧ bits e' 704 16 = wrap 16 sum.maxe ∧ bit e' 62 = false)) ∧
    (∀ a,
      let snooped (key : Nat) : Machine := { s.m with llc := SMap.set [] s.m.llc (key / 128) [], out := s.m.out ++ [OutMsg.snoop key] }
      let key := 2 ^ 46 + a % 2 ^ 44
      let shared := (s.m.hdm.find? fun r => r.1 == bits key 42 2 && r.2.1 ≤ key % 2 ^ 42 && key % 2 ^ 42 < r.2.1 + r.2.2.1).any (·.2.2.2)
      (shared = true → goes (.cxlBiSnoop a) (snooped key)) ∧ (shared = false → goes (.cxlBiSnoop a) s.m) ∧ goes (.hostCxlSnoop a) (snooped (hostKey a))) ∧
    (∀ c, c < 384 → (s.m.ctx c).st ≠ .free → (s.m.ctx c).st ≠ .retired →
      (s.m.openGroupOf c = none → goes (.scrubEcc c) (s.m.async c { code := 0x33 })) ∧ (∀ x, s.m.openGroupOf c = some x → goes (.scrubEcc c) (s.m.rollback x 0x33 (selfPkg s.m * 512 + c)))) ∧
    (∀ rec,
      let key := allocRecord s.m rec
      let r := s.m.nat key 64
      let n := min (recRfn r) (recScap r - recNfree r)
      ((recRfn r = 0 ∨ recRfn r = 0xFFFFFFFF) → goes (.allocRefill rec) s.m) ∧
      (recRfn r ≠ 0 → recRfn r ≠ 0xFFFFFFFF → goes (.allocRefill rec)
        (((List.range n).foldl (fun (m : Machine) i => m.setWord (recStk r + 8 * (recNfree r + i)) (m.word (recRfa r + 8 * i))) s.m).setNat key 64 (setBits (setBits r 416 32 (recNfree r + n)) 256 32 0)))) ∧
    (∀ a : AgentAccess,
      let n := a.data.length
      let dst := if a.cxl then 513 else 512
      let refused : Prop := goes (.hostAgentAccess a) { s.m with out := s.m.out ++ [OutMsg.reply dst 0 false []] }
      let reached := (a.addr < 2 ^ 46 ∧ s.m.locked = true ∧ s.m.expired = false ∧ a.addr + n ≤ hbmSize) ∨
        (2 ^ 46 ≤ a.addr ∧ a.addr < 2 ^ 56 ∧ a.addr / 2 ^ 46 = (a.addr + n - 1) / 2 ^ 46 ∧ a.addr / 2 ^ 46 < 515) ∨
        (2 ^ 56 ≤ a.addr ∧ a.addr + n ≤ 2 ^ 57) ∨ (2 ^ 58 ≤ a.addr ∧ a.addr + n ≤ 2 ^ 58 + 2 ^ 56)
      let bar := 2 ^ 57 ≤ a.addr ∧ a.addr < 2 ^ 58
      let held (off : Nat) : Prop := (0x1000 ≤ off ∧ off < 0x1800) ∨ (0x2000 ≤ off ∧ off < 0x3200)
      (bar → a.cxl = true → goes (.hostAgentAccess a) s.m) ∧
      (bar → a.cxl = false →
        (a.kind = 0 → ∃ bs : List Byte, goes (.hostAgentAccess a) { s.m with out := s.m.out ++ [OutMsg.reply 512 0 true bs] } ∧ bs.length = n ∧
          ∀ i < n, ((a.addr - 2 ^ 57 + i < 8 ∨ held (a.addr - 2 ^ 57 + i)) → bs.getD i 0 = SMap.get 0 s.m.bar0 (a.addr - 2 ^ 57 + i)) ∧
            (¬ (a.addr - 2 ^ 57 + i < 8 ∨ held (a.addr - 2 ^ 57 + i)) → bs.getD i 0 = 0)) ∧
        (a.kind = 1 → s.m.expired = false → ∃ m1 : Machine, goes (.hostAgentAccess a) (if a.addr = 2 ^ 57 + 8 ∧ a.data ≠ [] then m1.irq (0x1100 + (a.data.headD 0).toNat) else m1) ∧
          m1 = { s.m with bar0 := m1.bar0 } ∧ (SMap.rising s.m.bar0 = true → ∀ off, held off → SMap.get 0 m1.bar0 off =
            if a.addr - 2 ^ 57 ≤ off ∧ off < a.addr - 2 ^ 57 + n then a.data.getD (off - (a.addr - 2 ^ 57)) 0 else SMap.get 0 s.m.bar0 off))) ∧
      (¬ bar → ¬ reached → refused) ∧
      (¬ bar → reached →
        (a.kind = 0 → goes (.hostAgentAccess a) { s.m with out := s.m.out ++ [OutMsg.reply dst 0 true (s.m.bytes a.addr n)] }) ∧
        (a.kind ≠ 0 → a.addr < 0x10000 → refused) ∧
        (a.kind = 1 → 0x10000 ≤ a.addr → goes (.hostAgentAccess a) (s.m.performPlain { ctx := 384, key := a.addr, bytes := a.data })) ∧
        (a.kind = 2 → 0x10000 ≤ a.addr →
          let key := a.addr / 8 * 8
          let m := s.m.performPlain { ctx := 384, key, bytes := leBytes 8 ((s.m.word key + leNat (a.data.take 8)) % 2 ^ 64) }
          goes (.hostAgentAccess a) { m with out := m.out ++ [OutMsg.reply dst 0 true (s.m.bytes key 8)] })))

/-- 14 R303, R304, R306-R308; 09 R236; 15 R319, R321: groups and barriers. A context departs once the generation has advanced, with D the one it arrived in, and a barrier that its able contexts cannot reach gives its
waiters BARRIER_UNREACHABLE with EXP, ARR and their number, as it stands and as each group has staged it; a group whose arrivals are complete commits in two steps: its staged lines but the version words are written, and
then the version words, the objects it has changed, the generation and SSN advance and its members depart; a rollback halts the members, discards what is staged, empties the arrivals, records LCS and leaves the group rolling
back, one that comes while a commit is under way waits for its end, and others are absorbed; CMD 1 makes a held group compute again, 2 rolls it back, 3 fails it but while it commits or is restored, and any other becomes 0xFF;
a failed group without members, its record stored to, becomes inactive. That CMD 2 records no named cause, when a group of several packages decides, and the able contexts of other packages, are the model's choices
(notes/assumptions/5.md, 49.md, 95.md). -/
def Obligations.GroupEvents : Prop :=
  ∀ (s : State) (x c : Nat),
    let goes (e : Instr) (m : Machine) : Prop := exec e s = .next { s with m }
    let r := s.m.groupRec x
    (∀ t, (s.m.ctx c).dep = some t →
      ((s.m.ctx c).st ≠ .checkpointed → (∀ o, s.m.objectOf c t.key = some o → objGen o ≠ t.gen) →
        goes (.barrierDeparture c) ((s.m.dropCopies c t.sc.toNat t.key).onCtx c fun x => { (x.put .s t.d.toNat t.gen) with dep := none })) ∧
      ((s.m.ctx c).st = .checkpointed → goes (.barrierDeparture c) s.m) ∧
      (∀ o, s.m.objectOf c t.key = some o → objGen o = t.gen → goes (.barrierDeparture c) s.m)) ∧
    (∀ key, goes (.barrierUnreachable key) (s.m.groups.foldl (fun (m : Machine) g => m.withdraw (some g.1) key) (s.m.withdraw none key))) ∧
    (∀ (m : Machine) key v, m.object key = some v →
      let held := (List.range 384).filter fun c => (m.ctx c).dep.any (fun t => t.key == key && t.gen == objGen v) &&
        ((m.ckGroup c).bind fun g => if (m.stagedObject g.1 key).isSome then some g.1 else none) == none
      let able := m.ableCount key v
      ((objScope v = 7 ∨ objArr v = 0 ∨ objExp v ≤ objArr v + able ∨ ∃ c ∈ held, m.commitsAt c key = true) → m.withdraw none key = m) ∧
      (objScope v ≠ 7 → objArr v ≠ 0 → objArr v + able < objExp v → (∀ c ∈ held, m.commitsAt c key = false) →
        m.withdraw none key = held.foldl (fun (m : Machine) c => match (m.ctx c).dep with
          | some t => (m.onCtx c fun x => { x with dep := none }).takeCause c { code := 0x27, i0 := objExp v, i1 := objArr v, i2 := able } t.pc
          | none => m) ({ m with fresh := m.fresh + 1 }.putObject none key (setBits v 64 24 0) m.regions))) ∧
    (∀ (m : Machine) g key, m.stagedObject g key = none → m.withdraw (some g) key = m) ∧
    ((grState r ≠ 2 ∧ grState r ≠ 3) → goes (.commitDecision x) s.m) ∧
    (∀ k o, s.m.barKey x = some k → s.m.objectIn x k = some o → grState r = 2 →
      let complete : Prop := if s.m.spansOut x = true then (∀ c ∈ s.m.members x, (s.m.ctx c).st = .checkpointed) ∧ s.m.savedMembers x = [] else objArr o = objExp o
      (¬ complete → goes (.commitDecision x) s.m) ∧
      (complete →
        let mine := s.m.staged.filter fun l => l.x == x
        let versions := (mine.map fun l => { l with mask := s.m.versionMask l }).filter fun l => l.mask != 0
        let m0 : Machine := { s.m with staged := (s.m.staged.filter fun l => l.x != x) ++ versions }
        goes (.commitDecision x) ((mine.foldl (fun m l => (m.writeStaged l false).dropEverywhere l.line) m0).setGroupRec x 0 4 3))) ∧
    (grState r = 3 →
      let mine := s.m.staged.filter fun l => l.x == x
      let m0 : Machine := { s.m with staged := s.m.staged.filter fun l => l.x != x }
      let m1 := mine.foldl (fun m l => ((m.writeStaged l true).writeStaged l false).dropEverywhere l.line) m0
      let m2 := (m1.group x).objs.foldl (fun (m : Machine) o => m.putObject none o.1 o.2.1 ((m.regions.filter fun r => r.1 != o.1) ++ o.2.2.map fun r => (o.1, r))) m1
      let m3 := m2.setGroup x { m2.group x with objs := [] }
      ∀ k o, m3.barKey x = some k → m3.object k = some o →
      let m4 := ((m3.setObject k (setBits (setBits o 64 24 0) 0 64 (objGen o + 1))).setWord k ((m3.word k + 1) % 2 ^ 64)).keepStolen x
      let m5 := (((((m4.setGroupRec x 224 32 (grSsn r + 1)).setGroupRec x 4 1 (1 - grPar r)).setGroupRec x 208 16 0).setGroupRec x 328 28 0).setGroupRec x 0 4 1)
      let m6 := m5.setGroup x { saved := (m5.group x).arrived, late := (m5.group x).late }
      let m7 := ((m6.members x).filter fun c => (m6.ctx c).st == .checkpointed).foldl Machine.departMember m6
      ((m7.group x).late = none → goes (.commitDecision x) m7) ∧ (∀ t, (m7.group x).late = some t → goes (.commitDecision x) (m7.rollback x t.1 t.2))) ∧
    (∀ (cause : BitVec 6) pkg k,
      let culprit := pkg * 512 + k
      (grState r ∉ [1, 2, 3] → goes (.rollbackTrigger x cause pkg k) s.m) ∧
      (grState r = 3 → goes (.rollbackTrigger x cause pkg k) (s.m.setGroup x { s.m.group x with late := (s.m.group x).late.or (some (cause.toNat, culprit)) })) ∧
      (grState r = 1 ∨ grState r = 2 →
        let live := s.m.members x
        let held := s.m.savedMembers x
        let m1 := ((live.foldl Machine.halt s.m).onPriv (·.filter fun p => !(held.any fun h => p.1 == 384 + savedKey h.1 h.2))).discardStaged x
        let m2 := match m1.barKey x with
          | some k => (m1.object k).elim m1 fun o => m1.setObject k (setBits o 64 24 0)
          | none => m1
        let m3 := live.foldl (fun m c => m.onCtx c fun y => { y with st := .checkpointed, hold := none, dep := none }) m2
        let m4 := (((m3.setGroupRec x 328 28 0).setGroupRec x 194 6 cause.toNat).setGroupRec x 208 16 (grRbc r + 1)).setGroupRec x 0 4 4
        goes (.rollbackTrigger x cause pkg k) (m4.setGroup x { m4.group x with arrived := [], culprit, late := none }))) ∧
    (∀ m : Machine, (m.discardStaged x).staged = m.staged.filter (fun l => l.x != x) ∧ (SMap.rising m.groups = true → (m.discardStaged x).group x = { m.group x with objs := [] }) ∧ (m.discardStaged x).mem = m.mem) ∧
    (grCmd r = 1 → grState r = 5 →
      goes (.groupCmdReplay x) (((s.m.members x).foldl (fun m c => if (m.ctx c).st = .checkpointed then (m.onCtx c fun y => { y with st := .ready }).requeue c else m) (s.m.setGroupRec x 0 4 1)).setGroupRec x 128 8 0)) ∧
    ((grCmd r ≠ 1 ∨ grState r ≠ 5) → goes (.groupCmdReplay x) s.m) ∧
    (grCmd r = 2 → (grState r = 1 ∨ grState r = 2) → ∃ cause, cause < 64 ∧ goes (.groupCmdRollback x) (({ s.m with fresh := s.m.fresh + 1 }.rollback x cause (2 ^ 64 - 1)).setGroupRec x 128 8 0)) ∧
    ((grCmd r ≠ 2 ∨ (grState r ≠ 1 ∧ grState r ≠ 2)) → goes (.groupCmdRollback x) s.m) ∧
    (grCmd r = 3 → (grState r = 1 ∨ grState r = 2 ∨ grState r = 5) →
      let m1 := ((s.m.discardStaged x).setGroupRec x 0 4 6).setGroupRec x 128 8 0
      let m2 := (s.m.members x).foldl (fun (m : Machine) c => m.onCtx c fun y => if y.st = .checkpointed then { y with st := .ready, dep := none } else y) m1
      goes (.groupCmdFail x) ((((s.m.members x).filterMap fun c => (m1.ctx c).launch) ++ (m1.savedMembers x).map (·.1)).foldl (fun (m : Machine) li => m.failLaunch li (grLcs r)) m2)) ∧
    ((grCmd r ≠ 3 ∨ (grState r ≠ 1 ∧ grState r ≠ 2 ∧ grState r ≠ 5)) → goes (.groupCmdFail x) s.m) ∧
    (4 ≤ grCmd r → grCmd r ≠ 0xFF → goes (.groupCmdInvalid x) (s.m.setGroupRec x 128 8 0xFF)) ∧
    ((grCmd r < 4 ∨ grCmd r = 0xFF) → goes (.groupCmdInvalid x) s.m) ∧
    (∀ p, s.m.watch.find? (fun p => groupWord s.m p.1 && (p.1 - grb s.m) / 64 == x) = some p →
      let m' : Machine := { s.m with watch := s.m.watch.erase p }
      (grState r = 6 → m'.members x = [] → goes (.groupRecordRewrite x) ((m'.setGroup x {}).setGroupRec x 0 4 0)) ∧
      ((grState r ≠ 6 ∨ m'.members x ≠ []) → goes (.groupRecordRewrite x) m'))

/-- 18 R365-R367, R371-R377; 20 R401-R404, R407: blocks and collective entries at work. What needs a block in another tier marks it BUSY, takes a frame for it and
waits, and its move then copies the block: a promotion to a staging frame, which becomes current with the old one as its replica if the tag agrees, a demotion below, with its tag; a move that fails is told to who asked; a stove answers for a
dispatched block and the flue folds it at PFX or keeps it in the window; a `kvmap` does its blocks in order. A hop waits for contribution and partial, then sends on; a delivery writes payload and FLAG; a fire ends once its hop
and its own delivery have; a stall is COLL_OVERRUN 1; an arrival of the open generation is accepted, one of the next shadowed, any other refused.
The replica that a promotion leaves, and the order of the operations on one block, are in part the model's choices (notes/assumptions/20.md, 55.md). -/
def Obligations.KvAndCollectiveEvents : Prop :=
  ∀ s : State,
    let goes (e : Instr) (m : Machine) : Prop := exec e s = .next { s with m }
    (∀ block, let pick (tier : Nat) := s.m.moves.find? fun v => v.pkg * 2 ^ 40 + v.gbn == block && v.tier == tier && v.why.isNone
      let off (v : KvMove) : Machine := { s.m with moves := s.m.moves.erase v }
      (pick 0 = none → goes (.kvPromotion block) s.m) ∧ (∀ v f, pick 0 = some v → v.frame = some f → goes (.kvPromotion block) ((off v).kvPromote v f)) ∧
      goes (.kvDemotion block 0) s.m ∧
      (∀ tier : BitVec 2, tier ≠ 0 → (pick tier.toNat = none → goes (.kvDemotion block tier) s.m) ∧ (∀ v, pick tier.toNat = some v → goes (.kvDemotion block tier) ((off v).kvDemote v)))) ∧
    (∀ (m : Machine) (v : KvMove) frame m1, let e := setBits (ownerEntry m v.pkg v.gbn) 59 1 0
      let size := bits (ownerWord m v.pkg 0x90) 32 16 * 4096
      (m.cxlFails v (oeTier e) (oeFrame e) = (m1, true) → m.kvPromote v frame = m1.kvFail v e 2) ∧
      (m.cxlFails v (oeTier e) (oeFrame e) = (m1, false) →
        let bs := m1.bytes (tierKey m v.pkg (oeTier e) (oeFrame e)) size
        let m2 := m1.setBytes (tierKey m v.pkg 0 frame) bs
        (crc64 bs ≠ bits e 64 64 → m.kvPromote v frame = m2.kvFail v e 0) ∧
        (crc64 bs = bits e 64 64 → ∃ e', m.kvPromote v frame = m2.kvSettle v e' ∧
          oeTier e' = 0 ∧ oeFrame e' = frame / 4096 % 2 ^ 34 * 4096 ∧ oeRv e' = true ∧ bits e' 156 2 = oeTier e ∧ bits e' 158 34 = oeFrame e / 4096 ∧ bit e' 59 = false)) ∧
      (v.frame = none → ∃ e', m.kvDemote v = (m.kvSettle v e').kvPush v.pkg 0 (oeFrame e) ∧ oeTier e' = v.tier % 4 ∧ oeFrame e' = bits e 158 34 * 4096 ∧ oeRv e' = false ∧ bit e' 59 = false) ∧
      (∀ f, v.frame = some f → m.cxlFails v v.tier f = (m1, true) → m.kvDemote v = m1.kvFail v e 2) ∧
      (∀ f, v.frame = some f → m.cxlFails v v.tier f = (m1, false) →
        let bs := m1.bytes (tierKey m v.pkg 0 (oeFrame e)) size
        ∃ e', m.kvDemote v = ((m1.setBytes (tierKey m v.pkg v.tier f) bs).kvSettle v e').kvPush v.pkg 0 (oeFrame e) ∧
          oeTier e' = v.tier % 4 ∧ oeFrame e' = f / 4096 % 2 ^ 34 * 4096 ∧ oeSealed e' = true ∧ bits e' 64 64 = (if oeSealed e = true then bits e 64 64 else crc64 bs % 2 ^ 64) ∧ bit e' 59 = false)) ∧
    (∀ (m : Machine) who pkg gbn tier leaf, let e := ownerEntry m pkg gbn
      let away : Prop := pkg ≠ selfPkg m ∧ routes m pkg = []
      let told := m.moves.find? fun v => v.pkg == pkg && v.gbn == gbn && v.who == who && v.why.isSome
      (away → m.kvNeed who pkg gbn tier leaf = (m, .wait)) ∧
      (∀ v, ¬ away → told = some v → m.kvNeed who pkg gbn tier leaf = ({ m with moves := m.moves.erase v }, .bad (v.why.getD 0))) ∧
      (¬ away → told = none →
        (ownerOk m pkg gbn e = false → m.kvNeed who pkg gbn tier leaf = (m, .bad 1)) ∧
        (ownerOk m pkg gbn e = true → bit e 59 = true → m.kvNeed who pkg gbn tier leaf = (m, .wait)) ∧
        (ownerOk m pkg gbn e = true → bit e 59 = false → (oeTier e = 0 ↔ tier = 0) → m.kvNeed who pkg gbn tier leaf = (m, .ready)) ∧
        (ownerOk m pkg gbn e = true → bit e 59 = false → ¬ (oeTier e = 0 ↔ tier = 0) →
          let v : KvMove := { pkg, gbn, tier, leaf, who }
          let begun (m1 : Machine) (frame : Option Nat) : Machine :=
            let m2 := m1.setNat (ownerKey m1 pkg gbn) 32 (setBits e 59 1 1)
            { m2 with moves := m2.moves ++ [{ v with frame }] }.farRequest (coreOf who.1) (ownerKey m2 pkg gbn) 32
          let replica : Prop := tier ≠ 0 ∧ oeSealed e = true ∧ oeRv e = true ∧ bits e 156 2 = tier
          (replica → m.kvNeed who pkg gbn tier leaf = (begun m none, .wait)) ∧
          (¬ replica → m.kvPop pkg (tier - 1) = none → m.kvNeed who pkg gbn tier leaf = (m, .wait)) ∧
          (¬ replica → ∀ p, m.kvPop pkg (tier - 1) = some p → m.kvNeed who pkg gbn tier leaf = (begun p.1 (some p.2), .wait))))) ∧
    (∀ (m : Machine) (op : KvOp) c i, op.kind = .attn →
      let out := attnOut op (m.readSlot c op 0)
      let w := widthOf op.fmt (entFmt op.dst.ent)
      m.attnDone c i op = (m.onCore (coreOf c) fun k => out.1.foldl (fun k e => k.setPadBits (tdG op.dst.desc) (8 * (tdOff op.dst.desc + e.1 * tdPitch op.dst.desc) + w * e.2.1) w e.2.2) k).onCtx c fun x =>
        ({ x with kvops := x.kvops.eraseIdx i }).orFlg (op.fl ||| out.2)) ∧
    (∀ c i b (op : KvOp), (s.m.ctx c).kvops[i]? = some op → op.kind = .attn → op.fault = none → (s.m.ctx c).kvTurn op = true → b < op.nb →
      let p := s.m.progress c op
      p.1 ≤ b → b < p.1 + 16 → bit p.2 (b - p.1) = false → SMap.get [] op.parts b = [] → (∀ f ∈ op.failed, f.1 ≠ b) →
      let e := op.leaves.getD b 0
      let need := s.m.kvNeed (c, op.seq) (leafOwner e) (leafGbn e) 0 (s.m.leafKey c op.root b)
      (∀ m', need = (m', .wait) → goes (.stovePartial c i b) (if leafOwner e ≠ selfPkg m' ∧ routes m' (leafOwner e) = [] then m'.lostRoute c (.route (leafOwner e)) else m')) ∧
      (∀ m' why, need = (m', .bad why) → goes (.stovePartial c i b) (m'.setKv c i (m'.attnFault c { op with failed := op.failed ++ [(b, why)] }))) ∧
      (∀ m', need = (m', .ready) → let r := m'.stove c op b
        goes (.stovePartial c i b) ((m'.farRequest (coreOf c) (frameKey m' (leafOwner e) (leafGbn e)) (r.1.length * 8)).setKv c i
          { op with parts := SMap.set [] op.parts b (r.1.map (.ofNat 64)), fl := op.fl ||| r.2 }))) ∧
    (∀ c i b (op : KvOp), (s.m.ctx c).kvops[i]? = some op → op.kind = .attn → op.nb = 0 → op.fault = none → (s.m.ctx c).kvTurn op = true →
      goes (.flueFold c i b) ((s.m.writeSlot c op 0 ((List.range (tdRows op.src.desc)).flatMap fun _ => emptyRow (rootD op.root))).attnDone c i op)) ∧
    (∀ c i b (op : KvOp) ws, (s.m.ctx c).kvops[i]? = some op → op.nb ≠ 0 → (SMap.get [] op.parts b).map (·.toNat) = ws → ws ≠ [] →
      let op' := { op with parts := SMap.set [] op.parts b [] }
      let p := s.m.progress c op'
      (b ≠ p.1 → let m := (s.m.writeSlot c op' (b - p.1) ws).setProgress c op' p.1 (p.2 ||| 2 ^ (b - p.1)); goes (.flueFold c i b) (m.setKv c i (m.attnFault c op'))) ∧
      (b = p.1 → let q := s.m.foldFrom c op' ws 17 p.1 p.2
        let m := q.1.setProgress c op' q.2.1 q.2.2.1
        let op'' := { op' with fl := op'.fl ||| q.2.2.2 }
        (q.2.1 ≠ op.nb → goes (.flueFold c i b) (m.setKv c i (m.attnFault c op''))) ∧
        (q.2.1 = op.nb → goes (.flueFold c i b) (m.attnDone c i op'')))) ∧
    (∀ (m : Machine) c (op : KvOp) b, let e := op.leaves.getD b 0
      let need := m.kvNeed (c, op.seq) (leafOwner e) (leafGbn e) (if op.kind = .demote then op.tier else 0) (m.leafKey c op.root b)
      (∀ m', need = (m', .wait) → m.kvBlock c op b = (if leafOwner e ≠ selfPkg m' ∧ routes m' (leafOwner e) = [] then m'.lostRoute c (.route (leafOwner e)) else m', .wait)) ∧
      (∀ m' why, need = (m', .bad why) → m.kvBlock c op b = (m', .bad why)) ∧
      (∀ m', need = (m', .ready) → op.kind ≠ .write → m.kvBlock c op b = (m', .ok 0)) ∧
      (∀ m', need = (m', .ready) → op.kind = .write → let r := (m'.kvOpen (leafOwner e) (leafGbn e)).kvRows c op b; m.kvBlock c op b = (r.1, .ok r.2))) ∧
    (∀ c i (op : KvOp), (s.m.ctx c).kvops[i]? = some op → op.kind ≠ .attn → op.fault = none → (s.m.ctx c).kvTurn op = true →
      let run := s.m.kvBlocks c op (op.blocks.drop op.done) op.done op.fl
      (∀ m' n fl, run = (m', n, fl, none) → goes (.kvmapComplete c i) (m'.setKv c i { op with done := n, fl })) ∧
      (∀ m' n fl, run = (m', n, fl, some none) → goes (.kvmapComplete c i) (m'.onCtx c fun x => ({ x with kvops := x.kvops.eraseIdx i }).orFlg fl)) ∧
      (∀ m' n fl b why, run = (m', n, fl, some (some (b, why))) → let e := op.leaves.getD b 0
        (why ≠ 2 → goes (.kvmapComplete c i) (m'.setKv c i { op with done := n, fl, fault := some { code := 0x2E, kind := 1, i0 := b, i1 := op.pc, i2 := some (leafOwner e * 2 ^ 40 + leafGbn e), i3 := why } })) ∧
        (why = 2 → goes (.kvmapComplete c i) (m'.setKv c i { op with done := n, fl, fault := some { code := 0x31, kind := 1, i0 := none, i1 := op.pc } })))) ∧
    (∀ n i, let u := s.m.coll n i
      let r := collRec s.m n
      let e := collEnt s.m r i
      let k := crRank r
      let mine := s.m.bytes (ceCaddr e) (ceLen e)
      let ended (m : Machine) (fl : Nat) : Machine :=
        let m' := m.setColl n i { m.coll n i with hopDone := true }
        if parserFires ≤ u.ctx then (match m'.launch (u.ctx - parserFires) with
          | some l => m'.setLaunch (u.ctx - parserFires) { l with flg := l.flg ||| fl }
          | none => m')
        else m'.onFire u.ctx n i fun t => { t with hopped := true, fl := t.fl ||| fl }
      ((u.contributed = false ∨ u.hopDone = true) → goes (.ringHop n i) s.m) ∧
      (∀ pkg, u.contributed = true → u.hopDone = false → (ceRed e = none ∨ crP r = 1 ∨ k = i % crP r ∨ u.partialIn = true) → s.m.hopAway r e i = some pkg →
        goes (.ringHop n i) (s.m.lostRoute u.ctx (.route pkg))) ∧
      (u.contributed = true → u.hopDone = false → s.m.hopAway r e i = none →
        (ceRed e = none → goes (.ringHop n i) (ended (s.m.sendResult n i r e 2 mine) 0)) ∧
        (∀ op, ceRed e = some op → crP r = 1 → goes (.ringHop n i) (ended (s.m.sendResult n i r e 1 mine) 0)) ∧
        (∀ op, ceRed e = some op → crP r ≠ 1 → k = i % crP r → goes (.ringHop n i) (ended (s.m.sendColl n i r e 0 ((k + 1) % crP r) mine) 0)) ∧
        (∀ op, ceRed e = some op → crP r ≠ 1 → k ≠ i % crP r → u.partialIn = false → goes (.ringHop n i) s.m) ∧
        (∀ op, ceRed e = some op → crP r ≠ 1 → k ≠ i % crP r → u.partialIn = true →
          let y := combine op (ceFmt e) (ceRm e) (s.m.bytes (ceRaddr e) (ceLen e)) mine
          goes (.ringHop n i) (ended (if k = (i % crP r + crP r - 1) % crP r then s.m.sendResult n i r e 1 y.1 else s.m.sendColl n i r e 0 ((k + 1) % crP r) y.1) y.2))) ∧
      ((u.pay = [] ∨ u.delivered = true) → goes (.collDelivery n i) s.m) ∧
      (u.pay ≠ [] → u.delivered = false →
        let m' := ((s.m.setBytes (ceRaddr e) u.pay).setWord (ceFlag e) (crGen r)).completionRelease (ceSob e)
        let told := if (ceRed e).isSome then (i + crP r - 1) % crP r else ceSrc e
        goes (.collDelivery n i) ({ m'.setColl n i { u with pay := [], delivered := true } with
          out := if told = k then m'.out else m'.out ++ [OutMsg.reply (rankPkg m' r told) (4096 * n + i) true []] }.tryClose n)) ∧
      ((u.hopDone = false ∨ u.pay ≠ []) → goes (.collFireComplete n i) s.m) ∧
      (u.hopDone = true → u.pay = [] → parserFires ≤ u.ctx → goes (.collFireComplete n i) ((s.m.setColl n i { u with acked := true }).tryClose n)) ∧
      (∀ f, u.hopDone = true → u.pay = [] → u.ctx < parserFires →
        let mine (t : Fire) : Bool := t.inst == n && t.entry == i && t.hopped && t.fault.isNone
        (s.m.owner u.ctx).fires.find? mine = some f →
        goes (.collFireComplete n i) (((s.m.onOwner u.ctx fun x => { x with fires := x.fires.filter fun t => !mine t }).ownerFlags u.ctx f.fl).tryClose n)) ∧
      (u.hopDone = true → goes (.collStallTimeout n i) ((s.m.overrun n i 1).tryClose n)) ∧ (u.hopDone = false → goes (.collStallTimeout n i) s.m)) ∧
    (∀ a : CollMsg, a.kind ≠ 3 →
      let n := a.inst
      let i := a.entry
      let r := collRec s.m n
      let e := collEnt s.m r i
      let said (m : Machine) (ok : Bool) (d : List Byte) : Machine := { m with out := m.out ++ [OutMsg.reply a.src (4096 * n + i) ok d] }
      let legal := recOk s.m r = true ∧ i < crNent r ∧ a.rank < crP r ∧ agrees s.m a r e = true
      (¬ (n < 1024 ∧ dirOk (dirWord s.m n) = true) → goes (.collArrival a) (said s.m false [3])) ∧
      (n < 1024 ∧ dirOk (dirWord s.m n) = true →
        (¬ legal → goes (.collArrival a) (said s.m false [3])) ∧
        (legal → a.gen = crGen r → crOpen r = true → a.kind = 0 → goes (.collArrival a) (said (s.m.accept n i e 0 a.data) true [])) ∧
        (legal → a.gen = crGen r → crOpen r = true → a.kind ≠ 0 → goes (.collArrival a) (s.m.setColl n i { s.m.coll n i with pay := a.data })) ∧
        (legal → a.gen = crGen r + 1 → ceSaddr e ≠ 0 → ceSh e = false → goes (.collArrival a) (said ((s.m.setBytes (ceSaddr e) a.data).setNat (entKey r i) 64 (setBits e 23 1 1)) true [])) ∧
        (legal → a.gen ≠ crGen r → a.gen ≠ crGen r + 1 → goes (.collArrival a) (said s.m false []))))

/-- 19 R381-R386, R392, R393: links, frames and messages. A link command acts in the states that it is for and is cleared, an unknown one becomes 0xFF; a bring-up ends with 8 lanes, 4 to 7, or at the third failure in a row
failed; loss of lock goes back to training. A frame with a bad check or out of order asks for a resend, one in order is acknowledged and the next expected; frames unacknowledged are sent again. A request of another package is
performed once, inside its window. A send begins when it is first, its receive is posted and it has a route, a receive fills its tile, releases its object and is answered, or ends with CONN_REMOTE, and one whose peer entry does not name this one is
answered with sub-code 3; a broken entry gives it to all.
When an access, hop or send without a route is tried again, the number of a failing message, what frames are dropped, and the requests on blocks of a KV table, are the model's choices (notes/assumptions/56.md, 97.md, 98.md). -/
def Obligations.LinkEvents : Prop :=
  ∀ (s : State) (p : Nat),
    let goes (e : Instr) (m : Machine) : Prop := exec e s = .next { s with m }
    let cmd := linkCmd s.m p
    let m0 := s.m.setLink p 56 8 0
    let st := linkState s.m p
    (cmd = 1 → (linkState m0 p = 0 → goes (.linkTrain p) { m0.setLinkState p 1 0 with attempts := SMap.set 0 m0.attempts p 0 }) ∧
      (linkState m0 p ≠ 0 → goes (.linkTrain p) m0)) ∧
    (cmd = 2 → (linkState m0 p ≠ 4 → goes (.linkTakeDown p) (m0.setLinkState p 0 0)) ∧ (linkState m0 p = 4 → goes (.linkTakeDown p) m0)) ∧
    (cmd = 3 → (linkState m0 p = 4 → goes (.linkClear p) (m0.setLinkState p 0 0)) ∧ (linkState m0 p ≠ 4 → goes (.linkClear p) m0)) ∧
    (cmd ∉ [0, 1, 2, 3, 0xFF] → goes (.linkCmdInvalid p) (s.m.setLink p 56 8 0xFF)) ∧
    (∀ n, st ≠ 1 → goes (.bringUpEnd p n) s.m) ∧
    (∀ n, st = 1 →
      (8 ≤ n → goes (.bringUpEnd p n) { s.m.setLinkState p 2 8 with attempts := SMap.set 0 s.m.attempts p 0 }) ∧
      (4 ≤ n → n < 8 → goes (.bringUpEnd p n) { s.m.setLinkState p 3 n with attempts := SMap.set 0 s.m.attempts p 0 }) ∧
      (n < 4 →
        let m1 : Machine := { s.m with attempts := SMap.set 0 s.m.attempts p (SMap.get 0 s.m.attempts p + 1) }
        (SMap.get 0 s.m.attempts p + 1 < 3 → goes (.bringUpEnd p n) m1) ∧
        (3 ≤ SMap.get 0 s.m.attempts p + 1 → goes (.bringUpEnd p n) { m1.setLinkState p 4 0 with attempts := SMap.set 0 m1.attempts p 0 }))) ∧
    ((st = 2 ∨ st = 3) → goes (.blockLockLoss p) (s.m.setLinkState p 1 0)) ∧ (st ≠ 2 → st ≠ 3 → goes (.blockLockLoss p) s.m) ∧
    (∀ pkg, let f := s.m.flow p pkg
      ((f.unacked = [] ∨ (st ≠ 2 ∧ st ≠ 3) ∨ inDomain s.m pkg = false) → goes (.ackTimeout p pkg) s.m) ∧
      (f.unacked ≠ [] → (st = 2 ∨ st = 3) → inDomain s.m pkg = true → f.resends + 1 < 16 →
        let m1 := (s.m.setFlow p pkg { f with resends := f.resends + 1 }).setNat (linkKey s.m p + 8) 8 ((s.m.word (linkKey s.m p + 8) + f.unacked.length) % 2 ^ 64)
        goes (.ackTimeout p pkg) { m1 with out := m1.out ++ f.unacked.map fun u => .frame p u.1 u.2.1 })) ∧
    (∀ f : Frame, s.m.locked = true → s.m.expired = false →
      let h := f.hdr.toNat
      let src := bits h 87 9
      let flow := bits h 73 5
      let exp := SMap.get 0 s.m.expect (32 * src + flow)
      let heard := macKnown s.m f.srcMac = true ∧ (linkState s.m f.port = 2 ∨ linkState s.m f.port = 3)
      let answer (m : Machine) (ack type : Nat) : Machine := { m with out := m.out ++ [.frame f.port (frameHdr 0 ack (selfPkg m) src f.port 0 type) (List.replicate 64 0)] }
      let m1 := s.m.setFlow f.port src { ackFlow (s.m.flow f.port src) (bits h 96 16) with peer := flow }
      let ours := bits h 0 65 = 0 ∧ bits h 65 3 < 3 ∧ bits h 68 5 < 22 ∧ bits h 78 9 = selfPkg s.m
      (¬ heard → goes (.frameReceive f) s.m) ∧
      (heard → f.fcs = false → goes (.frameReceive f) (answer s.m exp 2)) ∧
      (heard → f.fcs = true → ¬ ours → goes (.frameReceive f) s.m) ∧
      (heard → f.fcs = true → ours →
        (bits h 65 3 = 1 → goes (.frameReceive f) m1) ∧
        (bits h 65 3 = 2 → goes (.frameReceive f) (m1.resend f.port src)) ∧
        (bits h 65 3 = 0 → bits h 112 16 ≠ exp → goes (.frameReceive f) (answer m1 exp 2)) ∧
        (bits h 65 3 = 0 → bits h 112 16 = exp → SMap.rising s.m.expect = true →
          goes (.frameReceive f) (answer { m1 with expect := SMap.set 0 m1.expect (32 * src + flow) ((exp + 1) % 2 ^ 16) } ((exp + 1) % 2 ^ 16) 1)))) ∧
    (∀ r : RemoteReq, inDomain s.m r.src = true →
      let seen := SMap.get [] s.m.txns r.src
      let m1 : Machine := { s.m with txns := SMap.set [] s.m.txns r.src ((seen ++ [r.txn]).drop (seen.length + 1 - 2 ^ 16)) }
      let reply (m : Machine) (ok : Bool) (d : List Byte) : Machine := { m with out := m.out ++ [.reply r.src r.txn ok d] }
      let fits := inWindow m1 (lcb m1) r.pa (if r.store then r.data.length else r.len)
      (r.txn ∈ seen → ∀ o, s.m.replied r.src r.txn = some o → goes (.remoteRequest r) { s.m with out := s.m.out ++ [o] }) ∧
      (r.txn ∉ seen → ∀ k, r.kv = some k → let got := ({ m1 with kvReqs := m1.kvReqs ++ [r] } : Machine).kvRequest (512 + r.src, r.txn) k
        (∀ m', got = (m', none) → goes (.remoteRequest r) m') ∧ (∀ m' a, got = (m', some a) → goes (.remoteRequest r) (reply { m' with kvReqs := m'.kvReqs.erase r } a.1 a.2))) ∧
      (r.txn ∉ seen → r.kv = none → fits = false → goes (.remoteRequest r) (reply m1 false [])) ∧
      (r.txn ∉ seen → r.kv = none → fits = true → r.amo = none →
        (r.store = true → goes (.remoteRequest r) (reply (m1.farWrite r.pa r.data r.coded) true [])) ∧
        (r.store = false → ∀ bs, m1.homeRead { key := r.pa, cri := r.coded, leaf := 0 } r.len = .ok bs → goes (.remoteRequest r) (reply m1 true bs)) ∧
        (r.store = false → ∀ e, m1.homeRead { key := r.pa, cri := r.coded, leaf := 0 } r.len = .error e → goes (.remoteRequest r) (reply m1 false []))) ∧
      (r.txn ∉ seen → r.kv = none → fits = true → ∀ op v, r.amo = some (op, v) →
        let n := if r.len = 4 then 4 else 8
        let old := m1.nat r.pa n
        goes (.remoteRequest r) (reply (m1.farWrite r.pa (leBytes n (amoNew op {} (8 * n) old v.toNat).1)) true (leBytes n old)))) ∧
    (∀ c i (t : Msg), (s.m.ctx c).msgs[i]? = some t → t.fault = none → (s.m.ctx c).msgFirst t = true →
      let w := s.m.connWord t.ent
      let ended (m : Machine) : Machine := (m.setNat (connKey m t.ent + slotOff t.slot) 24 0)
      let answered (m : Machine) (why : Nat) : Machine := { m with out := m.out ++ [OutMsg.reply (connPeer w) t.num (why == 0) (if why = 0 then [] else [.ofNat 8 why])] }
      let may := t.begun = false ∧ t.parked = false ∧ (s.m.ctx c).preempting = false ∧ connBrk w = false
      let far := s.m.peerEntry w
      let posted := s.m.word (far + seqOff false) ≤ t.num ∧ t.num < s.m.word (far + seqOff false) + 4 ∧ s.m.nat (far + slotOff (t.num % 4 + 4)) 24 ≠ 0
      let named := connPeer (s.m.word far) = selfPkg s.m ∧ connPidx (s.m.word far) = t.ent
      (t.send = true → may → routes s.m (connPeer w) ≠ [] → ¬ posted → goes (.tsendDataPhase c i) s.m) ∧
      (t.send = true → may → routes s.m (connPeer w) ≠ [] → posted →
        let bs := tileBytes (s.m.core (coreOf c)) t.tile.desc
        let m1 := s.m.onCtx c fun x => { x with msgs := x.msgs.set i { t with begun := true, data := bs } }
        goes (.tsendDataPhase c i) (({ m1 with out := m1.out ++ [OutMsg.message (connPeer w) (connPidx w) t.num (tdRows t.tile.desc) (tdRowb t.tile.desc) bs] }).transmit (connPeer w) t.ent bs)) ∧
      (t.send = true → ¬ may → goes (.tsendDataPhase c i) s.m) ∧
      (t.send = true → may → routes s.m (connPeer w) = [] → goes (.tsendDataPhase c i) (s.m.lostRoute c (.route (connPeer w)))) ∧
      (t.send = false → (t.parked = true ∨ connBrk w = true) → ∀ rows rowb data, goes (.trecvComplete c i rows rowb data) s.m) ∧
      (t.send = false → t.parked = false → connBrk w = false → ∀ rows rowb data,
        (¬ named → goes (.trecvComplete c i rows rowb data) (answered s.m 3)) ∧
        (named → tdRows t.tile.desc * tdRowb t.tile.desc < rows * rowb → goes (.trecvComplete c i rows rowb data) (answered (s.m.endMessage c i t (some (t.remote 2))) 2)) ∧
        (named → rows * rowb ≤ tdRows t.tile.desc * tdRowb t.tile.desc → goes (.trecvComplete c i rows rowb data)
          (answered ((s.m.onCore (coreOf c) fun k => ((data.take (rows * rowb)).zipIdx).foldl (fun k p =>
            k.setPadByte (tdG t.tile.desc) (tdOff t.tile.desc + p.2 / tdRowb t.tile.desc * tdPitch t.tile.desc + p.2 % tdRowb t.tile.desc) p.1) k).endMessage c i t none) 0))) ∧
      (t.send = true →
        (t.begun = true → goes (.tsendComplete c i 0) (s.m.endMessage c i t none)) ∧ goes (.tsendComplete c i 1) (s.m.breakConn t.ent) ∧
        (t.begun = true → goes (.tsendComplete c i 2) (s.m.endMessage c i t (some (t.remote 2)))) ∧ goes (.tsendComplete c i 3) (s.m.endMessage c i t (some (t.remote 3)))) ∧
      (∀ m : Machine, m.endMessage c i t none =
        (((((ended m).setWord (connKey m t.ent + seqOff t.send) ((m.word (connKey m t.ent + seqOff t.send) + 1) % 2 ^ 64)).onCtx c fun x => { x with msgs := x.msgs.eraseIdx i }).completionRelease t.obj)))) ∧
    (∀ (m : Machine) e, let hit (t : Msg) : Msg := if t.ent = e ∧ t.fault = none then { t with fault := some (t.remote 1) } else t
      (∀ d, ((m.breakConn e).ctx d).msgs = (m.ctx d).msgs.map hit) ∧ (∀ key, (SMap.get {} (m.breakConn e).images key).msgs = (SMap.get {} m.images key).msgs.map hit)) ∧
    (let w := s.m.connWord p
     (connOpen w = true → connBrk w = false → (routes s.m (connPeer w) = [] ∨ inDomain s.m (connPeer w) = false) → goes (.connBreakTimeout p) (s.m.breakConn p)) ∧
     ((connOpen w = false ∨ connBrk w = true ∨ (routes s.m (connPeer w) ≠ [] ∧ inDomain s.m (connPeer w) = true)) → goes (.connBreakTimeout p) s.m))

/-! ### The step, words, encodings, and what every step keeps -/

/-- What 03 R76-R78, 10 R240, 04 R95, 21 R411, R415, R418 and R419 say of the machine right after reset, and the first step: the boot ROM
halts where no boot image passes its checks. That memory lists nothing and that unlisted bytes read 0 is the model's choice (log 1), as is the
flash with no image in it (log 2). -/
def Obligations.ResetState : Prop :=
  (State.reset.turn = .none ∧ State.reset.agenda = [] ∧ State.reset.m.walkers = [] ∧ State.reset.snap = none ∧ State.reset.Inv) ∧
  (∀ c : Nat,
     let x := State.reset.m.ctx c
     x.st = .free ∧ x.depth = 0 ∧ x.launch = none ∧ x.async = [] ∧ x.ints = [] ∧ x.pend = [] ∧ x.lq = [] ∧ x.xfers = [] ∧ x.tDef = 0 ∧ x.capV = 0 ∧
     x.sreg 0 = 0 ∧ (∀ g, x.mbit 0 g = true) ∧ (∀ n, x.tcreg n = tcEmpty) ∧
     x.fpc = 0 ∧ x.fmt = 0x0C ∧ x.cr 0x01 = 0 ∧ x.cr 0x02 = 0x0C ∧ x.cr 0x03 = 0xF ∧
     (∀ n : Nat, (0x10 ≤ n ∧ n ≤ 0x15) ∨ n = 0x20 ∨ n = 0x24 ∨ (0x30 ≤ n ∧ n ≤ 0x37) ∨ (0x40 ≤ n ∧ n ≤ 0x47) ∨ n = 0x50 ∨ n = 0x51 ∨ n = 0x61 → x.cr n = 0)) ∧
  (∀ n : Nat,
     let k := State.reset.m.core n
     k.cycle = 0 ∧ k.mhz = 3600 ∧ k.fifo = [] ∧ k.path = [] ∧ k.utlb = [] ∧ k.tlb = [] ∧ k.mq = [] ∧ k.mrun = none ∧ ∀ i, SMap.get 0 k.bank i = 0) ∧
  (State.reset.m.locked = false ∧ State.reset.m.expired = false ∧ State.reset.m.dog = false ∧ lbFmax State.reset.m.limits = 3600 ∧
     lbPmax State.reset.m.limits = 4400 ∧ lbPkga State.reset.m.limits = 0 ∧ (∀ j, j < 8 → lbMac State.reset.m.limits j = 0) ∧
     lbHbase State.reset.m.limits = 0 ∧ lbHlim State.reset.m.limits = 0 ∧ (∀ p, p < 4 → lbCxl State.reset.m.limits p = 0) ∧
     lbMrate State.reset.m.limits = 0 ∧ lbSrate State.reset.m.limits = 0 ∧ State.reset.m.memOk = true ∧ (∀ a, State.reset.m.byte a = freshByte) ∧
     ∀ g, SMap.get false State.reset.m.tags g = false) ∧
  (∃ t, step State.reset = .next t ∧ t.m.boot = .halted ∧ t.turn = .none ∧ t.agenda = [] ∧ ∀ c, (t.m.ctx c).st = .free)

/-- 10 R242, 12 R280, 13 R296, 03 R63, R64: a step runs the instruction that the bytes at the place of the turn decode to. A queue's walk runs the
operator at its place, and an expansion the word at its position; a context runs its bundle's syllables, each by its own meaning, on the
machine that set the bundle's operands apart, and then ends the bundle. A syllable is decoded from the bytes at the PC; decoding goes on until EOB;
a syllable that a check refuses raises its cause at the bundle. After the step every held `waitf` sees its word (15 R322). With no turn under way, the next event of the agenda takes place, an operator's only in its turn by 12 R290 (log 4). -/
def Obligations.StepRuns : Prop :=
  (∀ (s : State) (q : Nat) (w : Walk), s.turn = .graph q → q < 128 → s.m.walkOf q = some w →
     (∀ bs, w.pos + 16 ≤ w.clen → s.m.parserRead q (w.pkg + w.coff + w.pos) 16 2 = .ok bs →
       (∀ i, decodeBytecode (leNat bs) = some i → step s = noted (exec i s)) ∧
       (decodeBytecode (leNat bs) = none → step s = noted (.next (s.failGraph q w 0x01)))) ∧
     (∀ k, w.pos + 16 ≤ w.clen → s.m.parserRead q (w.pkg + w.coff + w.pos) 16 2 = .error k → step s = noted (.next (s.failGraph q w k))) ∧
     (w.clen < w.pos + 16 → step s = noted (.next (s.failGraph q w 0x3A)))) ∧
  (∀ (s : State) (d : Nat) (e : Expansion), s.turn = .micro d → d < 8 → (s.m.parser d).exp = some e →
     (e.pos < e.image.words → ∀ i, decodeMicrocode (SMap.get 0 (s.m.parser d).store (e.image.first + e.pos)).toNat = some i → step s = noted (exec i s)) ∧
     ((e.pos < e.image.words → decodeMicrocode (SMap.get 0 (s.m.parser d).store (e.image.first + e.pos)).toNat = none) → step s = noted (s.abandon d e 0x38))) ∧
  (∀ (s : State) (c : Nat), s.turn = .bundle c → c < 384 → (s.m.ctx c).due = none → ((s.m.ctx c).filled = true ∨ (s.m.ctx c).depth ≠ 0) →
     (s.m.ctx c).deferredNow = none →
     (∀ k, s.m.fetch c = .error (.trap k) → step s = noted (.next (s.rest ((s.m.takeCause c (if k.blocked then { k with kind := 1 } else k) (s.m.ctx c).pc).settle c)))) ∧
     (∀ h, s.m.fetch c = .error (.hold h) → step s = noted (.next (s.rest (s.m.enterHold c h)))) ∧
     (∀ m ys, s.m.fetch c = .ok (m, ys) →
       ((∃ i ∈ (s.m.ctx c).intl, ∃ y ∈ ys, namesResult y.ins i = true) → step s = noted (.next (s.rest (m.enterHold c .interlock)))) ∧
       ((∀ i ∈ (s.m.ctx c).intl, ∀ y ∈ ys, namesResult y.ins i = false) →
         (∀ t, (s.beginBundle m c ys).runSyllables ys = .next t → step s = noted (t.finish c (m.ctx c))) ∧
         (∀ (y : Syl) (t : State), ys = [y] → exec y.ins ((s.beginBundle m c ys).at_ y.off y.raw.slot) = .next t → step s = noted (t.finish c (m.ctx c)))))) ∧
  (∀ (s : State) (y : Syl) (ys : List Syl), s.runSyllables [] = .next s ∧
     ∀ t, exec y.ins (s.at_ y.off y.raw.slot) = .next t → s.runSyllables (y :: ys) = t.runSyllables ys) ∧
  (∀ (m : Machine) (c : Nat), ((m.ctx c).pc.toNat % 4 = 0 → m.fetch c = m.fetchBundle c (m.ctx c) 9 0 0) ∧
     ∀ (x : Ctx) (n off prev : Nat) (m' : Machine) (r : Raw), m.fetchSyllable c x ((x.pc.toNat + off) % 2 ^ 64) = .ok (m', r) →
       (∀ i, decodeSyllable (x.depth != 0) prev r = .ok i →
         (r.eob = 1 → m.fetchBundle c x (n + 1) off prev = .ok (m', [{ off, raw := r, ins := i }])) ∧
         (r.eob = 0 → (∀ t, i ≠ .brk t) → ∀ m'' ys, m'.fetchBundle c x n (off + 4 * r.len) (r.slot + 1) = .ok (m'', ys) →
           m.fetchBundle c x (n + 1) off prev = .ok (m'', { off, raw := r, ins := i } :: ys))) ∧
       (∀ f, decodeSyllable (x.depth != 0) prev r = .error f → m.fetchBundle c x (n + 1) off prev = .error (.trap { code := f.cause, i0 := f.info, off }))) ∧
  (∀ (m m2 : Machine) (c va r : Nat) (x : Ctx) (e : TlbEntry), (∀ f, f < 4 → bit (x.cr (0x44 + f)).toNat 63 = false) → m.mapped (coreOf c) va = .ok e →
     let n := syllableBytes (leNat (m.seen c (physKey e.leaf (e.pa va)) (m.bytes (physKey e.leaf (e.pa va)) 4)))
     m.mappedAll c (va + 4) ((n - 4) / 4) = .ok () → m.fetchRest c va (n / 4) = .ok (m2, r) → m.fetchSyllable c x va = .ok (m2, .ofNat r)) ∧
  (∀ (m m1 m2 : Machine) (c va n w r : Nat), m.fetchRest c va 0 = .ok (m, 0) ∧
     (m.fetchWord c va = .ok (m1, w) → m1.fetchRest c (va + 4) n = .ok (m2, r) → m.fetchRest c va (n + 1) = .ok (m2, w + 2 ^ 32 * r))) ∧
  (∀ (m m1 : Machine) (c va : Nat) (p : Phys), m.translate (coreOf c) va .fetch = .ok (m1, p) → leafCAP p.leaf = false → damperAllows m1 p.key = true →
     m1.farCheck va 4 .fetch p.key = .ok () → (m1.core (coreOf c)).path = [] → m1.staged = [] → m.fetchWord c va = .ok (m1, leNat (m1.bytes p.key 4))) ∧
  (∀ s : State, noted (.next s) = .next { s with m := s.m.noteWaits } ∧ s.m.noteWaits.mem = s.m.mem ∧
     (SMap.wf {} s.m.ctxs = true → ∀ c, ∃ v, s.m.noteWaits.ctx c = { s.m.ctx c with seen := v })) ∧
  (∀ (s : State) (e : Instr) (es : List Instr), s.turn = .none → s.agenda = e :: es → isEvent e = true →
     ((∀ q, e = .operatorIssue q → s.m.parserTurn q = true) → step s = noted (exec e { s with agenda := es })) ∧
     (∀ q, e = .operatorIssue q → s.m.parserTurn q = false → step s = noted (.next { s with agenda := es }))) ∧
  (∀ s : State, s.turn = .none → s.agenda = [] → (s.m.boot = .rom → step s = noted (exec .reset s)) ∧ (s.m.boot = .halted → step s = noted (.next s)) ∧
     (s.m.boot = .running → step s = noted s.nextMove))

/-- The words that the spec writes out decode to the instructions that it says they are (04 R94; 11 R265; 12 R278), and the length 0b11,
a slot out of order and an unassigned opcode are refused as 03 R64 says. -/
def Obligations.DecodedWords : Prop :=
  decode (.tile false) [0x46, 0x08, 0x20, 0x0A, 0x00, 0x80, 0x00, 0x00, 0xC0, 0xFF, 0xFF, 0xFF] = some (.bc .lt (.r0 4) (.r0 5) 0xFFFFFFC0) ∧
  decode (.tile false) [0xC0, 0x29, 0x00, 0x00] = some (.nxt 1) ∧
  decode (.tile false) [0x04, 0x0A, 0x00, 0x00] = some .endNxt ∧
  decode .graph [0x01, 0x00, 0x09, 0x30, 0x00, 0x05, 0x00, 0x00, 0, 0, 0, 0, 0, 0, 0, 0] =
    some (.lbMatmul { op := 0x01, md := 0, ln := 0, d := 9, a := 3, b := 5, c := 0, imm := 0 }) ∧
  (∀ (svc : Bool) (prev : Nat) (r : Raw),
    (3 < r.len → decodeSyllable svc prev r = .error ⟨0x01, 0⟩) ∧
    (r.len ≤ 3 → r.slot < prev → decodeSyllable svc prev r = .error ⟨0x02, r.slot⟩) ∧
    (r.len ≤ 3 → prev ≤ r.slot → row r = none → decodeSyllable svc prev r = .error ⟨0x01, 1⟩))

/-- 03 R57-R64: a syllable's encoding and its decoding agree: every well-formed instruction of the eight slots, with every operand at every value that its
encoding admits, is what the decoder reads from the word that the encoder gives it, with EOB either way, in each mode that 04 R87, 08 R197 and
10 R248 let hold it. -/
def Obligations.TileWordsRoundTrip : Prop :=
  ∀ (i : Instr) (r : Raw) (svc : Bool) (eob : Nat), wellFormed i = true → encodeRaw i = some r → eob < 2 → modeRefused svc { r with eob } = none →
    decodeSyllable svc 0 (Raw.ofNat ({ r with eob } : Raw).toNat) = .ok i

/-- The encodings of bytecode operators (12 R277, R279), each with its own opcode and every value of its fields, and of the microcode words that 13 R295
admits, decode to what they encode; an operator's word that decodes is the encoding of what it decodes to. -/
def Obligations.GraphWordsRoundTrip : Prop :=
  (∀ (o : LbOp) (p : Nat × (LbOp → Instr)), (p ∈ lbForms ∧ o.op.toNat = p.1) ∨ (0xC0 ≤ o.op.toNat ∧ p.2 = .lbCustom) →
     ∃ w, encodeBytecode (p.2 o) = some w ∧ w < 2 ^ 128 ∧ decodeBytecode w = some (p.2 o)) ∧
  (∀ (i : Instr) (n : Nat), n < 2 ^ 128 → decodeBytecode n = some i → encodeBytecode i = some n) ∧
  (let rt (i : Instr) : Prop := ∃ w, encodeMicrocode i = some w ∧ w < 2 ^ 64 ∧ decodeMicrocode w = some i
   (∀ rd wr nw opc, rt (.ucOphdr rd wr nw opc)) ∧
   (∀ n src, rt (.ucOshape n src)) ∧
   (∀ n ts, 1 ≤ ts.toNat → ts.toNat ≤ 1024 → rt (.ucTiledim n ts)) ∧
   (∀ (perm : BitVec 8) cyclic, (∀ p q, p < q → q < 4 → bits perm.toNat (2 * p) 2 ≠ bits perm.toNat (2 * q) 2) → rt (.ucOrder perm cyclic)) ∧
   (∀ h t tid g rows rowb8 k fx, rows ≠ 0 → rowb8 ≠ 0 → 2 ≤ k.toNat → k.toNat ≤ 1022 → fx.toNat ≤ 12 → rt (.ucBind h t tid g rows rowb8 k fx)) ∧
   (∀ store t ch lay stg sreg h, lay ≠ 3 → stg ≠ 0 → sreg ≠ 0 → rt (.ucStage store t ch lay stg sreg h)) ∧
   (∀ ssz lm koff eoff, ssz ≠ 0 → eoff.toNat % 4 = 0 → rt (.ucRoutine ssz lm koff eoff)) ∧
   (∀ h t consumer, rt (.ucFuse h t consumer)) ∧
   (∀ h act inst, (if act = 0 then inst = 0 else 960 ≤ inst.toNat) → rt (.ucShard h act inst)) ∧
   (∀ k, 2 ≤ k.toNat → k.toNat ≤ 1022 → rt (.ucDepend k)) ∧
   (∀ merge k, 2 ≤ k.toNat → k.toNat ≤ 1022 → rt (.ucEpilog merge k)) ∧
   rt .ucOend)

/-- Every step goes on and keeps the invariant: from a state in which no bundle is half issued and the turn names a unit of the package, with
nothing but events in its agenda, the step answers a next state, and that is such a state again. No step from such a state
ends in a fault or a refusal. -/
def Obligations.StepKeepsInvariant : Prop :=
  ∀ s : State, s.Inv → s.agendaOk = true → ∃ t, step s = .next t ∧ t.Inv ∧ t.agendaOk = true

/-- Every syllable keeps memory in its one canonical form, whatever it does: its effect, a cause that it takes, or a hold. -/
def Obligations.SyllablesKeepMemoryCanonical : Prop :=
  ∀ (i : Instr) (s t : State), encodeRaw i ≠ none → s.m.memOk = true → s.start.memOk = true → exec i s = .next t → t.m.memOk = true

/-- The frame of the named results (03 R65, R67; 04 R84): issuing a result leaves every byte of memory, every core, every other context and
every register, flag and control register of its own context as they were until it lands; a branch moves nothing but the next PC. -/
def Obligations.ResultFrames : Prop :=
  (∀ (s : State) (m : Machine) (p : Pend), s.m = m →
     let t := s.issuedIn m p
     let y := (t.m.ctx s.c)
     t.snap = s.snap ∧ t.turn = s.turn ∧ t.agenda = s.agenda ∧ (∀ a, t.m.byte a = s.m.byte a) ∧ (∀ n, t.m.core n = s.m.core n) ∧
     (SMap.rising s.m.ctxs = true → (∀ c, c ≠ s.c → t.m.ctx c = s.m.ctx c) ∧
       (∀ r, y.sreg r = s.cur.sreg r) ∧ (∀ r g, y.vreg r g = s.cur.vreg r g) ∧ (∀ r g, y.mbit r g = s.cur.mbit r g) ∧ (∀ r g, y.qlane r g = s.cur.qlane r g) ∧
       (∀ a i j, y.accv a i j = s.cur.accv a i j) ∧ (∀ n, y.tcreg n = s.cur.tcreg n) ∧ (∀ n, y.cr n = s.cur.cr n) ∧ y.fpc = s.cur.fpc ∧ y.fmt = s.cur.fmt ∧
       y.t = s.cur.t ∧ y.cap = s.cur.cap ∧ y.tid = s.cur.tid ∧ y.konst = s.cur.konst ∧ y.lq = s.cur.lq ∧ y.xfers = s.cur.xfers ∧ y.async = s.cur.async ∧ y.depth = s.cur.depth)) ∧
  (∀ (s : State) (d : Reg) (v : Nat),
     let t := s.loaded d v
     (∀ a, t.m.byte a = s.m.byte a) ∧ (∀ n, t.m.core n = s.m.core n) ∧
     (SMap.rising s.m.ctxs = true → (∀ c, c ≠ s.c → t.m.ctx c = s.m.ctx c) ∧ t.m.ctx s.c = { s.cur with intl := s.cur.intl ++ [{ reg := d.toNat, value := v }] })) ∧
  (∀ (s : State) (pc : Word),
     let t := s.goesTo pc
     (∀ a, t.m.byte a = s.m.byte a) ∧ (∀ n, t.m.core n = s.m.core n) ∧ (∀ c, t.m.ctx c = s.m.ctx c) ∧ t.m.bun.next = some pc) ∧
  (∀ (s : State) (x : Ctx),
     let t := s.withCtx x
     (∀ a, t.m.byte a = s.m.byte a) ∧ (∀ n, t.m.core n = s.m.core n) ∧ (SMap.rising s.m.ctxs = true → t.m.ctx s.c = x ∧ ∀ c, c ≠ s.c → t.m.ctx c = s.m.ctx c))
end

