-- ==== Sys2Proof/Laws/SMap.lean ====
section
/-! SUPPORT. Laws/SMap.lean: what reading and writing a sparse map does, and that every write keeps the canonical form. -/

namespace Sys2Proof.Machine.SMap

variable {β : Type} [DecidableEq β] {d : β}

/-! ### The canonical form -/

theorem wfFrom_cons {lo i : Nat} {v : β} {m : SMap β} :
    wfFrom d lo ((i, v) :: m) = true ↔ lo ≤ i ∧ v ≠ d ∧ wfFrom d (i + 1) m = true := by
  simp [wfFrom, and_assoc]

theorem wfFrom_mono {m : SMap β} {lo hi : Nat} (h : wfFrom d hi m = true) (le : lo ≤ hi) : wfFrom d lo m = true := by
  cases m with
  | nil => rfl
  | cons p m => obtain ⟨i, v⟩ := p; rw [wfFrom_cons] at *; exact ⟨by omega, h.2⟩

omit [DecidableEq β] in
theorem risingFrom_cons {lo i : Nat} {v : β} {m : SMap β} :
    risingFrom lo ((i, v) :: m) = true ↔ lo ≤ i ∧ risingFrom (i + 1) m = true := by
  simp [risingFrom]

omit [DecidableEq β] in
theorem risingFrom_mono {m : SMap β} {lo hi : Nat} (h : risingFrom hi m = true) (le : lo ≤ hi) : risingFrom lo m = true := by
  cases m with
  | nil => rfl
  | cons p m => obtain ⟨i, v⟩ := p; rw [risingFrom_cons] at *; exact ⟨by omega, h.2⟩

/-- A canonical map has its keys rising. -/
theorem wfFrom_rising {m : SMap β} {lo : Nat} (h : wfFrom d lo m = true) : risingFrom lo m = true := by
  induction m generalizing lo with
  | nil => rfl
  | cons p m ih => obtain ⟨i, v⟩ := p; rw [wfFrom_cons] at h; rw [risingFrom_cons]; exact ⟨h.1, ih h.2.2⟩

theorem wf_rising {m : SMap β} (h : wf d m = true) : rising m = true := wfFrom_rising h

theorem wf_nil : wf d ([] : SMap β) = true := rfl

omit [DecidableEq β] in
theorem get_below {m : SMap β} {k lo : Nat} (h : risingFrom lo m = true) (lt : k < lo) : get d m k = d := by
  cases m with
  | nil => rfl
  | cons p m =>
    obtain ⟨i, v⟩ := p
    rw [risingFrom_cons] at h
    simp [get, show i ≠ k by omega, show k < i by omega]

/-! ### One value -/

theorem set_wfFrom {m : SMap β} {k lo : Nat} (x : β) (h : wfFrom d lo m = true) (le : lo ≤ k) : wfFrom d lo (set d m k x) = true := by
  induction m generalizing lo with
  | nil => by_cases hx : x = d <;> simp [set, hx, wfFrom, le]
  | cons p m ih =>
    obtain ⟨i, v⟩ := p
    rw [wfFrom_cons] at h
    have tail : wfFrom d lo m = true := wfFrom_mono h.2.2 (by omega)
    by_cases h1 : i < k
    · simpa [set, h1, wfFrom_cons, h.1, h.2.1] using ih h.2.2 h1
    · by_cases hx : x = d
      · by_cases h2 : i = k
        · simpa [set, h2, hx] using tail
        · simpa [set, h1, h2, hx, wfFrom_cons] using h
      · by_cases h2 : i = k
        · subst h2; simpa [set, hx, wfFrom_cons, le] using h.2.2
        · simp only [set, if_neg h1, if_neg h2, if_neg hx, wfFrom_cons]
          exact ⟨le, hx, by omega, h.2⟩

theorem set_wf {m : SMap β} (k : Nat) (x : β) (h : wf d m = true) : wf d (set d m k x) = true := set_wfFrom x h (Nat.zero_le _)

/-- A key read after it was written gives the value. -/
theorem get_set_same {m : SMap β} {k lo : Nat} (x : β) (h : risingFrom lo m = true) : get d (set d m k x) k = x := by
  induction m generalizing lo with
  | nil => by_cases hx : x = d <;> simp [set, hx, get]
  | cons p m ih =>
    obtain ⟨i, v⟩ := p
    rw [risingFrom_cons] at h
    by_cases h1 : i < k
    · simpa [set, h1, get, show i ≠ k by omega, show ¬ k < i by omega] using ih h.2
    · by_cases hx : x = d
      · by_cases h2 : i = k
        · simpa [set, h2, hx] using get_below h.2 (show k < i + 1 by omega)
        · simp [set, h1, h2, hx, get, show k < i by omega]
      · by_cases h2 : i = k <;> simp [set, h1, h2, hx, get]

/-- Another key reads as before, whatever an unlisted key reads as. -/
theorem get_set_other {m : SMap β} {k j lo : Nat} {e : β} (x : β) (h : risingFrom lo m = true) (ne : j ≠ k) : get e (set d m k x) j = get e m j := by
  induction m generalizing lo with
  | nil => by_cases hx : x = d <;> simp [set, hx, get]; omega
  | cons p m ih =>
    obtain ⟨i, v⟩ := p
    rw [risingFrom_cons] at h
    by_cases h1 : i < k
    · simp [set, h1, get, ih h.2]
    · by_cases h2 : i = k
      · subst h2
        have low : j < i → get e m j = e := fun l => get_below h.2 (by omega)
        by_cases hx : x = d <;> simp [set, hx, get, Ne.symm ne] <;> intro l <;> exact low l
      · by_cases hx : x = d
        · simp [set, h1, h2, hx]
        · simp only [set, if_neg h1, if_neg h2, if_neg hx, get, if_neg (Ne.symm ne)]
          by_cases l : j < k
          · simp [l, show i ≠ j by omega, show j < i by omega]
          · simp [l]

theorem set_risingFrom {m : SMap β} {k lo : Nat} (x : β) (h : risingFrom lo m = true) (le : lo ≤ k) : risingFrom lo (set d m k x) = true := by
  induction m generalizing lo with
  | nil => by_cases hx : x = d <;> simp [set, hx, risingFrom, le]
  | cons p m ih =>
    obtain ⟨i, v⟩ := p
    rw [risingFrom_cons] at h
    have tail : risingFrom lo m = true := risingFrom_mono h.2 (by omega)
    by_cases h1 : i < k
    · simpa [set, h1, risingFrom_cons, h.1] using ih h.2 h1
    · by_cases hx : x = d
      · by_cases h2 : i = k
        · simpa [set, h2, hx] using tail
        · simpa [set, h1, h2, hx, risingFrom_cons] using h
      · by_cases h2 : i = k
        · subst h2; simpa [set, hx, risingFrom_cons, le] using h.2
        · simp only [set, if_neg h1, if_neg h2, if_neg hx, risingFrom_cons]
          exact ⟨le, by omega, h.2⟩

theorem set_rising {m : SMap β} (k : Nat) (x : β) (h : rising m = true) : rising (set d m k x) = true := set_risingFrom x h (Nat.zero_le _)

/-! ### Consecutive values -/

theorem run_wfFrom {k lo : Nat} (xs : List β) (le : lo ≤ k) : wfFrom d lo (run d k xs) = true := by
  induction xs generalizing k lo with
  | nil => rfl
  | cons x xs ih =>
    by_cases hx : x = d
    · simpa [run, hx] using ih (by omega)
    · simpa [run, hx, wfFrom_cons, le] using ih (Nat.le_refl _)

theorem dropWhile_wfFrom {m : SMap β} {lo : Nat} (hi : Nat) (h : wfFrom d lo m = true) : wfFrom d hi (m.dropWhile fun p => p.1 < hi) = true := by
  induction m generalizing lo with
  | nil => rfl
  | cons p m ih =>
    obtain ⟨i, v⟩ := p
    rw [wfFrom_cons] at h
    by_cases l : i < hi
    · simpa [List.dropWhile, l] using ih h.2.2
    · simp only [List.dropWhile, l, decide_false, wfFrom_cons]; exact ⟨by omega, h.2⟩

theorem get_dropWhile {m : SMap β} {lo hi j : Nat} (h : wfFrom d lo m = true) (le : hi ≤ j) : get d (m.dropWhile fun p => p.1 < hi) j = get d m j := by
  induction m generalizing lo with
  | nil => rfl
  | cons p m ih =>
    obtain ⟨i, v⟩ := p
    rw [wfFrom_cons] at h
    by_cases l : i < hi
    · simp [List.dropWhile, l, get, show i ≠ j by omega, show ¬ j < i by omega]; exact ih h.2.2
    · simp [List.dropWhile, l]

/-- A run put in front of entries that begin past its end. -/
theorem run_append_wfFrom {k lo : Nat} {xs : List β} {r : SMap β} (le : lo ≤ k) (h : wfFrom d (k + xs.length) r = true) :
    wfFrom d lo (run d k xs ++ r) = true := by
  induction xs generalizing k lo with
  | nil => exact wfFrom_mono h (by simpa using le)
  | cons x xs ih =>
    have h' : wfFrom d (k + 1 + xs.length) r = true := by rw [List.length_cons] at h; rwa [show k + 1 + xs.length = k + (xs.length + 1) by omega]
    by_cases hx : x = d
    · simpa [run, hx] using ih (by omega) h'
    · simp only [run, if_neg hx, List.cons_append, wfFrom_cons]; exact ⟨le, hx, ih (Nat.le_refl _) h'⟩

theorem get_run_append {k j : Nat} {xs : List β} {r : SMap β} (h : wfFrom d (k + xs.length) r = true) :
    get d (run d k xs ++ r) j = if k ≤ j ∧ j < k + xs.length then xs.getD (j - k) d else get d r j := by
  induction xs generalizing k with
  | nil => rw [if_neg (by rw [List.length_nil]; omega)]; rfl
  | cons x xs ih =>
    have h' : wfFrom d (k + 1 + xs.length) r = true := by rw [List.length_cons] at h; rwa [show k + 1 + xs.length = k + (xs.length + 1) by omega]
    have low : j < k + 1 → get d (run d (k + 1) xs ++ r) j = d := fun l => get_below (wfFrom_rising (run_append_wfFrom (Nat.le_refl _) h')) l
    have step : get d (run d k (x :: xs) ++ r) j = if j = k then x else get d (run d (k + 1) xs ++ r) j := by
      by_cases hx : x = d
      · by_cases e : j = k
        · rw [if_pos e, hx]; simp only [run, if_true]; exact low (by omega)
        · simp [run, hx, e]
      · simp only [run, if_neg hx, List.cons_append, get]
        by_cases e : j = k
        · simp [e]
        · by_cases l : j < k
          · simp [Ne.symm e, e, l, low (by omega)]
          · simp [Ne.symm e, e, l]
    rw [step, ih h']
    by_cases e : j = k
    · subst e; simp
    · by_cases b : k + 1 ≤ j ∧ j < k + 1 + xs.length
      · obtain ⟨n, rfl⟩ : ∃ n, j = k + 1 + n := ⟨j - (k + 1), by omega⟩
        simp [e, show n < xs.length by omega, show k ≤ k + 1 + n by omega, show k + 1 + n < k + (xs.length + 1) by omega,
          show k + 1 + n - k = n + 1 by omega]
      · rw [if_neg e, if_neg b, if_neg (by rw [List.length_cons]; omega)]

theorem get_run (k j : Nat) (xs : List β) : get d (run d k xs) j = if k ≤ j ∧ j < k + xs.length then xs.getD (j - k) d else d := by
  have h := get_run_append (d := d) (k := k) (j := j) (xs := xs) (r := []) rfl
  rwa [List.append_nil] at h

theorem setRun_wfFrom {m : SMap β} {k lo : Nat} (xs : List β) (h : wfFrom d lo m = true) (le : lo ≤ k) : wfFrom d lo (setRun d m k xs) = true := by
  induction m generalizing lo with
  | nil => exact run_wfFrom xs le
  | cons p m ih =>
    obtain ⟨i, v⟩ := p
    by_cases l : i < k
    · rw [wfFrom_cons] at h
      simp only [setRun, if_pos l, wfFrom_cons]
      exact ⟨h.1, h.2.1, ih h.2.2 l⟩
    · simp only [setRun, if_neg l]
      exact run_append_wfFrom le (dropWhile_wfFrom _ h)

theorem setRun_wf {m : SMap β} (k : Nat) (xs : List β) (h : wf d m = true) : wf d (setRun d m k xs) = true := setRun_wfFrom xs h (Nat.zero_le _)

/-- What a key reads as after consecutive values were written from `k` up. -/
theorem get_setRun {m : SMap β} {k j lo : Nat} (xs : List β) (h : wfFrom d lo m = true) :
    get d (setRun d m k xs) j = if k ≤ j ∧ j < k + xs.length then xs.getD (j - k) d else get d m j := by
  induction m generalizing lo with
  | nil => simp only [setRun, get_run, get]
  | cons p m ih =>
    obtain ⟨i, v⟩ := p
    by_cases l : i < k
    · rw [wfFrom_cons] at h
      simp only [setRun, if_pos l, get, ih h.2.2]
      by_cases b : k ≤ j ∧ j < k + xs.length
      · simp [b, show i ≠ j by omega, show ¬ j < i by omega]
      · simp [b]
    · simp only [setRun, if_neg l]
      rw [get_run_append (dropWhile_wfFrom _ h)]
      by_cases b : k ≤ j ∧ j < k + xs.length
      · simp [b]
      · simp only [if_neg b]
        by_cases hi : k + xs.length ≤ j
        · exact get_dropWhile h hi
        · rw [get_below (wfFrom_rising (dropWhile_wfFrom _ h)) (by omega)]
          rw [wfFrom_cons] at h
          simp [get, show i ≠ j by omega, show j < i by omega]

end Sys2Proof.Machine.SMap
end

