-- ==== Sys2Proof/Laws/State.lean ====
section
/-! SUPPORT. Laws/State.lean: what each update of the machine and of a context leaves as it was, field by field, and what reading back gives. -/

namespace Sys2Proof.Machine

/-! ### The machine -/

@[simp] theorem Machine.onCtx_eq (m : Machine) (c : Nat) (f : Ctx → Ctx) : m.onCtx c f = m.setCtx c (f (m.ctx c)) := rfl
@[simp] theorem Machine.onCore_eq (m : Machine) (n : Nat) (f : Core → Core) : m.onCore n f = m.setCore n (f (m.core n)) := rfl
@[simp] theorem Machine.setNat_eq (m : Machine) (k n x : Nat) : m.setNat k n x = m.setBytes k (leBytes n x) := rfl
@[simp] theorem Machine.setWord_eq (m : Machine) (k x : Nat) : m.setWord k x = m.setBytes k (leBytes 8 x) := rfl

/-- A write of bytes changes memory and the tags of the granules it touches, and nothing else. -/
theorem Machine.setBytes_eq (m : Machine) (k : Nat) (bs : List Byte) :
    ∃ t, m.setBytes k bs = { m with mem := SMap.setRun freshByte m.mem k bs, tags := t } := by
  unfold Machine.setBytes
  by_cases h : m.tags = []
  · exact ⟨m.tags, by simp [h]⟩
  · simp only [if_neg h]
    generalize List.range (bs.length / 16 + 2) = is
    suffices H : ∀ a : Machine, ∃ t, is.foldl (fun (a : Machine) i =>
        if (k / 16 + i) * 16 < k + bs.length then { a with tags := SMap.set false a.tags (k / 16 + i) false } else a) a = { a with tags := t } by
      obtain ⟨t, ht⟩ := H { m with mem := SMap.setRun freshByte m.mem k bs }
      exact ⟨t, ht⟩
    induction is with
    | nil => exact fun a => ⟨a.tags, rfl⟩
    | cons i is ih =>
      intro a
      rw [List.foldl_cons]
      split
      · exact ih { a with tags := SMap.set false a.tags (k / 16 + i) false }
      · exact ih a

@[simp] theorem Machine.setBytes_mem (m : Machine) (k : Nat) (bs : List Byte) : (m.setBytes k bs).mem = SMap.setRun freshByte m.mem k bs := by
  obtain ⟨t, h⟩ := m.setBytes_eq k bs; rw [h]
@[simp] theorem Machine.setBytes_ctxs (m : Machine) (k : Nat) (bs : List Byte) : (m.setBytes k bs).ctxs = m.ctxs := by
  obtain ⟨t, h⟩ := m.setBytes_eq k bs; rw [h]
@[simp] theorem Machine.setBytes_cores (m : Machine) (k : Nat) (bs : List Byte) : (m.setBytes k bs).cores = m.cores := by
  obtain ⟨t, h⟩ := m.setBytes_eq k bs; rw [h]
@[simp] theorem Machine.setBytes_llc (m : Machine) (k : Nat) (bs : List Byte) : (m.setBytes k bs).llc = m.llc := by
  obtain ⟨t, h⟩ := m.setBytes_eq k bs; rw [h]
@[simp] theorem Machine.setBytes_sys (m : Machine) (k : Nat) (bs : List Byte) : (m.setBytes k bs).sys = m.sys := by
  obtain ⟨t, h⟩ := m.setBytes_eq k bs; rw [h]
@[simp] theorem Machine.setBytes_locked (m : Machine) (k : Nat) (bs : List Byte) : (m.setBytes k bs).locked = m.locked := by
  obtain ⟨t, h⟩ := m.setBytes_eq k bs; rw [h]
@[simp] theorem Machine.setBytes_limits (m : Machine) (k : Nat) (bs : List Byte) : (m.setBytes k bs).limits = m.limits := by
  obtain ⟨t, h⟩ := m.setBytes_eq k bs; rw [h]
@[simp] theorem Machine.setBytes_watch (m : Machine) (k : Nat) (bs : List Byte) : (m.setBytes k bs).watch = m.watch := by
  obtain ⟨t, h⟩ := m.setBytes_eq k bs; rw [h]
@[simp] theorem Machine.setBytes_codec (m : Machine) (k : Nat) (bs : List Byte) : (m.setBytes k bs).codec = m.codec := by
  obtain ⟨t, h⟩ := m.setBytes_eq k bs; rw [h]
@[simp] theorem Machine.setBytes_parsers (m : Machine) (k : Nat) (bs : List Byte) : (m.setBytes k bs).parsers = m.parsers := by
  obtain ⟨t, h⟩ := m.setBytes_eq k bs; rw [h]
@[simp] theorem Machine.setBytes_walks (m : Machine) (k : Nat) (bs : List Byte) : (m.setBytes k bs).walks = m.walks := by
  obtain ⟨t, h⟩ := m.setBytes_eq k bs; rw [h]
@[simp] theorem Machine.setBytes_launches (m : Machine) (k : Nat) (bs : List Byte) : (m.setBytes k bs).launches = m.launches := by
  obtain ⟨t, h⟩ := m.setBytes_eq k bs; rw [h]
@[simp] theorem Machine.setBytes_nextLaunch (m : Machine) (k : Nat) (bs : List Byte) : (m.setBytes k bs).nextLaunch = m.nextLaunch := by
  obtain ⟨t, h⟩ := m.setBytes_eq k bs; rw [h]
@[simp] theorem Machine.setBytes_handles (m : Machine) (k : Nat) (bs : List Byte) : (m.setBytes k bs).handles = m.handles := by
  obtain ⟨t, h⟩ := m.setBytes_eq k bs; rw [h]
@[simp] theorem Machine.setBytes_images (m : Machine) (k : Nat) (bs : List Byte) : (m.setBytes k bs).images = m.images := by
  obtain ⟨t, h⟩ := m.setBytes_eq k bs; rw [h]
@[simp] theorem Machine.setBytes_groups (m : Machine) (k : Nat) (bs : List Byte) : (m.setBytes k bs).groups = m.groups := by
  obtain ⟨t, h⟩ := m.setBytes_eq k bs; rw [h]
@[simp] theorem Machine.setBytes_staged (m : Machine) (k : Nat) (bs : List Byte) : (m.setBytes k bs).staged = m.staged := by
  obtain ⟨t, h⟩ := m.setBytes_eq k bs; rw [h]
@[simp] theorem Machine.setBytes_objs (m : Machine) (k : Nat) (bs : List Byte) : (m.setBytes k bs).objs = m.objs := by
  obtain ⟨t, h⟩ := m.setBytes_eq k bs; rw [h]
@[simp] theorem Machine.setBytes_regions (m : Machine) (k : Nat) (bs : List Byte) : (m.setBytes k bs).regions = m.regions := by
  obtain ⟨t, h⟩ := m.setBytes_eq k bs; rw [h]
@[simp] theorem Machine.setBytes_decls (m : Machine) (k : Nat) (bs : List Byte) : (m.setBytes k bs).decls = m.decls := by
  obtain ⟨t, h⟩ := m.setBytes_eq k bs; rw [h]
@[simp] theorem Machine.setBytes_flows (m : Machine) (k : Nat) (bs : List Byte) : (m.setBytes k bs).flows = m.flows := by
  obtain ⟨t, h⟩ := m.setBytes_eq k bs; rw [h]
@[simp] theorem Machine.setBytes_expect (m : Machine) (k : Nat) (bs : List Byte) : (m.setBytes k bs).expect = m.expect := by
  obtain ⟨t, h⟩ := m.setBytes_eq k bs; rw [h]
@[simp] theorem Machine.setBytes_txns (m : Machine) (k : Nat) (bs : List Byte) : (m.setBytes k bs).txns = m.txns := by
  obtain ⟨t, h⟩ := m.setBytes_eq k bs; rw [h]
@[simp] theorem Machine.setBytes_attempts (m : Machine) (k : Nat) (bs : List Byte) : (m.setBytes k bs).attempts = m.attempts := by
  obtain ⟨t, h⟩ := m.setBytes_eq k bs; rw [h]
@[simp] theorem Machine.setBytes_colls (m : Machine) (k : Nat) (bs : List Byte) : (m.setBytes k bs).colls = m.colls := by
  obtain ⟨t, h⟩ := m.setBytes_eq k bs; rw [h]
@[simp] theorem Machine.setBytes_claims (m : Machine) (k : Nat) (bs : List Byte) : (m.setBytes k bs).claims = m.claims := by
  obtain ⟨t, h⟩ := m.setBytes_eq k bs; rw [h]
@[simp] theorem Machine.setBytes_bar0 (m : Machine) (k : Nat) (bs : List Byte) : (m.setBytes k bs).bar0 = m.bar0 := by
  obtain ⟨t, h⟩ := m.setBytes_eq k bs; rw [h]
@[simp] theorem Machine.setBytes_out (m : Machine) (k : Nat) (bs : List Byte) : (m.setBytes k bs).out = m.out := by
  obtain ⟨t, h⟩ := m.setBytes_eq k bs; rw [h]
@[simp] theorem Machine.setBytes_rings (m : Machine) (k : Nat) (bs : List Byte) : (m.setBytes k bs).rings = m.rings := by
  obtain ⟨t, h⟩ := m.setBytes_eq k bs; rw [h]
@[simp] theorem Machine.setBytes_mr (m : Machine) (k : Nat) (bs : List Byte) : (m.setBytes k bs).mr = m.mr := by
  obtain ⟨t, h⟩ := m.setBytes_eq k bs; rw [h]
@[simp] theorem Machine.setBytes_qcnt (m : Machine) (k : Nat) (bs : List Byte) : (m.setBytes k bs).qcnt = m.qcnt := by
  obtain ⟨t, h⟩ := m.setBytes_eq k bs; rw [h]
@[simp] theorem Machine.setBytes_idKey (m : Machine) (k : Nat) (bs : List Byte) : (m.setBytes k bs).idKey = m.idKey := by
  obtain ⟨t, h⟩ := m.setBytes_eq k bs; rw [h]
@[simp] theorem Machine.setBytes_dog (m : Machine) (k : Nat) (bs : List Byte) : (m.setBytes k bs).dog = m.dog := by
  obtain ⟨t, h⟩ := m.setBytes_eq k bs; rw [h]
@[simp] theorem Machine.setBytes_expired (m : Machine) (k : Nat) (bs : List Byte) : (m.setBytes k bs).expired = m.expired := by
  obtain ⟨t, h⟩ := m.setBytes_eq k bs; rw [h]
@[simp] theorem Machine.setBytes_mhz (m : Machine) (k : Nat) (bs : List Byte) : (m.setBytes k bs).mhz = m.mhz := by
  obtain ⟨t, h⟩ := m.setBytes_eq k bs; rw [h]
@[simp] theorem Machine.setBytes_flash (m : Machine) (k : Nat) (bs : List Byte) : (m.setBytes k bs).flash = m.flash := by
  obtain ⟨t, h⟩ := m.setBytes_eq k bs; rw [h]
@[simp] theorem Machine.setBytes_boot (m : Machine) (k : Nat) (bs : List Byte) : (m.setBytes k bs).boot = m.boot := by
  obtain ⟨t, h⟩ := m.setBytes_eq k bs; rw [h]
@[simp] theorem Machine.setBytes_bun (m : Machine) (k : Nat) (bs : List Byte) : (m.setBytes k bs).bun = m.bun := by
  obtain ⟨t, h⟩ := m.setBytes_eq k bs; rw [h]
@[simp] theorem Machine.setBytes_walkers (m : Machine) (k : Nat) (bs : List Byte) : (m.setBytes k bs).walkers = m.walkers := by
  obtain ⟨t, h⟩ := m.setBytes_eq k bs; rw [h]
@[simp] theorem Machine.setBytes_hdm (m : Machine) (k : Nat) (bs : List Byte) : (m.setBytes k bs).hdm = m.hdm := by
  obtain ⟨t, h⟩ := m.setBytes_eq k bs; rw [h]
@[simp] theorem Machine.setBytes_moves (m : Machine) (k : Nat) (bs : List Byte) : (m.setBytes k bs).moves = m.moves := by
  obtain ⟨t, h⟩ := m.setBytes_eq k bs; rw [h]
@[simp] theorem Machine.setBytes_kvReqs (m : Machine) (k : Nat) (bs : List Byte) : (m.setBytes k bs).kvReqs = m.kvReqs := by
  obtain ⟨t, h⟩ := m.setBytes_eq k bs; rw [h]
@[simp] theorem Machine.setBytes_nextTxn (m : Machine) (k : Nat) (bs : List Byte) : (m.setBytes k bs).nextTxn = m.nextTxn := by
  obtain ⟨t, h⟩ := m.setBytes_eq k bs; rw [h]
@[simp] theorem Machine.setBytes_arrivals (m : Machine) (k : Nat) (bs : List Byte) : (m.setBytes k bs).arrivals = m.arrivals := by
  obtain ⟨t, h⟩ := m.setBytes_eq k bs; rw [h]
@[simp] theorem Machine.setBytes_fresh (m : Machine) (k : Nat) (bs : List Byte) : (m.setBytes k bs).fresh = m.fresh := by
  obtain ⟨t, h⟩ := m.setBytes_eq k bs; rw [h]
@[simp] theorem Machine.setCtx_cores (m : Machine) (c : Nat) (x : Ctx) : (m.setCtx c x).cores = m.cores := rfl
@[simp] theorem Machine.setCtx_mem (m : Machine) (c : Nat) (x : Ctx) : (m.setCtx c x).mem = m.mem := rfl
@[simp] theorem Machine.setCtx_llc (m : Machine) (c : Nat) (x : Ctx) : (m.setCtx c x).llc = m.llc := rfl
@[simp] theorem Machine.setCtx_tags (m : Machine) (c : Nat) (x : Ctx) : (m.setCtx c x).tags = m.tags := rfl
@[simp] theorem Machine.setCtx_sys (m : Machine) (c : Nat) (x : Ctx) : (m.setCtx c x).sys = m.sys := rfl
@[simp] theorem Machine.setCtx_locked (m : Machine) (c : Nat) (x : Ctx) : (m.setCtx c x).locked = m.locked := rfl
@[simp] theorem Machine.setCtx_limits (m : Machine) (c : Nat) (x : Ctx) : (m.setCtx c x).limits = m.limits := rfl
@[simp] theorem Machine.setCtx_watch (m : Machine) (c : Nat) (x : Ctx) : (m.setCtx c x).watch = m.watch := rfl
@[simp] theorem Machine.setCtx_codec (m : Machine) (c : Nat) (x : Ctx) : (m.setCtx c x).codec = m.codec := rfl
@[simp] theorem Machine.setCtx_parsers (m : Machine) (c : Nat) (x : Ctx) : (m.setCtx c x).parsers = m.parsers := rfl
@[simp] theorem Machine.setCtx_walks (m : Machine) (c : Nat) (x : Ctx) : (m.setCtx c x).walks = m.walks := rfl
@[simp] theorem Machine.setCtx_launches (m : Machine) (c : Nat) (x : Ctx) : (m.setCtx c x).launches = m.launches := rfl
@[simp] theorem Machine.setCtx_nextLaunch (m : Machine) (c : Nat) (x : Ctx) : (m.setCtx c x).nextLaunch = m.nextLaunch := rfl
@[simp] theorem Machine.setCtx_handles (m : Machine) (c : Nat) (x : Ctx) : (m.setCtx c x).handles = m.handles := rfl
@[simp] theorem Machine.setCtx_images (m : Machine) (c : Nat) (x : Ctx) : (m.setCtx c x).images = m.images := rfl
@[simp] theorem Machine.setCtx_groups (m : Machine) (c : Nat) (x : Ctx) : (m.setCtx c x).groups = m.groups := rfl
@[simp] theorem Machine.setCtx_staged (m : Machine) (c : Nat) (x : Ctx) : (m.setCtx c x).staged = m.staged := rfl
@[simp] theorem Machine.setCtx_objs (m : Machine) (c : Nat) (x : Ctx) : (m.setCtx c x).objs = m.objs := rfl
@[simp] theorem Machine.setCtx_regions (m : Machine) (c : Nat) (x : Ctx) : (m.setCtx c x).regions = m.regions := rfl
@[simp] theorem Machine.setCtx_decls (m : Machine) (c : Nat) (x : Ctx) : (m.setCtx c x).decls = m.decls := rfl
@[simp] theorem Machine.setCtx_flows (m : Machine) (c : Nat) (x : Ctx) : (m.setCtx c x).flows = m.flows := rfl
@[simp] theorem Machine.setCtx_expect (m : Machine) (c : Nat) (x : Ctx) : (m.setCtx c x).expect = m.expect := rfl
@[simp] theorem Machine.setCtx_txns (m : Machine) (c : Nat) (x : Ctx) : (m.setCtx c x).txns = m.txns := rfl
@[simp] theorem Machine.setCtx_attempts (m : Machine) (c : Nat) (x : Ctx) : (m.setCtx c x).attempts = m.attempts := rfl
@[simp] theorem Machine.setCtx_colls (m : Machine) (c : Nat) (x : Ctx) : (m.setCtx c x).colls = m.colls := rfl
@[simp] theorem Machine.setCtx_claims (m : Machine) (c : Nat) (x : Ctx) : (m.setCtx c x).claims = m.claims := rfl
@[simp] theorem Machine.setCtx_bar0 (m : Machine) (c : Nat) (x : Ctx) : (m.setCtx c x).bar0 = m.bar0 := rfl
@[simp] theorem Machine.setCtx_out (m : Machine) (c : Nat) (x : Ctx) : (m.setCtx c x).out = m.out := rfl
@[simp] theorem Machine.setCtx_rings (m : Machine) (c : Nat) (x : Ctx) : (m.setCtx c x).rings = m.rings := rfl
@[simp] theorem Machine.setCtx_mr (m : Machine) (c : Nat) (x : Ctx) : (m.setCtx c x).mr = m.mr := rfl
@[simp] theorem Machine.setCtx_qcnt (m : Machine) (c : Nat) (x : Ctx) : (m.setCtx c x).qcnt = m.qcnt := rfl
@[simp] theorem Machine.setCtx_idKey (m : Machine) (c : Nat) (x : Ctx) : (m.setCtx c x).idKey = m.idKey := rfl
@[simp] theorem Machine.setCtx_dog (m : Machine) (c : Nat) (x : Ctx) : (m.setCtx c x).dog = m.dog := rfl
@[simp] theorem Machine.setCtx_expired (m : Machine) (c : Nat) (x : Ctx) : (m.setCtx c x).expired = m.expired := rfl
@[simp] theorem Machine.setCtx_mhz (m : Machine) (c : Nat) (x : Ctx) : (m.setCtx c x).mhz = m.mhz := rfl
@[simp] theorem Machine.setCtx_flash (m : Machine) (c : Nat) (x : Ctx) : (m.setCtx c x).flash = m.flash := rfl
@[simp] theorem Machine.setCtx_boot (m : Machine) (c : Nat) (x : Ctx) : (m.setCtx c x).boot = m.boot := rfl
@[simp] theorem Machine.setCtx_bun (m : Machine) (c : Nat) (x : Ctx) : (m.setCtx c x).bun = m.bun := rfl
@[simp] theorem Machine.setCtx_walkers (m : Machine) (c : Nat) (x : Ctx) : (m.setCtx c x).walkers = m.walkers := rfl
@[simp] theorem Machine.setCtx_hdm (m : Machine) (c : Nat) (x : Ctx) : (m.setCtx c x).hdm = m.hdm := rfl
@[simp] theorem Machine.setCtx_moves (m : Machine) (c : Nat) (x : Ctx) : (m.setCtx c x).moves = m.moves := rfl
@[simp] theorem Machine.setCtx_kvReqs (m : Machine) (c : Nat) (x : Ctx) : (m.setCtx c x).kvReqs = m.kvReqs := rfl
@[simp] theorem Machine.setCtx_nextTxn (m : Machine) (c : Nat) (x : Ctx) : (m.setCtx c x).nextTxn = m.nextTxn := rfl
@[simp] theorem Machine.setCtx_arrivals (m : Machine) (c : Nat) (x : Ctx) : (m.setCtx c x).arrivals = m.arrivals := rfl
@[simp] theorem Machine.setCtx_fresh (m : Machine) (c : Nat) (x : Ctx) : (m.setCtx c x).fresh = m.fresh := rfl
@[simp] theorem Machine.setCore_ctxs (m : Machine) (n : Nat) (k : Core) : (m.setCore n k).ctxs = m.ctxs := rfl
@[simp] theorem Machine.setCore_mem (m : Machine) (n : Nat) (k : Core) : (m.setCore n k).mem = m.mem := rfl
@[simp] theorem Machine.setCore_llc (m : Machine) (n : Nat) (k : Core) : (m.setCore n k).llc = m.llc := rfl
@[simp] theorem Machine.setCore_tags (m : Machine) (n : Nat) (k : Core) : (m.setCore n k).tags = m.tags := rfl
@[simp] theorem Machine.setCore_sys (m : Machine) (n : Nat) (k : Core) : (m.setCore n k).sys = m.sys := rfl
@[simp] theorem Machine.setCore_locked (m : Machine) (n : Nat) (k : Core) : (m.setCore n k).locked = m.locked := rfl
@[simp] theorem Machine.setCore_limits (m : Machine) (n : Nat) (k : Core) : (m.setCore n k).limits = m.limits := rfl
@[simp] theorem Machine.setCore_watch (m : Machine) (n : Nat) (k : Core) : (m.setCore n k).watch = m.watch := rfl
@[simp] theorem Machine.setCore_codec (m : Machine) (n : Nat) (k : Core) : (m.setCore n k).codec = m.codec := rfl
@[simp] theorem Machine.setCore_parsers (m : Machine) (n : Nat) (k : Core) : (m.setCore n k).parsers = m.parsers := rfl
@[simp] theorem Machine.setCore_walks (m : Machine) (n : Nat) (k : Core) : (m.setCore n k).walks = m.walks := rfl
@[simp] theorem Machine.setCore_launches (m : Machine) (n : Nat) (k : Core) : (m.setCore n k).launches = m.launches := rfl
@[simp] theorem Machine.setCore_nextLaunch (m : Machine) (n : Nat) (k : Core) : (m.setCore n k).nextLaunch = m.nextLaunch := rfl
@[simp] theorem Machine.setCore_handles (m : Machine) (n : Nat) (k : Core) : (m.setCore n k).handles = m.handles := rfl
@[simp] theorem Machine.setCore_images (m : Machine) (n : Nat) (k : Core) : (m.setCore n k).images = m.images := rfl
@[simp] theorem Machine.setCore_groups (m : Machine) (n : Nat) (k : Core) : (m.setCore n k).groups = m.groups := rfl
@[simp] theorem Machine.setCore_staged (m : Machine) (n : Nat) (k : Core) : (m.setCore n k).staged = m.staged := rfl
@[simp] theorem Machine.setCore_objs (m : Machine) (n : Nat) (k : Core) : (m.setCore n k).objs = m.objs := rfl
@[simp] theorem Machine.setCore_regions (m : Machine) (n : Nat) (k : Core) : (m.setCore n k).regions = m.regions := rfl
@[simp] theorem Machine.setCore_decls (m : Machine) (n : Nat) (k : Core) : (m.setCore n k).decls = m.decls := rfl
@[simp] theorem Machine.setCore_flows (m : Machine) (n : Nat) (k : Core) : (m.setCore n k).flows = m.flows := rfl
@[simp] theorem Machine.setCore_expect (m : Machine) (n : Nat) (k : Core) : (m.setCore n k).expect = m.expect := rfl
@[simp] theorem Machine.setCore_txns (m : Machine) (n : Nat) (k : Core) : (m.setCore n k).txns = m.txns := rfl
@[simp] theorem Machine.setCore_attempts (m : Machine) (n : Nat) (k : Core) : (m.setCore n k).attempts = m.attempts := rfl
@[simp] theorem Machine.setCore_colls (m : Machine) (n : Nat) (k : Core) : (m.setCore n k).colls = m.colls := rfl
@[simp] theorem Machine.setCore_claims (m : Machine) (n : Nat) (k : Core) : (m.setCore n k).claims = m.claims := rfl
@[simp] theorem Machine.setCore_bar0 (m : Machine) (n : Nat) (k : Core) : (m.setCore n k).bar0 = m.bar0 := rfl
@[simp] theorem Machine.setCore_out (m : Machine) (n : Nat) (k : Core) : (m.setCore n k).out = m.out := rfl
@[simp] theorem Machine.setCore_rings (m : Machine) (n : Nat) (k : Core) : (m.setCore n k).rings = m.rings := rfl
@[simp] theorem Machine.setCore_mr (m : Machine) (n : Nat) (k : Core) : (m.setCore n k).mr = m.mr := rfl
@[simp] theorem Machine.setCore_qcnt (m : Machine) (n : Nat) (k : Core) : (m.setCore n k).qcnt = m.qcnt := rfl
@[simp] theorem Machine.setCore_idKey (m : Machine) (n : Nat) (k : Core) : (m.setCore n k).idKey = m.idKey := rfl
@[simp] theorem Machine.setCore_dog (m : Machine) (n : Nat) (k : Core) : (m.setCore n k).dog = m.dog := rfl
@[simp] theorem Machine.setCore_expired (m : Machine) (n : Nat) (k : Core) : (m.setCore n k).expired = m.expired := rfl
@[simp] theorem Machine.setCore_mhz (m : Machine) (n : Nat) (k : Core) : (m.setCore n k).mhz = m.mhz := rfl
@[simp] theorem Machine.setCore_flash (m : Machine) (n : Nat) (k : Core) : (m.setCore n k).flash = m.flash := rfl
@[simp] theorem Machine.setCore_boot (m : Machine) (n : Nat) (k : Core) : (m.setCore n k).boot = m.boot := rfl
@[simp] theorem Machine.setCore_bun (m : Machine) (n : Nat) (k : Core) : (m.setCore n k).bun = m.bun := rfl
@[simp] theorem Machine.setCore_walkers (m : Machine) (n : Nat) (k : Core) : (m.setCore n k).walkers = m.walkers := rfl
@[simp] theorem Machine.setCore_hdm (m : Machine) (n : Nat) (k : Core) : (m.setCore n k).hdm = m.hdm := rfl
@[simp] theorem Machine.setCore_moves (m : Machine) (n : Nat) (k : Core) : (m.setCore n k).moves = m.moves := rfl
@[simp] theorem Machine.setCore_kvReqs (m : Machine) (n : Nat) (k : Core) : (m.setCore n k).kvReqs = m.kvReqs := rfl
@[simp] theorem Machine.setCore_nextTxn (m : Machine) (n : Nat) (k : Core) : (m.setCore n k).nextTxn = m.nextTxn := rfl
@[simp] theorem Machine.setCore_arrivals (m : Machine) (n : Nat) (k : Core) : (m.setCore n k).arrivals = m.arrivals := rfl
@[simp] theorem Machine.setCore_fresh (m : Machine) (n : Nat) (k : Core) : (m.setCore n k).fresh = m.fresh := rfl
@[simp] theorem Machine.setByte_ctxs (m : Machine) (k : Nat) (b : Byte) : (m.setByte k b).ctxs = m.ctxs := rfl
@[simp] theorem Machine.setByte_cores (m : Machine) (k : Nat) (b : Byte) : (m.setByte k b).cores = m.cores := rfl
@[simp] theorem Machine.setByte_llc (m : Machine) (k : Nat) (b : Byte) : (m.setByte k b).llc = m.llc := rfl
@[simp] theorem Machine.setByte_tags (m : Machine) (k : Nat) (b : Byte) : (m.setByte k b).tags = m.tags := rfl
@[simp] theorem Machine.setByte_sys (m : Machine) (k : Nat) (b : Byte) : (m.setByte k b).sys = m.sys := rfl
@[simp] theorem Machine.setByte_locked (m : Machine) (k : Nat) (b : Byte) : (m.setByte k b).locked = m.locked := rfl
@[simp] theorem Machine.setByte_limits (m : Machine) (k : Nat) (b : Byte) : (m.setByte k b).limits = m.limits := rfl
@[simp] theorem Machine.setByte_watch (m : Machine) (k : Nat) (b : Byte) : (m.setByte k b).watch = m.watch := rfl
@[simp] theorem Machine.setByte_codec (m : Machine) (k : Nat) (b : Byte) : (m.setByte k b).codec = m.codec := rfl
@[simp] theorem Machine.setByte_parsers (m : Machine) (k : Nat) (b : Byte) : (m.setByte k b).parsers = m.parsers := rfl
@[simp] theorem Machine.setByte_walks (m : Machine) (k : Nat) (b : Byte) : (m.setByte k b).walks = m.walks := rfl
@[simp] theorem Machine.setByte_launches (m : Machine) (k : Nat) (b : Byte) : (m.setByte k b).launches = m.launches := rfl
@[simp] theorem Machine.setByte_nextLaunch (m : Machine) (k : Nat) (b : Byte) : (m.setByte k b).nextLaunch = m.nextLaunch := rfl
@[simp] theorem Machine.setByte_handles (m : Machine) (k : Nat) (b : Byte) : (m.setByte k b).handles = m.handles := rfl
@[simp] theorem Machine.setByte_images (m : Machine) (k : Nat) (b : Byte) : (m.setByte k b).images = m.images := rfl
@[simp] theorem Machine.setByte_groups (m : Machine) (k : Nat) (b : Byte) : (m.setByte k b).groups = m.groups := rfl
@[simp] theorem Machine.setByte_staged (m : Machine) (k : Nat) (b : Byte) : (m.setByte k b).staged = m.staged := rfl
@[simp] theorem Machine.setByte_objs (m : Machine) (k : Nat) (b : Byte) : (m.setByte k b).objs = m.objs := rfl
@[simp] theorem Machine.setByte_regions (m : Machine) (k : Nat) (b : Byte) : (m.setByte k b).regions = m.regions := rfl
@[simp] theorem Machine.setByte_decls (m : Machine) (k : Nat) (b : Byte) : (m.setByte k b).decls = m.decls := rfl
@[simp] theorem Machine.setByte_flows (m : Machine) (k : Nat) (b : Byte) : (m.setByte k b).flows = m.flows := rfl
@[simp] theorem Machine.setByte_expect (m : Machine) (k : Nat) (b : Byte) : (m.setByte k b).expect = m.expect := rfl
@[simp] theorem Machine.setByte_txns (m : Machine) (k : Nat) (b : Byte) : (m.setByte k b).txns = m.txns := rfl
@[simp] theorem Machine.setByte_attempts (m : Machine) (k : Nat) (b : Byte) : (m.setByte k b).attempts = m.attempts := rfl
@[simp] theorem Machine.setByte_colls (m : Machine) (k : Nat) (b : Byte) : (m.setByte k b).colls = m.colls := rfl
@[simp] theorem Machine.setByte_claims (m : Machine) (k : Nat) (b : Byte) : (m.setByte k b).claims = m.claims := rfl
@[simp] theorem Machine.setByte_bar0 (m : Machine) (k : Nat) (b : Byte) : (m.setByte k b).bar0 = m.bar0 := rfl
@[simp] theorem Machine.setByte_out (m : Machine) (k : Nat) (b : Byte) : (m.setByte k b).out = m.out := rfl
@[simp] theorem Machine.setByte_rings (m : Machine) (k : Nat) (b : Byte) : (m.setByte k b).rings = m.rings := rfl
@[simp] theorem Machine.setByte_mr (m : Machine) (k : Nat) (b : Byte) : (m.setByte k b).mr = m.mr := rfl
@[simp] theorem Machine.setByte_qcnt (m : Machine) (k : Nat) (b : Byte) : (m.setByte k b).qcnt = m.qcnt := rfl
@[simp] theorem Machine.setByte_idKey (m : Machine) (k : Nat) (b : Byte) : (m.setByte k b).idKey = m.idKey := rfl
@[simp] theorem Machine.setByte_dog (m : Machine) (k : Nat) (b : Byte) : (m.setByte k b).dog = m.dog := rfl
@[simp] theorem Machine.setByte_expired (m : Machine) (k : Nat) (b : Byte) : (m.setByte k b).expired = m.expired := rfl
@[simp] theorem Machine.setByte_mhz (m : Machine) (k : Nat) (b : Byte) : (m.setByte k b).mhz = m.mhz := rfl
@[simp] theorem Machine.setByte_flash (m : Machine) (k : Nat) (b : Byte) : (m.setByte k b).flash = m.flash := rfl
@[simp] theorem Machine.setByte_boot (m : Machine) (k : Nat) (b : Byte) : (m.setByte k b).boot = m.boot := rfl
@[simp] theorem Machine.setByte_bun (m : Machine) (k : Nat) (b : Byte) : (m.setByte k b).bun = m.bun := rfl
@[simp] theorem Machine.setByte_walkers (m : Machine) (k : Nat) (b : Byte) : (m.setByte k b).walkers = m.walkers := rfl
@[simp] theorem Machine.setByte_hdm (m : Machine) (k : Nat) (b : Byte) : (m.setByte k b).hdm = m.hdm := rfl
@[simp] theorem Machine.setByte_moves (m : Machine) (k : Nat) (b : Byte) : (m.setByte k b).moves = m.moves := rfl
@[simp] theorem Machine.setByte_kvReqs (m : Machine) (k : Nat) (b : Byte) : (m.setByte k b).kvReqs = m.kvReqs := rfl
@[simp] theorem Machine.setByte_nextTxn (m : Machine) (k : Nat) (b : Byte) : (m.setByte k b).nextTxn = m.nextTxn := rfl
@[simp] theorem Machine.setByte_arrivals (m : Machine) (k : Nat) (b : Byte) : (m.setByte k b).arrivals = m.arrivals := rfl
@[simp] theorem Machine.setByte_fresh (m : Machine) (k : Nat) (b : Byte) : (m.setByte k b).fresh = m.fresh := rfl
@[simp] theorem Machine.setLaunch_ctxs (m : Machine) (l : Nat) (v : Launch) : (m.setLaunch l v).ctxs = m.ctxs := rfl
@[simp] theorem Machine.setLaunch_cores (m : Machine) (l : Nat) (v : Launch) : (m.setLaunch l v).cores = m.cores := rfl
@[simp] theorem Machine.setLaunch_mem (m : Machine) (l : Nat) (v : Launch) : (m.setLaunch l v).mem = m.mem := rfl
@[simp] theorem Machine.setLaunch_llc (m : Machine) (l : Nat) (v : Launch) : (m.setLaunch l v).llc = m.llc := rfl
@[simp] theorem Machine.setLaunch_tags (m : Machine) (l : Nat) (v : Launch) : (m.setLaunch l v).tags = m.tags := rfl
@[simp] theorem Machine.setLaunch_sys (m : Machine) (l : Nat) (v : Launch) : (m.setLaunch l v).sys = m.sys := rfl
@[simp] theorem Machine.setLaunch_locked (m : Machine) (l : Nat) (v : Launch) : (m.setLaunch l v).locked = m.locked := rfl
@[simp] theorem Machine.setLaunch_limits (m : Machine) (l : Nat) (v : Launch) : (m.setLaunch l v).limits = m.limits := rfl
@[simp] theorem Machine.setLaunch_watch (m : Machine) (l : Nat) (v : Launch) : (m.setLaunch l v).watch = m.watch := rfl
@[simp] theorem Machine.setLaunch_codec (m : Machine) (l : Nat) (v : Launch) : (m.setLaunch l v).codec = m.codec := rfl
@[simp] theorem Machine.setLaunch_parsers (m : Machine) (l : Nat) (v : Launch) : (m.setLaunch l v).parsers = m.parsers := rfl
@[simp] theorem Machine.setLaunch_walks (m : Machine) (l : Nat) (v : Launch) : (m.setLaunch l v).walks = m.walks := rfl
@[simp] theorem Machine.setLaunch_nextLaunch (m : Machine) (l : Nat) (v : Launch) : (m.setLaunch l v).nextLaunch = m.nextLaunch := rfl
@[simp] theorem Machine.setLaunch_handles (m : Machine) (l : Nat) (v : Launch) : (m.setLaunch l v).handles = m.handles := rfl
@[simp] theorem Machine.setLaunch_images (m : Machine) (l : Nat) (v : Launch) : (m.setLaunch l v).images = m.images := rfl
@[simp] theorem Machine.setLaunch_groups (m : Machine) (l : Nat) (v : Launch) : (m.setLaunch l v).groups = m.groups := rfl
@[simp] theorem Machine.setLaunch_staged (m : Machine) (l : Nat) (v : Launch) : (m.setLaunch l v).staged = m.staged := rfl
@[simp] theorem Machine.setLaunch_objs (m : Machine) (l : Nat) (v : Launch) : (m.setLaunch l v).objs = m.objs := rfl
@[simp] theorem Machine.setLaunch_regions (m : Machine) (l : Nat) (v : Launch) : (m.setLaunch l v).regions = m.regions := rfl
@[simp] theorem Machine.setLaunch_decls (m : Machine) (l : Nat) (v : Launch) : (m.setLaunch l v).decls = m.decls := rfl
@[simp] theorem Machine.setLaunch_flows (m : Machine) (l : Nat) (v : Launch) : (m.setLaunch l v).flows = m.flows := rfl
@[simp] theorem Machine.setLaunch_expect (m : Machine) (l : Nat) (v : Launch) : (m.setLaunch l v).expect = m.expect := rfl
@[simp] theorem Machine.setLaunch_txns (m : Machine) (l : Nat) (v : Launch) : (m.setLaunch l v).txns = m.txns := rfl
@[simp] theorem Machine.setLaunch_attempts (m : Machine) (l : Nat) (v : Launch) : (m.setLaunch l v).attempts = m.attempts := rfl
@[simp] theorem Machine.setLaunch_colls (m : Machine) (l : Nat) (v : Launch) : (m.setLaunch l v).colls = m.colls := rfl
@[simp] theorem Machine.setLaunch_claims (m : Machine) (l : Nat) (v : Launch) : (m.setLaunch l v).claims = m.claims := rfl
@[simp] theorem Machine.setLaunch_bar0 (m : Machine) (l : Nat) (v : Launch) : (m.setLaunch l v).bar0 = m.bar0 := rfl
@[simp] theorem Machine.setLaunch_out (m : Machine) (l : Nat) (v : Launch) : (m.setLaunch l v).out = m.out := rfl
@[simp] theorem Machine.setLaunch_rings (m : Machine) (l : Nat) (v : Launch) : (m.setLaunch l v).rings = m.rings := rfl
@[simp] theorem Machine.setLaunch_mr (m : Machine) (l : Nat) (v : Launch) : (m.setLaunch l v).mr = m.mr := rfl
@[simp] theorem Machine.setLaunch_qcnt (m : Machine) (l : Nat) (v : Launch) : (m.setLaunch l v).qcnt = m.qcnt := rfl
@[simp] theorem Machine.setLaunch_idKey (m : Machine) (l : Nat) (v : Launch) : (m.setLaunch l v).idKey = m.idKey := rfl
@[simp] theorem Machine.setLaunch_dog (m : Machine) (l : Nat) (v : Launch) : (m.setLaunch l v).dog = m.dog := rfl
@[simp] theorem Machine.setLaunch_expired (m : Machine) (l : Nat) (v : Launch) : (m.setLaunch l v).expired = m.expired := rfl
@[simp] theorem Machine.setLaunch_mhz (m : Machine) (l : Nat) (v : Launch) : (m.setLaunch l v).mhz = m.mhz := rfl
@[simp] theorem Machine.setLaunch_flash (m : Machine) (l : Nat) (v : Launch) : (m.setLaunch l v).flash = m.flash := rfl
@[simp] theorem Machine.setLaunch_boot (m : Machine) (l : Nat) (v : Launch) : (m.setLaunch l v).boot = m.boot := rfl
@[simp] theorem Machine.setLaunch_bun (m : Machine) (l : Nat) (v : Launch) : (m.setLaunch l v).bun = m.bun := rfl
@[simp] theorem Machine.setLaunch_walkers (m : Machine) (l : Nat) (v : Launch) : (m.setLaunch l v).walkers = m.walkers := rfl
@[simp] theorem Machine.setLaunch_hdm (m : Machine) (l : Nat) (v : Launch) : (m.setLaunch l v).hdm = m.hdm := rfl
@[simp] theorem Machine.setLaunch_moves (m : Machine) (l : Nat) (v : Launch) : (m.setLaunch l v).moves = m.moves := rfl
@[simp] theorem Machine.setLaunch_kvReqs (m : Machine) (l : Nat) (v : Launch) : (m.setLaunch l v).kvReqs = m.kvReqs := rfl
@[simp] theorem Machine.setLaunch_nextTxn (m : Machine) (l : Nat) (v : Launch) : (m.setLaunch l v).nextTxn = m.nextTxn := rfl
@[simp] theorem Machine.setLaunch_arrivals (m : Machine) (l : Nat) (v : Launch) : (m.setLaunch l v).arrivals = m.arrivals := rfl
@[simp] theorem Machine.setLaunch_fresh (m : Machine) (l : Nat) (v : Launch) : (m.setLaunch l v).fresh = m.fresh := rfl

/-! ### A context -/

@[simp] theorem Ctx.setCr_st (x : Ctx) (n : Nat) (v : Word) : (x.setCr n v).st = x.st := rfl
@[simp] theorem Ctx.setCr_hold (x : Ctx) (n : Nat) (v : Word) : (x.setCr n v).hold = x.hold := rfl
@[simp] theorem Ctx.setCr_pc (x : Ctx) (n : Nat) (v : Word) : (x.setCr n v).pc = x.pc := rfl
@[simp] theorem Ctx.setCr_s (x : Ctx) (n : Nat) (v : Word) : (x.setCr n v).s = x.s := rfl
@[simp] theorem Ctx.setCr_tc (x : Ctx) (n : Nat) (v : Word) : (x.setCr n v).tc = x.tc := rfl
@[simp] theorem Ctx.setCr_nxt (x : Ctx) (n : Nat) (v : Word) : (x.setCr n v).nxt = x.nxt := rfl
@[simp] theorem Ctx.setCr_v (x : Ctx) (n : Nat) (v : Word) : (x.setCr n v).v = x.v := rfl
@[simp] theorem Ctx.setCr_mask (x : Ctx) (n : Nat) (v : Word) : (x.setCr n v).mask = x.mask := rfl
@[simp] theorem Ctx.setCr_q (x : Ctx) (n : Nat) (v : Word) : (x.setCr n v).q = x.q := rfl
@[simp] theorem Ctx.setCr_acc (x : Ctx) (n : Nat) (v : Word) : (x.setCr n v).acc = x.acc := rfl
@[simp] theorem Ctx.setCr_accHeld (x : Ctx) (n : Nat) (v : Word) : (x.setCr n v).accHeld = x.accHeld := rfl
@[simp] theorem Ctx.setCr_t (x : Ctx) (n : Nat) (v : Word) : (x.setCr n v).t = x.t := rfl
@[simp] theorem Ctx.setCr_tDef (x : Ctx) (n : Nat) (v : Word) : (x.setCr n v).tDef = x.tDef := rfl
@[simp] theorem Ctx.setCr_cap (x : Ctx) (n : Nat) (v : Word) : (x.setCr n v).cap = x.cap := rfl
@[simp] theorem Ctx.setCr_capV (x : Ctx) (n : Nat) (v : Word) : (x.setCr n v).capV = x.capV := rfl
@[simp] theorem Ctx.setCr_cn (x : Ctx) (n : Nat) (v : Word) : (x.setCr n v).cn = x.cn := rfl
@[simp] theorem Ctx.setCr_tid (x : Ctx) (n : Nat) (v : Word) : (x.setCr n v).tid = x.tid := rfl
@[simp] theorem Ctx.setCr_cb (x : Ctx) (n : Nat) (v : Word) : (x.setCr n v).cb = x.cb := rfl
@[simp] theorem Ctx.setCr_konst (x : Ctx) (n : Nat) (v : Word) : (x.setCr n v).konst = x.konst := rfl
@[simp] theorem Ctx.setCr_sched (x : Ctx) (n : Nat) (v : Word) : (x.setCr n v).sched = x.sched := rfl
@[simp] theorem Ctx.setCr_fpc (x : Ctx) (n : Nat) (v : Word) : (x.setCr n v).fpc = x.fpc := rfl
@[simp] theorem Ctx.setCr_fpcW (x : Ctx) (n : Nat) (v : Word) : (x.setCr n v).fpcW = x.fpcW := rfl
@[simp] theorem Ctx.setCr_fmt (x : Ctx) (n : Nat) (v : Word) : (x.setCr n v).fmt = x.fmt := rfl
@[simp] theorem Ctx.setCr_fmtW (x : Ctx) (n : Nat) (v : Word) : (x.setCr n v).fmtW = x.fmtW := rfl
@[simp] theorem Ctx.setCr_pend (x : Ctx) (n : Nat) (v : Word) : (x.setCr n v).pend = x.pend := rfl
@[simp] theorem Ctx.setCr_lq (x : Ctx) (n : Nat) (v : Word) : (x.setCr n v).lq = x.lq := rfl
@[simp] theorem Ctx.setCr_intl (x : Ctx) (n : Nat) (v : Word) : (x.setCr n v).intl = x.intl := rfl
@[simp] theorem Ctx.setCr_async (x : Ctx) (n : Nat) (v : Word) : (x.setCr n v).async = x.async := rfl
@[simp] theorem Ctx.setCr_ints (x : Ctx) (n : Nat) (v : Word) : (x.setCr n v).ints = x.ints := rfl
@[simp] theorem Ctx.setCr_after (x : Ctx) (n : Nat) (v : Word) : (x.setCr n v).after = x.after := rfl
@[simp] theorem Ctx.setCr_deferred (x : Ctx) (n : Nat) (v : Word) : (x.setCr n v).deferred = x.deferred := rfl
@[simp] theorem Ctx.setCr_depth (x : Ctx) (n : Nat) (v : Word) : (x.setCr n v).depth = x.depth := rfl
@[simp] theorem Ctx.setCr_stepArmed (x : Ctx) (n : Nat) (v : Word) : (x.setCr n v).stepArmed = x.stepArmed := rfl
@[simp] theorem Ctx.setCr_ret (x : Ctx) (n : Nat) (v : Word) : (x.setCr n v).ret = x.ret := rfl
@[simp] theorem Ctx.setCr_killed (x : Ctx) (n : Nat) (v : Word) : (x.setCr n v).killed = x.killed := rfl
@[simp] theorem Ctx.setCr_lm (x : Ctx) (n : Nat) (v : Word) : (x.setCr n v).lm = x.lm := rfl
@[simp] theorem Ctx.setCr_xfers (x : Ctx) (n : Nat) (v : Word) : (x.setCr n v).xfers = x.xfers := rfl
@[simp] theorem Ctx.setCr_kvops (x : Ctx) (n : Nat) (v : Word) : (x.setCr n v).kvops = x.kvops := rfl
@[simp] theorem Ctx.setCr_msgs (x : Ctx) (n : Nat) (v : Word) : (x.setCr n v).msgs = x.msgs := rfl
@[simp] theorem Ctx.setCr_opSeq (x : Ctx) (n : Nat) (v : Word) : (x.setCr n v).opSeq = x.opSeq := rfl
@[simp] theorem Ctx.setCr_fires (x : Ctx) (n : Nat) (v : Word) : (x.setCr n v).fires = x.fires := rfl
@[simp] theorem Ctx.setCr_retained (x : Ctx) (n : Nat) (v : Word) : (x.setCr n v).retained = x.retained := rfl
@[simp] theorem Ctx.setCr_launch (x : Ctx) (n : Nat) (v : Word) : (x.setCr n v).launch = x.launch := rfl
@[simp] theorem Ctx.setCr_queue (x : Ctx) (n : Nat) (v : Word) : (x.setCr n v).queue = x.queue := rfl
@[simp] theorem Ctx.setCr_img (x : Ctx) (n : Nat) (v : Word) : (x.setCr n v).img = x.img := rfl
@[simp] theorem Ctx.setCr_ti (x : Ctx) (n : Nat) (v : Word) : (x.setCr n v).ti = x.ti := rfl
@[simp] theorem Ctx.setCr_tasks (x : Ctx) (n : Nat) (v : Word) : (x.setCr n v).tasks = x.tasks := rfl
@[simp] theorem Ctx.setCr_stage0 (x : Ctx) (n : Nat) (v : Word) : (x.setCr n v).stage0 = x.stage0 := rfl
@[simp] theorem Ctx.setCr_filled (x : Ctx) (n : Nat) (v : Word) : (x.setCr n v).filled = x.filled := rfl
@[simp] theorem Ctx.setCr_dep (x : Ctx) (n : Nat) (v : Word) : (x.setCr n v).dep = x.dep := rfl
@[simp] theorem Ctx.setCr_aging (x : Ctx) (n : Nat) (v : Word) : (x.setCr n v).aging = x.aging := rfl
@[simp] theorem Ctx.setCr_asked (x : Ctx) (n : Nat) (v : Word) : (x.setCr n v).asked = x.asked := rfl
@[simp] theorem Ctx.setCr_frames (x : Ctx) (n : Nat) (v : Word) : (x.setCr n v).frames = x.frames := rfl
@[simp] theorem Ctx.setCr_stores (x : Ctx) (n : Nat) (v : Word) : (x.setCr n v).stores = x.stores := rfl
@[simp] theorem Ctx.setCr_waitHeld (x : Ctx) (n : Nat) (v : Word) : (x.setCr n v).waitHeld = x.waitHeld := rfl
@[simp] theorem Ctx.setCr_seen (x : Ctx) (n : Nat) (v : Word) : (x.setCr n v).seen = x.seen := rfl
@[simp] theorem Ctx.setCr_told (x : Ctx) (n : Nat) (v : Word) : (x.setCr n v).told = x.told := rfl
@[simp] theorem Ctx.setTc_st (x : Ctx) (n : Nat) (v : Word) : (x.setTc n v).st = x.st := rfl
@[simp] theorem Ctx.setTc_hold (x : Ctx) (n : Nat) (v : Word) : (x.setTc n v).hold = x.hold := rfl
@[simp] theorem Ctx.setTc_pc (x : Ctx) (n : Nat) (v : Word) : (x.setTc n v).pc = x.pc := rfl
@[simp] theorem Ctx.setTc_s (x : Ctx) (n : Nat) (v : Word) : (x.setTc n v).s = x.s := rfl
@[simp] theorem Ctx.setTc_nxt (x : Ctx) (n : Nat) (v : Word) : (x.setTc n v).nxt = x.nxt := rfl
@[simp] theorem Ctx.setTc_v (x : Ctx) (n : Nat) (v : Word) : (x.setTc n v).v = x.v := rfl
@[simp] theorem Ctx.setTc_mask (x : Ctx) (n : Nat) (v : Word) : (x.setTc n v).mask = x.mask := rfl
@[simp] theorem Ctx.setTc_q (x : Ctx) (n : Nat) (v : Word) : (x.setTc n v).q = x.q := rfl
@[simp] theorem Ctx.setTc_acc (x : Ctx) (n : Nat) (v : Word) : (x.setTc n v).acc = x.acc := rfl
@[simp] theorem Ctx.setTc_accHeld (x : Ctx) (n : Nat) (v : Word) : (x.setTc n v).accHeld = x.accHeld := rfl
@[simp] theorem Ctx.setTc_t (x : Ctx) (n : Nat) (v : Word) : (x.setTc n v).t = x.t := rfl
@[simp] theorem Ctx.setTc_tDef (x : Ctx) (n : Nat) (v : Word) : (x.setTc n v).tDef = x.tDef := rfl
@[simp] theorem Ctx.setTc_cap (x : Ctx) (n : Nat) (v : Word) : (x.setTc n v).cap = x.cap := rfl
@[simp] theorem Ctx.setTc_capV (x : Ctx) (n : Nat) (v : Word) : (x.setTc n v).capV = x.capV := rfl
@[simp] theorem Ctx.setTc_cn (x : Ctx) (n : Nat) (v : Word) : (x.setTc n v).cn = x.cn := rfl
@[simp] theorem Ctx.setTc_tid (x : Ctx) (n : Nat) (v : Word) : (x.setTc n v).tid = x.tid := rfl
@[simp] theorem Ctx.setTc_cb (x : Ctx) (n : Nat) (v : Word) : (x.setTc n v).cb = x.cb := rfl
@[simp] theorem Ctx.setTc_konst (x : Ctx) (n : Nat) (v : Word) : (x.setTc n v).konst = x.konst := rfl
@[simp] theorem Ctx.setTc_sched (x : Ctx) (n : Nat) (v : Word) : (x.setTc n v).sched = x.sched := rfl
@[simp] theorem Ctx.setTc_csr (x : Ctx) (n : Nat) (v : Word) : (x.setTc n v).csr = x.csr := rfl
@[simp] theorem Ctx.setTc_fpc (x : Ctx) (n : Nat) (v : Word) : (x.setTc n v).fpc = x.fpc := rfl
@[simp] theorem Ctx.setTc_fpcW (x : Ctx) (n : Nat) (v : Word) : (x.setTc n v).fpcW = x.fpcW := rfl
@[simp] theorem Ctx.setTc_fmt (x : Ctx) (n : Nat) (v : Word) : (x.setTc n v).fmt = x.fmt := rfl
@[simp] theorem Ctx.setTc_fmtW (x : Ctx) (n : Nat) (v : Word) : (x.setTc n v).fmtW = x.fmtW := rfl
@[simp] theorem Ctx.setTc_pend (x : Ctx) (n : Nat) (v : Word) : (x.setTc n v).pend = x.pend := rfl
@[simp] theorem Ctx.setTc_lq (x : Ctx) (n : Nat) (v : Word) : (x.setTc n v).lq = x.lq := rfl
@[simp] theorem Ctx.setTc_intl (x : Ctx) (n : Nat) (v : Word) : (x.setTc n v).intl = x.intl := rfl
@[simp] theorem Ctx.setTc_async (x : Ctx) (n : Nat) (v : Word) : (x.setTc n v).async = x.async := rfl
@[simp] theorem Ctx.setTc_ints (x : Ctx) (n : Nat) (v : Word) : (x.setTc n v).ints = x.ints := rfl
@[simp] theorem Ctx.setTc_after (x : Ctx) (n : Nat) (v : Word) : (x.setTc n v).after = x.after := rfl
@[simp] theorem Ctx.setTc_deferred (x : Ctx) (n : Nat) (v : Word) : (x.setTc n v).deferred = x.deferred := rfl
@[simp] theorem Ctx.setTc_depth (x : Ctx) (n : Nat) (v : Word) : (x.setTc n v).depth = x.depth := rfl
@[simp] theorem Ctx.setTc_stepArmed (x : Ctx) (n : Nat) (v : Word) : (x.setTc n v).stepArmed = x.stepArmed := rfl
@[simp] theorem Ctx.setTc_ret (x : Ctx) (n : Nat) (v : Word) : (x.setTc n v).ret = x.ret := rfl
@[simp] theorem Ctx.setTc_killed (x : Ctx) (n : Nat) (v : Word) : (x.setTc n v).killed = x.killed := rfl
@[simp] theorem Ctx.setTc_lm (x : Ctx) (n : Nat) (v : Word) : (x.setTc n v).lm = x.lm := rfl
@[simp] theorem Ctx.setTc_xfers (x : Ctx) (n : Nat) (v : Word) : (x.setTc n v).xfers = x.xfers := rfl
@[simp] theorem Ctx.setTc_kvops (x : Ctx) (n : Nat) (v : Word) : (x.setTc n v).kvops = x.kvops := rfl
@[simp] theorem Ctx.setTc_msgs (x : Ctx) (n : Nat) (v : Word) : (x.setTc n v).msgs = x.msgs := rfl
@[simp] theorem Ctx.setTc_opSeq (x : Ctx) (n : Nat) (v : Word) : (x.setTc n v).opSeq = x.opSeq := rfl
@[simp] theorem Ctx.setTc_fires (x : Ctx) (n : Nat) (v : Word) : (x.setTc n v).fires = x.fires := rfl
@[simp] theorem Ctx.setTc_retained (x : Ctx) (n : Nat) (v : Word) : (x.setTc n v).retained = x.retained := rfl
@[simp] theorem Ctx.setTc_launch (x : Ctx) (n : Nat) (v : Word) : (x.setTc n v).launch = x.launch := rfl
@[simp] theorem Ctx.setTc_queue (x : Ctx) (n : Nat) (v : Word) : (x.setTc n v).queue = x.queue := rfl
@[simp] theorem Ctx.setTc_img (x : Ctx) (n : Nat) (v : Word) : (x.setTc n v).img = x.img := rfl
@[simp] theorem Ctx.setTc_ti (x : Ctx) (n : Nat) (v : Word) : (x.setTc n v).ti = x.ti := rfl
@[simp] theorem Ctx.setTc_tasks (x : Ctx) (n : Nat) (v : Word) : (x.setTc n v).tasks = x.tasks := rfl
@[simp] theorem Ctx.setTc_stage0 (x : Ctx) (n : Nat) (v : Word) : (x.setTc n v).stage0 = x.stage0 := rfl
@[simp] theorem Ctx.setTc_filled (x : Ctx) (n : Nat) (v : Word) : (x.setTc n v).filled = x.filled := rfl
@[simp] theorem Ctx.setTc_dep (x : Ctx) (n : Nat) (v : Word) : (x.setTc n v).dep = x.dep := rfl
@[simp] theorem Ctx.setTc_aging (x : Ctx) (n : Nat) (v : Word) : (x.setTc n v).aging = x.aging := rfl
@[simp] theorem Ctx.setTc_asked (x : Ctx) (n : Nat) (v : Word) : (x.setTc n v).asked = x.asked := rfl
@[simp] theorem Ctx.setTc_frames (x : Ctx) (n : Nat) (v : Word) : (x.setTc n v).frames = x.frames := rfl
@[simp] theorem Ctx.setTc_stores (x : Ctx) (n : Nat) (v : Word) : (x.setTc n v).stores = x.stores := rfl
@[simp] theorem Ctx.setTc_waitHeld (x : Ctx) (n : Nat) (v : Word) : (x.setTc n v).waitHeld = x.waitHeld := rfl
@[simp] theorem Ctx.setTc_seen (x : Ctx) (n : Nat) (v : Word) : (x.setTc n v).seen = x.seen := rfl
@[simp] theorem Ctx.setTc_told (x : Ctx) (n : Nat) (v : Word) : (x.setTc n v).told = x.told := rfl
@[simp] theorem Ctx.issue_st (x : Ctx) (p : Pend) : (x.issue p).st = x.st := rfl
@[simp] theorem Ctx.issue_hold (x : Ctx) (p : Pend) : (x.issue p).hold = x.hold := rfl
@[simp] theorem Ctx.issue_pc (x : Ctx) (p : Pend) : (x.issue p).pc = x.pc := rfl
@[simp] theorem Ctx.issue_s (x : Ctx) (p : Pend) : (x.issue p).s = x.s := rfl
@[simp] theorem Ctx.issue_tc (x : Ctx) (p : Pend) : (x.issue p).tc = x.tc := rfl
@[simp] theorem Ctx.issue_nxt (x : Ctx) (p : Pend) : (x.issue p).nxt = x.nxt := rfl
@[simp] theorem Ctx.issue_v (x : Ctx) (p : Pend) : (x.issue p).v = x.v := rfl
@[simp] theorem Ctx.issue_mask (x : Ctx) (p : Pend) : (x.issue p).mask = x.mask := rfl
@[simp] theorem Ctx.issue_q (x : Ctx) (p : Pend) : (x.issue p).q = x.q := rfl
@[simp] theorem Ctx.issue_acc (x : Ctx) (p : Pend) : (x.issue p).acc = x.acc := rfl
@[simp] theorem Ctx.issue_accHeld (x : Ctx) (p : Pend) : (x.issue p).accHeld = x.accHeld := rfl
@[simp] theorem Ctx.issue_t (x : Ctx) (p : Pend) : (x.issue p).t = x.t := rfl
@[simp] theorem Ctx.issue_tDef (x : Ctx) (p : Pend) : (x.issue p).tDef = x.tDef := rfl
@[simp] theorem Ctx.issue_cap (x : Ctx) (p : Pend) : (x.issue p).cap = x.cap := rfl
@[simp] theorem Ctx.issue_capV (x : Ctx) (p : Pend) : (x.issue p).capV = x.capV := rfl
@[simp] theorem Ctx.issue_cn (x : Ctx) (p : Pend) : (x.issue p).cn = x.cn := rfl
@[simp] theorem Ctx.issue_tid (x : Ctx) (p : Pend) : (x.issue p).tid = x.tid := rfl
@[simp] theorem Ctx.issue_cb (x : Ctx) (p : Pend) : (x.issue p).cb = x.cb := rfl
@[simp] theorem Ctx.issue_konst (x : Ctx) (p : Pend) : (x.issue p).konst = x.konst := rfl
@[simp] theorem Ctx.issue_sched (x : Ctx) (p : Pend) : (x.issue p).sched = x.sched := rfl
@[simp] theorem Ctx.issue_csr (x : Ctx) (p : Pend) : (x.issue p).csr = x.csr := rfl
@[simp] theorem Ctx.issue_fpc (x : Ctx) (p : Pend) : (x.issue p).fpc = x.fpc := rfl
@[simp] theorem Ctx.issue_fpcW (x : Ctx) (p : Pend) : (x.issue p).fpcW = x.fpcW := rfl
@[simp] theorem Ctx.issue_fmt (x : Ctx) (p : Pend) : (x.issue p).fmt = x.fmt := rfl
@[simp] theorem Ctx.issue_fmtW (x : Ctx) (p : Pend) : (x.issue p).fmtW = x.fmtW := rfl
@[simp] theorem Ctx.issue_lq (x : Ctx) (p : Pend) : (x.issue p).lq = x.lq := rfl
@[simp] theorem Ctx.issue_intl (x : Ctx) (p : Pend) : (x.issue p).intl = x.intl := rfl
@[simp] theorem Ctx.issue_async (x : Ctx) (p : Pend) : (x.issue p).async = x.async := rfl
@[simp] theorem Ctx.issue_ints (x : Ctx) (p : Pend) : (x.issue p).ints = x.ints := rfl
@[simp] theorem Ctx.issue_after (x : Ctx) (p : Pend) : (x.issue p).after = x.after := rfl
@[simp] theorem Ctx.issue_deferred (x : Ctx) (p : Pend) : (x.issue p).deferred = x.deferred := rfl
@[simp] theorem Ctx.issue_depth (x : Ctx) (p : Pend) : (x.issue p).depth = x.depth := rfl
@[simp] theorem Ctx.issue_stepArmed (x : Ctx) (p : Pend) : (x.issue p).stepArmed = x.stepArmed := rfl
@[simp] theorem Ctx.issue_ret (x : Ctx) (p : Pend) : (x.issue p).ret = x.ret := rfl
@[simp] theorem Ctx.issue_killed (x : Ctx) (p : Pend) : (x.issue p).killed = x.killed := rfl
@[simp] theorem Ctx.issue_lm (x : Ctx) (p : Pend) : (x.issue p).lm = x.lm := rfl
@[simp] theorem Ctx.issue_xfers (x : Ctx) (p : Pend) : (x.issue p).xfers = x.xfers := rfl
@[simp] theorem Ctx.issue_kvops (x : Ctx) (p : Pend) : (x.issue p).kvops = x.kvops := rfl
@[simp] theorem Ctx.issue_msgs (x : Ctx) (p : Pend) : (x.issue p).msgs = x.msgs := rfl
@[simp] theorem Ctx.issue_opSeq (x : Ctx) (p : Pend) : (x.issue p).opSeq = x.opSeq := rfl
@[simp] theorem Ctx.issue_fires (x : Ctx) (p : Pend) : (x.issue p).fires = x.fires := rfl
@[simp] theorem Ctx.issue_retained (x : Ctx) (p : Pend) : (x.issue p).retained = x.retained := rfl
@[simp] theorem Ctx.issue_launch (x : Ctx) (p : Pend) : (x.issue p).launch = x.launch := rfl
@[simp] theorem Ctx.issue_queue (x : Ctx) (p : Pend) : (x.issue p).queue = x.queue := rfl
@[simp] theorem Ctx.issue_img (x : Ctx) (p : Pend) : (x.issue p).img = x.img := rfl
@[simp] theorem Ctx.issue_ti (x : Ctx) (p : Pend) : (x.issue p).ti = x.ti := rfl
@[simp] theorem Ctx.issue_tasks (x : Ctx) (p : Pend) : (x.issue p).tasks = x.tasks := rfl
@[simp] theorem Ctx.issue_stage0 (x : Ctx) (p : Pend) : (x.issue p).stage0 = x.stage0 := rfl
@[simp] theorem Ctx.issue_filled (x : Ctx) (p : Pend) : (x.issue p).filled = x.filled := rfl
@[simp] theorem Ctx.issue_dep (x : Ctx) (p : Pend) : (x.issue p).dep = x.dep := rfl
@[simp] theorem Ctx.issue_aging (x : Ctx) (p : Pend) : (x.issue p).aging = x.aging := rfl
@[simp] theorem Ctx.issue_asked (x : Ctx) (p : Pend) : (x.issue p).asked = x.asked := rfl
@[simp] theorem Ctx.issue_frames (x : Ctx) (p : Pend) : (x.issue p).frames = x.frames := rfl
@[simp] theorem Ctx.issue_stores (x : Ctx) (p : Pend) : (x.issue p).stores = x.stores := rfl
@[simp] theorem Ctx.issue_waitHeld (x : Ctx) (p : Pend) : (x.issue p).waitHeld = x.waitHeld := rfl
@[simp] theorem Ctx.issue_seen (x : Ctx) (p : Pend) : (x.issue p).seen = x.seen := rfl
@[simp] theorem Ctx.issue_told (x : Ctx) (p : Pend) : (x.issue p).told = x.told := rfl
@[simp] theorem Ctx.issue_pend (x : Ctx) (p : Pend) : (x.issue p).pend = x.pend ++ [p] := rfl

/-! ### Reading back -/

@[simp] theorem Machine.setCtx_ctx_same (m : Machine) (c : Nat) (x : Ctx) (h : SMap.rising m.ctxs = true) : (m.setCtx c x).ctx c = x :=
  SMap.get_set_same x h

theorem Machine.setCtx_ctx_other (m : Machine) (c j : Nat) (x : Ctx) (h : SMap.rising m.ctxs = true) (ne : j ≠ c) : (m.setCtx c x).ctx j = m.ctx j :=
  SMap.get_set_other x h ne

@[simp] theorem Machine.setCore_core_same (m : Machine) (n : Nat) (k : Core) (h : SMap.rising m.cores = true) : (m.setCore n k).core n = k :=
  SMap.get_set_same k h

theorem Machine.setCore_core_other (m : Machine) (n j : Nat) (k : Core) (h : SMap.rising m.cores = true) (ne : j ≠ n) : (m.setCore n k).core j = m.core j :=
  SMap.get_set_other k h ne

@[simp] theorem Machine.setCtx_core (m : Machine) (c n : Nat) (x : Ctx) : (m.setCtx c x).core n = m.core n := rfl
@[simp] theorem Machine.setCore_ctx (m : Machine) (c n : Nat) (k : Core) : (m.setCore n k).ctx c = m.ctx c := rfl
@[simp] theorem Machine.setCtx_byte (m : Machine) (c a : Nat) (x : Ctx) : (m.setCtx c x).byte a = m.byte a := rfl
@[simp] theorem Machine.setCore_byte (m : Machine) (n a : Nat) (k : Core) : (m.setCore n k).byte a = m.byte a := rfl

theorem Ctx.cr_setCr_same (x : Ctx) (n : Nat) (v : Word) (h : SMap.rising x.csr = true) : (x.setCr n v).cr n = v :=
  SMap.get_set_same v h

theorem Ctx.cr_setCr_other (x : Ctx) (n j : Nat) (v : Word) (h : SMap.rising x.csr = true) (ne : j ≠ n) : (x.setCr n v).cr j = x.cr j :=
  SMap.get_set_other v h ne

end Sys2Proof.Machine
end

