-- ==== Sys2Proof/Laws/Memory.lean ====
section
/-! SUPPORT. Laws/Memory.lean: what reads give after writes of memory, and that every operation on memory keeps its canonical form. -/

namespace Sys2Proof.Machine

/-- The machine's memory is in its canonical form. -/
abbrev Machine.MemWf (m : Machine) : Prop := Memory.wf m.mem = true

theorem reset_memWf : State.reset.m.MemWf := rfl

/-! ### Reads after writes -/

theorem Machine.byte_setByte (m : Machine) (k j : Nat) (b : Byte) (h : m.MemWf) : (m.setByte k b).byte j = if j = k then b else m.byte j := by
  by_cases e : j = k
  · subst e; rw [if_pos rfl]; exact SMap.get_set_same b (SMap.wf_rising h)
  · rw [if_neg e]; exact SMap.get_set_other b (SMap.wf_rising h) e

theorem Machine.byte_setBytes (m : Machine) (k j : Nat) (bs : List Byte) (h : m.MemWf) :
    (m.setBytes k bs).byte j = if k ≤ j ∧ j < k + bs.length then bs.getD (j - k) freshByte else m.byte j := by
  unfold Machine.byte
  rw [Machine.setBytes_mem]
  exact SMap.get_setRun bs h

/-- Bytes read where they were written. -/
theorem Machine.bytes_setBytes_same (m : Machine) (k : Nat) (bs : List Byte) (h : m.MemWf) : (m.setBytes k bs).bytes k bs.length = bs := by
  unfold Machine.bytes
  apply List.ext_getElem
  · simp
  · intro i h1 h2
    simp only [List.length_map, List.length_range] at h1
    simp [Machine.byte_setBytes m k _ bs h, h1]

/-- Bytes read away from those written. -/
theorem Machine.bytes_setBytes_other (m : Machine) (k j n : Nat) (bs : List Byte) (h : m.MemWf) (away : j + n ≤ k ∨ k + bs.length ≤ j) :
    (m.setBytes k bs).bytes j n = m.bytes j n := by
  unfold Machine.bytes
  apply List.map_congr_left
  intro i hi
  rw [List.mem_range] at hi
  rw [Machine.byte_setBytes m k _ bs h, if_neg (by omega)]

/-! ### The canonical form is kept -/

theorem Machine.setByte_memWf (m : Machine) (k : Nat) (b : Byte) (h : m.MemWf) : (m.setByte k b).MemWf := SMap.set_wf k b h

theorem Machine.setBytes_memWf (m : Machine) (k : Nat) (bs : List Byte) (h : m.MemWf) : (m.setBytes k bs).MemWf := by
  unfold Machine.MemWf; rw [Machine.setBytes_mem]; exact SMap.setRun_wf k bs h

theorem Machine.setNat_memWf (m : Machine) (k n x : Nat) (h : m.MemWf) : (m.setNat k n x).MemWf := m.setBytes_memWf k _ h
theorem Machine.setWord_memWf (m : Machine) (k x : Nat) (h : m.MemWf) : (m.setWord k x).MemWf := m.setBytes_memWf k _ h
theorem Machine.setCtx_memWf (m : Machine) (c : Nat) (x : Ctx) (h : m.MemWf) : (m.setCtx c x).MemWf := h
theorem Machine.setCore_memWf (m : Machine) (n : Nat) (k : Core) (h : m.MemWf) : (m.setCore n k).MemWf := h

theorem Machine.dropLlc_memWf (m : Machine) (k : Nat) (h : m.MemWf) : (m.dropLlc k).MemWf := by unfold Machine.dropLlc; split <;> exact h

theorem Machine.async_memWf (m : Machine) (c : Nat) (k : Cause) (h : m.MemWf) : (m.async c k).MemWf := h

theorem codedStore_memWf {m m' : Machine} {cri key fl : Nat} {new : List Nat} (h : m.MemWf) (e : codedStore m cri key new = .ok (m', fl)) : m'.MemWf := by
  unfold codedStore at e
  simp only at e
  split at e
  · cases e; exact m.setNat_memWf _ _ _ h
  · split at e
    · cases e
    · cases e; exact m.setNat_memWf _ _ _ h

/-! What leaves memory alone: frames sent, waiters told, and what a store of a task through an input handle marks. -/

theorem Machine.sendFrame_mem (m : Machine) (port pkg j : Nat) (fs : List Byte) : (m.sendFrame port pkg j fs).mem = m.mem := rfl

theorem Machine.sendBytes_mem (port pkg j : Nat) : ∀ (fuel : Nat) (m : Machine) (bs : List Byte), (m.sendBytes port pkg j bs fuel).mem = m.mem := by
  intro fuel
  induction fuel with
  | zero => intro m bs; rfl
  | succ fuel ih =>
    intro m bs
    unfold Machine.sendBytes
    split
    · rfl
    · exact (ih _ _).trans (Machine.sendFrame_mem ..)

theorem Machine.transmit_mem (m : Machine) (pkg j : Nat) (bs : List Byte) : (m.transmit pkg j bs).mem = m.mem := by
  unfold Machine.transmit
  split
  · exact Machine.sendBytes_mem _ _ _ _ _ _
  · rfl

theorem Machine.farRequest_mem (m : Machine) (n key len : Nat) (bs : List Byte) : (m.farRequest n key len bs).mem = m.mem := by
  unfold Machine.farRequest
  split
  · rfl
  · exact Machine.transmit_mem _ _ _ _

/-- A fold of steps that keep memory keeps it. -/
theorem foldl_mem {α : Type} (f : Machine → α → Machine) (hf : ∀ m a, (f m a).mem = m.mem) : ∀ (as : List α) (m : Machine), (as.foldl f m).mem = m.mem := by
  intro as
  induction as with
  | nil => exact fun _ => rfl
  | cons a as ih => exact fun m => (ih _).trans (hf m a)

theorem Machine.noteWaits_mem (m : Machine) : m.noteWaits.mem = m.mem := by
  unfold Machine.noteWaits
  refine foldl_mem _ (fun m p => ?_) _ m
  repeat' split
  all_goals rfl

theorem Machine.noteInput_mem (m : Machine) (e : StoreEntry) : (m.noteInput e).mem = m.mem := by
  unfold Machine.noteInput
  simp only
  repeat' split
  all_goals rfl

theorem Machine.farRequest_memWf (m : Machine) (n key len : Nat) (bs : List Byte) (h : m.MemWf) : (m.farRequest n key len bs).MemWf := by
  unfold Machine.MemWf; rw [Machine.farRequest_mem]; exact h
theorem Machine.noteWaits_memWf (m : Machine) (h : m.MemWf) : m.noteWaits.MemWf := by unfold Machine.MemWf; rw [Machine.noteWaits_mem]; exact h
theorem Machine.noteInput_memWf (m : Machine) (e : StoreEntry) (h : m.MemWf) : (m.noteInput e).MemWf := by unfold Machine.MemWf; rw [Machine.noteInput_mem]; exact h

theorem Machine.writeHome_memWf (m : Machine) (e : StoreEntry) (h : m.MemWf) : (m.writeHome e).MemWf := by
  unfold Machine.writeHome
  simp only
  have h0 : ((m.dropLlc e.key).farRequest (coreOf e.ctx) e.key e.bytes.length e.bytes).MemWf := Machine.farRequest_memWf _ _ _ _ _ (m.dropLlc_memWf e.key h)
  generalize (m.dropLlc e.key).farRequest (coreOf e.ctx) e.key e.bytes.length e.bytes = m0 at h0 ⊢
  cases hc : e.coded with
  | none =>
    simp only
    split
    · exact m0.setBytes_memWf _ _ h0
    · exact m0.setBytes_memWf _ _ h0
  | some cri =>
    simp only
    generalize (if e.bytes.length = 128 then some [] else codedLine m0 cri e.key) = old
    cases old with
    | none => simp only; split <;> exact h0
    | some old =>
      simp only
      generalize lineWords _ = new
      cases hs : codedStore m0 cri e.key new with
      | error => exact h0
      | ok r =>
        have hr : r.1.MemWf := codedStore_memWf (fl := r.2) h0 hs
        simp only
        split <;> exact hr

theorem Machine.performPlain_memWf (m : Machine) (e : StoreEntry) (h : m.MemWf) : (m.performPlain e).MemWf :=
  Machine.noteWaits_memWf _ (Machine.writeHome_memWf _ e (m.noteInput_memWf e h))

theorem Machine.serviceFault_memWf (m : Machine) (c : Nat) (h : m.MemWf) : (m.serviceFault c).MemWf := by unfold Machine.serviceFault; split <;> exact h

theorem Machine.writeSpill_memWf (m : Machine) (l : Staged) (h : m.MemWf) : (m.writeSpill l).MemWf := by
  unfold Machine.writeSpill
  simp only
  split
  · split
    · exact m.setBytes_memWf _ _ h
    · exact m.serviceFault_memWf _ h
  · exact h

set_option exponentiation.threshold 400 in
theorem Machine.stage_memWf (m : Machine) (x : Nat) (e : StoreEntry) (h : m.MemWf) : (m.stage x e).MemWf := by
  unfold Machine.stage
  simp only
  split
  · exact Machine.writeSpill_memWf _ _ h
  · split
    · exact Machine.setNat_memWf _ _ _ _ (Machine.writeSpill_memWf _ _ h)
    · exact Machine.writeSpill_memWf _ _ h

theorem Machine.performStore_memWf (m : Machine) (e : StoreEntry) (h : m.MemWf) : (m.performStore e).MemWf := by
  unfold Machine.performStore
  split
  · exact Machine.noteWaits_memWf _ (Machine.stage_memWf _ _ _ (m.noteInput_memWf e h))
  · exact m.performPlain_memWf _ h

theorem performAll_memWf (es : List StoreEntry) : ∀ m : Machine, m.MemWf → (es.foldl Machine.performStore m).MemWf := by
  induction es with
  | nil => exact fun _ h => h
  | cons e es ih => exact fun m h => ih _ (m.performStore_memWf e h)

theorem Machine.drain_memWf (m : Machine) (n key len : Nat) (h : m.MemWf) : (m.drain n key len).MemWf :=
  performAll_memWf _ _ h

theorem Machine.store_memWf (m : Machine) (c va : Nat) (p : Phys) (bs : List Byte) (st : Option Nat) (h : m.MemWf) : (m.store c va p bs st).MemWf := h

theorem Machine.lookup_mem {m m' : Machine} {n va : Nat} {a : Acc} {ok : Nat → Bool} {t : TlbEntry} (e : m.lookup n va a ok = .ok (m', t)) : m'.mem = m.mem := by
  unfold Machine.lookup at e
  simp only at e
  repeat' split at e
  all_goals first
    | (cases e; rfl)
    | (exfalso; simp [raise] at e; done)

theorem check_ok {b : Bool} {code : Nat} {va : Nat} {u : Unit} (e : check b code va = .ok u) : b = true := by
  unfold check at e
  split at e
  · assumption
  · cases e

theorem Machine.translate_mem {m m' : Machine} {n va : Nat} {a : Acc} {ok : Nat → Bool} {p : Phys} (e : m.translate n va a ok = .ok (m', p)) : m'.mem = m.mem := by
  unfold Machine.translate at e
  simp only [bind, Except.bind] at e
  repeat' split at e
  all_goals first
    | (cases e; exact lookup_mem (by assumption))
    | (exfalso; simp at e; done)

theorem Machine.access_mem {m m' : Machine} {n va size : Nat} {a : Acc} {p : Phys} (e : m.access n va size a = .ok (m', p)) : m'.mem = m.mem := by
  unfold Machine.access at e
  simp only [bind, Except.bind] at e
  repeat' split at e
  all_goals first
    | (cases e; rename_i hl; exact translate_mem (by assumption))
    | (cases e; exact translate_mem (by assumption))
    | (exfalso; simp at e; done)

theorem Machine.readHome_memWf {m m' : Machine} {c len : Nat} {p : Phys} {bs : List Byte} (h : m.MemWf) (e : m.readHome c p len = .ok (m', bs)) : m'.MemWf := by
  unfold Machine.readHome at e
  simp only at e
  repeat' split at e
  all_goals first
    | (cases e; exact Machine.farRequest_memWf _ _ _ _ _ (m.drain_memWf _ _ _ h))
    | cases e

theorem Machine.fillLlc_memWf (m : Machine) (line : Nat) (bs : List Byte) (h : m.MemWf) : (m.fillLlc line bs).MemWf := by
  unfold Machine.fillLlc
  simp only
  split <;> exact h

theorem Machine.lineRead_memWf {m m' : Machine} {n : Nat} {p : Phys} {bs : List Byte} (h : m.MemWf) (e : m.lineRead n p = .ok (m', bs)) : m'.MemWf := by
  unfold Machine.lineRead at e
  simp only at e
  split at e
  · cases hr : m.homeRead { p with key := p.key / 128 * 128 } 128 with
    | error => rw [hr] at e; cases e
    | ok xs =>
      rw [hr] at e
      cases e
      split
      · exact Machine.fillLlc_memWf _ _ _ (m.farRequest_memWf _ _ _ _ h)
      · exact h
  · cases e; exact h

theorem Machine.readCached_memWf {m m' : Machine} {c len : Nat} {p : Phys} {bs : List Byte} (h : m.MemWf) (e : m.readCached c p len = .ok (m', bs)) : m'.MemWf := by
  unfold Machine.readCached at e
  simp only at e
  split at e
  · split at e
    · rename_i m1 _ hr
      cases e
      have h1 : m1.MemWf := lineRead_memWf (Machine.drain_memWf m (coreOf c) (p.key / 128 * 128) 128 h) hr
      exact h1
    · cases e
  · cases e; exact h

theorem Machine.loadChecked_memWf {m m' : Machine} {c va size v : Nat} (h : m.MemWf) (e : m.loadChecked c va size = .ok (m', v)) : m'.MemWf := by
  unfold Machine.loadChecked at e
  cases ha : m.access (coreOf c) va size .load with
  | error x => simp [ha, bind, Except.bind] at e
  | ok r =>
    have h1 : r.1.MemWf := by unfold Machine.MemWf; rw [Machine.access_mem (p := r.2) ha]; exact h
    simp only [ha, bind, Except.bind] at e
    cases hr : r.1.readCached c r.2 size with
    | error x => rw [hr] at e; cases x <;> simp [atAddress] at e
    | ok v => rw [hr] at e; simp only [atAddress] at e; cases e; exact readCached_memWf h1 hr

theorem Machine.storeChecked_memWf {m m' : Machine} {c va size x : Nat} (h : m.MemWf) (e : m.storeChecked c va size x = .ok m') : m'.MemWf := by
  unfold Machine.storeChecked at e
  cases ha : m.access (coreOf c) va size .store with
  | error x => simp [ha, bind, Except.bind] at e
  | ok r =>
    have h1 : r.1.MemWf := by unfold Machine.MemWf; rw [Machine.access_mem (p := r.2) ha]; exact h
    simp only [ha, bind, Except.bind] at e
    repeat' split at e
    all_goals first
      | (cases e; exact Machine.store_memWf _ _ _ _ _ _ h1)
      | (exfalso; simp at e; done)

theorem Machine.writePinned_memWf {n : Nat} {m' : Machine} : ∀ (fuel : Nat) (m : Machine) (va : Nat) (bs : List Byte),
    m.MemWf → m.writePinned n va bs fuel = some m' → m'.MemWf := by
  intro fuel
  induction fuel with
  | zero => intro m va bs h e; unfold Machine.writePinned at e; split at e <;> cases e; exact h
  | succ fuel ih =>
    intro m va bs h e
    unfold Machine.writePinned at e
    split at e
    · cases e; exact h
    · simp only at e
      split at e
      · cases e
      · refine ih _ _ _ ?_ e
        exact Machine.setBytes_memWf _ _ _ (Machine.drain_memWf m n _ _ h)

theorem Machine.discard_memWf (m : Machine) (n : Nat) (k : Cause) (h : m.MemWf) : (m.discard n k).MemWf := by
  unfold Machine.discard
  repeat' split
  all_goals exact h

/-- Taking a cause keeps memory's form. -/
theorem Machine.takeCause_memWf (m : Machine) (c : Nat) (k : Cause) (pc : Word) (h : m.MemWf) : (m.takeCause c k pc).MemWf := by
  unfold Machine.takeCause
  simp only
  split
  · exact m.discard_memWf _ _ h
  · split
    · exact m.discard_memWf _ _ h
    · rename_i m2 e
      have h2 : m2.MemWf := by refine writePinned_memWf 40 _ _ _ ?_ e; exact m.discard_memWf (coreOf c) k h
      exact h2

end Sys2Proof.Machine
end

