-- ==== Sys2Proof/Laws/Syllable.lean ====
section
/-! SUPPORT. Laws/Syllable.lean: everything that the shared operations of a bundle's syllables can do, once for each. -/

namespace Sys2Proof.Machine

variable {s : State} {f : Env → Machine → Res Machine} {m : Machine} {k : Cause} {h : Hold} {t : State}

/-! ### `syllable` -/

theorem syllable_ok (g : s.going) (e : f s.env s.m = .ok m) : syllable f s = .next (s.withM m) := by
  unfold State.going at g
  unfold State.env State.x State.start State.c at e
  simp [syllable, g, e, State.withM]

theorem syllable_trap (g : s.going) (e : f s.env s.m = .error (.trap k)) : syllable f s = .next (s.trapped k) := by
  unfold State.going at g
  unfold State.env State.x State.start State.c at e
  by_cases b : k.blocked <;> simp [syllable, g, e, State.withM, State.trapped, State.start, State.c, b]

/-- An access that the damper blocks: the bundle goes on (10 R256). -/
theorem trapped_blocked (b : k.blocked = true) : s.trapped k = s.withM (s.m.deferDamper s.c k) := by simp [State.trapped, b]

theorem trapped_withM (s : State) (k : Cause) : ∃ m, s.trapped k = s.withM m := by unfold State.trapped; split <;> exact ⟨_, rfl⟩

theorem syllable_hold (g : s.going) (e : f s.env s.m = .error (.hold h)) : syllable f s = .next (s.heldBy h) := by
  unfold State.going at g
  unfold State.env State.x State.start State.c at e
  simp [syllable, g, e, State.withM, State.heldBy, State.start, State.c]

theorem syllable_stopped (g : ¬ s.going) : syllable f s = .next s := by
  unfold State.going at g
  simp [syllable, g]

/-- A syllable always answers a next state, which differs in the machine alone. -/
theorem syllable_next (f : Env → Machine → Res Machine) (s : State) : ∃ m, syllable f s = .next (s.withM m) := by
  by_cases g : s.going
  · cases e : f s.env s.m with
    | ok m => exact ⟨m, syllable_ok g e⟩
    | error r =>
      cases r with
      | trap k =>
        obtain ⟨m, h⟩ := trapped_withM s k
        exact ⟨m, h ▸ syllable_trap g e⟩
      | hold h => exact ⟨_, syllable_hold g e⟩
  · exact ⟨s.m, syllable_stopped g⟩

/-! ### Results -/

theorem push_ok {m : Machine} {p : Pend} (r : p.off ≤ 1 ∨ s.roomIn m) : m.push s.env p = .ok (s.issuedIn m p).m := by
  unfold Machine.push State.issuedIn State.withM State.env
  unfold State.roomIn at r
  simp only
  rw [if_neg (by intro a; rcases r with r | r <;> omega)]
  rfl

theorem push_quiet {m : Machine} {p : Pend} (r : p.off ≤ 1 ∨ s.roomIn m) :
    m.push s.env p true = .ok (m.setCtx s.c ((m.ctx s.c).issue { p with pc := m.bun.pc, en := 0 })) := by
  unfold Machine.push State.env
  unfold State.roomIn at r
  simp only
  rw [if_neg (by intro a; rcases r with r | r <;> omega)]
  rfl

theorem vecResult_ok {m : Machine} {o : VOp} {lat code : Nat} {rs : List (Nat × FRes)} (r : lat ≤ 1 ∨ s.roomIn m) :
    m.vecResult s.env o lat code rs = .ok (s.lanesOut m o lat code rs).m := by
  unfold Machine.vecResult State.lanesOut
  split
  · rfl
  · exact push_ok r

theorem maskResult_ok {m : Machine} {d ce fl : Nat} {rs : List (Nat × Bool)} : m.maskResult s.env d ce fl rs = .ok (s.maskOut m d ce fl rs).m := by
  unfold Machine.maskResult State.maskOut
  split
  · rfl
  · exact push_ok (.inl (Nat.le_refl _))

theorem rawResult_ok {m : Machine} {o : VOp} {lat : Nat} {rs : List (Nat × Word)} (r : lat ≤ 1 ∨ s.roomIn m) :
    m.rawResult s.env o lat rs = .ok (s.wordsOut m o lat rs).m := by
  unfold Machine.rawResult State.wordsOut
  split
  · rfl
  · exact push_ok r

theorem laneResult_ok {m : Machine} {o : VOp} {lat : Nat} {rs : List (Nat × Triple × Nat)} (r : lat ≤ 1 ∨ s.roomIn m) :
    m.laneResult s.env o lat rs = .ok (s.statsOut m o lat rs).m := by
  unfold Machine.laneResult State.statsOut
  split
  · rfl
  · exact push_ok r

theorem statResult_ok {m : Machine} {o : VOp} {lat : Nat} {rs : List (Nat × Triple × Nat)} (r : lat ≤ 1 ∨ s.roomIn m) :
    m.statResult s.env o lat rs = .ok (s.triplesOut m o lat rs).m := laneResult_ok r

theorem result_ok {lat : Nat} {d : Reg} {v : Word} (r : lat ≤ 1 ∨ s.room) : s.m.result s.env lat d v = .ok (s.wrote lat d v).m := push_ok r

@[simp] theorem withM_issuedIn (m : Machine) (p : Pend) : s.withM (s.issuedIn m p).m = s.issuedIn m p := rfl

theorem withM_lanesOut (m : Machine) (o : VOp) (lat code : Nat) (rs : List (Nat × FRes)) :
    s.withM (s.lanesOut m o lat code rs).m = s.lanesOut m o lat code rs := by unfold State.lanesOut; split <;> rfl
theorem withM_maskOut (m : Machine) (d ce fl : Nat) (rs : List (Nat × Bool)) :
    s.withM (s.maskOut m d ce fl rs).m = s.maskOut m d ce fl rs := by unfold State.maskOut; split <;> rfl
theorem withM_wordsOut (m : Machine) (o : VOp) (lat : Nat) (rs : List (Nat × Word)) :
    s.withM (s.wordsOut m o lat rs).m = s.wordsOut m o lat rs := by unfold State.wordsOut; split <;> rfl
theorem withM_statsOut (m : Machine) (o : VOp) (lat : Nat) (rs : List (Nat × Triple × Nat)) :
    s.withM (s.statsOut m o lat rs).m = s.statsOut m o lat rs := by unfold State.statsOut; split <;> rfl
theorem withM_triplesOut (m : Machine) (o : VOp) (lat : Nat) (rs : List (Nat × Triple × Nat)) :
    s.withM (s.triplesOut m o lat rs).m = s.triplesOut m o lat rs := withM_statsOut m o lat _

@[simp] theorem withM_wrote (lat : Nat) (d : Reg) (v : Word) : s.withM (s.wrote lat d v).m = s.wrote lat d v := rfl

theorem scalarResult_ok {lat : Nat} {d : Reg} {v : Word} {f : Env → Res Word} (g : s.going) (r : lat ≤ 1 ∨ s.room) (e : f s.env = .ok v) :
    scalarResult lat d f s = .next (s.wrote lat d v) :=
  syllable_ok g (by simp only [e, bind, Except.bind]; exact result_ok r)

theorem scalarResult_trap {lat : Nat} {d : Reg} {f : Env → Res Word} (g : s.going) (e : f s.env = .error (.trap k)) :
    scalarResult lat d f s = .next (s.trapped k) :=
  syllable_trap g (by simp [e, bind, Except.bind])

theorem scalar2_ok {lat : Nat} {d : Reg} {a b : Src} {f : Word → Word → Word} (g : s.going) (r : lat ≤ 1 ∨ s.room) :
    scalar2 lat f d a b s = .next (s.wrote lat d (f (s.x.src a) (s.x.src b))) :=
  scalarResult_ok g r rfl

/-! ### Branches -/

theorem goto_ok {pc : Word} (al : pc.toNat % 4 = 0) : s.m.goto pc = .ok (s.goesTo pc).m := by
  simp [Machine.goto, check, al, bind, Except.bind, State.goesTo, State.withM]

theorem goto_trap {m : Machine} {pc : Word} (al : pc.toNat % 4 ≠ 0) : m.goto pc = .error (.trap { code := 0x0A, i0 := pc.toNat }) := by
  simp [Machine.goto, check, al, bind, Except.bind, raise]

/-! ### Lanes -/

/-- Lanes that all have a value. -/
theorem forLanes_ok {α : Type} {f : Nat → Res α} {v : Nat → α} {gs : List Nat} (e : ∀ g ∈ gs, f g = .ok (v g)) :
    forLanes f gs = .ok (gs.map fun g => (g, v g)) := by
  induction gs with
  | nil => rfl
  | cons g gs ih =>
    have h1 := e g (by simp)
    have h2 := ih fun g' h' => e g' (by simp [h'])
    simp [forLanes, h1, h2, bind, Except.bind]

/-- A lane operation whose pops succeed and whose lanes all have a value. -/
theorem laneOp_ok {lat : Nat} {src dst : NFmt → VOp → Nat} {useB useC : Bool} {f : Env → VOp → Nat → Nat → Nat → Nat → Option FRes} {o : VOp} {m : Machine}
    {pop : List Word} {v : Nat → FRes} (g : s.going) (hp : s.m.popIf s.env (isV63 o.a || (useB && isV63 o.b) || (useC && o.c == 63)) = .ok (m, pop))
    (r : lat ≤ 1 ∨ s.roomIn m)
    (hv : ∀ g ∈ s.x.lanes o.ms o.ce, f s.env o g (s.x.elem pop s.x.nf (src s.x.nf o) o.a g) (if useB then s.x.elem pop s.x.nf (src s.x.nf o) o.b g else 0)
      (if useC then laneCode s.x.nf (src s.x.nf o) (s.x.vsrc pop o.c g) else 0) = some (v g)) :
    laneOp lat src dst useB useC f o s = .next (s.lanesOut m o lat (dst s.x.nf o) ((s.x.lanes o.ms o.ce).map fun g => (g, v g))) := by
  rw [← withM_lanesOut]
  refine syllable_ok g ?_
  simp only [hp, bind, Except.bind]
  rw [forLanes_ok (v := v)]
  · exact vecResult_ok r
  · intro g' hg
    have := hv g' hg
    simp only [State.env] at this ⊢
    rw [this]
    rfl

end Sys2Proof.Machine
end

