-- ==== Sys2Proof/Laws/Progress.lean ====
section
/-! SUPPORT. Laws/Progress.lean: the shared operations that meanings are made of always answer a next state; what each may change of the turn, the machine set apart for a bundle and the agenda. -/

namespace Sys2Proof.Machine

/-- The outcome is a next state with the same agenda, whose machine set apart is the same or none, and whose turn names a unit if the turn before did. -/
def State.Onward (s : State) (o : Out State) : Prop :=
  ∃ t, o = .next t ∧ t.agenda = s.agenda ∧ (t.snap = s.snap ∨ t.snap = none) ∧ (s.turn.ok = true → t.turn.ok = true)

/-- A next state that differs in the machine alone. -/
theorem onward_withM (s : State) (m : Machine) : s.Onward (.next (s.withM m)) := ⟨_, rfl, rfl, .inl rfl, id⟩

theorem onward_self (s : State) : s.Onward (.next s) := ⟨_, rfl, rfl, .inl rfl, id⟩

/-- A next state that ends the turn. -/
theorem onward_done (s : State) (m : Machine) : s.Onward (.next { s with m, turn := .none }) := ⟨_, rfl, rfl, .inl rfl, fun _ => rfl⟩

theorem syllable_onward (f : Env → Machine → Res Machine) (s : State) : s.Onward (syllable f s) := by
  obtain ⟨m, e⟩ := syllable_next f s
  exact e ▸ onward_withM s m

/-- An operator's run ends its turn: its queue's walk goes on, or stays, or its queue fails, or the words of its image have the turn; without a turn of its own it does nothing. -/
theorem lbRun_cases (f : Machine → Nat → Walk → PRes LbRes) (s : State) :
    lbRun f s = .next s ∨ (∃ m, lbRun f s = .next { s with m, turn := .none }) ∨ ∃ q w m e, s.turn = .graph q ∧ f s.m q w = .ok (.expand m e) ∧ lbRun f s = .next ({ s with m }.expand e) := by
  unfold lbRun
  split
  · split
    · exact .inr (.inl ⟨_, rfl⟩)
    · split
      · exact .inr (.inr ⟨_, _, _, _, ‹_›, ‹_›, rfl⟩)
      all_goals exact .inr (.inl ⟨_, rfl⟩)
  · exact .inl rfl

/-- An operator keeps the agenda, and gives the turn to the words of its image only on a die of the package: the one of its queue. -/
theorem lbRun_onward (f : Machine → Nat → Walk → PRes LbRes) (s : State) (own : ∀ m q w m' e, f m q w = .ok (.expand m' e) → e.queue = q) : s.Onward (lbRun f s) := by
  rcases lbRun_cases f s with e | ⟨m, e⟩ | ⟨q, w, m, x, ht, hx, e⟩
  · exact e ▸ onward_self s
  · exact e ▸ onward_done s m
  · rw [e]
    refine ⟨_, rfl, rfl, .inl rfl, fun h => ?_⟩
    rw [ht] at h
    have hq : q < 128 := of_decide_eq_true h
    have : x.queue / 16 < 8 := by rw [own _ _ _ _ _ hx]; omega
    exact decide_eq_true this

/-- What an operator of whole tensors begins is an expansion for its own queue. -/
theorem whenReady_expand {m : Machine} {q adv : Nat} {o : LbOp} {w : Walk} {rs ws : List Tensor} {f : PRes (Machine × Nat)} {m' : Machine} {e : Expansion}
    (h : whenReady m q o w adv rs ws f = .ok (.expand m' e)) : ∃ image, m.builtinOf q o = some image ∧ e = m.expansion q w o image adv := by
  unfold whenReady at h
  simp only [bind, Except.bind] at h
  repeat' split at h
  all_goals first
    | (cases h; exact ⟨_, ‹_›, rfl⟩)
    | cases h

/-- A word's run leaves the next word the turn, or gives the expansion up; without a turn of its own it does nothing. -/
theorem ucRun_cases (f : Machine → Walk → Expansion → PRes Expansion) (s : State) :
    (∃ m, ucRun f s = .next (s.withM m)) ∨ ∃ m, ucRun f s = .next { s with m, turn := .none } := by
  unfold ucRun
  split
  · split
    · exact .inr ⟨_, rfl⟩
    · split
      · exact .inr ⟨_, rfl⟩
      · split
        · exact .inl ⟨_, rfl⟩
        · exact .inr ⟨_, rfl⟩
  · exact .inl ⟨s.m, rfl⟩

theorem ucRun_onward (f : Machine → Walk → Expansion → PRes Expansion) (s : State) : s.Onward (ucRun f s) := by
  rcases ucRun_cases f s with ⟨m, e⟩ | ⟨m, e⟩
  · exact e ▸ onward_withM s m
  · exact e ▸ onward_done s m

/-- A service command acts on the store to SCMD at the head, and is done at once. -/
theorem scmd_next (code arg : Nat) (f : Machine → Machine × Nat) (s : State) : ∃ m, scmd code arg f s = .next (s.withM m) := by
  unfold scmd
  split
  · split
    · exact ⟨_, rfl⟩
    · exact ⟨s.m, rfl⟩
  · exact ⟨s.m, rfl⟩

theorem scmd_onward (code arg : Nat) (f : Machine → Machine × Nat) (s : State) : s.Onward (scmd code arg f s) := by
  obtain ⟨m, e⟩ := scmd_next code arg f s
  exact e ▸ onward_withM s m

theorem abandon_onward (s : State) (d : Nat) (e : Expansion) (k : Nat) : s.Onward (s.abandon d e k) := onward_done s _

end Sys2Proof.Machine
end

