-- ==== Sys2Proof/Tests/Slice0.lean ====
section
/-! SUPPORT. Tests/Slice0.lean: ill-formed terms that each check refuses, words written out from the spec's encodings, and states that meet the hypotheses of the statements. -/

namespace Sys2Proof.Tests

open Sys2Proof Sys2Proof.Machine

set_option Elab.async false

/-! ### Helpers -/

/-- The result is a value that meets `f`. -/
def okWith {ε α : Type} (r : Except ε α) (f : α → Bool) : Bool :=
  match r with
  | .ok a => f a
  | .error _ => false

/-- The result is an error that meets `f`. -/
def errWith {ε α : Type} (r : Except ε α) (f : ε → Bool) : Bool :=
  match r with
  | .ok _ => false
  | .error e => f e

/-- The result is a cause of the code. -/
def traps {α : Type} (r : Res α) (code : Nat) : Bool :=
  errWith r fun e => match e with
    | .trap k => k.code == code
    | .hold _ => false

/-- The outcome is a next state that meets `f`. -/
def nextWith (o : Out State) (f : State → Bool) : Bool :=
  match o with
  | .next t => f t
  | _ => false

/-- The machine `m` with context 0 at work on a bundle of 12 bytes at 0x10000. -/
def atWork (m : Machine) (x : Ctx) : State :=
  let m : Machine := { m with ctxs := SMap.set {} m.ctxs 0 { x with st := .running, pc := 0x10000 }, bun := { pc := 0x10000, len := 12 } }
  { m, snap := some m, turn := .bundle 0 }

/-- The same on a machine that holds nothing else. -/
def on (x : Ctx) : State := atWork {} x

/-- Context 0 goes on with its bundle (`State.going`). -/
def isGoing (s : State) : Bool := s.m.bun.status == .clean

/-- Room for one more exposed result (`State.room`). -/
def hasRoom (s : State) : Bool := decide (s.x.pend.length + (((s.m.ctx s.c).pend.drop s.x.pend.length).filter fun r => 1 < r.off).length < 32)

/-- `isGoing` and `hasRoom` say what the statements' hypotheses say. -/
theorem isGoing_going (s : State) (h : isGoing s = true) : s.going := by simpa [isGoing, State.going] using h
theorem hasRoom_room (s : State) (h : hasRoom s = true) : s.room := by simpa [hasRoom, State.room, State.roomIn] using h

/-- The bytes of a number of n bytes that are not zero, from a key up. -/
def natAt (k n v : Nat) : List (Nat × Byte) := ((leBytes n v).zipIdx.filter fun p => p.1 != 0).map fun p => (k + p.2, p.1)
def wordAt (k v : Nat) : List (Nat × Byte) := natAt k 8 v
/-! ### Ill-formed terms -/

/-- 03 R59, R60: sources of kind 0b10 share CX, and a 6-bit literal does not stand beside a 32-bit one. -/
theorem test_ill_sources : wellFormed (.sAdd 1 (.k 64) (.k 128)) = false ∧ wellFormed (.sAdd 1 (.l6 1) (.l32 2)) = false ∧
    wellFormed (.sAdd 1 (.l32 1) (.l32 2)) = false ∧ wellFormed (.sAdd 1 (.l32 2) (.l32 2)) = true := by decide

/-- 04 R88: kinds and sets of the S slot. -/
theorem test_ill_scalar : wellFormed (.j (.l6 4)) = false ∧ wellFormed (.bc .eq (.l6 0) (.r0 1) 4) = false ∧ wellFormed (.nxt 0) = false ∧
    wellFormed (.trap (.ops (.l32 1) (.r0 1))) = false ∧ wellFormed (.csrw 0x20 (.l32 1)) = false ∧ wellFormed (.csrw 0x01 (.r0 1)) = false ∧
    wellFormed (.csrwFpc (.l32 0)) = false ∧ wellFormed (.ld 7 1 2 (.r0 3)) = false ∧ wellFormed (.fence 3 .core) = false ∧
    wellFormed (.amo .fadd true .core 1 2 (.r0 3) 0) = false ∧ wellFormed (.amo .add false .core 1 2 (.r1 3) 0) = false ∧
    wellFormed (.acq .core 1 2 (.l32 1)) = false ∧ wellFormed (.alloc 1 (.l32 1)) = false ∧ wellFormed (.cld 7 1 2 (.r0 3)) = false ∧
    wellFormed (.cst 3 1 2 (.l32 1)) = false ∧ wellFormed (.tlbinv .ctx 0 1 2) = false ∧ wellFormed (.tlbinv .core 3 1 2) = false ∧
    wellFormed (.bankmode (.r0 1) 0 3) = false ∧ wellFormed (.fmtw (.l32 1)) = false ∧ wellFormed (.tidw true 16 1) = false := by decide

/-- 05 R138, R146, R149; 07 R185; 06 R168: the A, P and M slots. -/
theorem test_ill_others : wellFormed (.lq 7 0 255 1 (.r0 2)) = false ∧ wellFormed (.lqg 3 0 255 1 (.r0 2) 63) = false ∧ wellFormed (.vld 0 0 255 63 1 (.r0 2)) = false ∧
    wellFormed (.vldg 0 0 255 1 1 (.r0 2) 63) = false ∧ wellFormed (.vst 0 0 255 1 1 (.l32 2)) = false ∧ wellFormed (.mset 255 1 (.upto 17)) = false ∧
    wellFormed (.mma 0 1 (.tile 2) 5 false) = false ∧ wellFormed (.mst 1 0 6 false) = false ∧ wellFormed (.attn 1 2 3 5 false) = false ∧
    wellFormed (.mq 0 0 false (.row (.r0 1)) 0 255) = false := by decide

/-- A vector operation with D 1, A v2 and B v3. -/
def vop (ty f : Nat) : VOp := { d := 1, a := .r0 2, b := .r0 3, c := 0, ty := .ofNat 3 ty, f := .ofNat 3 f, ms := 0, ce := 255 }

/-- 05 R124: types, function codes, registers, kinds and unused fields of the vector slots. -/
theorem test_ill_vector : wellFormed (.fadd .va (vop 4 0)) = false ∧ wellFormed (.fadd .va (vop 0 5)) = false ∧ wellFormed (.fadd .va { vop 0 0 with c := 1 }) = false ∧
    wellFormed (.fabs .va (vop 0 0)) = false ∧ wellFormed (.fcmp .va { vop 0 0 with d := 16 }) = false ∧ wellFormed (.fcmp .va { vop 0 0 with b := .l32 0 }) = false ∧
    wellFormed (.vAdd .va (vop 3 0)) = false ∧ wellFormed (.vMulh .va (vop 6 0)) = false ∧ wellFormed (.vMin .va (vop 7 1)) = false ∧
    wellFormed (.cvt .va { vop 0 0 with b := .r0 10 }) = false ∧ wellFormed (.cvt .va { vop 0 0 with b := .r0 16 }) = false ∧ wellFormed (.cvt .va { vop 0 0 with b := .r0 9 }) = true ∧
    wellFormed (.vred .va { vop 0 3 with b := .r0 0 }) = false ∧ wellFormed (.vacc .va { vop 0 0 with a := .r0 8, b := .l6 0 }) = false ∧
    wellFormed (.qupd .va { vop 4 0 with b := .r0 0 }) = false ∧ wellFormed (.qmrg .va { vop 0 0 with a := .r0 16 }) = false ∧
    wellFormed (.qdrn .va { vop 0 5 with b := .r0 0, d := 1, a := .r0 16 }) = false ∧ wellFormed (.perm { vop 0 0 with a := .r1 2 }) = false ∧
    wellFormed (.zip (vop 0 2)) = false ∧ wellFormed (.rot (vop 0 0)) = false ∧ wellFormed (.xroute { vop 4 0 with d := 1, a := .r0 0, b := .l6 0 }) = false ∧
    wellFormed (.frcp { vop 0 0 with a := .l32 0, b := .r0 0 }) = false := by decide

/-- 08 R197; 19 R390; 18 R377: the C slot. -/
theorem test_ill_copy :
    let o : CopyOp := { d := 1, a := 2, b := .r0 3, c := 4, tid := 5, ch := 1, lay := 0, prv := false }
    wellFormed (.tld o) = true ∧ wellFormed (.tld { o with lay := 3 }) = false ∧ wellFormed (.tst { o with ch := 2, prv := true }) = false ∧
    wellFormed (.tsendOpen (.r1 1) 2) = false ∧ wellFormed (.kvmap 1 2 (.r0 3) 4 false 2) = false ∧ wellFormed (.kvmapDem 2 (.r0 3) 4 1) = false := by decide

/-! ### Words written out from the spec's encodings -/

/-- 03 R57, R62, R69, R88: `add s3, s1, #-2` in 64 bits: LEN 01, SLOT 000, OP 0x01, D 3, A 1, B 0b111110 of kind 0b11. -/
theorem test_word_add : decode (.tile false) (leBytes 8 (0b01 + 0x01 * 2 ^ 6 + 3 * 2 ^ 13 + 1 * 2 ^ 19 + 0b111110 * 2 ^ 25 + 0b11 * 2 ^ 40)) =
    some (.sAdd 3 (.r0 1) (.l6 (-2))) := by decide

/-- 05 R124: `fadd.s v5, v6, v7` in 64 bits: SLOT 010, OP 0x01, TY 0b001, MS 2, CE 0x0F, F 7. -/
theorem test_word_fadd : decode (.tile false) (leBytes 8 (0b01 + 2 * 2 ^ 3 + 0x01 * 2 ^ 6 + 5 * 2 ^ 13 + 6 * 2 ^ 19 + 7 * 2 ^ 25 +
      2 ^ 32 * (2 ^ 14 * (0x0F + 2 * 2 ^ 8 + 1 * 2 ^ 12 + 7 * 2 ^ 15)))) =
    some (.fadd .va { d := 5, a := .r0 6, b := .r0 7, c := 0, ty := 1, f := 7, ms := 2, ce := 0x0F }) := by decide

/-- 05 R146, R149: `lq` and `vld` of the A slot; 05 R138: `mand` in 32 bits. -/
theorem test_word_a_and_p :
    decode (.tile false) (leBytes 8 (0b01 + 1 * 2 ^ 3 + 0x08 * 2 ^ 6 + 2 * 2 ^ 19 + 3 * 2 ^ 25 + 2 ^ 46 * (0xFF + 1 * 2 ^ 8 + 3 * 2 ^ 12))) = some (.lq 3 1 0xFF 2 (.r0 3)) ∧
    decode (.tile false) (leBytes 8 (0b01 + 1 * 2 ^ 3 + 0x10 * 2 ^ 6 + 4 * 2 ^ 13 + 2 * 2 ^ 19 + 3 * 2 ^ 25 + 2 ^ 46 * (0xFF + 1 * 2 ^ 8 + 2 * 2 ^ 12))) =
      some (.vld 2 1 0xFF 4 2 (.r0 3)) ∧
    decode (.tile false) (leBytes 4 (6 * 2 ^ 3 + 0x01 * 2 ^ 6 + 3 * 2 ^ 13 + 1 * 2 ^ 19 + 2 * 2 ^ 25)) = some (.mand 0xFF 3 1 2) := by decide

/-- 05 R139, R141: `fsqrt.d` of the X slot and `xcopy` with a literal distance. -/
theorem test_word_x :
    decode (.tile false) (leBytes 8 (0b01 + 7 * 2 ^ 3 + 0x03 * 2 ^ 6 + 1 * 2 ^ 13 + 2 * 2 ^ 19 + 2 ^ 46 * 0xFF)) =
      some (.fsqrt { d := 1, a := .r0 2, b := .r0 0, c := 0, ty := 0, f := 0, ms := 0, ce := 0xFF }) ∧
    decode (.tile false) (leBytes 8 (0b01 + 7 * 2 ^ 3 + 0x30 * 2 ^ 6 + 1 * 2 ^ 13 + 2 * 2 ^ 19 + 3 * 2 ^ 25 + 0b11 * 2 ^ 40 + 2 ^ 46 * 0xFF)) =
      some (.xcopy { d := 1, a := .r0 2, b := .l6 3, c := 0, ty := 0, f := 0, ms := 0, ce := 0xFF }) := by decide

/-- 07 R185; 06 R168: `mma acc1, t2, t3` and `mq` in column mode; 07 R175: `tdef`. -/
theorem test_word_m :
    decode (.tile false) (leBytes 8 (0b01 + 4 * 2 ^ 3 + 0x01 * 2 ^ 6 + 1 * 2 ^ 13 + 2 * 2 ^ 19 + 3 * 2 ^ 25 + 2 ^ 46 * (7 * 2 ^ 15 + 2 ^ 3))) = some (.mma 1 2 (.tile 3) 7 true) ∧
    decode (.tile false) (leBytes 8 (0b01 + 4 * 2 ^ 3 + 0x07 * 2 ^ 6 + 1 * 2 ^ 13 + 2 * 2 ^ 19 + 2 ^ 46 * (0xFF * 2 ^ 2 + 2))) = some (.mq 1 2 false .col 0 0xFF) ∧
    decode (.tile false) (leBytes 8 (0b01 + 4 * 2 ^ 3 + 0x10 * 2 ^ 6 + 1 * 2 ^ 13 + 2 * 2 ^ 19 + 3 * 2 ^ 25)) = some (.tdef 1 2 3) := by decide

/-- 08 R197: `tld` with TID 9, channel 2 and layout 1; 19 R390: `tsend`; 20 R405: `tfire`; 18 R368, R377: `attn` and `kvmap` of function 1. -/
theorem test_word_c :
    decode (.tile false) (leBytes 8 (0b01 + 5 * 2 ^ 3 + 0x01 * 2 ^ 6 + 1 * 2 ^ 13 + 2 * 2 ^ 19 + 3 * 2 ^ 25 + 4 * 2 ^ 32 + 2 ^ 46 * (9 * 2 ^ 10 + 2 * 2 ^ 8 + 1 * 2 ^ 6))) =
      some (.tld { d := 1, a := 2, b := .r0 3, c := 4, tid := 9, ch := 2, lay := 1, prv := false }) ∧
    decode (.tile false) (leBytes 8 (0b01 + 5 * 2 ^ 3 + 0x0A * 2 ^ 6 + 1 * 2 ^ 13 + 2 * 2 ^ 19 + 3 * 2 ^ 25)) = some (.tsend 1 2 3) ∧
    decode (.tile false) (leBytes 8 (0b01 + 5 * 2 ^ 3 + 0x08 * 2 ^ 6 + 1 * 2 ^ 13 + 2 * 2 ^ 19 + 3 * 2 ^ 25)) = some (.tfire 1 2 (.r0 3)) ∧
    decode (.tile false) (leBytes 8 (0b01 + 5 * 2 ^ 3 + 0x10 * 2 ^ 6 + 1 * 2 ^ 13 + 2 * 2 ^ 19 + 3 * 2 ^ 25)) = some (.attn 1 2 3 0 false) ∧
    decode (.tile false) (leBytes 8 (0b01 + 5 * 2 ^ 3 + 0x11 * 2 ^ 6 + 2 * 2 ^ 19 + 3 * 2 ^ 25 + 4 * 2 ^ 32 + 2 ^ 46 * 1)) = some (.kvmapPro 2 (.r0 3) 4) := by decide

/-- 12 R277, R279: `dset $d5 := 7`; 13 R295: `tiledim` 1 of 64, and `oend`. -/
theorem test_word_graph :
    decode .graph (leBytes 16 (0x60 + 5 * 2 ^ 16 + 7 * 2 ^ 64)) = some (.lbDset { op := 0x60, md := 0, ln := 0, d := 5, a := 0, b := 0, c := 0, imm := 7 }) ∧
    decode .micro (leBytes 8 (0x2 * 2 ^ 60 + 1 * 2 ^ 56 + 64 * 2 ^ 45)) = some (.ucTiledim 1 64) ∧ decode .micro (leBytes 8 (0xB * 2 ^ 60)) = some .ucOend := by decide

/-- 03 R64: a set reserved bit, a register beyond its file and an unassigned type are refused with the numbers of the rule. -/
theorem test_word_refused :
    errWith (decodeSyllable false 0 (.ofNat (0b01 + 0x01 * 2 ^ 6 + 2 ^ 46))) (fun e => e == ⟨0x03, 46⟩) = true ∧
    errWith (decodeSyllable false 0 (.ofNat (6 * 2 ^ 3 + 0x01 * 2 ^ 6 + 16 * 2 ^ 13))) (fun e => e == ⟨0x03, 17⟩) = true ∧
    errWith (decodeSyllable false 0 (.ofNat (0b01 + 2 * 2 ^ 3 + 0x01 * 2 ^ 6 + 2 ^ 58 * 4 + 2 ^ 46 * 0xFF))) (fun e => e == ⟨0x01, 3⟩) = true ∧
    errWith (decodeSyllable false 1 (.ofNat (0x01 * 2 ^ 6))) (fun e => e == ⟨0x02, 0⟩) = true := by decide

/-! ### States that meet the statements' hypotheses

A theorem `wit_X` is about the statement `Obligations.X`; its parts follow that statement's clauses. -/

/-- A bound launch of tile tasks on core 0 with one unread coordinate. -/
def someLaunch : Launch := { lrec := 0x20000, queue := 0, cores := [0], coords := [(0, 0x50000000000)], bound := true }

/-- The least value by −1, a divisor of 0, and room; conditions at their limits; a field that runs past bit 63. -/
theorem wit_ScalarInstructions :
    let s := on { s := [(1, 0x8000000000000000), (2, 0xFFFFFFFFFFFFFFFF), (4, 5)] }
    isGoing s = true ∧ hasRoom s = true ∧ s.x.src (.r0 1) = 0x8000000000000000 ∧ s.x.src (.r0 2) = -1 ∧ s.x.src (.r0 3) = 0 ∧ s.x.src (.l6 (-1)) = -1 ∧
    (s.x.src (.r0 4)).toNat ≤ (s.x.src (.r1 4)).toNat ∧ (s.x.src (.r0 1)).toInt < (s.x.src (.r0 2)).toInt ∧ ¬ ((s.x.src (.r0 2)).toNat < (s.x.src (.r0 1)).toNat) ∧
    s.x.sreg 4 ≠ 0 ∧ s.x.sreg 3 = 0 := by decide

theorem wit_BranchesAndCoordinates :
    let s := on { s := [(1, 1), (2, 0x40), (3, 0x42), (4, 2)] }
    isGoing s = true ∧ (s.m.bun.pc + (0xFFFFFFC0 : BitVec 32).signExtend 64).toNat % 4 = 0 ∧ (s.m.bun.pc + (2 : BitVec 32).signExtend 64).toNat % 4 ≠ 0 ∧
    s.x.src (.r0 1) ≠ s.x.src (.r0 2) ∧ (s.x.sreg 2).toNat % 4 = 0 ∧ (s.x.sreg 3).toNat % 4 ≠ 0 ∧ s.x.sreg 1 = 1 ∧ s.x.sreg 4 ≠ 1 ∧ s.x.sreg 0 ≠ 1 := by decide

/-- tc1 with a coordinate, the end code or the empty code, and a launch with an unread coordinate. -/
theorem wit_BranchesAndCoordinates_coords :
    let m : Machine := { launches := [(1, some someLaunch)] }
    let s := atWork m { launch := some 1 }
    let t := atWork m { launch := some 1, tc := [(1, 0x10000000000)] }
    let u := atWork m { tc := [(1, tcEnd)] }
    isGoing s = true ∧ s.x.tcreg 3 = tcEmpty ∧ (s.x.nxt.any fun q => q.reg == 3) = false ∧ (s.cur.nxt.any fun q => q.val.isNone) = false ∧
    s.cur.launch = some 1 ∧ s.m.launch 1 = some someLaunch ∧ someLaunch.unread (coreOf s.c) = [0x50000000000] ∧ s.x.tcreg 1 = tcEmpty ∧
    isGoing t = true ∧ t.x.tcreg 1 ≠ tcEmpty ∧ t.x.tcreg 1 ≠ tcEnd ∧ t.cur.launch = some 1 ∧ t.m.launch 1 = some someLaunch ∧
    isGoing u = true ∧ u.x.tcreg 1 = tcEnd := by decide

/-- A transfer of channel 0 that is not complete. -/
def someXfer : Xfer := { ch := 0, id := 0, kind := .tst, reg := 1, desc := 0, mEnt := 0, tEnt := 0, base := 0x20000, started := true }

/-- A wait that is met at its limit, one that is not, and one that a faulted transfer makes raise its cause. -/
theorem wit_TrapsAndWaits :
    let s := on { s := [(1, 1)] }
    let busy := on { s := [(1, 1)], xfers := [someXfer], csr := [(0x34, 1)] }
    let bad := on { xfers := [{ someXfer with fault := some { code := 0x14 } }] }
    isGoing s = true ∧ s.x.oldestCause (fun k _ => bit 0xFF k) = none ∧ ((List.range 8).all fun i => decide (s.start.classCount s.c i ≤ 0)) = true ∧
    isGoing busy = true ∧ busy.x.oldestCause (fun k _ => bit 0x0F k) = none ∧ ¬ (busy.start.classCount busy.c 0 ≤ (busy.x.src (.r0 2)).toNat) ∧
    busy.start.classCount busy.c 0 ≤ (busy.x.src (.r0 1)).toNat ∧
    busy.x.oldestCause (fun k i => k == 0 && i ≤ 0) = none ∧ busy.x.xwm 0 ≤ 0 ∧ (on { csr := [(0x30, 1), (0x34, 1)] }).x.xwm 0 = 1 ∧
    isGoing bad = true ∧ (bad.x.oldestCause fun k _ => bit 1 k).isSome = true ∧ (bad.x.oldestCause fun k i => k == 0 && i ≤ 0).isSome = true := by decide

/-- Numbers at the ends of the ranges of 03 R76, in task and in service code. -/
theorem wit_ControlRegisters :
    let s := on {}
    let v := on { depth := 1, s := [(1, 0x80), (2, 0x25), (3, 0x1000000000000), (4, 0xF)], csr := [(3, 0xF)] }
    let l := on { launch := some 1, xfers := [{ someXfer with fault := some { code := 0x14 } }] }
    isGoing s = true ∧ isGoing v = true ∧ isGoing l = true ∧ (s.x.depth != 0) = false ∧ (v.x.depth != 0) = true ∧ s.x.launch = none ∧
    s.x.oldestCause (fun c _ => c == 3) = none ∧ (l.x.oldestCause fun c _ => c == 0).isSome = true ∧
    csrBad 0x20 (v.x.src (.r0 1)).toNat ≠ [] ∧ csrBad 0x22 (v.x.src (.r0 1)).toNat = [] ∧ csrBad 0x01 (v.x.src (.r0 2)).toNat ≠ [] ∧
    csrBad 0x02 (v.x.src (.r0 2)).toNat = [] ∧ 5 ≤ (v.x.src (.r0 2)).toNat % 8 ∧ (v.x.src (.r0 4)).toNat % 8 ≥ 5 ∧ (v.x.src (.l6 4)).toNat % 8 < 5 ∧
    csrBad 0x03 (v.x.src (.r0 4)).toNat = [] ∧ bits (v.x.src (.r0 4)).toNat 40 7 = 0 ∧ bits (v.x.cr 0x03).toNat 40 7 = 0 ∧ csrBad 0x23 (v.x.src (.r0 1)).toNat = [] ∧
    v.cur.launch = none ∧ csrBad 0x03 (v.x.src (.r0 3)).toNat ≠ [] := by decide

theorem wit_ControlRegisters_numbers :
    ¬ csrAssigned 0x04 ∧ ¬ csrAssigned 0x18 ∧ ¬ csrAssigned 0x62 ∧ csrAssigned 0x16 ∧ ¬ csrReadable false 0x16 ∧ csrReadable true 0x17 ∧ csrReadable false 0x15 ∧
    csrReadable false 0x47 ∧ ¬ csrWritable true 0x61 ∧ ¬ csrWritable false 0x03 ∧ csrWritable true 0x47 ∧ csrWritable false 0x51 ∧ csrWritable false 0x22 ∧ csrReadable true 0x23 := by
  unfold csrAssigned csrReadable csrWritable; refine ⟨?_, ?_, ?_, ?_, ?_, ?_, ?_, ?_, ?_, ?_, ?_, ?_, ?_, ?_⟩ <;> decide

/-- 8 KiB of constants that can be read from 0x20000. -/
theorem wit_ControlRegisters_bank : okWith ((on {}).m.fillKonst 0 0x20000) (fun _ => true) = true := by decide +kernel

/-- A load and a store at a legal address, at one that is misaligned, and over a tile operation. -/
theorem wit_ScalarLoadsAndStores :
    let s := on { s := [(1, 0x20000), (2, 0x20001)] }
    let e : Nat := 1 * 2 ^ 120 + 8 * 2 ^ 128
    let t := on { s := [(1, 0x20000)], xfers := [{ someXfer with mEnt := e, base := 0x20000 }] }
    isGoing s = true ∧ s.start.tileOver s.c false 0x20000 8 = false ∧ s.start.tileOver s.c true 0x20000 8 = false ∧ okWith (s.m.loadChecked s.c 0x20000 8) (fun _ => true) = true ∧
    traps (s.m.loadChecked s.c 0x20001 8) 0x0A = true ∧ okWith (s.m.access (coreOf s.c) 0x20000 8 .store) (fun r => !sysBlockRefused r.1 0 r.2 && r.2.cri.isNone) = true ∧
    traps (s.m.access (coreOf s.c) 0x20001 2 .store) 0x0A = true ∧ okWith (s.m.loadChecked s.c 0x20001 1) (fun _ => true) = true ∧
    isGoing t = true ∧ t.start.tileOver t.c false 0x20000 1 = true ∧ t.start.tileOver t.c true 0x20000 8 = true := by decide +kernel

theorem wit_MemoryContents :
    let m : Machine := { mem := [(0x20000, 7)], cores := [(0, { cycle := 1 })] }
    let e : StoreEntry := { ctx := 0, key := 0x20000, bytes := [1, 2], coded := none, stage := none }
    SMap.rising m.cores = true ∧ Memory.wf m.mem = true ∧ e.key = 0x20000 ∧ e.bytes.length = ([7, 0] : List Byte).length ∧ e.stage = none ∧ e.coded = none ∧
    (0x20078 % 128 + 8 ≤ 128) ∧ SMap.get [] (m.core 0).l1 (0x20078 / 128) = [] ∧ (m.core 0).path = [] := by decide

/-- A bound object at 0x30000 of scope core, instance and word as `sbind` of context 0 writes them. -/
def objAt (sc : Nat) (gen arr exp : Nat) : BitVec 192 := .ofNat 192 (gen + arr * 2 ^ 64 + exp * 2 ^ 88 + 2 ^ 160 * (sc * 2 ^ 28 + 2 ^ 31))

/-- An atomic step at a plain word, and a domain scope that the context lacks. -/
theorem wit_AtomicSteps :
    let s := on { s := [(1, 0x20000), (2, 3)], csr := [(3, 0x1)] }
    isGoing s = true ∧ s.start.tileOver s.c true 0x20000 8 = false ∧ s.x.scopeOk Scope.dom.toNat = false ∧ s.x.scopeOk Scope.sys.toNat = true ∧ s.x.scopeOk Scope.core.toNat = true ∧
    okWith (s.m.access (coreOf s.c) 0x20000 8 .rmw) (fun r => r.2.cri.isNone && !sysBlockRefused r.1 0 r.2 && (r.1.object (r.2.key / 32 * 32)).isNone &&
      okWith (r.1.atomicRead s.c r.2 8) fun _ => true) = true := by decide +kernel

/-- The same at bytes 8 to 15 of a bound object, and at its word with an object that the scope covers. -/
theorem wit_AtomicSteps_object :
    let s := atWork { objs := [(0x30000, objAt 2 0 0 4)] } { s := [(1, 0x30008)] }
    okWith (s.m.access (coreOf s.c) 0x30008 8 .rmw) (fun r => (r.1.object 0x30000).isSome && decide (8 ≤ r.2.key % 32) && okWith (r.1.atomicRead s.c r.2 8) fun _ => true) = true ∧
    okWith (s.m.access (coreOf s.c) 0x30000 8 .rmw) (fun r => (match r.1.object 0x30000 with | some v => r.1.coversObj s.env Scope.die.toNat v | none => false) &&
      okWith (r.1.atomicRead s.c r.2 8) fun _ => true) = true := by decide +kernel

theorem wit_FencesAndBinding :
    let s := on { s := [(1, 0x30000)], csr := [(3, 0x1)] }
    let b := on { xfers := [someXfer], csr := [(3, 0xF), (0x34, 1)] }
    let f := on { xfers := [{ someXfer with fault := some { code := 0x14 } }] }
    let o := atWork { objs := [(0x30000, objAt 2 0 0 4)] } { s := [(1, 0x30000)] }
    isGoing s = true ∧ s.x.scopeOk Scope.dom6.toNat = false ∧ s.x.scopeOk Scope.core.toNat = true ∧ s.start.causesOf s.c Xfer.writesMem = [] ∧
    s.start.fenceDone s.c 0 = true ∧ isGoing b = true ∧ b.start.fenceDone b.c 0 = false ∧
    f.start.causesOf f.c Xfer.writesMem ≠ [] ∧
    okWith (s.m.syncWord s.env 0x30000 32 .rmw) (fun r => (r.1.objectOf s.c r.2.key).isNone && !objReserved (r.1.nat (r.2.key + 8) 24) && objArr (r.1.nat (r.2.key + 8) 24) == 0) = true ∧
    (s.x.sreg 2).toNat % 128 = 0 ∧ s.x.sreg 2 = 0 ∧ 2 ≤ Scope.die.toNat ∧
    okWith (o.m.syncWord o.env 0x30000 32 .rmw) (fun r => match r.1.objectOf o.c r.2.key with | some v => objArr v == 0 && r.1.inInstance o.c v | none => false) = true := by decide +kernel

/-- An object of four arrivals at 0x30000, the last of them to come, with version 5 in its word. -/
theorem wit_Synchronisation :
    let m : Machine := { objs := [(0x30000, objAt 2 0 3 4)], mem := [(0x30000, 5)] }
    let s := atWork m { s := [(1, 0x30000), (2, 5), (3, 6), (4, 0x200000000)] }
    let one := atWork { m with objs := [(0x30000, objAt 2 0 0 4)] } { s := [(1, 0x30000)] }
    let none_ := atWork { m with objs := [(0x30000, objAt 2 0 0 0)], mem := (List.range 8).map fun i => (0x30000 + i, 255) } { s := [(1, 0x30000)] }
    let ok (s : State) (f : Machine → Phys → Nat → Nat → Bool) : Bool :=
      okWith (s.m.syncWord s.env 0x30000 32 .rmw) fun r => match r.1.objectOf s.c r.2.key with
        | some o => r.1.coversObj s.env Scope.die.toNat o && okWith (r.1.releaseReady s.c r.2.key .die) (fun _ => true) && !r.1.commitsAt s.c r.2.key &&
            okWith (r.1.atomicRead s.c r.2 8) fun v => f r.1 r.2 o v.2
        | none => false
    isGoing s = true ∧ s.x.scopeOk Scope.die.toNat = true ∧ ok s (fun _ _ o v => v == 5 && objArr o + 1 == objExp o) = true ∧ ok one (fun _ _ o _ => objArr o + 1 != objExp o) = true ∧
    ok none_ (fun _ _ o v => objExp o == 0 && v == 2 ^ 64 - 1) = true ∧
    okWith (s.m.syncWord s.env 0x30000 32 .rmwLoad) (fun r => okWith (r.1.atomicRead s.c r.2 8) fun v => v.2 == 5) = true ∧
    (s.x.src (.r0 2)).toNat = 5 ∧ (s.x.src (.r0 3)).toNat - 5 = 1 ∧ 2 ^ 32 < (s.x.src (.r0 4)).toNat - 5 ∧
    okWith (s.m.syncWord s.env 0x30008 8 .rmwLoad) (fun r => r.2.key % 32 != 0 && okWith (r.1.atomicRead s.c r.2 8) fun _ => true) = true ∧
    s.x.seen = none ∧ (atWork m { s := [(1, 0x30000)], seen := some 7 }).x.seen = some 7 ∧ condHolds .eq (BitVec.ofNat 64 7 &&& 7) 7 = true ∧
    okWith ((on {}).m.syncWord (on {}).env 0x30000 32 .rmwLoad) (fun r => (r.1.objectOf 0 r.2.key).isNone) = true := by decide +kernel

/-- A valid capability of 256 bytes at 0x20000 with every right, one with none, and a page of capabilities. -/
theorem wit_Capabilities :
    let full : BitVec 128 := .ofNat 128 (0x20000 + 256 * 2 ^ 64 + 15 * 2 ^ 104 + 7 * 2 ^ 108)
    let poor : BitVec 128 := .ofNat 128 (0x20000 + 256 * 2 ^ 64 + 7 * 2 ^ 108)
    let leaf : Nat := 0x20 * 2 ^ 12 + 0x1FF
    let s := atWork { cores := [(0, { tlb := [{ vpn := 0x20, page := 0x20000, leaf }] })] } { cap := [(1, full), (2, poor)], capV := 6, s := [(1, 248), (2, 8), (3, 249), (4, 0x20000)] }
    isGoing s = true ∧ s.x.capV.getLsbD 1 = true ∧ s.x.capV.getLsbD 3 = false ∧ bit (s.m.revCached (coreOf s.c) (capId (s.x.capBits 1) / 128)).2 (capId (s.x.capBits 1) % 128) = false ∧
    capDerive (s.x.capBits 1) = true ∧ capFree (s.x.capBits 1) = true ∧ capLoad (s.x.capBits 1) = true ∧ capStore (s.x.capBits 1) = true ∧
    capDerive (s.x.capBits 2) = false ∧ capLoad (s.x.capBits 2) = false ∧ capStore (s.x.capBits 2) = false ∧
    248 + (s.x.sreg 2).toNat = capLen (s.x.capBits 1) ∧ capLen (s.x.capBits 1) < 249 + 8 ∧ s.start.tileOver s.c true 0x200F8 8 = false ∧
    okWith (s.m.loadChecked s.c 0x210F8 8) (fun _ => true) = true ∧ okWith (s.m.storeChecked s.c 0x210F8 8 7) (fun _ => true) = true ∧
    okWith (s.m.capGranule s.env 0x20010 .load) (fun _ => true) = true ∧ okWith (s.m.capGranule s.env 0x20010 .store) (fun _ => true) = true := by decide +kernel

/-- Records at the Capability Allocation Base with one entry each, with none, and with none to come; here the base is 0. -/
theorem wit_Allocation :
    let rec_ (k n : Nat) : List (Nat × Byte) := if n = 0 then [] else [(64 * k + 52, .ofNat 8 n)]
    let at_ (a b : Nat) : State := atWork { mem := rec_ 0 a ++ rec_ 26 b } { s := [(1, 1), (2, 0x100000000), (3, 0x100000001)] }
    let behind (k : Nat) : State := atWork { (at_ 1 1).m with arrivals := 1, ctxs := [(1, { asked := some (0, k) })] } (at_ 1 1).x
    let free (s : State) (k : Nat) : Nat := recNfree (((s.m.refill (allocRecord s.m 0)).refill (allocRecord s.m 26)).nat (allocRecord s.m k) 64)
    let never (s : State) (k : Nat) : Bool := recNever (((s.m.refill (allocRecord s.m 0)).refill (allocRecord s.m 26)).nat (allocRecord s.m k) 64)
    isGoing (at_ 1 1) = true ∧ ((at_ 1 1).x.src (.r0 1)).toNat = 1 ∧ ((at_ 1 1).x.src (.r0 2)).toNat = 2 ^ 32 ∧ 2 ^ 32 < ((at_ 1 1).x.src (.r0 3)).toNat ∧ allocClass 1 = 0 ∧
    (at_ 1 1).start.allocTurn 0 0 = true ∧ (at_ 1 1).start.allocTurn 0 26 = true ∧ (behind 0).start.allocTurn 0 0 = false ∧ (behind 26).start.allocTurn 0 0 = true ∧ (behind 26).start.allocTurn 0 26 = false ∧
    free (at_ 1 1) 0 ≠ 0 ∧ free (at_ 1 1) 26 ≠ 0 ∧ free (at_ 0 1) 0 = 0 ∧ never (at_ 0 1) 0 = false ∧ never (at_ 0 1) 26 = false ∧ free (at_ 1 0) 26 = 0 ∧ never (at_ 1 0) 26 = false := by
  decide +kernel


/-- A vector operation on v1 and v2 that writes v3 in the lanes of m1. -/
def lop (ty f ce : Nat) (a b : Src) : VOp := { d := 3, a, b, c := 2, ty := .ofNat 3 ty, f := .ofNat 3 f, ms := 1, ce := .ofNat 8 ce }

/-- m1 has the lanes 0 and 127, and one entry of the load-data queue is resolved. -/
def lanesCtx : Ctx := { mask := [(128, true), (255, true)], lq := [{ st := .resolved, sz := 3, ce := 255, lanes := 0, pc := 0, addrs := [], data := [7] }] }

/-- `State.roomIn` as a Bool. -/
def hasRoomIn (s : State) (m : Machine) : Bool := decide (s.x.pend.length + (((m.ctx s.c).pend.drop s.x.pend.length).filter fun r => 1 < r.off).length < 32)
theorem hasRoomIn_roomIn (s : State) (m : Machine) (h : hasRoomIn s m = true) : s.roomIn m := by simpa [hasRoomIn, State.roomIn] using h

/-- The load-data queue gives an entry or none is asked for, with room for the result. -/
def popsBoth (s : State) : Bool :=
  okWith (s.m.popIf s.env true) (fun r => r.2 == [7] && hasRoomIn s r.1) && okWith (s.m.popIf s.env false) fun r => r.2 == [] && hasRoomIn s r.1

/-- Bank 0 of cluster 0 an empty FIFO, in use by a transfer and not; an entry of zeros and one that is valid with rank 0. -/
theorem wit_Configuration :
    let m : Machine := { mem := [(0x20089, 8)], cores := [(0, { bank := [(0, 2)] })] }
    let x : Ctx := { s := [(1, 0x20000), (2, 0xFFFF), (3, 0x10000), (4, 0x20080), (5, 0x20020), (6, 1)] }
    let s := atWork m x
    let u := atWork m { x with xfers := [{ someXfer with desc := 8 * 2 ^ 42 + 8 * 2 ^ 74 + 2 ^ 96 }] }
    isGoing s = true ∧ isGoing u = true ∧ 2 ^ 16 ≤ (s.x.src (.r0 3)).toNat ∧ (s.x.src (.r0 2)).toNat < 2 ^ 16 ∧ (s.m.tileUsers (coreOf s.c)) = [] ∧
    s.k.routed 0xFFFF = false ∧ ({ s.k with routing := [(1, 9)] } : Core).routed 0xFFFF = true ∧ (s.m.core (coreOf s.c)).bankMode 0 0 = 2 ∧ (s.m.core (coreOf s.c)).stream 0 0 = [] ∧ (s.m.core (coreOf s.c)).bankMode 7 15 = 0 ∧
    ((u.m.tileUsers (coreOf u.c)).any fun d => descUses d 0 0) = true ∧
    (s.x.sreg 1).toNat % 128 = 0 ∧ okWith (s.m.readRange s.c 0x20000 128 2) (fun r => entOk (leNat r.2)) = true ∧
    (s.x.sreg 4).toNat % 128 = 0 ∧ okWith (s.m.readRange s.c 0x20080 128 2) (fun r => !entOk (leNat r.2)) = true ∧
    (s.x.sreg 5).toNat % 32 = 0 ∧ okWith (s.m.readRange s.c 0x20020 32 2) (fun _ => true) = true ∧ (0x11 : BitVec 8).toNat % 16 ≠ 0 ∧ (0xF0 : BitVec 8).toNat % 16 = 0 ∧
    okWith (s.m.writeRange s.c 0x20020 (leBytes 32 (s.x.codebook 15))) (fun _ => true) = true ∧ okWith (s.m.writeRange s.c 0x20000 (leBytes 128 (s.x.entry 255))) (fun _ => true) = true ∧
    (s.x.sreg 5).toNat % 128 ≠ 0 ∧ (s.x.sreg 6).toNat % 32 ≠ 0 := by decide +kernel

theorem wit_FloatLanes :
    let s := on lanesCtx
    isGoing s = true ∧ popsBoth s = true ∧ s.x.lanes 1 0x81 = [0, 127] ∧ (fpOfCode (tyCode 0)).isSome = true ∧ (fpOfCode (tyCode 3)).isSome = true ∧ isV63 (.r0 63) = true ∧ isV63 (.l6 0) = false := by
  decide +kernel

/-- Type `.n` of 8 bits with the reserved code 0x80 in lane 127 of v1, and the 64-bit type. -/
theorem wit_IntegerLanes :
    let s := on { lanesCtx with fmt := 0x3C, v := [(255, 0x80)] }
    let A (code g : Nat) : Nat := s.x.elem [] s.x.nf code (.r0 1) g
    isGoing s = true ∧ popsBoth s = true ∧ s.x.lanes 1 0x81 = [0] ++ 127 :: [] ∧ ((IOp.add.run s.x.nf 9 false (A 9 0) (A 9 0)).isSome = true) ∧ IOp.add.run s.x.nf 9 false (A 9 127) (A 9 0) = none ∧
    ((IOp.ssub.run s.x.nf 6 false (A 6 0) (A 6 127)).isSome = true ∧ (IOp.ssub.run s.x.nf 6 false (A 6 127) (A 6 0)).isSome = true) ∧
    (convert (vecEnv s.x (lop 7 0 0x81 (.r0 1) (.l6 0x00))) s.x.nf [] [] 9 0 (A 9 127)) = none ∧ (fpOfCode 9).isSome = false ∧ (fpOfCode 0).isSome = true := by decide +kernel

theorem wit_ComparesSelectionsReductions :
    let s := on { lanesCtx with fmt := 0x3C, v := [(255, 0x80)] }
    let A (code g : Nat) : Nat := s.x.elem [] s.x.nf code (.r0 1) g
    isGoing s = true ∧ popsBoth s = true ∧ hasRoom s = true ∧ s.x.lanes 1 0x81 = [0] ++ 127 :: [] ∧ intDecode s.x.nf 6 (A 6 0) = some 0 ∧ intDecode s.x.nf 6 (A 6 127) = some 128 ∧
    intDecode s.x.nf 9 (A 9 0) = some 0 ∧ intDecode s.x.nf 9 (A 9 127) = none ∧ s.x.lanes 1 1 = [0] ∧ fpOfCode 0 = some .d ∧ (7 : BitVec 3).toNat < 8 := by decide +kernel

theorem wit_Permutes :
    let s := on { lanesCtx with s := [(1, 127)] }
    isGoing s = true ∧ popsBoth s = true ∧ s.x.src (.r1 1) = 127 ∧ (∀ r, Src.r1 1 ≠ .r0 r) ∧ (lop 0 1 1 (.r0 1) (.r0 2)).f = 1 ∧ (lop 0 0 1 (.r0 1) (.r0 2)).f = 0 :=
  ⟨by decide +kernel, by decide +kernel, by decide +kernel, nofun, by decide, by decide⟩

/-- Bank 15 of every cluster a FIFO with two words, bank 14 of cluster 0 a scratchpad bank, and bank 13 of cluster 7 a FIFO that is full. -/
theorem wit_Streams :
    let k : Core := { bank := (List.range 8).map fun c => (16 * c + 15, 2), fifo := (List.range 8).map fun c => (16 * c + 15, [1, 2]) }
    let s := atWork { cores := [(0, k)] } { lanesCtx with s := [(1, 15), (2, 14), (3, 0x8000), (4, 0x10000), (5, 16)] }
    let f := atWork { cores := [(0, { bank := [(125, 2)], fifo := [(125, List.replicate 8192 0)] })] } { lanesCtx with s := [(1, 13)] }
    isGoing s = true ∧ popsBoth s = true ∧ (∀ c ∈ clusters 0xFF, s.k.bankMode c (s.x.src (.r1 1)).toNat = 2) ∧ ((clusters 0xFF).all fun c => decide ((s.k.stream c 15).length + 1 ≤ 8192)) = true ∧
    (clusters 0x81).find? (fun c => decide (15 < (s.x.src (.r1 2)).toNat) || s.k.bankMode c (s.x.src (.r1 2)).toNat != 2) = some 0 ∧
    (clusters 0x80).find? (fun c => decide (15 < (s.x.src (.r1 5)).toNat) || s.k.bankMode c (s.x.src (.r1 5)).toNat != 2) = some 7 ∧
    hasRoomIn s s.m = true ∧ (s.x.src (.r1 0)).toNat = 0 ∧ 2 ^ 16 ≤ (s.x.src (.r1 4)).toNat ∧ (List.range 16).filter (bit (s.x.src (.r1 3)).toNat) = [15] ∧
    (∀ c ∈ List.range 8, s.k.bankMode c 15 = 2 ∧ (s.k.stream c 15).length = 2) ∧
    isGoing f = true ∧ (clusters 0x80).find? (fun c => decide (8192 < (f.k.stream c 13).length + 1)) = some 7 ∧ (clusters 0x80).all (fun c => f.k.bankMode c 13 == 2) = true := by decide +kernel

theorem wit_Masks : isGoing (on { lanesCtx with s := [(1, 16)] }) = true ∧ (0 : BitVec 8) = 0 ∧ (0x80 : BitVec 8) ≠ 0 := by decide

/-- q1 malformed in lane 127, q2 with one value there and none in lane 0; weights at the ends of what is admitted. -/
theorem wit_Statistics :
    let bad : Triple := ⟨0xBFF0000000000000, 0, 0⟩
    let one : Triple := ⟨0x3FF0000000000000, 0x4000000000000000, 0⟩
    let s := on { lanesCtx with q := [(255, .ofNat 192 bad.toNat), (383, .ofNat 192 one.toNat)], v := [(255, 0x8000000000000000)], s := [(1, 7), (2, 8)] }
    let o := lop 0 0 0x81 (.r0 1) (.r0 1)
    isGoing s = true ∧ popsBoth s = true ∧ hasRoom s = true ∧ s.x.lanes 1 0x81 = [0] ++ 127 :: [] ∧ (s.x.qlane 1 0).malformed = false ∧ (s.x.qlane 1 127).malformed = true ∧
    (s.x.qlane 2 0).malformed = false ∧ (s.x.qlane 2 127).malformed = false ∧ (s.x.qlane 3 127).malformed = false ∧
    okWith (updateSource s.env [] o o.a 127) (fun x => x == 0x8000000000000000 && !badWeight x && !badEps x) = true ∧ badWeight 0x8000000000000001 = true ∧ badEps 0x8000000000000001 = true ∧
    (s.x.src (.r0 1)).toNat % 8 ≠ 0 ∧ (s.x.src (.r0 2)).toNat % 8 = 0 := by decide +kernel

/-- A queue of 63 entries and one of 64; an entry of one lane with a legal address and with one that is misaligned. -/
theorem wit_LoadQueue :
    let q (a : Nat) : LqEntry := { sz := 3, ce := 255, lanes := 1, pc := 0, addrs := [a] }
    let s := on { lq := List.replicate 63 (q 0x20000) }
    let f := on { lq := List.replicate 63 (q 0x20000) ++ [q 0x20001] }
    isGoing s = true ∧ isGoing f = true ∧ s.x.lq.length < 64 + s.m.bun.pops ∧ 64 + f.m.bun.pops ≤ f.x.lq.length ∧ (f.m.ctx 0).lq[63]? = some (q 0x20001) ∧
    (q 0).st = .queued ∧ (f.m.ctx 0).xfers = [] ∧ okWith (f.m.loadChecked 0 0x20000 (szBytes 3)) (fun _ => true) = true ∧ traps (f.m.loadChecked 0 0x20001 (szBytes 3)) 0x0A = true := by
  decide +kernel

/-- Bank 0 of cluster 0 an L1 way: the offsets 256 × k + 32 to 256 × k + 255 lie outside it. -/
theorem wit_Scratchpad :
    let m : Machine := { cores := [(0, { bank := [(0, 1)] })] }
    let s := atWork m { lanesCtx with s := [(1, 0x100), (2, 8), (3, 0x20000), (4, 0x20001)], v := [(128, 0), (255, 0x1F8)] }
    let on2 := s.x.lanes 1 0x80
    isGoing s = true ∧ hasRoom s = true ∧ (s.x.sreg 2 + s.x.src (.r0 0)).toNat % 256 ≠ 0 ∧ (s.x.sreg 1 + s.x.src (.r0 0)).toNat % 256 = 0 ∧ on2 = [127] ∧
    (on2.all fun l => s.k.padOk 0 (laneOffset 0x100 l)) = true ∧ (((s.x.lanes 1 0x81).map (laneOffset 0x100)).filter fun f => !s.k.padOk 0 f).min? = some 0x100 ∧
    (on2.all fun l => let f := (s.x.sreg 0 + s.x.vreg 1 l).toNat
      f % 8 == 0 && unitCluster f == l / 16 && s.k.padOk 3 f) = true ∧
    s.x.lanes 1 0 = [] ∧ okWith (on2.foldlM (fun m l => m.storeChecked s.c (wrap 64 ((0x20000 : Int) + 8 * l)) 8 (s.x.vreg 1 l).toNat) s.m) (fun _ => true) = true ∧
    traps (s.m.storeChecked s.c (wrap 64 ((0x20001 : Int) + 8 * 127)) 8 7) 0x0A = true ∧
    ([0x100, 0x100 + 1024, 0x100 + 2048].all fun p => on2.all fun g => s.k.padOk 0 (laneOffset p g)) = true := by decide +kernel

theorem wit_Scratchpad_triples :
    let one : Triple := ⟨0x3FF0000000000000, 0x4000000000000000, 0⟩
    one.isEmpty = false ∧ Triple.empty.isEmpty = true ∧ (Fp.d.unpack 0).isNan = false ∧ (Fp.d.unpack 0x7FF0000000000000).isSnan = false ∧ (Fp.d.unpack 0x8000000000000000).isZero = true := by decide +kernel

/-- A tile descriptor of 32 rows of `rowb` bytes at offset 0 of a bank group, with tensor identifier `tid`. -/
def tileDesc (g rowb tid : Nat) : Nat := rowb * 2 ^ 42 + rowb * 2 ^ 74 + 32 * 2 ^ 96 + g * 2 ^ 118 + tid * 2 ^ 120

/-- An entry of rank 2 of a format, 32 by 32. -/
def tileEnt (fmt : Nat) : Nat := fmt * 2 ^ 64 + 2 * 2 ^ 68 + 2 ^ 75 + 32 * 2 ^ 128 + 32 * 2 ^ 184 + 32 * 2 ^ 208

/-- t1 and t2 with BF16 tiles of two bank groups, and a latch. -/
def tilesCtx : Ctx :=
  { t := [(1, .ofNat 128 (tileDesc 0 256 1)), (2, .ofNat 128 (tileDesc 1 256 1))], tDef := 6, tid := [(1, .ofNat 1024 (tileEnt 2)), (2, .ofNat 1024 (tileEnt 11))], lm := 9,
    s := [(1, (tileDesc 0 256 1 % 2 ^ 64 : Nat)), (2, (tileDesc 0 256 1 / 2 ^ 64 : Nat)), (3, 7), (4, 8), (5, 0x20100)] }

/-- A free tile register, one that a transfer reads and one that it writes; accumulators free, wanted by an older request, and busy. -/
theorem wit_TilesAndGrants :
    let s := on tilesCtx
    let u := on { tilesCtx with xfers := [{ someXfer with reg := 3 }, { someXfer with kind := .tld, reg := 0 }] }
    let w := atWork { cores := [(0, { wants := [(1, 1), (0, 3)], mq := [{ ctx := 0, kind := .mzero, acc := 7 }] })] } {}
    let h := on { accHeld := 8 }
    isGoing s = true ∧ isGoing u = true ∧ isGoing w = true ∧ isGoing h = true ∧ tdOk ((s.x.sreg 2).toNat * 2 ^ 64 + (s.x.sreg 1).toNat) = true ∧
    tdOk ((s.x.sreg 0).toNat * 2 ^ 64 + (s.x.sreg 0).toNat) = false ∧ s.m.pendingRead s.c 63 = false ∧ s.m.pendingWrite s.c 63 = false ∧
    u.m.pendingRead u.c 3 = true ∧ u.m.pendingWrite u.c 0 = true ∧ s.x.tDef.getLsbD 0 = false ∧ s.x.tDef.getLsbD 1 = true ∧ tdOk (SMap.get 0 s.x.t 1).toNat = true ∧
    tdOk ((SMap.get 0 s.x.t 1).toNat % 2 ^ 120 + 255 * 2 ^ 120) = true ∧ ((8 : BitVec 4) &&& ~~~h.x.accHeld) = 0 ∧ ((9 : BitVec 4) &&& ~~~h.x.accHeld) ≠ 0 ∧ h.x.accHeld ≠ 0 ∧
    s.x.accHeld = 0 ∧ (w.k.wants.takeWhile fun p => p.1 != w.c) ≠ [] ∧ (s.k.wants.takeWhile fun p => p.1 != s.c) = [] ∧ popcount4 15 ≤ s.start.poolFree (coreOf s.c) ∧
    s.start.accBusy s.c 7 = false ∧ w.start.accBusy w.c 7 = true ∧ (8 : BitVec 4).getLsbD 3 = true := by decide +kernel

theorem wit_MatrixCommands :
    let s := on tilesCtx
    let ready (q : MCmd) : Bool := okWith (s.m.scoreboard s.c q.reads q.writes) fun _ => true
    let cmd (kind : MKind) : MCmd := { ctx := s.c, kind, fpc := s.x.fpc, fmt := s.x.fmt, pc := s.m.bun.pc.toNat, ti := s.x.ti }
    isGoing s = true ∧ s.k.mq.length < 16 ∧ s.x.holdsAcc 3 = true ∧ s.x.holdsAcc 4 = false ∧ s.start.followInto s.c 3 = false ∧
    okWith (s.x.captureTile 1 false) (fun t => decide (32 ≤ tdRows t.desc) && decide (256 ≤ tdRowb t.desc) && s.k.tileOk t.desc && ready { cmd .msv with acc := 3, a := t } &&
      ready { cmd .mrst with acc := 3, a := t }) = true ∧
    okWith (s.x.captureTile 1 true) (fun t => entFmt t.ent != 11 && entFmt t.ent != 10 && !entScaled t.ent && decide (4 * widthOf s.x.fmt (entFmt t.ent) ≤ tdRowb t.desc) &&
      s.k.tileOk t.desc && ready { cmd .mst with acc := 3, a := t } && Machine.pairOk (entFmt t.ent) (entFmt t.ent) && operandShape s.x.fmt t &&
      ready { cmd .mlatch with lat := 3, a := t }) = true ∧
    s.x.lm.getLsbD 3 = true ∧ s.x.lm.getLsbD 0 = true ∧ okWith (s.x.useEntry 1) (fun t => Machine.pairOk (entFmt t) (entFmt t)) = true ∧ (s.x.sreg 5).toNat % 256 = 0 ∧
    okWith (s.x.captureTile 1 true) (fun ta => okWith (s.x.captureTile 2 true) fun tb => Machine.pairOk (entFmt ta.ent) (entFmt tb.ent) && operandShape s.x.fmt tb &&
      s.k.tileOk tb.desc && tdG ta.desc != tdG tb.desc && ready { cmd .mma with acc := 3, a := ta, b := tb } &&
      ready { cmd .mma with acc := 3, a := ta, b := { reg := 3, latch := true } }) = true ∧ s.start.latchCode s.c 3 = none := by decide +kernel

/-- Block 7 and block 8; a queue with two commands, one with an `mst` of an entry that is not valid, and one at work. -/
theorem wit_AccumulatorReadsAndMatrixEvents :
    let s := on { tilesCtx with mask := [(128, true)] }
    let z : MCmd := { ctx := 0, kind := .mzero, acc := 3 }
    let m : Machine := { cores := [(0, { mq := [z, z] }), (1, { mrun := some (z, {}) })] }
    isGoing s = true ∧ hasRoom s = true ∧ 7 < (s.x.src (.r0 4)).toNat ∧ (s.x.src (.r0 3)).toNat ≤ 7 ∧ s.x.holdsAcc 3 = true ∧ s.start.accWriting s.c 3 = false ∧ (0x80 : BitVec 8) ≠ 0 ∧
    ((s.x.lanes 1 0x81).all fun g => !(s.x.qlane 15 g).malformed) = true ∧ (m.core 0).mrun = none ∧ (m.core 0).mq = z :: [z] ∧
    (match (m.fetchCmd z).2 with | .ok _ => true | .error _ => false) = true ∧ (m.core 1).mq = [] ∧ (m.core 1).mrun = some (z, {}) := by decide +kernel

/-- An `mma` whose latch is empty; an `mlatch` at an address that no page holds, in a page of expanders out of the damper's window, and in one of a package with no route. -/
theorem wit_AccumulatorReadsAndMatrixEvents_cause :
    let z : MCmd := { ctx := 0, kind := .mma, a := { ent := tileEnt 2 }, b := { reg := 3, latch := true } }
    let q (a : Nat) : MCmd := { ctx := 0, kind := .mlatchMem, a := { ent := tileEnt 2 }, addr := a }
    let m (q : MCmd) : Machine := { limits := 2 ^ 1541, cores := [(0, { mq := [q], utlb := [{ vpn := 1, page := 0x1000, leaf := 0x2E3 + 2 * 2 ^ 46 }, { vpn := 2, page := 0x2000, leaf := 0x2E3 + 2 ^ 46 + 5 * 2 ^ 48 }] })] }
    let stop (a : Nat) : Option Stop := ((m (q a)).gatherAll (q a)).2.2
    ((m z).core 0).mq = z :: [] ∧ (m z).gatherAll z = (m z, z, none) ∧ (match ((m z).fetchCmd z).2 with | .ok _ => false | .error k => k.code == 0x17) = true ∧
    (match stop 0x8000000000000000 with | some (.trap k) => k.code == 0x0B | _ => false) = true ∧
    (match stop 0x1000 with | some (.trap k) => k.code == 0x3B | _ => false) = true ∧
    (match stop 0x2000 with | some (.hold h) => h == .route 5 | _ => false) = true := by decide +kernel

/-- The copy that moves the tile t1 at 0x20100, on channel 3. -/
def someCopy (d : Nat) : CopyReq := { kind := .tld, d, tid := 1, ch := 3, lay := 0, base := 0x20100, aux := 0, pc := 0x10000 }

/-- A copy that passes every check, one of an undefined register, one behind an earlier user of its tile, and a channel that is full or lacks one. -/
theorem wit_CopyIssue :
    let s := on { tilesCtx with xfers := List.replicate 63 { someXfer with ch := 3, reg := 9 } }
    let f := on { tilesCtx with xfers := List.replicate 64 { someXfer with ch := 3, reg := 9 } }
    let u := on { tilesCtx with xfers := [{ someXfer with reg := 1 }] }
    let count (s : State) : Nat := (s.cur.xfers.filter fun u => u.ch == 3 && !u.isFire).length
    isGoing s = true ∧ s.x.sreg 5 + s.x.src (.r0 0) = 0x20100 ∧ traps (s.start.copyCheck s.c s.x (someCopy 0)) 0x15 = true ∧
    okWith (s.start.copyCheck s.c s.x (someCopy 1)) (fun t => (t.ch == 3) && okWith (s.m.scoreboard s.c t.roles.1 t.roles.2) fun _ => true) = true ∧ count s = 63 ∧
    isGoing f = true ∧ okWith (f.start.copyCheck f.c f.x (someCopy 1)) (fun t => okWith (f.m.scoreboard f.c t.roles.1 t.roles.2) fun _ => true) = true ∧ count f = 64 ∧
    isGoing u = true ∧ okWith (u.start.copyCheck u.c u.x (someCopy 1)) (fun t => errWith (u.m.scoreboard u.c t.roles.1 t.roles.2) fun e => e == .hold .busy) = true ∧
    okWith (s.start.copyCheck s.c s.x { someCopy 1 with kind := .tst }) (fun t => okWith (s.m.scoreboard s.c t.roles.1 t.roles.2) fun _ => true) = true ∧
    okWith (s.start.copyCheck s.c s.x { someCopy 1 with kind := .tred .sum }) (fun t => okWith (s.m.scoreboard s.c t.roles.1 t.roles.2) fun _ => true) = true ∧
    okWith (s.start.copyCheck s.c s.x { someCopy 1 with kind := .tld, follow := true }) (fun t => okWith (s.m.scoreboard s.c t.roles.1 t.roles.2) fun _ => true) = true ∧
    okWith (s.start.copyCheck s.c s.x { someCopy 1 with kind := .ttrans true, aux := 0x110 }) (fun t => okWith (s.m.scoreboard s.c t.roles.1 t.roles.2) fun _ => true) = true := by decide +kernel

theorem wit_CopyCaptureAndStages :
    let s := on { tilesCtx with csr := [(0x24, 65535)] }
    let z := on { tilesCtx with csr := [(0x24, 65534)], s := [(1, 1)] }
    okWith (s.m.copyCheck s.c s.x (someCopy 1)) (fun _ => true) = true ∧ isGoing s = true ∧ isGoing z = true ∧ 65535 < (s.x.cr 0x24).toNat + (s.x.src (.l6 1)).toNat ∧
    (s.x.cr 0x24).toNat + (s.x.src (.l6 0)).toNat ≤ 65535 ∧ s.x.src (.l6 0) = 0 ∧ (z.x.cr 0x24).toNat + (z.x.src (.r0 1)).toNat = 65535 ∧ z.x.src (.r0 1) ≠ 0 ∧
    okWith (Machine.runSchedule z.start z.m z.c z.x fun g => g ≤ 65535 && (decide (65534 < g) || (g == 0 && z.x.stageZeroDue))) (fun _ => true) = true ∧ z.x.stageZeroDue = false := by decide +kernel

/-- Two connections of entries 0 and 1 of a table at 0x40000: valid and closed, and broken; c1 open on a route. -/
theorem wit_Messages :
    let e0 := 2 ^ 63 + 5 * 2 ^ 52 + 255 * 2 ^ 32
    let m : Machine := { sys := [(9, 0x30000)], mem := wordAt 0x30000 (2 * 2 ^ 48) ++ wordAt 0x30008 0x40000 ++ wordAt 0x40000 e0 ++ wordAt 0x40100 (e0 + 2 ^ 61), limits := 2 ^ 1541 }
    let s := atWork m { tilesCtx with cn := [(1, 0x4000000000000000), (2, 0x4000000000000001)], s := [(1, 1), (2, 2)] }
    let full := atWork m { tilesCtx with cn := [(1, 0x4000000000000000)], msgs := List.replicate 3 { send := true, cn := 1, ent := 0, num := 0, tile := {} } }
    isGoing s = true ∧ isGoing full = true ∧ s.x.connOf 0 = none ∧ s.x.connOf 1 = some 0 ∧ s.x.connOf 2 = some 1 ∧ nconn s.m = 2 ∧ nconn s.m ≤ (s.x.src (.r0 2)).toNat ∧
    (s.x.src (.r0 0)).toNat < nconn s.m ∧ bit (s.m.connWord 0) 63 = true ∧ connOpen (s.m.connWord 0) = false ∧ s.x.ownsQueue (bits (s.m.connWord 0) 32 8) = true ∧
    full.x.connBusy 1 = true ∧ s.x.connBusy 1 = false ∧ s.cur.connOf 1 = some 0 ∧ connBrk (s.m.connWord 1) = true ∧ connBrk (s.m.connWord 0) = false ∧
    bit s.m.limits (1536 + connPeer (s.m.connWord 0)) = true ∧ s.x.sreg 0 = 0 ∧ okWith (full.x.captureTile 1 false) (fun t => full.k.tileOk t.desc) = true ∧
    (full.x.msgs.filter fun t => t.ent == 0 && t.send == true && t.fault.isNone).length < 4 ∧ (full.x.msgs.filter fun t => t.ent == 0 && t.send == false && t.fault.isNone).length < 4 ∧
    okWith (full.m.scoreboard full.c [1] []) (fun _ => true) = true ∧ okWith (full.m.scoreboard full.c [] [1]) (fun _ => true) = true := by decide +kernel

/-- Instance 1023 of one rank and one entry of 8192 bytes in BF16, its generation 1 open or closed; instance 0 is not valid. -/
def someInstance (state fired : Nat) : Machine :=
  { sys := [(8, 0x30000)],
    mem := wordAt 0x31FF8 (2 ^ 63 + 0x40000) ++ wordAt 0x4001C (2 ^ 19 + 2 ^ 10) ++ wordAt 0x40020 (255 + state * 2 ^ 8) ++ wordAt 0x40028 1 ++ wordAt 0x40030 0x50000 ++ wordAt 0x40038 0x60000 ++
           wordAt 0x60000 (2 ^ 22 + 2 * 2 ^ 12) ++ wordAt 0x60008 (8192 * 2 ^ 20) ++ wordAt 0x60010 fired ++ wordAt 0x60020 0x90000 ++ wordAt 0x60030 0x70000 ++ wordAt 0x60038 0x80000 }

theorem wit_Fires :
    let s := atWork (someInstance 1 0) { tilesCtx with s := [(1, 1023), (2, 1024)] }
    let z := atWork (someInstance 0 1) { tilesCtx with s := [(1, 1023)] }
    let r := collRec s.m 1023
    let t := collEnt s.m r 0
    isGoing s = true ∧ (s.x.sreg 1).toNat < 1024 ∧ dirOk (dirWord s.m 1023) = true ∧ dirOk (dirWord s.m 0) = false ∧ ¬ (s.x.sreg 2).toNat < 1024 ∧ recOk s.m r = true ∧
    s.x.ownsQueue (crOwnq r) = true ∧ (s.x.src (.r0 0)).toNat < crNent r ∧ entryOk s.m r t = true ∧
    okWith (s.x.captureTile 1 false) (fun x => s.k.tileOk x.desc && tdRows x.desc * tdRowb x.desc == ceLen t) = true ∧ ceOpr t ≠ 4 ∧ crOpen r = true ∧ ceFired t < crGen r ∧
    ceSrc t = crRank r ∧ ceSob t = 0 ∧ okWith (s.m.scoreboard s.c [1] []) (fun _ => true) = true ∧ mustFire r t = true ∧ ceFired t ≠ crGen r ∧
    isGoing z = true ∧ dirOk (dirWord z.m 1023) = true ∧ recOk z.m (collRec z.m 1023) = true ∧ z.x.ownsQueue (crOwnq (collRec z.m 1023)) = true ∧ crNent (collRec z.m 1023) = 1 ∧
    crOpen (collRec z.m 1023) = false ∧ ceFired (collEnt z.m (collRec z.m 1023) 0) = crGen (collRec z.m 1023) ∧
    (let r := collRec z.m 1023
     let m := z.m.setNat (recKey z.m 1023) 64 (setBits (setBits r 320 64 (crGen r + 1)) 264 2 1)
     crNent (collRec m 1023) = 1 ∧ ceSh (collEnt m (collRec m 1023) 0) = false) := by decide +kernel

/-- The same instance open with its entry fired. -/
theorem wit_Fires_open :
    let s := atWork (someInstance 1 1) { tilesCtx with s := [(1, 1023)] }
    let r := collRec s.m 1023
    isGoing s = true ∧ recOk s.m r = true ∧ crNent r = 1 ∧ crOpen r = true ∧ ceFired (collEnt s.m r 0) = crGen r := by decide +kernel

/-- A root of one layer and one head, D 32, 16 tokens a block and one block, mapped; the pages of a request area pinned. -/
def someKv : Machine :=
  { sys := [(18, 2 ^ 32)],
    mem := wordAt 0x40000 (2 ^ 63 + 2 * 2 ^ 36 + 1) ++ wordAt 0x40008 0x50000 ++ wordAt 0x50000 (2 ^ 63) ++ wordAt 0x60000 0x40000 ++ wordAt 0x60008 (16 * 2 ^ 40) }

def kvCtx : Ctx :=
  { tilesCtx with t := [(1, .ofNat 128 (tileDesc 0 256 1 - 16 * 2 ^ 96)), (2, .ofNat 128 (tileDesc 1 256 1 - 16 * 2 ^ 96))],
                  s := [(1, 0x40000), (2, 16 * 2 ^ 40), (3, 0x60000), (4, 0x40001)] }

theorem wit_KvIssue :
    let s := atWork someKv kvCtx
    let pages := pagesOf 0x60000 (256 + 17 * slotBytes 16 32)
    isGoing s = true ∧ (s.x.sreg 4).toNat % 2048 ≠ 0 ∧ (s.x.sreg 4).toNat % 256 ≠ 0 ∧ (s.x.sreg 1).toNat % 2048 = 0 ∧ (s.x.sreg 3).toNat % 256 = 0 ∧
    okWith (s.x.captureTile 1 true) (fun src => tdRows src.desc == 16 &&
      okWith (s.m.kvTables s.c 0x40000 0 (fun _ => 0) fun r => ceilDiv (0 + tdRows src.desc) (rootB r)) fun t =>
        okWith (kvRootCheck t.1 0x40000 t.2.1 0 0 0) (fun _ => true) && decide (0 + tdRows src.desc ≤ rootNlb t.2.1 * rootB t.2.1) &&
        kvTileOk s.k s.x { src with desc := setBits src.desc 96 16 (min 32 (tdRows src.desc)) } 5 (rootD t.2.1) && t.2.2.all leafMapped && t.2.2.length == 1 &&
        okWith (t.1.scoreboard s.c [1] []) (fun _ => true) && (t.1.ctx s.c).kvops.isEmpty) = true ∧
    bits (s.x.sreg 0).toNat 17 47 = 0 ∧ bits (s.x.sreg 2).toNat 40 24 = 16 ∧ bits (s.x.sreg 2).toNat 0 40 = 0 ∧
    okWith (s.x.captureTile 1 true) (fun src => okWith (s.x.captureTile 2 true) fun dst =>
      okWith (s.m.access (coreOf s.c) 0x60000 1 .store) fun a => (a.1.nat a.2.key 256 == 0x40000 + 16 * 2 ^ 104) &&
      okWith (a.1.kvTables s.c 0x40000 0 (fun _ => 0) fun r => ceilDiv 16 (rootB r)) fun t =>
      okWith (pages.foldlM (fun (m : Machine) pg => (m.access (coreOf s.c) (max 0x60000 (pg * 4096)) 1 .store).map (·.1)) t.1) fun m3 =>
        (pages.all fun pg => (m3.pinned (coreOf s.c) (max 0x60000 (pg * 4096))).isSome) && okWith (kvRootCheck m3 0x40000 t.2.1 0 0 0) (fun _ => true) &&
        kvTileOk s.k s.x src 3 (rootD t.2.1) && kvTileOk s.k s.x dst 3 (rootD t.2.1) && t.2.2.all leafMapped &&
        okWith ((m3.setNat (a.2.key + 24) 6 0).scoreboard s.c [1] [2]) fun _ => true) = true := by decide +kernel

/-- A scalar result for s0 and one for s63, one of two bundles, one with an enabled flag. -/
theorem wit_ResultsLand :
    let x : Ctx := { s := [(1, 5)], mask := [(128, true)], csr := [(3, 1)] }
    let p : Pend := { off := 1, file := .s, reg := 63, writes := [(63, 7)] }
    let f : Pend := { p with fl := 31, en := 16 }
    SMap.rising x.s = true ∧ SMap.rising x.mask = true ∧ SMap.rising x.csr = true ∧ x.pend = [] ∧ x.depth = 0 ∧ p.fl = 0 ∧ p.off = 1 ∧ p.writes = [((63 : Reg).toNat, (7 : Word).toNat)] ∧
    127 < 128 ∧ ({ p with file := .m, writes := [(128 * 15 + 127, 1)] } : Pend).writes = [(128 * 15 + 127, if true then 1 else 0)] ∧ 1 < ({ p with off := 2 } : Pend).off ∧
    f.fl < 32 ∧ f.fl &&& f.en ≠ 0 ∧ p.fl &&& p.en = 0 := by decide

/-- A stack at 0x30000 at depths 0, 7 and 8, one that is misaligned, and one whose frame lies outside what is mapped. -/
theorem wit_TakingACause :
    let x : Ctx := { csr := [(0x16, 0x5000), (0x17, 0x30000)] }
    let frame (x : Ctx) : Option Machine :=
      ({ ({ ctxs := [(0, x)] } : Machine).onCore 0 (fun k => { k with wants := k.wants.filter fun p => p.1 != 0 }) with fresh := 4 } : Machine).writePinned 0 (wrap 64 (((x.cr 0x17).toNat : Int) - 0x280)) (frameBytes x 1 [1, 2, 3, 4] 0x10000 0x280) 40
    x.pend = [] ∧ (x.cr 0x17).toNat % 128 = 0 ∧ SMap.rising x.csr = true ∧ ({ x with depth := 7 } : Ctx).depth < 8 ∧ 8 ≤ ({ x with depth := 8 } : Ctx).depth ∧
    (({ x with csr := [(0x17, 0x30040)] } : Ctx).cr 0x17).toNat % 128 ≠ 0 ∧ (frame x).isSome = true ∧ (frame { x with csr := [] }).isNone = true := by decide +kernel

/-- STATE of a frame at 0x30000: from task code, with a reserved bit, and a frame outside what is mapped. -/
theorem wit_ReturnFromService :
    let s (st : Nat) : State := atWork { mem := wordAt 0x30038 st } { depth := 1, csr := [(0x17, 0x30000)] }
    let read (s : State) (f : List Byte → Bool) : Bool := match s.m.readPinned (coreOf s.c) (s.x.cr 0x17).toNat 0x280 2 with
      | some r => f r
      | none => false
    let word (r : List Byte) : Nat := leNat ((r.drop 0x38).take 8)
    isGoing (s 1) = true ∧ read (s 1) (fun r => stateBad (word r) == [] && bits (word r) 32 8 == 0 && bit (word r) 0) = true ∧
    (readEntries (s 1).m 0 0x30000 0 0x280 []).isSome = true ∧ (readEntries (s 3).m 0 0x30000 0 0x280 []).isSome = true ∧ (readEntries (on {}).m 0 (2 ^ 40 - 0x280) 1 0x280 []).isNone = true ∧
    (let u := atWork { mem := wordAt (2 ^ 40 - 0x280 + 0x38) (1 + 2 ^ 32) } { depth := 1, csr := [(0x17, 2 ^ 40 - 0x280)] }
     read u (fun r => bits (word r) 32 8 == 1) = true) ∧
    read (s 3) (fun r => (stateBad (word r)).min? == some 0x38) = true ∧
    (let u := on { depth := 1, csr := [(0x17, 0xFFFFFFFFFFFFFF80)] }
     (u.m.readPinned (coreOf u.c) (u.x.cr 0x17).toNat 0x280 2).isNone = true) := by decide +kernel

/-- A graph of queue 0 at byte 0x20 of 256 bytes of code. -/
def someWalk : Walk := { slot := 0, pkg := 0x10000, args := 0x18000, tag := 0, coff := 0x1000, clen := 0x100, xoff := 0, nx := 0, nh := 16, pos := 0x20, dreg := [(1, 0x20000), (2, 0), (63, 0x8000000000000000)] }

/-- A tensor of a format at a base. -/
def tensorOf (fmt base : Nat) (ext : List Nat) : Handle :=
  { desc := .ofNat 512 (fmt + ext.length * 2 ^ 4 + 2 ^ 211 + 15 * 2 ^ 220 + 255 * 2 ^ 224 + base * 2 ^ 448 + (ext.zipIdx.map fun p => p.1 * 2 ^ (256 + 16 * p.2)).sum), declared := true }

/-- Queue 0 at an operator, with handles from 256 on. -/
def onGraph (hs : List Handle) (mem : List (Nat × Byte) := []) : State :=
  { m := { walks := [(0, some someWalk)], handles := hs.zipIdx.map fun p => (2 ^ 16 + 256 + p.2, p.1), mem }, turn := .graph 0 }

/-- `State.graphAt` as a Bool. -/
def isGraph (s : State) : Bool := s.turn == .graph 0 && s.m.walkOf 0 == some someWalk && (s.m.parkedOf 0).isNone
theorem isGraph_graphAt (s : State) (h : isGraph s = true) : s.graphAt 0 someWalk := by
  simp only [isGraph, Bool.and_eq_true, beq_iff_eq, Option.isNone_iff_eq_none] at h; exact ⟨h.1.1, h.1.2, h.2⟩

/-- The first two handles as D and A, resolved. -/
def withDA (s : State) (f : Tensor → Tensor → Bool) : Bool :=
  isGraph s && okWith (s.m.target 0 someWalk 256) fun d => okWith (s.m.plain 0 someWalk 257) fun a => f d a
def withDAB (s : State) (f : Tensor → Tensor → Tensor → Bool) : Bool := withDA s fun d a => okWith (s.m.plain 0 someWalk 258) fun b => f d a b
def ready (s : State) (rs ws : List Tensor) : Bool := s.m.opReady (rs.map (·.root)) (ws.map (·.root))
def any_ {α : Type} (_ : α) : Bool := true

/-- Branches to the first and the last instruction and past either end; zero divisors; a full stack; a launch that lives. -/
theorem wit_GraphControl :
    let s := onGraph []
    let to_ (v : Word) : Int := (0x20 : Int) + 16 * v.toInt
    let live : Machine := { launches := [(1, some someLaunch)] }
    isGraph s = true ∧ (0 ≤ to_ (-2) ∧ to_ (-2) < 0x100) ∧ (0 ≤ to_ 13 ∧ to_ 13 < 0x100) ∧ ¬ (0 ≤ to_ (-3)) ∧ ¬ (to_ 14 < 0x100) ∧ (7 : BitVec 3) = 7 ∧ (3 : BitVec 3) ≠ 7 ∧
    dopMeans 3 (someWalk.reg 63).toInt (-1) = some (2 ^ 63) ∧ dopMeans 6 (someWalk.reg 1).toInt (someWalk.reg 2).toInt = none ∧
    (List.replicate 15 0).length < 16 ∧ ¬ (List.replicate 16 0).length < 16 ∧ someWalk.stack = [] ∧ ({ someWalk with stack := [0xF0] } : Walk).stack = [0xF0] ∧ 0xF0 < someWalk.clen ∧
    someWalk.clen ≤ 0x100 ∧ s.m.liveLaunches 0 = [] ∧ live.liveLaunches 0 ≠ [] ∧ (63 : BitVec 6) ≠ 0 ∧ SMap.rising someWalk.dreg = true := by decide +kernel

theorem wit_GraphControl_cond :
    condMeans (condOf (2 : BitVec 3).toNat) (someWalk.reg 63) (someWalk.reg 1) ∧ ¬ condMeans (condOf (4 : BitVec 3).toNat) (someWalk.reg 63) (someWalk.reg 1) := by
  unfold condMeans; decide

/-- A tensor of two INT64 elements, one of another format, and one that a launch reads or writes. -/
theorem wit_GraphControl_handles :
    let s := onGraph [tensorOf 6 0x20000 [2], tensorOf 0 0x20000 [2], { tensorOf 6 0x20000 [2] with writer := some 1 }, { tensorOf 6 0x20000 [2] with readers := [1] }]
    let at_ (n : Nat) (f : Tensor → Bool) : Bool := okWith (s.m.plain 0 someWalk n) f && okWith (s.m.resolve 0 someWalk n) f
    isGraph s = true ∧
    at_ 256 (fun t => decide (0 < t.ext.length) && decide (t.ext.length ≤ 1) && t.fmt == 6 && decide (1 < t.count) && decide (t.count ≤ 2) && !s.m.rootWritten t.root && okWith (s.m.readCodes 0 t) any_ &&
      (someWalk.reg 1).toNat % baseAlign t.desc == 0 && !s.m.rootRead t.root && 1 % baseAlign t.desc != 0) = true ∧
    at_ 257 (fun t => t.fmt != 6) = true ∧ at_ 258 (fun t => t.fmt == 6 && s.m.rootWritten t.root) = true ∧ at_ 259 (fun t => s.m.rootRead t.root) = true := by decide +kernel

theorem wit_GraphFailures :
    let s := onGraph [tensorOf 6 0x20000 [2]]
    let o : LbOp := { op := 0, md := 0, ln := 3, d := 0xFFF, a := 0, b := 0, c := 1, imm := 0 }
    let x : Expansion := { queue := 0, op := o, fofs := 0x10, image := { ident := 0, opc := 1, first := 0, words := 0, base := 0 } }
    let p : Machine := { s.m with parsers := [(0, { parked := [x] })] }
    s.turn = .graph 0 ∧ s.m.walkOf 0 = some someWalk ∧ (s.m.parkedOf 0) = none ∧ o.ln ≠ 0 ∧ o.c ≠ 0 ∧ (s.m.handle (handleKey 0 o.d.toNat)).declared = false ∧ p.walkOf 0 = some someWalk ∧
    p.parkedOf 0 = some x := by decide +kernel

/-- Tensors of two FP64 elements, indices one of which lies outside, and a tensor that a launch reads. -/
theorem wit_GraphMoves :
    let s := onGraph [tensorOf 0 0x20000 [2, 1], tensorOf 0 0x30000 [2, 1], tensorOf 0 0x40000 [1, 2], tensorOf 6 0x50000 [2], tensorOf 0 0x60000 [4, 1], { tensorOf 0 0x70000 [2, 1] with readers := [1] }]
      (wordAt 0x50000 1 ++ wordAt 0x50008 2)
    withDAB s (fun d a t => ready s [a] [d] && a.root != d.root && d.ext == a.ext && okWith (s.m.readCodes 0 a) (fun xs => okWith (s.m.readScales 0 a) fun ss => okWith (s.m.writeCodes 0 d xs ss) any_) &&
      t.ext == [1, 0].map (a.ext.getD · 0) && okWith (s.m.moveElems 0 t [a] ((List.range 2).map fun e => some (0, linear a.ext ((List.range 2).map fun j => (coords t.ext e).getD ([1, 0].idxOf j) 0)))) any_ &&
      ([1, 0].eraseDups.length == 2)) = true ∧
    withDA s (fun d a => okWith (s.m.plain 0 someWalk 259) fun b => b.fmt == 6 && b.ext.length == 1 && sameBut 0 d.ext a.ext && d.ext.getD 0 0 == b.count && b.root != d.root && ready s [a, b] [d] &&
      okWith (s.m.readCodes 0 b) fun bs => bs == [1, 2] && okWith (s.m.moveElems 0 d [a] [some (0, 1), none]) any_) = true ∧
    withDA s (fun d a => okWith (s.m.target 0 someWalk 260) fun t => sameBut 0 t.ext a.ext && t.ext.getD 0 0 == a.ext.getD 0 0 + d.ext.getD 0 0 && ready s [a, d] [t] &&
      okWith (s.m.moveElems 0 t [a, d] [some (0, 0), some (0, 1), some (1, 0), some (1, 1)]) any_) = true ∧
    okWith (s.m.target 0 someWalk 261) (fun d => !ready s [] [d]) = true := by decide +kernel

/-- D, A and B of a scatter, a `.u8` tensor for a checkpoint, and a tensor that a launch writes. -/
theorem wit_GraphState :
    let s := onGraph [tensorOf 0 0x20000 [2], tensorOf 0 0x30000 [2], tensorOf 6 0x40000 [2], tensorOf 8 0x50000 [80], { tensorOf 6 0x60000 [2] with writer := some 1 }]
    let z : RVal := (.zero false, 0)
    withDAB s (fun d a b => a.root != d.root && b.root != d.root && sameBut 0 d.ext a.ext && a.ext.getD 0 0 == b.count && b.fmt == 6 && ready s [a, b] [d] &&
      okWith (s.m.readCodes 0 b) (fun _ => okWith (s.m.moveElems 0 d [d, a] [some (1, 1), some (0, 1)]) any_) &&
      okWith (s.m.readVals 0 d) (fun vd => okWith (s.m.readVals 0 a) fun va => okWith (s.m.writeVals 0 {} d
        [(((addVals .rne ((addVals .rne (vd.getD 0 z) (va.getD 0 z)).1) (va.getD 1 z)).1), 0), (vd.getD 1 z, 0)]) any_)) = true ∧
    withDA s (fun d a => d.fmt == 0 && !d.scaled && ready s [] [d] && okWith (s.m.writeCodes 0 d (List.replicate d.count (fillElem d 7).1) []) any_ &&
      okWith (s.m.writeVals 0 {} d [(realOf64 (rngCode 0 0 0 0), 0), (realOf64 (rngCode 0 0 0 1), 0)]) any_ && hKind d.desc == 0 && hRoot a.desc == 0 && !s.m.rootWritten a.root && a.base == 0x30000) = true ∧
    isGraph s = true ∧ okWith (s.m.target 0 someWalk 258) (fun d => d.fmt == 6 && d.count == 2 && ready s [] [d] && okWith (s.m.writeCodes 0 d [0, 0] []) any_ && isIntCode d.fmt &&
      okWith (s.m.writeVals 0 {} d [((Val.ofInt 5, 0), 0), ((Val.ofInt 6, 0), 0)]) any_ && okWith (s.m.readCodes 0 d) fun xs => xs == [0, 0]) = true ∧
    okWith (s.m.target 0 someWalk 260) (fun d => s.m.rootWritten d.root && !ready s [] [d]) = true ∧ 5 < (tensorOf 6 0 []).desc.toNat % 16 ∧
    withDA s (fun _ a => okWith (s.m.target 0 someWalk 259) fun d => d.fmt == 8 && decide (64 + a.bytes ≤ d.count) && a.root != d.root && ready s [a] [d] && okWith (s.m.tensorBytes 0 a) fun bs =>
      okWith (s.m.parserWrite 0 d.base (List.replicate 64 0 ++ bs) (a.bytes / 128 + 3)) any_) = true ∧
    withDA s (fun d _ => okWith (s.m.plain 0 someWalk 259) fun a => a.fmt == 8 && decide (64 + d.bytes ≤ a.count) && okWith (s.m.parserRead 0 a.base 64 3) (fun _ => okWith (s.m.parserRead 0 (a.base + 64) d.bytes (d.bytes / 128 + 2)) fun bs =>
      okWith (s.m.parserWrite 0 d.base bs (d.bytes / 128 + 2)) any_)) = true := by decide +kernel

/-- Tensors of one row of two FP64 elements, of one BF16 element, and one that a launch writes. -/
theorem wit_GraphCompute :
    let s := onGraph [tensorOf 0 0x20000 [2, 1], tensorOf 0 0x30000 [2, 1], tensorOf 0 0x40000 [2, 1], tensorOf 2 0x50000 [2, 1], { tensorOf 0 0x60000 [2, 1] with writer := some 1 }, tensorOf 0 0x70000 [1, 1], tensorOf 0 0x80000 [1, 2]]
      (wordAt 0x30000 0x3FF0000000000000)
    let o : LbOp := { op := 0, md := 1, ln := 0, d := 256, a := 257, b := 258, c := 0, imm := 12 }
    let twice (x : RVal × Nat) : List (RVal × Nat) := [x, x]
    let z : RVal := (.zero false, 0)
    okWith (lbEnv o) (fun env => withDAB s fun d a b => d.fmt == 0 && d.ext == a.ext && broadcasts a.ext b.ext && a.root != d.root && b.root != d.root && okWith (agreeNf [d, a, b]) any_ && ready s [a, b] [d] &&
      okWith (s.m.readVals 0 a) (fun xs => okWith (s.m.readVals 0 b) fun ys => xs.length == 2 && okWith (s.m.writeVals 0 env d (twice (ewiseVal 1 env.rm false (xs.getD 0 z) (ys.getD 0 z)))) any_) &&
      okWith (s.m.writeVals 0 env d (twice (unaryVal 8 false z))) any_) = true ∧ o.imm.toNat < 16 ∧
    okWith (s.m.target 0 someWalk 259) (fun d => withDA s fun _ a => d.fmt == 2 && okWith (agreeNf [d, a]) any_ && ready s [a] [d] && okWith (s.m.readCodes 0 a) fun xs =>
      match xs.mapM (convert { satf := true } a.nf a.cb d.cb a.fmt d.fmt) with
      | some rs => okWith (s.m.writeCodes 0 d (rs.map (·.1)) []) any_
      | none => false) = true ∧
    okWith (s.m.target 0 someWalk 260) (fun d => withDA s fun _ a => !ready s [a] [d]) = true ∧
    okWith (s.m.target 0 someWalk 261) (fun d => withDA s fun _ a => okWith (s.m.plain 0 someWalk 262) fun b => d.ext == [1, 1] && a.ext.getD 0 1 == 2 && a.ext.getD 1 1 == 1 && b.ext.getD 1 1 == 2 && b.ext.getD 0 1 == 1 &&
      Machine.pairOk a.fmt b.fmt && ready s [a, b] [d] && okWith (s.m.readVals 0 a) (fun _ => okWith (s.m.readVals 0 b) any_) && okWith (s.m.writeVals 0 { satf := true } d [(z, 0)]) any_) = true := by
  decide +kernel

/-- The softmax of one line of two elements. -/
theorem wit_GraphCompute_softmax :
    let s := onGraph [tensorOf 0 0x20000 [2], tensorOf 0 0x30000 [2]]
    withDA s (fun d a => d.ext == a.ext && decide (0 < a.ext.length) && a.root != d.root && ready s [a] [d] && okWith (s.m.readVals 0 a) fun xs =>
      okWith (s.m.writeVals 0 {} d (fromLines a.ext 0 (((.zero false, 0), 0)) ((axisLines a.ext 0).map fun l => softmaxLine (l.map ((codes64 xs).getD · (0, 0)))))) any_) = true := by decide +kernel

/-- A line of two elements and its triple; a malformed triple. -/
theorem wit_GraphStatistics :
    let s := onGraph [tensorOf 11 0x20000 [1], tensorOf 0 0x30000 [2], tensorOf 0 0x40000 [2], tensorOf 11 0x50000 [1], tensorOf 11 0x60000 [1], tensorOf 0 0x70000 [1], { tensorOf 11 0x80000 [1] with readers := [1] }]
      (wordAt 0x60000 0xBFF0000000000000)
    withDAB s (fun d a b => d.fmt == 11 && a.ext == b.ext && d.ext == a.ext.set 0 1 && a.root != d.root && okWith (agreeNf [a, b]) any_ && ready s [a, b] [d] && okWith (s.m.readVals 0 a) (fun xs => okWith (s.m.readVals 0 b) fun ws =>
      okWith ((axisLines a.ext 0).mapM fun l => statLine (l.map fun e => { x := (codes64 xs).getD e (0, 0), w := ((codes64 ws).map some).getD e none, skip := false })) fun ts =>
        ts.length == 1 && okWith (s.m.writeCodes 0 d (ts.map fun t => t.1.toNat) []) any_)) = true ∧
    okWith (s.m.target 0 someWalk 261) (fun d => okWith (s.m.plain 0 someWalk 259) fun a => a.fmt == 11 && d.fmt == 0 && a.ext == d.ext && a.root != d.root && okWith (lbRm 0) any_ && ready s [a] [d] && okWith (s.m.readCodes 0 a) fun cs =>
      cs.all (fun x => !(Triple.ofNat x).malformed) && okWith (s.m.writeVals 0 {} d [(realOf64 0, 0)]) any_) = true ∧
    okWith (s.m.plain 0 someWalk 260) (fun a => okWith (s.m.readCodes 0 a) fun cs => cs.any fun x => (Triple.ofNat x).malformed) = true ∧
    okWith (s.m.target 0 someWalk 262) (fun d => !ready s [] [d]) = true ∧ badEps 0 = false ∧ badEps 0x8000000000000001 = true ∧ badEps 0x7FF0000000000000 = true := by decide +kernel

theorem wit_GraphStatistics_norm :
    let s := onGraph [tensorOf 0 0x20000 [2], tensorOf 0 0x30000 [2], tensorOf 0 0x40000 [2], tensorOf 0 0x50000 [2]]
    withDAB s (fun d a b => okWith (s.m.plain 0 someWalk 259) fun c => [d, a, b, c].all (fun t => t.fmt == 0 && t.ext == [2]) && [a, b, c].all (fun t => t.root != d.root) && ready s [a, b, c] [d] &&
      okWith (s.m.readVals 0 a) (fun xs => okWith ((axisLines a.ext 0).mapM fun l => statLine (l.map fun e => { x := (codes64 xs).getD e (0, 0) })) any_) &&
      okWith (s.m.writeVals 0 {} d [(realOf64 0, 0), (realOf64 0, 0)]) any_) = true := by decide +kernel

/-- A KV table of queue 0 with groups 0 (one mapped block), 2 (bad), 3 (all of its tokens past its blocks) and 4 (one unmapped block), and tensors of one row of keys and values. -/
def onKv : State :=
  let s := onGraph [{ tensorOf 0 0x40000 [1] with desc := (tensorOf 0 0x40000 [1]).desc + 2 ^ 16 }, tensorOf 2 0x20000 [32, 1, 1, 1], tensorOf 2 0x30000 [32, 1, 1, 1], tensorOf 2 0x38000 [32, 1, 1, 1],
      { tensorOf 2 0x39000 [32, 1, 1, 1] with writer := some 1 }]
    (wordAt 0x40000 (2 ^ 63 + 2 * 2 ^ 36 + 1) ++ wordAt 0x40008 0x50000 ++ wordAt 0x40010 1 ++ wordAt 0x40040 (2 ^ 63) ++ wordAt 0x40060 (2 ^ 63 + 2 * 2 ^ 36 + 1) ++ wordAt 0x40068 0x50000 ++ wordAt 0x40070 0x20000 ++
     wordAt 0x40080 (2 ^ 63 + 2 * 2 ^ 36 + 1) ++ wordAt 0x40088 0x51000 ++ wordAt 0x50000 (2 ^ 63) ++ wordAt 0xA0000 (2 ^ 63 + 0xC0000))
  { s with m := { s.m with sys := [(13, 0xA0000), (14, 0xB0000), (18, 0x100000001)] } }

theorem wit_GraphKv :
    let s := onKv
    isGraph s = true ∧ okWith (s.m.kvHandle 0 someWalk 256 true) (fun t => okWith (s.m.plain 0 someWalk 257) fun a => okWith (s.m.plain 0 someWalk 258) fun b => a.root != t.root && b.root != t.root && ready s [a, b] [t] &&
      okWith (s.m.kvGroup 0 t 0) (fun rt => a.ext == [rootD rt, rootH rt, rootL rt, 1] && b.ext == a.ext && a.fmt == rootFmt rt && decide (0 ≤ rootTlen rt) && decide (rootTlen rt < (someWalk.reg 1).toNat) &&
        kvRange rt 0 1 == [0] && rootNlb rt == 1 && okWith (s.m.mapBlock 0 rt 0) (fun r1 => r1.2 && okWith (r1.1.blockReady 0 rt 0) fun r2 => r2.2 && okWith (r2.1.rowCodes 0 a) fun ks => okWith (r2.1.rowCodes 0 b) fun vs =>
          okWith (fuseGroup [a, b]) any_ && okWith (r2.1.appendRows 0 rt 0 1 (ks.map (·.1)) (vs.map (·.1))) fun m3 => okWith (m3.setRoot 0 t 0 (setBits rt 128 24 1)) any_) &&
        okWith (s.m.moveBlock 0 rt 0 0) (fun r => r.2) && okWith (s.m.moveBlock 0 rt 2 0) (fun r => !r.2)) &&
      okWith (s.m.kvGroup 0 t 3) (fun rt => decide ((someWalk.reg 1).toNat ≤ rootTlen rt) && (kvRange rt (someWalk.reg 1).toNat 1).any fun x => decide (rootNlb rt ≤ x)) &&
      okWith (s.m.kvGroup 0 t 4) (fun rt => okWith (s.m.mapBlock 0 rt 0) fun r => !r.2) &&
      okWith (s.m.kvRoot 0 t 1) (fun x => !rootV x) && okWith (s.m.kvRoot 0 t 2) (fun x => rootV x && !rootOk s.m x) && okWith (s.m.truncGroup 0 t 16 0) (fun r => r.2)) = true ∧
    okWith (s.m.plain 0 someWalk 260) (fun a => !ready s [a] []) = true ∧ (someWalk.reg 1).toInt = (0x20000 : Nat) ∧ (someWalk.reg 2).toInt = (0 : Nat) ∧ bits 0x1000000 24 2 = 1 ∧ bits 0x2000000 24 2 ≠ 1 ∧
    bits 0x100 8 6 = 1 ∧ 0x100 + 62 &&& 0x3F3F = 0x100 + 62 := by decide +kernel

/-- A block whose owner entry is busy keeps a truncation waiting. -/
theorem wit_GraphKv_busy :
    let s := onKv
    let m : Machine := { s.m with mem := s.m.mem.filter (fun p => p.1 < 0xA0000) ++ wordAt 0xA0000 (2 ^ 63 + 2 ^ 59 + 0xC0000) }
    okWith (m.kvHandle 0 someWalk 256 true) (fun t => okWith (m.truncGroup 0 t 0 0) fun r => !r.2) = true := by decide +kernel

/-- Every group's root entry read for group 63, in a table of one group in use. -/
theorem wit_GraphKv_all :
    let s := onGraph [{ tensorOf 0 0x40000 [1] with desc := (tensorOf 0 0x40000 [1]).desc + 2 ^ 16 }]
    okWith (s.m.kvHandle 0 someWalk 256 true) (fun t => okWith ((List.range 63).mapM (s.m.kvRoot 0 t)) fun rs =>
      okWith (stepsOn (fun m g => m.truncGroup 0 t 0 g) s.m ((List.range 63).filter fun g => rootV (rs.getD g 0))) fun r => r.2) = true := by decide +kernel

theorem wit_GraphKv_attn :
    let s := onKv
    okWith (s.m.target 0 someWalk 259) (fun d => okWith (s.m.plain 0 someWalk 257) fun a => okWith (s.m.kvHandle 0 someWalk 256 false) fun t => d.fmt == 2 && a.fmt == 2 && a.root != d.root && t.root != d.root && ready s [a, t] [d] &&
      okWith (s.m.kvGroup 0 t 0) (fun rt => a.ext == [rootD rt, rootH rt, rootL rt, 1] && d.ext == a.ext && ceilDiv (rootTlen rt) (rootB rt) == 1 && rootNlb rt == 1 &&
        okWith (s.m.blockReady 0 rt 0) (fun r => r.2 && okWith (r.1.leafAt 0 rt 0) any_ && okWith (r.1.readVals 0 a) fun _ =>
          okWith (r.1.writeVals 0 {} d (List.replicate 32 ((.zero false, 0), 0))) any_))) = true := by decide +kernel

/-- This package alone, and group 0 of level 4 with it at rank 1 of two; INT64 tensors; a tensor whose shard is of another group. -/
def onGroup (n : Nat) : State :=
  let s := onGraph [tensorOf 6 0x20000 [2], tensorOf 6 0x30000 [2], { tensorOf 6 0x40000 [2] with desc := (tensorOf 6 0x40000 [2]).desc + 2 ^ 211 + 5 * 2 ^ 208 - 15 * 2 ^ 220 }, tensorOf 6 0x60000 [4],
      { tensorOf 6 0x70000 [2] with desc := (tensorOf 6 0x70000 [2]).desc + 2 ^ 211 + 4 * 2 ^ 208 + 2 ^ 199 - 15 * 2 ^ 220 }, { tensorOf 6 0x78000 [2] with readers := List.range 16 }]
    (wordAt 0x4 3 ++ wordAt 0x92008 0xA0000 ++ (if n = 2 then wordAt 0x92010 (2 * 2 ^ 57) ++ wordAt 0x92018 0 else wordAt 0x92010 (2 ^ 57)) ++ (if n = 2 then wordAt 0xA0000 1 else []))
  { s with m := { s.m with sys := [(6, 0x90000), (9, 0xC0000)] } }

theorem wit_GraphCollectives :
    let s := onGroup 1
    let t := onGroup 2
    isGraph s = true ∧ isGraph t = true ∧ groupMember s.m 4 0 = some (1, 0) ∧ groupMember t.m 4 0 = some (2, 1) ∧ groupMember s.m 6 255 = none ∧
    withDA s (fun d a => a.fmt == d.fmt && !a.scaled && !d.scaled && !hTr a.desc && !hTr d.desc && a.root != d.root && shardAgrees a 4 0 1 0 && shardAgrees d 4 0 1 0 && okWith (reduceOpr 0 a) (fun x => x == 1) && a.ext == d.ext &&
      globalExt a == globalExt d && d.ext == globalExt a && (allreduceParts a 1).length == 1 && s.m.roomFor 0 1 [a.root] && a.ext.getD 0 1 % 1 == 0) = true ∧
    withDA t (fun d a => okWith (t.m.plain 0 someWalk 258) (fun x => !shardAgrees x 4 0 2 1) && okWith (t.m.target 0 someWalk 259) (fun e => okWith (t.m.plain 0 someWalk 260) fun x => shardAgrees x 4 0 2 1 && hSn x.desc == 2 && hSn e.desc == 1 &&
      e.ext == globalExt x && shardAgrees e 4 0 2 1) && decide (bits 0x100 8 10 < 2) && decide (2 ≤ bits 0x200 8 10) && a.ext.getD 0 1 % 2 == 0 && d.ext == a.ext) = true ∧
    okWith (t.m.plain 0 someWalk 261) (fun a => !t.m.roomFor 0 1 [a.root]) = true ∧ bits (960 * 2 ^ 32 + 4) 32 10 = 960 ∧ bits (959 * 2 ^ 32 + 6) 32 10 < 960 ∧ ¬ (4 ≤ bits 3 0 3) ∧ ¬ (bits 7 0 3 ≤ 6) ∧
    (960 * 2 ^ 32 + 4 &&& (1023 * 2 ^ 32 + 255 * 2 ^ 24 + 7 * 2 ^ 4 + 7)) = 960 * 2 ^ 32 + 4 := by decide +kernel

/-- An all-to-all of 65 members has 4225 entries. -/
theorem wit_GraphCollectives_many :
    let s := onGraph [tensorOf 6 0x20000 [65], tensorOf 6 0x30000 [65]] (wordAt 0x92008 0xA0000 ++ wordAt 0x92010 (65 * 2 ^ 57))
    let u : State := { s with m := { s.m with sys := [(6, 0x90000), (9, 0xC0000)] } }
    isGraph u = true ∧ groupMember u.m 4 0 = some (65, 0) ∧
    withDA u (fun d a => shardAgrees a 4 0 65 0 && shardAgrees d 4 0 65 0 && a.ext == d.ext && a.ext.getD 0 1 % 65 == 0 && decide (4096 < (alltoallParts a d 0 0 65 0).length)) = true := by decide +kernel

/-- A built-in entry serves a KV or collective operator of its opcode; 33 rows of queries are too many. -/
theorem wit_GraphKv_images :
    let i : OpImage := { ident := 9, opc := 0x30, first := 0, words := 0, base := 0x100000 }
    let s := { onKv with m := { onKv.m with parsers := [(0, { builtin := [i] })] } }
    let g := { onGroup 1 with m := { (onGroup 1).m with parsers := [(0, { builtin := [i] })] } }
    let o : LbOp := { op := 0x30, md := 0, ln := 0, d := 256, a := 257, b := 258, c := 0, imm := 0x100 }
    let u := onGraph [{ tensorOf 0 0x40000 [1] with desc := (tensorOf 0 0x40000 [1]).desc + 2 ^ 16 }, tensorOf 2 0x20000 [32, 1, 1, 33], tensorOf 2 0x30000 [32, 1, 1, 33]] onKv.m.mem
    s.m.builtinOf 0 o = some i ∧ onKv.m.builtinOf 0 o = none ∧ isGraph s = true ∧ g.m.builtinOf 0 o = some i ∧ isGraph g = true ∧ okWith (g.m.target 0 someWalk 256) (fun d => (allreduceParts d 1).length == 1) = true ∧
    okWith (s.m.kvHandle 0 someWalk 256 true) (fun t => okWith (s.m.kvGroup 0 t 0) fun rt => okWith (s.m.mapBlock 0 rt 0) fun r => r.2 && r.1.builtinOf 0 o == some i) = true ∧
    okWith (u.m.plain 0 someWalk 257) (fun a => okWith (u.m.target 0 someWalk 258) fun d => d.ext == a.ext && a.root != d.root && okWith (fuseGroup [d, a]) any_ &&
      okWith ({ u.m with sys := onKv.m.sys }.kvHandle 0 someWalk 256 false) fun t => ready u [a, t] [d] && okWith ({ u.m with sys := onKv.m.sys }.kvGroup 0 t 0 0x2F) fun rt => a.ext == [rootD rt, rootH rt, rootL rt, 33]) = true := by
  decide +kernel

/-- An all-to-all whose operands are shards of one global tensor of 4 by 2 elements along different dimensions. -/
theorem wit_GraphCollectives_turned :
    let shard (h : Handle) (ax : Nat) : Handle := { h with desc := h.desc + 2 ^ 211 + 4 * 2 ^ 208 + 2 ^ 199 - (15 - ax) * 2 ^ 220 }
    let t := onGraph [shard (tensorOf 6 0x20000 [4, 1]) 1, shard (tensorOf 6 0x30000 [2, 2]) 0] (onGroup 2).m.mem
    let u : State := { t with m := { t.m with sys := (onGroup 2).m.sys } }
    isGraph u = true ∧ groupMember u.m 4 0 = some (2, 1) ∧
    withDA u (fun d a => shardAgrees a 4 0 2 1 && shardAgrees d 4 0 2 1 && a.ext != d.ext && globalExt a == globalExt d && hSn a.desc == 2 && hSn d.desc == 2 && a.ext.getD 1 1 % 2 == 0 &&
      d.ext == (a.ext.set 1 1).set 0 4 && decide ((alltoallParts a d 1 0 2 1).length ≤ 4096) && u.m.roomFor 0 1 [a.root]) = true := by decide +kernel

/-- An expansion of queue 0 on die 0 at its first word, of an operator with D and A. -/
def someExp (d a : BitVec 12) : Expansion :=
  { queue := 0, op := { op := 0xC0, md := 0, ln := 0, d, a, b := 0, c := 0, imm := 0 }, fofs := 0x20, image := { ident := 0x30000, opc := 0xC0, first := 0, words := 2, base := 0x30000 }, entry := 0x30000, ssz := 1 }

/-- The Parser of die 0 at that expansion, with a heap of 16 MiB per die. -/
def onMicro (e : Expansion) (hs : List Handle) : State :=
  let s := onGraph hs
  { s with m := { s.m with parsers := [(0, { exp := some e })], sys := [(15, 0x1000000), (16, 0x8000000)] }, turn := .micro 0 }

/-- `State.microAt` as a Bool. -/
def isMicro (s : State) (e : Expansion) : Bool := s.turn == .micro 0 && (s.m.parser 0).exp == some e && s.m.walkOf e.queue == some someWalk
theorem isMicro_microAt (s : State) (e : Expansion) (h : isMicro s e = true) : s.microAt 0 e someWalk := by
  simp only [isMicro, Bool.and_eq_true, beq_iff_eq] at h; exact ⟨h.1.1, h.1.2, h.2⟩

/-- Operands of FP64 that may be written, that may not, that are shared, transient or statistics; extents at their ends. -/
theorem wit_MicrocodeWords :
    let hs := [tensorOf 0 0x20000 [4], tensorOf 0 0x30000 [4], { tensorOf 0 0x40000 [4] with desc := (tensorOf 0 0x40000 [4]).desc + 2 ^ 18 }, { tensorOf 0 0x50000 [4] with desc := (tensorOf 0 0x50000 [4]).desc + 2 ^ 19 + 2 ^ 128 },
      tensorOf 11 0x60000 [4], { tensorOf 0 0x70000 [4] with desc := (tensorOf 0 0x70000 [4]).desc + 2 ^ 211 + 4 * 2 ^ 208 - 15 * 2 ^ 220 }]
    let e := someExp 256 257
    let s := onMicro e hs
    let opnd (d : BitVec 12) (f : Tensor → Bool) : Bool := let e := someExp d 257; isMicro (onMicro e hs) e && okWith ((onMicro e hs).m.operand someWalk e 0) f
    let b (rows : Nat) (t : Tensor) : Bool := let r : BindRec := { t := 63, tid := 255, g := 3, rows, rowb := 32, k := 1022, h := 0 }
      entOk (e.entry_ 0 t) && ((List.range t.ext.length).all fun i => decide ((t.ext.take i).foldl (· * ·) 1 < 2 ^ 31)) && tdOk (r.desc 0) && decide (ceilDiv (r.rows * r.rowb) 4096 ≤ 512)
    isMicro s e = true ∧ e.operands = [0, 1] ∧ (∀ h < 4, h ∉ e.operands → operandNum e.op h = 0) ∧ operandNum e.op 1 ≠ 0 ∧ 1 ∉ ({ e with rd := 0, wr := 1 } : Expansion).operands ∧
    okWith (e.operands.mapM fun h => (s.m.tensor e.queue someWalk (operandNum e.op h)).map fun t => (h, t)) (fun ts => ts.all (fun p => !hRo p.2.desc) && (ts.map (·.2.root)).eraseDups.length == 2 && okWith (agreeNf (ts.map (·.2))) any_) = true ∧
    okWith (s.m.tensor 0 someWalk 258) (fun t => hRo t.desc) = true ∧
    opnd 256 (fun t => t.ext == [4] && hSn t.desc == 1 && b 512 t && !b 0 t && t.fmt != 11) = true ∧ SMap.get 0 e.ext 0 = 0 ∧ (someWalk.reg 1).toInt = 0x20000 ∧ (someWalk.reg 2).toInt = 0 ∧
    opnd 259 (fun t => hTr t.desc && hFuse t.desc != 0) = true ∧ (s.m.parkedOf 0) = none ∧ opnd 260 (fun t => t.fmt == 11) = true ∧ opnd 261 (fun t => hSn t.desc != 1 && redAccepts .sum t.fmt && !t.scaled) = true ∧
    ({ e with binds := [{ t := 0, tid := 1, g := 0, rows := 1, rowb := 8, k := 2, h := 0 }] } : Expansion).binds.find? (fun b => b.h == 0) ≠ none ∧ (∀ b ∈ e.binds, b.h ≠ 3) := by decide +kernel

/-- A launch that can be built, one whose source has no room for a reader, one that is refused, and two that are fused. -/
theorem wit_CustomOperators :
    let hs := [tensorOf 0 0x20000 [4], tensorOf 0 0x30000 [4], { tensorOf 0 0x40000 [4] with readers := List.range 16 }, { tensorOf 0 0x50000 [4] with desc := (tensorOf 0 0x50000 [4]).desc + 2 ^ 19 + 2 ^ 128 }]
    let built (e : Expansion) (f : Option (Machine × List Nat) → Bool) : Bool := isMicro (onMicro e hs) e && ((onMicro e hs).m.parkedOf 0).isNone && okWith ((onMicro e hs).m.buildLaunch someWalk e none) f
    let x : Expansion := { someExp 259 256 with fused := some (259, 0, false) }
    let y : Expansion := { someExp 257 259 with fused := some (259, 0, true) }
    let p (e : Expansion) : Machine := { (onMicro e hs).m with parsers := [(0, { exp := some e, parked := [x] })] }
    built (someExp 256 257) (fun r => r.isSome) = true ∧ built (someExp 256 258) (fun r => r.isNone) = true ∧
    errWith ((onMicro { someExp 256 257 with entry := 2 } hs).m.buildLaunch someWalk { someExp 256 257 with entry := 2 } none) (fun k => k == 0x38) = true ∧
    isMicro (onMicro x hs) x = true ∧ (onMicro x hs).m.parkedOf 0 = none ∧ x.fused = some (259, 0, false) ∧
    (p y).parkedOf 0 = some x ∧ fuseOk x y = true ∧ fuseOk x { y with koff := 1 } = false ∧ okWith ((p y).buildLaunch someWalk x (some y)) (fun r => r.isSome) = true := by decide +kernel

/-- A parked operator of another queue of the die. -/
theorem wit_CustomOperators_parked :
    let e : Expansion := { someExp 259 256 with fused := some (259, 0, false) }
    let s := onMicro e []
    let t : State := { s with m := { s.m with parsers := [(0, { exp := some e, parked := [{ e with queue := 1 }] })] } }
    isMicro t e = true ∧ t.m.parkedOf 0 = none ∧ (t.m.parser 0).parked ≠ [] := by decide +kernel

/-- A package with one custom operator, whose image is installed, and one whose image is not. -/
theorem wit_CustomOperators_table :
    let i : OpImage := { ident := 0x30000, opc := 0xC0, first := 0, words := 2, base := 0x30000 }
    let w : Walk := { someWalk with nx := 2, xoff := 0x100 }
    let s : State := { m := { walks := [(0, some w)], parsers := [(0, { ops := [i] })], mem := wordAt 0x10100 (0x30000 * 256 + 0xC0) ++ wordAt 0x10108 (0x31000 * 256 + 0xFF) }, turn := .graph 0 }
    s.turn = .graph 0 ∧ s.m.walkOf 0 = some w ∧ s.m.parkedOf 0 = none ∧
    okWith (s.m.parserRead 0 (w.pkg + w.xoff) (8 * w.nx) (w.nx / 16 + 2)) (fun tab =>
      let es := (List.range w.nx).map fun i => leNat ((tab.drop (8 * i)).take 8)
      es.all (fun e => e % 256 != 0xC1) && es.find? (fun e => e % 256 == 0xC0) == some (0x30000 * 256 + 0xC0) && es.find? (fun e => e % 256 == 0xFF) == some (0x31000 * 256 + 0xFF)) = true ∧
    ((s.m.parser 0).ops.find? fun i => i.ident == 0x30000) = some i ∧ (∀ i ∈ (s.m.parser 0).ops, i.ident ≠ 0x31000) := by decide +kernel

/-- Tiles of 4 and of 1 along a dimension of 2000 elements; past 1024 of them is too many. -/
theorem wit_MicrocodeWords_tiles :
    let e (ts : Nat) : Expansion := { someExp 256 257 with ext := [(0, 2000)], ts := [(0, ts)] }
    let count (e : Expansion) (j : Nat) : Nat := ceilDiv (e.dimExt j) (e.tileExt j)
    (∀ j < 4, count (e 4) j ≤ 1024) ∧ count (e 4) 0 * count (e 4) 1 * count (e 4) 2 * count (e 4) 3 < 2 ^ 23 ∧ ¬ count (e 1) 0 ≤ 1024 := by decide +kernel

/-- The limit block of the reset with a watchdog time, and one that is wider. -/
def someLimits (pmax : Nat) : Nat := 1000 * 2 ^ 800 + 3500 * 2 ^ 784 + pmax * 2 ^ 768

/-- A service command `code` with its argument at 0x100000. -/
def asks (code : Nat) (m : Machine) : State := { m := { m with watch := [(0x100, .ofNat 64 (code * 2 ^ 56 + 0x100000))] } }

/-- Is there such a command, in a machine with `f`? -/
def asked (code : Nat) (m : Machine) (f : Machine → Bool) : Bool := match (asks code m).m.takeWatch 0x100 with
  | some (n, v) => v.toNat == code * 2 ^ 56 + 0x100000 && f n
  | none => false

/-- The commands before and after the lock, with blocks that are legal, wider and illegal; a system block and an image of two words that are sound. The two answers to a signature are `Config.sm2Verify`'s. -/
theorem wit_ServiceCommands :
    let sys := wordAt 0 1 ++ wordAt 0x88 0x200000
    let image := natAt 0x200000 128 (0x504F4E4C + 2 ^ 32 * 0x00010000 + 2 * 2 ^ 403 + 1024 * 2 ^ 416 + 2048 * 2 ^ 448) ++ wordAt 0x200400 (6 * 2 ^ 60) ++ wordAt 0x200408 (11 * 2 ^ 60)
    let m (lim : Nat) : Machine := { mem := sys ++ natAt 0x100000 256 lim ++ image, limits := someLimits 4400 }
    asked 1 (m (someLimits 4400)) (fun n => !n.locked && 0x100000 % 256 == 0 && sysOk n.readSys && limitsOk (n.nat 0x100000 256) && imageOk (imgHeader n.readSys (n.readSys.sysWord 0x88))) = true ∧
    asked 1 { m 0 with locked := true } (fun n => n.locked && !limitsOk (n.nat 0x100000 256)) = true ∧
    asked 2 { m (someLimits 4400) with locked := true } (fun n => limitsOk (n.nat 0x100000 256) && tighter n.limits (n.nat 0x100000 256)) = true ∧
    asked 2 { m (someLimits 4400) with locked := true, limits := someLimits 4399 } (fun n => limitsOk (n.nat 0x100000 256) && !tighter n.limits (n.nat 0x100000 256)) = true ∧
    asked 3 (m 0) (fun n => !n.locked) = true ∧ asked 3 { m 0 with locked := true } (·.locked) = true ∧ asked 4 (m 0) (fun n => !n.locked) = true ∧ asked 5 { m 0 with locked := true } (·.locked) = true ∧
    asked 0 (m 0) any_ = true ∧ asked 6 (m 0) any_ = true ∧ asked 255 (m 0) any_ = true ∧ (255 * 2 ^ 56 + 0x100000) / 2 ^ 56 = (255 : BitVec 8).toNat ∧ (0x1000FF % 256 ≠ 0) := by decide +kernel

/-- The operator of that image is legal, and one with a word that is none is not. -/
theorem wit_ServiceCommands_words :
    let hd := 6 * 2 ^ 60
    (∀ w : Nat, w = 12 * 2 ^ 60 → ∃ r ∈ operatorRuns [hd, w, 11 * 2 ^ 60], badWord false r ≠ none) ∧ operatorRuns [hd, 11 * 2 ^ 60] = [[hd, 11 * 2 ^ 60]] := by
  refine ⟨?_, by decide +kernel⟩; rintro w rfl; exact ⟨[6 * 2 ^ 60, 12 * 2 ^ 60, 11 * 2 ^ 60], by decide +kernel, by decide +kernel⟩

/-- The flash holds nothing; a started watchdog; clocks at both ends; two rings; a locked machine with a damper, a BAR and a frame to send. -/
theorem wit_OutsideEvents :
    let m : Machine := { locked := true, dog := true, mhz := 3500, cores := [(95, { mhz := 3400 })], limits := 3600 * 2 ^ 784 + 4400 * 2 ^ 768 + (2 ^ 63 + 0x5) * 2 ^ 1024,
                         sys := [(20, 0x200000), (21, 0x210000)], mem := natAt 0x200000 16 (0x300000 + 64 * 2 ^ 64 + 2 ^ 80) ++ natAt 0x210000 16 (0x310000 + 64 * 2 ^ 64 + 2 ^ 80) ++ natAt 0x300000 8 5,
                         bar0 := [(0x1002, 2)],
                         watch := [(0x110, 1), (0xC0, 1), (0xD8, 1), (0x10, 31), (0x100 + 8 * 47, 7)], ctxs := [(46, { st := .retired }), (47, { st := .ready })] }
    m.flash.find? bootOk = none ∧ (m.takeWatch 0x110).isSome = true ∧ m.expired = false ∧ lbPmax m.limits < 4401 ∧ 100 < m.mhz ∧ 4180 * 100 ≤ lbPmax m.limits * 95 ∧ m.mhz < lbFmax m.limits ∧
    100 < (m.core 95).mhz ∧ (m.core 95).mhz < m.mhz ∧ (m.takeWatch (0xC0 + 8 * 0)).isSome = true ∧ (m.takeWatch (0xC0 + 8 * 3)).isSome = true ∧
    bit (m.nat (ringBase m 0 + 16 * SMap.get 0 m.rings 0) 16) 80 = true ∧ macAllowed m (leNat ((m.bytes 0x300000 64).take 6)) = true ∧ bit (m.nat (ringBase m 2 + 16 * SMap.get 0 m.rings 2) 16) 80 = false ∧
    bit (m.nat (ringBase m 1 + 16 * SMap.get 0 m.rings 1) 16) 80 = true ∧ (m.takeWatch (lcb m + 0x10)).isSome = true ∧ 65 ≤ (65 : BitVec 11).toNat ∧
    damperAllows m (hostKey 0x1000) = false ∧ damperAllows { m with limits := m.limits + 2 ^ 976 } (hostKey 0x1000) = true ∧ bits (m.barNat 0x1000 32) 17 7 ≠ 0 ∧ bits (m.barNat (0x1000 + 32 * 63) 32) 17 7 = 0 ∧ bits (m.barNat (0x1000 + 32 * 63) 32) 64 12 = 0 ∧
    (m.takeWatch (pcb m (dieOf 47) + 0x100 + 8 * (47 % 48))).isSome = true ∧ (m.ctx 47).st ≠ .free ∧ (m.ctx 47).st ≠ .retired ∧ (m.ctx 46).st = .retired ∧ (m.ctx 0).st = .free := by decide +kernel

/-- A queue whose control word is `v` at 0x80000, with a doorbell. -/
def onQueue (v : Nat) : State := { m := { locked := true, sys := [(4, 0x80000)], mem := natAt 0x80000 64 v, watch := [(0x80030, 0)] } }
def belled (v : Nat) (f : Machine → Nat → Bool) : Bool := match (onQueue v).m.takeWatch (queueKey (onQueue v).m 0 + 48) with
  | some (m, _) => f m (m.queueDesc 0)
  | none => false

theorem wit_QueueEvents :
    let on := 1 + 2 ^ 12 + 2 ^ 22
    belled 0 (fun _ e => !qEn e) = true ∧ belled (2 ^ 22) (fun m e => qEn e && m.locked && !queueOk m 0 e) = true ∧ belled (on + 2 * 2 ^ 24) (fun m e => qEn e && queueOk m 0 e && decide (2 ≤ qState e)) = true ∧
    belled (on + 2 ^ 24) (fun m e => queueOk m 0 e && qState e == 1 && qHead e == qTail e) = true ∧ belled on (fun m e => qEn e && queueOk m 0 e && qState e == 0) = true ∧
    belled (on + 2 ^ 24 + 2 ^ 384) (fun m e => qEn e && queueOk m 0 e && qState e == 1 && qHead e != qTail e) = true ∧
    (let d := (onQueue (2 ^ 24)).m.queueDesc 0
     qEn d = false ∧ qState d = 1) ∧ (let d := (onQueue (4 * 2 ^ 24)).m.queueDesc 0
     qEn d = false ∧ qState d = 4) := by decide +kernel

/-- Ring entries: a graph, a notify, a reserved field; outside what is mapped; and a package at 0x10000 that is none. -/
theorem wit_QueueEvents_ring :
    let at_ (entry : Nat) : Machine := let s := onQueue (2 * 2 ^ 24 + 2 ^ 384 + 0x90000 * 2 ^ 320); { s.m with locked := false, mem := s.m.mem ++ natAt 0x90000 32 entry }
    let far : Machine := { (onQueue (2 * 2 ^ 24 + 2 ^ 384 + 2 ^ 63 * 2 ^ 320)).m with locked := true }
    let read (m : Machine) (f : Nat → Bool) : Bool := let d := m.queueDesc 0; okWith (m.parserNat 0 (qRing d + 32 * (qHead d % 2 ^ (qRlog d + 4))) 32) f
    let d := (at_ 0).queueDesc 0
    qState d = 2 ∧ qHead d ≠ qTail d ∧ (at_ 0).walkOf 0 = none ∧ (at_ 0).liveLaunches 0 = [] ∧ errWith (far.parserNat 0 (qRing (far.queueDesc 0)) 32) any_ = true ∧
    read (at_ 0) (fun e => bits e 56 8 != 1 && bits e 56 8 != 2) = true ∧ read (at_ (2 * 2 ^ 56)) (fun e => bits e 64 26 == 0 && bits e 56 8 == 2) = true ∧
    read (at_ (2 ^ 56 + 0x10000 * 2 ^ 128)) (fun e => bits e 64 26 == 0 && bits e 56 8 == 1 && errWith ((at_ 0).startGraph 0 0 e) any_) = true := by decide +kernel

/-- A package with nothing but its header starts. -/
theorem wit_QueueEvents_start :
    let h := 0x444E4E4C + 0x10000 * 2 ^ 32 + 0x1000 * 2 ^ 448
    okWith (({ mem := natAt 0x10000 128 h } : Machine).startGraph 0 0 (2 ^ 56 + 0x10000 * 2 ^ 128)) (fun m => decide (m.localsUsed 0 ≤ 3840)) = true := by decide +kernel

/-- Walks that go on and that have ended, expansions, launches with and without a collective, a coordinate, and image requests. -/
theorem wit_QueueEvents_work :
    let j : CollJob := { inst := 960, lvl := 4, grp := 0, rm := 0, src := (0, [1], 0), dst := (0, [1], 0), parts := [] }
    let s := onQueue (2 * 2 ^ 24)
    let m : Machine := { s.m with walks := [(0, some someWalk), (1, some { someWalk with ended := true })], launches := [(1, some someLaunch), (2, some { someLaunch with queue := 5, coll := some j }), (3, some { someLaunch with queue := 5, coll := some { j with overrun := true, gen := some 1 } })], ctxs := [(0, { nxt := [{ reg := 3, val := some 5, due := 9 }] })], watch := [(0, 0x30000), (0x10, 0x30000), (0x1000, 0)] }
    s.turn = .none ∧ m.walkOf 0 = some someWalk ∧ someWalk.ended = false ∧ qState (m.queueDesc 0) = 2 ∧ (m.parser 0).exp = none ∧ (someExp 0 0).queue = 0 ∧ ({ someExp 0 0 with queue := 1 } : Expansion).queue ≠ 0 ∧
    m.walkOf 1 = some { someWalk with ended := true } ∧ qState (m.queueDesc 1) ≠ 4 ∧ m.liveLaunches 0 ≠ [] ∧ m.liveLaunches 1 = [] ∧ m.launch 1 = some someLaunch ∧ someLaunch.coll = none ∧
    m.launch 2 = some { someLaunch with queue := 5, coll := some j } ∧ j.gen = none ∧ m.depsMet someLaunch = true ∧ someLaunch.complete = false ∧ someLaunch.failed = false ∧ ({ j with overrun := true } : CollJob).overrun = true ∧
    (m.ctx 0).nxt.find? (fun p => p.reg == 3) = some { reg := 3, val := some 5, due := 9 } ∧ (m.takeWatch (pcb m 0)).isSome = true ∧ (m.takeWatch (pcb m 0 + 0x10)).isSome = true ∧ (m.parser 0).parked = [] ∧
    m.imageBusy 0 0x30000 = false ∧ imageOk (imgHeader m 0x30000) = false ∧ (m.parser 0).ops = [] ∧ badWord true [] ≠ none := by decide +kernel

/-- A launch of one tile with an unread coordinate, a free context and one at work, and a tile that is retired last or not. -/
theorem wit_LaunchesAtWork :
    let l : Launch := { someLaunch with lrec := 2 ^ 1216 }
    let m : Machine := { launches := [(1, some l)], ctxs := [(1, { st := .ready }), (2, { launch := some 1, tasks := [5] })] }
    m.launch 1 = some l ∧ isRcore m (coreOf 0) = false ∧ m.outranked 1 0 l = false ∧ m.hungry l = true ∧ l.preempted = [] ∧ (m.ctx 1).st ≠ .free ∧ (m.ctx 0).st = .free ∧
    (match m.grant 1 (coreOf 0) with
     | some n => (((n.setCtx 0 { launch := some 1 }).request 0).2.any fun p => !bit p.1.toNat 63) && (((n.setCtx 0 { launch := some 1 }).request 0).1.launch 1).isSome
     | none => false) = true ∧
    (List.range 384).find? (fun c => (m.ctx c).launch == some 1 && (m.ctx c).tasks.contains 5 && !m.taskBusy c 5 (m.ctx c)) = some 2 ∧ l.done + 1 = l.ntile ∧
    someLaunch.done + 1 ≠ someLaunch.ntile := by decide +kernel

/-- The same with its coordinates dealt, so that the request gives the end code; and with a tile register that no bank has room for. -/
theorem wit_LaunchesAtWork_end :
    let l : Launch := { someLaunch with coords := [], lrec := 0x20000 }
    let m : Machine := { launches := [(1, some l)] }
    let big : Launch := { someLaunch with binds := [{ t := 0, tid := 0, g := 0, rows := 4095, rowb := 8 * 16383, k := 2, h := 0 }], lrec := 2 ^ 1216 }
    let f : Machine := { launches := [(1, some big)] }
    (match m.grant 1 (coreOf 0) with
     | some n => ((n.setCtx 0 { launch := some 1 }).request 0).2.any fun p => bit p.1.toNat 63
     | none => false) = true ∧ (f.grant 1 (coreOf 0)).isNone = true ∧ f.hungry big = true := by decide +kernel

/-- Contexts ready, at the aging limit, held with and without what they wait for, with causes due, in service and retired. -/
theorem wit_ContextEvents :
    let m : Machine := { ctxs := [(0, { st := .ready }), (1, { st := .ready, csr := [(0x20, 0x30)], aging := 2 ^ 40 }), (4, { st := .switched, hold := some (.version 0x20000 1) }), (5, { st := .switched, hold := some (.version 0x20000 0) }),
      (8, { st := .ready, async := [{ code := 0x33 }] }), (9, { st := .ready, ints := [(1, 2)] }), (10, { st := .ready, after := [{ code := 0x1D }] }), (11, { st := .switched, hold := some .busy, deferred := [{ code := 0x19 }] }),
      (12, { st := .retired, xfers := [{ someXfer with fault := some { code := 0x14 } }] }), (13, { intl := [{ reg := 1, value := 5 }] }), (14, { st := .inService, depth := 1, launch := some 1 }), (15, { st := .ready, launch := some 1 }), (16, { st := .ready, dep := some { key := 0, gen := 0, d := 1, sc := .die, pc := 0 }, async := [{ code := 0x33 }, { code := 0x37 }] })], launches := [(1, some someLaunch)] }
    (m.choose 0).isSome = true ∧ (m.choose 95) = none ∧ (m.ready 0) ≠ [] ∧ (m.ctx 0).aged = false ∧ (m.ctx 4).hold = some (.version 0x20000 1) ∧ m.holdCleared 4 (.version 0x20000 1) = false ∧ m.holdCleared 5 (.version 0x20000 0) = true ∧
    (m.ctx 8).due ≠ none ∧ (m.ctx 9).due = some (.interrupt 1 2) ∧ (m.ctx 10).due = some (.after { code := 0x1D }) ∧ (m.ctx 11).due = none ∧ (m.ctx 11).deferredNow = some { code := 0x19 } ∧ (m.ctx 12).st = .retired ∧
    (m.ctx 12).killed = false ∧ (m.ctx 12).after = [] ∧ ((m.ctx 12).oldestCause fun _ _ => true) = some { code := 0x14 } ∧ (m.ctx 13).intl[0]? = some { reg := 1, value := 5 } ∧ (m.ctx 14).launch ≠ none ∧ (m.ctx 16).due = some (.async { code := 0x37 }) ∧ (m.ctx 16).dep ≠ none ∧ (m.ctx 15).after = [] ∧
    isRcore m (coreOf 14) = false ∧ 0 < (m.ctx 14).depth ∧ (m.ctx 14).st = .inService ∧ (m.ctx 15).launch ≠ none ∧ (m.ctx 15).depth = 0 ∧ (m.ctx 15).dep = none ∧ (m.ctx 15).st = .ready := by decide +kernel

/-- A context at its limit that the core chooses. -/
theorem wit_ContextEvents_aged :
    let m : Machine := { ctxs := [(0, { st := .ready, csr := [(0x20, 0x10)], aging := 2 ^ 40 }), (1, { st := .ready })] }
    (m.ctx 0).aged = true ∧ m.choose 0 = some 0 ∧ m.expired = false ∧ m.boot ≠ .halted := by decide +kernel

/-- A context that can be pre-empted now, whose image area no page holds. -/
def preempted : Machine := { ctxs := [(0, { st := .ready, launch := some 1 })], launches := [(1, some { someLaunch with lrec := 2 ^ 60 * 2 ^ 320 })] }
theorem wit_ContextEvents_preempt : (preempted.preemptNow 0).isSome = true := by decide +kernel

/-- A pre-empted task that a free context of its partition resumes, and a task that waits while the lowest one of its launch has no context. -/
theorem wit_ContextEvents_resume :
    let l : Launch := { someLaunch with lrec := 0x100000 * 2 ^ 320, preempted := [(2, 7)] }
    let m : Machine := { ctxs := [(0, { st := .switched, hold := some (.word 0x20000 0 .eq 1), launch := some 1, ti := 9 })], launches := [(1, some l)] }
    let far : Machine := { m with launches := [(1, some { l with lrec := 2 ^ 60 * 2 ^ 320 })] }
    m.launch 1 = some l ∧ (l.preempted.map (·.2)).min? = some 7 ∧ l.preempted.find? (fun p => p.2 == 7) = some (2, 7) ∧ (m.ctx 1).st = .free ∧ coreOf 1 ∈ l.cores ∧ bit l.ctxs (1 % 4) = true ∧
    m.canResume 1 1 = true ∧ (far.canResume 1 1 = true ∧ far.areaPinned 0 ({ l with lrec := 2 ^ 60 * 2 ^ 320 }.area 2) (2 ^ 19) = false) ∧ m.areaPinned 0 (l.area 2) (2 ^ 19) = true ∧ SMap.rising m.ctxs = true ∧ (match l.lowest 9 with
      | some t => (m.startLowest 1 l t).isSome
      | none => false) = true := by decide +kernel

/-- Transfers not started, behind one of their channel, at work, waiting, failing and privileged. -/
theorem wit_TransferEvents :
    let e : Nat := 2 * 2 ^ 64 + 2 ^ 68 + 2 ^ 75 + 4 * 2 ^ 128
    let t : Xfer := { someXfer with kind := .tld, reg := 1, mEnt := e, tEnt := e, desc := tileDesc 0 256 1 }
    let m (xs : List Xfer) : Machine := { ctxs := [(0, { tilesCtx with xfers := xs })] }
    let run (m : Machine) (t : Xfer) (f : Ran → Bool) : Bool := f (m.runXfer 0 t)
    let q : Machine := { ctxs := [(0, tilesCtx)], cores := [(0, { priv := [(0, t)] })] }
    ((m [{ t with started := false }]).ctx 0).xfers[0]? = some { t with started := false } ∧ ((m [{ t with started := false }, { t with started := false, seq := 1 }]).ctx 0).xfers.take 1 = [{ t with started := false }] ∧
    ((m [t]).ctx 0).xfers[0]? = some t ∧ t.fault = none ∧ t.waitsFor t = false ∧ t.follow = none ∧ t.isFire = false ∧ run (m [t]) t (fun r => r.cause.isNone && !r.waits) = true ∧
    run (m [t]) { t with base := 2 ^ 63 } (fun r => r.cause.isSome) = true ∧ ({ t with seq := 1 } : Xfer).waitsFor { t with kind := .tst } = true ∧
    (q.core 0).priv.zipIdx.find? (fun p => p.1.2.ch == 0) = some ((0, t), 0) ∧ run q { t with started := true } (fun r => r.cause.isNone && !r.waits) = true := by decide +kernel

/-- A transfer whose first element lies in an expander. -/
theorem wit_TransferEvents_timeout :
    let e : Nat := 2 * 2 ^ 64 + 2 ^ 68 + 2 ^ 75 + 4 * 2 ^ 128
    let t : Xfer := { someXfer with kind := .tld, reg := 1, mEnt := e, tEnt := e, desc := tileDesc 0 256 1 }
    let leaf : Nat := 0x20 * 2 ^ 12 + 2 * 2 ^ 46 + 0x2E3
    let m : Machine := { limits := 2 ^ 832, ctxs := [(0, { tilesCtx with xfers := [t] })], cores := [(0, { tlb := [{ vpn := 0x20, page := 0x20000, leaf }] })] }
    m.xferReady 0 t = true ∧ ((List.range (entCount t.mEnt)).drop t.prog).find? (fun j => m.inTier2 0 (t.va j)) = some 0 ∧ (xferLoop 0 [] { m, t, puts := [] }).waits = false ∧ (xferLoop 0 [] { m, t, puts := [] }).cause = none := by decide +kernel

/-- A path of two stores that meet and one staged, a coded region of one line, a record with a refill, and accesses at the edge of the memory. -/
theorem wit_MemoryEvents :
    let e : StoreEntry := { ctx := 0, key := 0x20000, bytes := [1, 2] }
    let m : Machine := { locked := true, sys := [(3, 1), (6, 0x80000), (11, 0x90000)], cores := [(0, { path := [e, { e with key := 0x20001 }, { e with stage := some 0, key := 0x30000 }, { e with coded := some 0, key := 0x40000 }] })],
                         mem := natAt 0x90000 64 (8 * 2 ^ 384 + 2 * 2 ^ 256 + 0xA0000 * 2 ^ 288 + 0xB0000 * 2 ^ 448), ctxs := [(0, { st := .ready }), (1, { st := .retired })] }
    (m.core 0).path[0]? = some e ∧ (m.core 0).path.take 0 = [] ∧ overlaps e.key e.bytes.length 0x20001 2 = true ∧ e.coded = none ∧ e.stage = none ∧ overlaps e.key e.bytes.length 0x30000 2 = false ∧
    m.canStage 0 (0x30000 / 128) = true ∧ ({ m with sys := [] } : Machine).canStage 0 (0x30000 / 128) = false ∧ bit (m.nat (crtb m) 128) 62 = false ∧ (m.ctx 0).st ≠ .free ∧ (m.ctx 0).st ≠ .retired ∧ m.openGroupOf 0 = none ∧
    m.reaches e.key = true ∧ m.reaches (8 * 2 ^ 46) = false ∧ recRfn (m.nat (allocRecord m 0) 64) = 2 ∧ recRfn (m.nat (allocRecord m 1) 64) = 0 ∧ m.expired = false ∧ 2 ^ 40 - 8 + 8 ≤ hbmSize ∧ hbmSize < 2 ^ 40 - 7 + 8 ∧ 0xFFF8 < 0x10000 := by decide +kernel

/-- A coded line of a region of level 0 that decodes, and is written; an entry whose counters are to be flushed. -/
theorem wit_MemoryEvents_coded :
    let m : Machine := { sys := [(7, 0x80000)], mem := natAt 0x80000 128 (2 ^ 63 + 2 ^ 62 + 8 * 2 ^ 8 + 0x100000 * 2 ^ 384 + 0x1000 * 2 ^ 320) }
    let e : StoreEntry := { ctx := 0, key := 0x100000, bytes := [1, 2], coded := some 0 }
    (codedLine m 0 e.key).isSome = true ∧ okWith (codedStore m 0 e.key (List.replicate 16 0)) any_ = true ∧ bit (m.nat (crtb m) 128) 62 = true := by decide +kernel

/-- Barriers whose generation has advanced and not; groups in each state with each command. -/
theorem wit_GroupEvents :
    let rec_ (state cmd : Nat) : Machine := { sys := [(6, 0x80000)], mem := natAt 0x80000 64 (state + cmd * 2 ^ 128 + 0x30000 * 2 ^ 256), objs := [(0x30000, objAt 4 0 2 2)] }
    let dep : Depart := { key := 0x30000, gen := 0, d := 5, sc := .die, pc := 0x10000 }
    let m : Machine := { ctxs := [(0, { st := .running, dep := some dep }), (1, { st := .running, dep := some { dep with gen := 7 } }), (2, { st := .checkpointed, dep := some dep })], objs := [(0x30000, objAt 2 0 1 500)] }
    (m.ctx 0).dep = some dep ∧ (m.ctx 0).st ≠ .checkpointed ∧ (m.ctx 2).dep = some dep ∧ (m.ctx 2).st = .checkpointed ∧ (m.objectOf 0 0x30000).any (fun v => objGen v == dep.gen) = true ∧
    (m.ctx 1).dep = some { dep with gen := 7 } ∧ (m.ctx 1).st ≠ .checkpointed ∧ (m.objectOf 1 0x30000).any (fun v => objGen v != 7) = true ∧
    grState ((rec_ 2 0).groupRec 0) = 2 ∧ (rec_ 2 0).barKey 0 = some 0x30000 ∧ (rec_ 2 0).spansOut 0 = false ∧ ((rec_ 2 0).objectIn 0 0x30000).any (fun o => objArr o == objExp o) = true ∧
    ({ rec_ 2 0 with objs := [(0x30000, objAt 4 0 1 2)] }.objectIn 0 0x30000).any (fun o => objArr o != objExp o) = true ∧ grState ((rec_ 1 0).groupRec 0) ≠ 2 ∧ grState ((rec_ 1 0).groupRec 0) ≠ 3 ∧
    grState ((rec_ 3 0).groupRec 0) = 3 ∧ (rec_ 3 0).barKey 0 = some 0x30000 ∧ ((rec_ 3 0).object 0x30000).isSome = true ∧ ((rec_ 3 0).group 0).late = none ∧ ((rec_ 3 0).setGroup 0 { late := some (0x33, 0) } |>.group 0).late = some (0x33, 0) ∧
    grState ((rec_ 1 0).groupRec 0) = 1 ∧ (grState ((rec_ 6 0).groupRec 0) ∉ [1, 2, 3]) ∧ SMap.rising (rec_ 1 0).groups = true ∧ grCmd ((rec_ 5 1).groupRec 0) = 1 ∧ grState ((rec_ 5 1).groupRec 0) = 5 ∧
    grCmd ((rec_ 1 2).groupRec 0) = 2 ∧ grState ((rec_ 1 2).groupRec 0) = 1 ∧ grCmd ((rec_ 5 3).groupRec 0) = 3 ∧ grState ((rec_ 5 3).groupRec 0) = 5 ∧ 4 ≤ grCmd ((rec_ 1 4).groupRec 0) ∧ grCmd ((rec_ 1 0xFE).groupRec 0) ≠ 0xFF ∧
    grCmd ((rec_ 1 0xFF).groupRec 0) = 0xFF ∧ (rec_ 6 0).members 0 = [] ∧ grState ((rec_ 6 0).groupRec 0) = 6 := by decide +kernel

/-- Objects whose barrier its able contexts cannot reach, and can; one that no context waits at, one of its group's barrier in a live group, and one that a group has staged. -/
theorem wit_GroupEvents_withdraw :
    let dep : Depart := { key := 0x30000, gen := 0, d := 5, sc := .die, pc := 0x10000 }
    let m (gen arr exp : Nat) : Machine := { ctxs := [(0, { st := .running, dep := some dep }), (1, { st := .running })], objs := [(0x30000, objAt 2 gen arr exp)] }
    let v (m : Machine) : Nat := (m.object 0x30000).getD 0
    let held (m : Machine) : List Nat := (List.range 384).filter fun c => (m.ctx c).dep.any (fun t => t.key == 0x30000 && t.gen == objGen (v m)) &&
      ((m.ckGroup c).bind fun g => if (m.stagedObject g.1 0x30000).isSome then some g.1 else none) == none
    objScope (v (m 0 1 500)) ≠ 7 ∧ objArr (v (m 0 1 500)) ≠ 0 ∧ objArr (v (m 0 1 500)) + (m 0 1 500).ableCount 0x30000 (v (m 0 1 500)) < objExp (v (m 0 1 500)) ∧ held (m 0 1 500) = [0] ∧ (m 0 1 500).commitsAt 0 0x30000 = false ∧
    objArr (v (m 0 0 500)) = 0 ∧ objExp (v (m 0 1 1)) ≤ objArr (v (m 0 1 1)) ∧ (m 0 1 500).stagedObject 0 0x30000 = none := by decide +kernel

/-- Blocks of this package in HBM4E, below and on the way, their moves, and what a request on them finds. -/
theorem wit_KvAndCollectiveEvents_kv :
    let m0 : Machine := { someKv with sys := [(13, 0xA0000), (14, 0xB0000), (18, 1)] }
    let entry (w tag hi : Nat) (frames : Bool) : Machine :=
      { m0 with mem := m0.mem ++ natAt 0xA0000 32 (2 ^ 63 + w * 2 ^ 59 + 0xC0000 + tag * 2 ^ 64 + hi * 2 ^ 155) ++
                  (if frames then natAt 0xB0000 64 (0xD0000 * 2 ^ 448 + 2 ^ 416) ++ natAt 0xB0040 64 (0xD1000 * 2 ^ 448 + 2 ^ 416) ++ natAt 0xD0000 8 0xE0000 ++ natAt 0xD1000 8 0xE0000 else []) }
    let low := entry 8 0 0 true
    let up := entry 0 0 0 true
    let v (tier : Nat) (frame : Option Nat) : KvMove := { pkg := 0, gbn := 0, tier, frame, who := (0, 0) }
    let sound (m : Machine) : Bool := ownerOk m 0 0 (ownerEntry m 0 0)
    let bad : Machine := { low with cores := [(0, { cxlBad := true })] }
    let told : Machine := { low with moves := [{ v 0 none with why := some 2 }] }
    (([v 0 (some 0xE0000)].find? fun u => u.pkg * 2 ^ 40 + u.gbn == 0 && u.tier == 0 && u.why.isNone) = some (v 0 (some 0xE0000))) ∧
    (([v 0 (some 0xE0000)].find? fun u => u.pkg * 2 ^ 40 + u.gbn == 0 && u.tier == 2 && u.why.isNone) = none) ∧
    (low.cxlFails (v 0 (some 0xE0000)) 2 0xC0000).2 = false ∧ (bad.cxlFails (v 0 (some 0xE0000)) 2 0xC0000).2 = true ∧ bits (ownerWord low 0 0x90) 32 16 = 0 ∧ crc64 [] = bits (ownerEntry low 0 0) 64 64 ∧
    crc64 [] ≠ bits (ownerEntry (entry 8 1 0 true) 0 0) 64 64 ∧ (up.cxlFails (v 2 (some 0xE0000)) 2 0xE0000).2 = false ∧ ({ up with hdm := [] }.cxlFails (v 2 (some 0xE0000)) 2 0xE0000).2 = true ∧
    (5 ≠ selfPkg low ∧ routes low 5 = []) ∧ (told.moves.find? fun u => u.pkg == 0 && u.gbn == 0 && u.who == (0, 0) && u.why.isSome) = some { v 0 none with why := some 2 } ∧
    ownerOk low 0 1 (ownerEntry low 0 1) = false ∧ sound (entry 1 0 0 true) = true ∧ bit (ownerEntry (entry 1 0 0 true) 0 0) 59 = true ∧ sound up = true ∧ bit (ownerEntry up 0 0) 59 = false ∧ oeTier (ownerEntry up 0 0) = 0 ∧
    sound low = true ∧ oeTier (ownerEntry low 0 0) = 2 ∧ (low.kvPop 0 0).isSome = true ∧ (up.kvPop 0 1).isSome = true ∧ (entry 8 0 0 false).kvPop 0 0 = none ∧
    (let e := ownerEntry (entry 2 0 5 true) 0 0; sound (entry 2 0 5 true) && oeSealed e && oeRv e && bits e 156 2 == 2 && oeTier e == 0) = true ∧
    (low.kvNeed (0, 0) 0 0 0 none).2 = .wait ∧ (up.kvNeed (0, 0) 0 0 0 none).2 = .ready ∧ (up.kvNeed (0, 0) 0 1 0 none).2 = .bad 1 ∧ (told.kvNeed (0, 0) 0 0 0 none).2 = .bad 2 := by decide +kernel

/-- An `attn` of one block and of none, with answers in order and out of order, and a `kvmap`, over blocks that are ready, on their way and unmapped at their owner. -/
theorem wit_KvAndCollectiveEvents_ops :
    let op : KvOp := { kind := .attn, area := 0x60000, kroot := 0x40000, lg := 0, root := 2 ^ 63 + 2 * 2 ^ 36 + 1 + 0x50000 * 2 ^ 64, leaves := [2 ^ 63], len := 16, src := { desc := tileDesc 0 256 1 }, dst := { desc := tileDesc 1 256 1 } }
    let two : KvOp := { op with leaves := [2 ^ 63, 2 ^ 63], len := 32 }
    let m (e : Nat) (ops : List KvOp) : Machine := { someKv with sys := [(13, 0xA0000), (14, 0xB0000), (18, 1)], mem := someKv.mem ++ natAt 0xA0000 32 e, ctxs := [(0, { kvCtx with kvops := ops })] }
    let pro : KvOp := { op with kind := .promote }
    let parts (o : KvOp) (b : Nat) : KvOp := { o with parts := [(b, [1])] }
    let s := m (2 ^ 63 + 0xC0000) [op, { op with len := 0 }, parts op 0, parts two 0, parts two 1, pro]
    (s.ctx 0).kvops[0]? = some op ∧ op.fault = none ∧ (s.ctx 0).kvTurn op = true ∧ 0 < op.nb ∧ (s.progress 0 op).1 = 0 ∧ bit (s.progress 0 op).2 0 = false ∧ SMap.get [] op.parts 0 = [] ∧ (∀ f ∈ op.failed, f.1 ≠ 0) ∧
    (s.ctx 0).kvops[1]? = some { op with len := 0 } ∧ ({ op with len := 0 } : KvOp).nb = 0 ∧ (s.ctx 0).kvops[2]? = some (parts op 0) ∧ (SMap.get [] (parts op 0).parts 0).map (·.toNat) = [1] ∧ op.nb = 0 + 1 ∧
    two.nb = 2 ∧ (SMap.get [] (parts two 1).parts 1).map (·.toNat) = [1] ∧ (s.progress 0 two).1 = 0 ∧ (s.ctx 0).kvops[5]? = some pro ∧ pro.kind ≠ .attn ∧ (s.ctx 0).kvTurn pro = true := by decide +kernel

/-- A `kvmap` over a block that is ready, one on its way and one without a valid owner entry. -/
theorem wit_KvAndCollectiveEvents_kvmap :
    let pro : KvOp := { kind := .promote, kroot := 0x40000, lg := 0, root := 2 ^ 63 + 2 * 2 ^ 36 + 1 + 0x50000 * 2 ^ 64, leaves := [2 ^ 63], len := 16 }
    let m (e : Nat) : Machine := { someKv with sys := [(13, 0xA0000), (14, 0xB0000), (18, 1)], mem := someKv.mem ++ natAt 0xA0000 32 e, ctxs := [(0, { kvCtx with kvops := [pro] })] }
    let s := m (2 ^ 63 + 0xC0000)
    let ready := s.kvBlocks 0 pro pro.blocks 0 0
    let waits := (m (2 ^ 63 + 2 ^ 59 + 0xC0000)).kvBlocks 0 pro pro.blocks 0 0
    let fails := (m 0).kvBlocks 0 pro pro.blocks 0 0
    ready.2 = (1, 0, some none) ∧ waits.2 = (0, 0, none) ∧ fails.2 = (0, 0, some (some (0, 1))) ∧ (s.kvNeed (0, 0) 0 0 0 none).2 = .ready := by decide +kernel

/-- Entries of an instance before and after their hop, with a payload, a fire whose hop is done, and messages of the open generation, the next and another one. -/
theorem wit_KvAndCollectiveEvents_coll :
    let f : Fire := { inst := 1023, entry := 0, gen := 1, pc := 0, ti := 0, hopped := true }
    let m : Machine := { someInstance 1 0 with colls := [(4096 * 1023, { contributed := true }), (4096 * 1023 + 1, { hopDone := true, contributed := true, ctx := 0 }), (4096 * 1023 + 2, { pay := [1] })], ctxs := [(0, { fires := [{ f with entry := 1 }] })] }
    let r := collRec m 1023
    let e := collEnt m r 0
    let a (gen entry : Nat) : CollMsg := { inst := 1023, entry, gen, rank := 0, kind := 0, opr := 0, fmt := 2, len := 8192, data := [] }
    m.hopAway r e 0 = none ∧ m.hopAway (2 * 2 ^ 234) (2 ^ 22 + 2 ^ 17) 0 = some 0 ∧ (m.coll 1023 0).contributed = true ∧ (m.coll 1023 0).hopDone = false ∧ ceRed e = none ∧ (m.coll 1023 0).pay = [] ∧ (m.coll 1023 2).pay ≠ [] ∧ (m.coll 1023 2).delivered = false ∧ (m.coll 1023 1).hopDone = true ∧
    (m.owner (m.coll 1023 1).ctx).fires.find? (fun t => t.inst == 1023 && t.entry == 1 && t.hopped) = some { f with entry := 1 } ∧
    dirOk (dirWord m 1023) = true ∧ dirOk (dirWord m 5) = false ∧ recOk m r = true ∧ (a 1 0).entry < crNent r ∧ ¬ (a 1 1).entry < crNent r ∧ (a 1 0).gen = crGen r ∧ crOpen r = true ∧ (a 3 0).gen ≠ crGen r + 1 ∧ ceSh e = false := by decide +kernel

/-- Reducing entries of one rank, and of two with this package the first of the ring or the last. -/
theorem wit_KvAndCollectiveEvents_reduce :
    let e := 2 ^ 22 + 2 ^ 17
    ceRed e = some .sum ∧ crP (2 ^ 234) = 1 ∧ crP (2 * 2 ^ 234) ≠ 1 ∧ crRank (2 * 2 ^ 234) = 0 % crP (2 * 2 ^ 234) ∧ crRank (2 * 2 ^ 234 + 2 ^ 225) ≠ 0 % crP (2 * 2 ^ 234 + 2 ^ 225) ∧
    crRank (2 * 2 ^ 234 + 2 ^ 225) = (0 % 2 + 2 - 1) % 2 := by decide +kernel

/-- Links in each state with each command; bring-ups of 3, 4, 7 and 8 lanes; a flow with a frame that is not acknowledged. -/
theorem wit_LinkEvents :
    let lk (state cmd : Nat) : Machine := let m : Machine := { sys := [(9, 0x80000)] }; ((m.setLinkState 0 state 0).setLink 0 56 8 cmd)
    let st (state cmd : Nat) : Bool := linkState (lk state cmd) 0 == state && linkCmd (lk state cmd) 0 == cmd && linkState ((lk state cmd).setLink 0 56 8 0) 0 == state
    st 0 1 = true ∧ st 1 1 = true ∧ st 2 2 = true ∧ st 4 2 = true ∧ st 4 3 = true ∧ st 0 3 = true ∧ linkCmd (lk 0 4) 0 ∉ [0, 1, 2, 3, 0xFF] ∧ linkCmd (lk 0 0xFE) 0 ∉ [0, 1, 2, 3, 0xFF] ∧ linkState (lk 1 0) 0 = 1 ∧
    linkState (lk 3 0) 0 = 3 ∧ linkState (lk 0 0) 0 ≠ 1 ∧ SMap.get 0 ({ attempts := [(0, 2)] } : Machine).attempts 0 + 1 = 3 ∧ SMap.get 0 (lk 1 0).attempts 0 + 1 < 3 ∧
    ((lk 2 0).flow 0 5).unacked = [] ∧ (({ lk 2 0 with flows := [(5, { unacked := [(0, [], 0)], resends := 14 })] } : Machine).flow 0 5).unacked ≠ [] ∧ (({ lk 2 0 with flows := [(5, { unacked := [(0, [], 0)], resends := 14 })] } : Machine).flow 0 5).resends + 1 < 16 := by decide +kernel

/-- Frames with a good and a bad check, in order and out of order, a resend and an acknowledgement, on a link that is up. -/
theorem wit_LinkEvents_frames :
    let m0 : Machine := { sys := [(9, 0x80000)], locked := true, mem := [(0x80040, 0xFF)] }
    let m : Machine := m0.setLinkState 0 2 8
    let f (type seq : Nat) : Frame := { port := 0, hdr := .ofNat 128 (seq * 2 ^ 112 + 5 * 2 ^ 87 + type * 2 ^ 65), flits := [], fcs := true, srcMac := macOf 5 0 }
    let hdr (t q : Nat) : Nat := (f t q).hdr.toNat
    macKnown m (macOf 5 0) = true ∧ macKnown m (macOf 8 0) = false ∧ linkState m (f 0 0).port = 2 ∧ m.expired = false ∧ bits (hdr 0 0) 0 65 = 0 ∧ bits (hdr 1 0) 65 3 = 1 ∧ bits (hdr 2 0) 65 3 = 2 ∧ bits (hdr 0 0) 65 3 = 0 ∧
    bits (hdr 0 0) 112 16 = SMap.get 0 m.expect (32 * 5) ∧ bits (hdr 0 1) 112 16 ≠ SMap.get 0 m.expect (32 * 5) ∧ SMap.rising m.expect = true := by decide +kernel

/-- Requests of another package: performed before, inside the window and outside it. -/
theorem wit_LinkEvents_remote :
    let m : Machine := { sys := [(9, 0x80000)], mem := natAt 0x80020 16 (0x20000 + 0x21000 * 2 ^ 64) ++ [(0x80040, 0xFF)], txns := [(5, [9])], out := [.reply 5 9 true [1]] }
    inDomain m 5 = true ∧ 9 ∈ SMap.get [] m.txns 5 ∧ 8 ∉ SMap.get [] m.txns 5 ∧ (m.replied 5 9).isSome = true ∧ inWindow m (lcb m) 0x30000 8 = false := by decide +kernel

/-- A send and a receive that are first in their queues, with a route and without one, and a connection that is open, broken or closed. -/
theorem wit_LinkEvents_messages :
    let t : Msg := { send := true, cn := 1, ent := 0, num := 0, tile := { reg := 1, desc := tileDesc 0 256 1 } }
    let m : Machine := { sys := [(9, 0x80000)], mem := natAt 0x80000 16 (2 * 2 ^ 48 + 0x90000 * 2 ^ 64) ++ wordAt 0x90000 (2 ^ 63 + 2 ^ 62 + 5 * 2 ^ 52) ++ wordAt 0x90100 (2 ^ 63 + 2 ^ 61),
                         ctxs := [(0, { msgs := [t, { t with send := false }] }), (1, { msgs := [{ t with begun := true }] })] }
    (m.ctx 0).msgs[0]? = some t ∧ t.fault = none ∧ (m.ctx 0).msgFirst t = true ∧ (m.ctx 0).msgs[1]? = some { t with send := false } ∧ (m.ctx 0).msgFirst { t with send := false } = true ∧ (m.ctx 1).msgs[0]? = some { t with begun := true } ∧
    (m.ctx 1).msgFirst { t with begun := true } = true ∧ routes m (connPeer (m.connWord 0)) = [] ∧ connOpen (m.connWord 0) = true ∧ connBrk (m.connWord 0) = false ∧ connBrk (m.connWord 1) = true ∧
    tdRows t.tile.desc * tdRowb t.tile.desc = 32 * 256 := by decide +kernel

/-- A peer over a link that is up, whose entry names this one or another, and whose receive is posted or not. -/
theorem wit_LinkEvents_peer :
    let far := 8 * 2 ^ 46
    let m (entry slot : Nat) : Machine :=
      { sys := [(9, 0x80000)], locked := true,
        mem := natAt 0x80000 16 (2 * 2 ^ 48 + 0x90000 * 2 ^ 64) ++ [(0x80040, 0xFF), (0x80094, 1)] ++ wordAt 0x80880 (2 * 2 ^ 20) ++ wordAt 0x90000 (2 ^ 63 + 2 ^ 62 + 5 * 2 ^ 52) ++ wordAt (far + 0x48) 0x1000 ++
               wordAt (far + 0x1008) 0x2000 ++ wordAt (far + 0x2000) entry ++ natAt (far + 0x20A0) 24 slot }
    let w := (m 0 0).connWord 0
    let posted (m : Machine) : Bool := decide (m.word (m.peerEntry w + seqOff false) ≤ 0) && decide (0 < m.word (m.peerEntry w + seqOff false) + 4) && m.nat (m.peerEntry w + slotOff (0 % 4 + 4)) 24 != 0
    let named (m : Machine) : Bool := connPeer (m.word (m.peerEntry w)) == selfPkg m && connPidx (m.word (m.peerEntry w)) == 0
    connPeer w = 5 ∧ connBrk w = false ∧ routes (m 0 0) 5 = [0] ∧ inDomain (m 0 0) 5 = true ∧ posted (m 0 0) = false ∧ posted (m 0 1) = true ∧ named (m 0 1) = true ∧ named (m (2 ^ 40) 1) = false ∧ (m 0 0).expired = false := by decide +kernel

/-- A whole coded line and part of one that does not decode; expanders that share their memory and not; BAR 0 of a machine that runs. -/
theorem wit_MemoryEvents_outside :
    let m : Machine := { sys := [(7, 0x80000)], mem := natAt 0x80000 128 (2 ^ 63 + 2 ^ 62 + 8 * 2 ^ 8 + 0x100000 * 2 ^ 384 + 0x1000 * 2 ^ 320) ++ (List.range 16).map fun i => (0x2000 + i, 255) }
    let shared (m : Machine) (key : Nat) : Bool := (m.hdm.find? fun r => r.1 == bits key 42 2 && r.2.1 ≤ key % 2 ^ 42 && key % 2 ^ 42 < r.2.1 + r.2.2.1).any (·.2.2.2)
    okWith (codedStore m 0 0x100000 (lineWords (List.replicate 128 0))) any_ = true ∧ shared {} (2 ^ 46) = true ∧ shared { hdm := [(0, 0, 2 ^ 42, false)] } (2 ^ 46) = false ∧
    ({} : Machine).expired = false ∧ SMap.rising ({ bar0 := [(0x1000, 5)] } : Machine).bar0 = true := by decide +kernel

/-- Instance 0 of two ranks, this package the second, with a copy or a sum of 8 bytes from the first: what arrives agrees, in the open generation, the next one and a later one. -/
theorem wit_KvAndCollectiveEvents_arrivals :
    let m (opr : Nat) : Machine :=
      { sys := [(8, 0x30000), (9, 0x20000)],
        mem := [(0x20040, 2)] ++ wordAt 0x30000 (2 ^ 63 + 0x40000) ++ wordAt 0x4001C (2 ^ 19 + 2 * 2 ^ 10 + 2) ++ wordAt 0x40020 (255 + 2 ^ 8) ++ wordAt 0x40028 1 ++ wordAt 0x40030 0x50000 ++ wordAt 0x40038 0x60000 ++ [(0x50000, 1)] ++
               wordAt 0x60000 (2 ^ 22 + opr * 2 ^ 17 + 2 * 2 ^ 12) ++ wordAt 0x60008 (8 * 2 ^ 20) ++ wordAt 0x60020 0x90000 ++ wordAt 0x60028 0x98000 ++ wordAt 0x60030 0x70000 ++ wordAt 0x60038 0x80000 }
    let a (kind opr gen : Nat) : CollMsg := { inst := 0, entry := 0, gen, rank := 0, kind := .ofNat _ kind, opr := .ofNat _ opr, fmt := 2, len := 8, data := List.replicate 8 1 }
    let ok (opr kind gen : Nat) : Bool := let r := collRec (m opr) 0; let e := collEnt (m opr) r 0
      dirOk (dirWord (m opr) 0) && recOk (m opr) r && decide (0 < crNent r) && decide (0 < crP r) && agrees (m opr) (a kind opr gen) r e && ceSaddr e != 0 && !ceSh e && crOpen r && crGen r == 1
    ok 0 2 1 = true ∧ ok 1 0 1 = true ∧ ok 0 2 2 = true ∧ (3 : Nat) ≠ 1 + 1 := by decide +kernel
/-! ### Further witnesses: the hypotheses that are not met above -/

/-- No request of the core waits; a launch that has failed; SCHEDPTR at the head of a table with one coordinate, and past it; two checkpointed levels in DMR. -/
theorem wit_BranchesAndCoordinates_failed :
    let s := atWork { launches := [(1, some someLaunch)] } { launch := some 1 }
    let f := atWork { launches := [(1, some { someLaunch with failed := true })] } { launch := some 1 }
    s.m.asking (coreOf s.c) = false ∧ isGoing f = true ∧ ((f.x.launch.bind f.start.launch).map Launch.failed).getD false = true ∧
    ((s.x.launch.bind s.start.launch).map Launch.failed).getD false = false := by decide

theorem wit_ControlRegisters_schedptr :
    let s := atWork { launches := [(1, some someLaunch)] } { launch := some 1, depth := 1, s := [(1, 8), (2, 16), (3, 3298534883328)] }
    isGoing s = true ∧ s.start.schedTable s.c = some (1, someLaunch, 0) ∧ s.m.schedTable s.c = some (1, someLaunch, 0) ∧ (someLaunch.table 0).length = 1 ∧
    (s.x.src (.r0 1)).toNat = 0 + 8 * 1 ∧ (s.x.src (.r0 2)).toNat = 0 + 8 * 2 ∧ csrBad 0x23 8 = [] ∧ csrBad 0x03 (s.x.src (.r0 3)).toNat = [] ∧
    dmrOk 0 (s.x.src (.r0 3) ||| 1).toNat false = false := by decide

/-- Core 0 with a line copied, and with none; context 0 in no checkpointed group. -/
theorem wit_MemoryContents_copies :
    let m : Machine := { cores := [(0, { l1 := [(0x400, List.replicate 128 7)] })] }
    SMap.rising m.cores = true ∧ m.ckGroup 0 = none ∧ (m.core 0).path = [] ∧ 0x20078 < 3 * 2 ^ 46 ∧ SMap.get [] (m.core 0).l1 (0x20000 / 128) ≠ [] ∧
    SMap.get [] (m.core 0).l1 (0x20078 / 128) ≠ SMap.get [] (m.core 0).l1 (0x30000 / 128) ∧ SMap.get [] (m.core 0).l1 (0x30000 / 128) = [] ∧ SMap.rising (m.core 0).l1 = true ∧
    (m.core 0).l1.length - (m.core 0).way.length < l1Lines := by decide

/-- An atomic step whose write waits for a line of its group, whose lines are all in use, and one of no group. -/
theorem wit_AtomicSteps_staged :
    let m : Machine := { objs := [(0x30000, objAt 2 0 0 4)], regions := [(0x30000, 0x20000, 128)], sys := [(6, 0x80000)], mem := [(0x80000, 1)] }
    let s := atWork m { s := [(1, 0x20000), (2, 3)], csr := [(3, 0x20000000003)] }
    let n := atWork m { s := [(1, 0x20000), (2, 3)], csr := [(3, 0x3)] }
    isGoing s = true ∧ okWith (s.m.access (coreOf s.c) 0x20000 8 .rmw) (fun r => okWith (r.1.atomicRead s.c r.2 8) fun v =>
      errWith (v.1.atomicWrite s.c 0x20000 r.2 8 7) fun e => match e with | .hold _ => true | .trap _ => false) = true ∧
    okWith (n.m.access (coreOf n.c) 0x20000 8 .rmw) (fun r => okWith (r.1.atomicRead n.c r.2 8) fun v =>
      (v.1.ckGroup n.c).isNone && okWith (v.1.atomicWrite n.c 0x20000 r.2 8 7) fun _ => true) = true := by decide +kernel

/-- What `sbind` and `sunbind` change is not staged; bytes 8 to 31 as `sbind` refuses them, and a scope that the context lacks. -/
theorem wit_FencesAndBinding_changes :
    let s := on { s := [(1, 0x30000)] }
    let r := atWork { mem := [(0x30010, 7)] } { s := [(1, 0x30000)], csr := [(3, 0x1)] }
    let o := atWork { objs := [(0x30000, objAt 2 0 0 4)] } { s := [(1, 0x30000)] }
    let mem (s : State) : Nat := let m := s.m.drain 0 0x30000 32; leNat (m.seen 0 0x30008 (m.bytes 0x30008 24))
    isGoing s = true ∧ mem s = 0 ∧ (s.m.drain 0 0x30000 32).objectOf 0 0x30000 = none ∧ okWith (s.m.changeObject 0 0x30000 (2 ^ 191) []) (fun _ => true) = true ∧
    isGoing r = true ∧ (objReserved (mem r) || objArr (mem r) != 0) = true ∧ r.x.scopeOk Scope.dom.toNat = false ∧ 2 ≤ Scope.dom.toNat ∧
    isGoing o = true ∧ o.m.objectOf 0 0x30000 = some (objAt 2 0 0 4).toNat ∧ o.m.inInstance 0 (objAt 2 0 0 4).toNat = true ∧ o.m.ckGroup 0 = none := by decide +kernel

/-- Arrivals that are not the last, the last, and the last at a version of all ones; a `waitf` on the word of a bound object. -/
theorem wit_Synchronisation_more :
    let m : Machine := { objs := [(0x30000, objAt 2 0 3 4)], mem := [(0x30000, 5)] }
    let s := atWork m { s := [(1, 0x30000), (2, 5)] }
    let one := atWork { m with objs := [(0x30000, objAt 2 0 0 4)] } { s := [(1, 0x30000)] }
    let full := atWork { m with mem := (List.range 8).map fun i => (0x30000 + i, 255) } { s := [(1, 0x30000)] }
    let at_ (s : State) (f : Machine → Phys → Nat → Nat → Bool) : Bool :=
      okWith (s.m.syncWord s.env 0x30000 32 .rmw) fun r => match r.1.objectOf s.c r.2.key with
        | some o => r.1.coversObj s.env Scope.die.toNat o && !r.1.commitsAt s.c r.2.key && okWith (r.1.barReady s.c r.2.key .die) (fun _ => true) && okWith (r.1.atomicRead s.c r.2 8) fun v => f v.1 r.2 o v.2
        | none => false
    at_ s (fun m p o v => v != 2 ^ 64 - 1 && objArr o + 1 == objExp o && okWith (m.changeObject s.c p.key (setBits (setBits o 64 24 0) 0 64 (objGen o + 1)) (m.bindings s.c)) fun m =>
      okWith (m.atomicWrite s.c 0x30000 p 8 (v + 1)) fun _ => true) = true ∧
    at_ one (fun m p o _ => objArr o + 1 != objExp o && okWith (m.changeObject one.c p.key (setBits o 64 24 (objArr o + 1)) (m.bindings one.c)) fun _ => true) = true ∧
    at_ full (fun _ _ o v => objArr o + 1 == objExp o && v == 2 ^ 64 - 1) = true ∧
    okWith (s.m.syncWord s.env 0x30000 8 .rmwLoad) (fun r => r.2.key % 32 == 0 && (r.1.objectOf s.c r.2.key).isSome && okWith (r.1.atomicRead s.c r.2 8) fun v => v.2 == 5) = true ∧
    condHolds .eq (BitVec.ofNat 64 5 &&& 7) (s.x.src (.r0 2)) = true := by decide +kernel

/-- A release that waits for a tile store over a region of its object, and one that raises the cause of a faulted one. -/
theorem wit_Synchronisation_waits :
    let m : Machine := { objs := [(0x30000, objAt 2 0 3 4)], regions := [(0x30000, 0x20000, 128)] }
    let e : Nat := 1 * 2 ^ 120 + 8 * 2 ^ 128
    let w := atWork m { s := [(1, 0x30000)], xfers := [{ someXfer with mEnt := e }], csr := [(0x34, 1)] }
    let f := atWork m { s := [(1, 0x30000)], xfers := [{ someXfer with mEnt := e, fault := some { code := 0x14 } }] }
    let at_ (s : State) (hold : Bool) : Bool := okWith (s.m.syncWord s.env 0x30000 32 .rmw) fun r => errWith (r.1.releaseReady s.c r.2.key .die) fun e => match e with
      | .hold _ => hold
      | .trap _ => !hold
    isGoing w = true ∧ isGoing f = true ∧ at_ w true = true ∧ at_ f false = true := by decide +kernel

/-- A translation that a store of the path used; an unfinished `xroute` of the banks of a stream. -/
theorem wit_Configuration_held :
    let t : TlbEntry := { vpn := 0x20, page := 0x20000, leaf := 0x20 * 2 ^ 12 + 0xFF }
    let s := atWork { cores := [(0, { tlb := [t], path := [{ ctx := 0, key := 0x20010, bytes := [1] }] })] } {}
    isGoing s = true ∧ ((scopeCores s.c .core).any fun n => (s.m.core n).storesThrough (tlbHit 0 0 0)) = true ∧
    ((scopeCores s.c .core).any fun n => (s.m.core n).storesThrough (tlbHit 1 0x30000 0)) = false := by decide +kernel

theorem wit_Streams_routed :
    let k : Core := { bank := (List.range 8).map fun c => (16 * c + 15, 2), routing := [(0x8000, 9)] }
    let s := atWork { cores := [(0, k)] } { lanesCtx with s := [(1, 15), (2, 0x8000)] }
    isGoing s = true ∧ (∀ c ∈ clusters 0xFF, s.k.bankMode c 15 = 2) ∧ s.k.routed (2 ^ 15) = true ∧ s.k.routed 0x8000 = true ∧ s.k.routed (2 ^ 14) = false ∧
    okWith (s.m.popIf s.env (isV63 (.r0 1))) (fun r => r.2 == []) = true ∧ (∀ c < 8, ∀ i ∈ (List.range 16).filter (bit 0x8000), s.k.bankMode c i = 2) := by decide +kernel

/-- A weight of zero and a bad one in the first lane; a malformed triple in the first lane of `qst`; two malformed ones. -/
theorem wit_Statistics_weights :
    let bad : Triple := ⟨0xBFF0000000000000, 0, 0⟩
    let s := on { lanesCtx with q := [(255, .ofNat 192 bad.toNat)], v := [(128, 0x8000000000000000), (255, 0xBFF0000000000000)], s := [(1, 0x100)] }
    let o := lop 0 0 0x81 (.r0 1) (.r0 1)
    let h := lop 0 0 0x80 (.r0 1) (.r0 1)
    isGoing s = true ∧ s.x.lanes 1 0x81 = 0 :: [127] ∧ s.x.lanes 1 0x80 = 127 :: [] ∧ (s.x.qlane 3 127).malformed = false ∧ (s.x.qlane 1 127).malformed = true ∧
    okWith (updateSource s.env [] o o.b 0) (fun w => (Fp.d.unpack w).isZero && !badWeight w) = true ∧ okWith (updateSource s.env [] h h.b 127) badWeight = true ∧
    ([0x100, 0x100 + 1024, 0x100 + 2048].all fun p => s.k.padOk 0 (laneOffset p 127)) = true := by decide +kernel

/-- An entry of one lane before it is translated, at its first cluster, at its last and resolved; with and without a legal address. -/
theorem wit_LoadQueue_steps :
    let q (st : LqState) (a n : Nat) : LqEntry := { sz := 3, ce := 255, lanes := 1, pc := 0, addrs := [a], st, data := List.replicate n 0 }
    let s := on { lq := [q .queued 0x20000 0, q .queued 0x20001 0, q .performing 0x20000 0, q .performing 0x20001 0, q .performing 0x20000 112, q .resolved 0x20000 128, q .queued 0x20000 16] }
    (s.m.ctx 0).lq[5]? = some (q .resolved 0x20000 128) ∧ (s.m.ctx 0).lq[6]? = some (q .queued 0x20000 16) ∧ (q .queued 0x20000 16).data ≠ [] ∧ (s.m.ctx 0).depth = 0 ∧ (s.m.ctx 0).lq[4]? = some (q .performing 0x20000 112) ∧ s.m.xfersOf 0 = [] ∧ (q .queued 0x20000 0).again = false ∧
    (q .performing 0x20000 0).data = [] ∧ (q .performing 0x20000 112).data.length = 112 ∧ okWith (s.m.access 0 0x20000 (szBytes 3) .load) (fun _ => true) = true ∧
    traps (s.m.access 0 0x20001 (szBytes 3) .load) 0x0A = true ∧ okWith (s.m.loadChecked 0 0x20000 (szBytes 3)) (fun r => r.2 == 0) = true ∧
    traps (s.m.loadChecked 0 0x20001 (szBytes 3)) 0x0A = true := by decide +kernel

/-- No enabled cluster at an offset that is no multiple of 256; a strided store under a tile store, and its first lane at an address that is not aligned. -/
theorem wit_Scratchpad_held :
    let e : Nat := 1 * 2 ^ 120 + 8 * 2 ^ 128
    let s := on { lanesCtx with s := [(1, 0x101), (2, 0x20001)], v := [(128, 0)] }
    let u := on { lanesCtx with s := [(3, 0x20000)], xfers := [{ someXfer with mEnt := e }] }
    isGoing s = true ∧ hasRoom s = true ∧ isGoing u = true ∧ s.x.lanes 1 0 = [] ∧ (s.x.sreg 1 + s.x.src (.r0 0)).toNat % 256 ≠ 0 ∧ s.x.lanes 1 1 = 0 :: [] ∧
    ((s.x.lanes 1 0x81).find? fun l => s.start.tileOver s.c true (0x20001 + 8 * l) 8) = none ∧ ((u.x.lanes 1 0x81).find? fun l => u.start.tileOver u.c true (0x20000 + 8 * l) 8) = some 0 ∧
    errWith (s.m.storeChecked s.c 0x20001 8 (s.x.vreg 1 0).toNat) (fun e => match e with | .trap k => k.code == 0x0A && !k.blocked | .hold _ => false) = true := by decide +kernel

/-- An older request of the pool, none, and one of a saved task whose launch is gone; a full latch, and one that a queued `mlatch` will fill. -/
theorem wit_TilesAndGrants_older :
    let w := atWork { cores := [(0, { wants := [(1, 1), (0, 3)], latch := [(3, { full := true, code := 2 })] })] } {}
    let g := atWork { cores := [(0, { wants := [(400, 1), (0, 3)], mq := [{ ctx := 0, kind := .mlatch, lat := 3, a := { ent := tileEnt 11 } }] })] } {}
    ((w.start.poolWants (coreOf w.c)).takeWhile fun p => p.1 != w.c) = [(1, 1)] ∧ ((g.start.poolWants (coreOf g.c)).takeWhile fun p => p.1 != g.c) = [] ∧
    popcount4 (8 &&& ~~~g.x.accHeld) ≤ g.start.poolFree (coreOf g.c) ∧ w.start.latchCode w.c 3 = some 2 ∧ g.start.latchCode g.c 3 = some 11 ∧
    Machine.pairOk 2 2 = true ∧ (0 : BitVec 8) = 0 := by decide +kernel

/-- A fetch that waits for a route answers code 0, and one of a context with a retained command keeps it behind that one. -/
theorem wit_AccumulatorReadsAndMatrixEvents_more :
    let z : MCmd := { ctx := 0, kind := .mzero, acc := 3 }
    let q : MCmd := { ctx := 0, kind := .mlatchMem, a := { ent := tileEnt 2 }, addr := 0x8000000000000000 }
    let m : Machine := { ctxs := [(0, { retained := [z] })], cores := [(0, { mq := [q, z, { z with ctx := 1 }] })] }
    (m.core 0).mrun = none ∧ (m.core 0).mq = q :: [z, { z with ctx := 1 }] ∧ (match (m.gatherAll q).2.2 with | some (.trap k) => k.code == 0x0B | _ => false) = true ∧
    (z.kind = .mzero) ∧ (match (m.fetchCmd { q with kind := .msv, a := { desc := tileDesc 0 256 1 } }).2 with | .ok o => o.pad.length != 0 | .error _ => false) = true := by decide +kernel

/-- Copies that a privileged channel takes and refuses for want of room. -/
theorem wit_CopyIssue_privileged :
    let p (n : Nat) : State := atWork { cores := [(0, { priv := List.replicate n (1, { someXfer with ch := 3, reg := 9 }) })] } tilesCtx
    let n (s : State) : Nat := ((s.m.core (coreOf s.c)).priv.filter fun p => p.2.ch == 3).length
    let free (s : State) : Bool := okWith (s.start.copyCheck s.c s.x (someCopy 1)) fun t => (t.ch == 3) && (t.roles.1.all fun r => !s.start.pendingWrite s.c r) &&
      t.roles.2.all fun r => !s.start.pendingRead s.c r && !s.start.pendingWrite s.c r
    isGoing (p 63) = true ∧ free (p 63) = true ∧ n (p 63) = 63 ∧ isGoing (p 64) = true ∧ free (p 64) = true ∧ n (p 64) = 64 := by decide +kernel

/-- Schedules whose first due entry is legal, breaks the form, or fails its checks; one with nothing due. -/
theorem wit_CopyCaptureAndStages_entries :
    let e (stg d : Nat) : Nat := stg * 2 ^ 48 + 2 ^ 40 + d * 2 ^ 34 + 3 * 2 ^ 32 + 2 ^ 24 + 5 * 2 ^ 16
    let s (w : List Nat) : State := on { tilesCtx with sched := w, csr := [(0x24, 1)] }
    let stage (s : State) (g : Nat) : Bool := g ≤ 2 && (decide ((s.x.cr 0x24).toNat < g) || (g == 0 && s.x.stageZeroDue))
    let todo (s : State) : List (Nat × Nat) := s.x.sched.zipIdx.filter fun p => stage s (schedStg p.1)
    let one := s [e 1 1, e 2 1, e 3 1]
    let bad := s [e 3 1, e 2 1]
    let un := s [e 2 0]
    isGoing one = true ∧ (one.x.cr 0x24).toNat + (one.x.src (.l6 1)).toNat = 2 ∧ one.x.src (.l6 1) ≠ 0 ∧ todo one = [(e 2 1, 1)] ∧ schedOk (schedStg (one.x.sched.getD 0 0)) (e 2 1) = true ∧
    okWith (one.start.copyCheck one.c one.x (schedReq one.x 1 (e 2 1))) (fun t => okWith (Machine.issueXfer one.start one.m one.c t) fun _ => true) = true ∧
    todo bad = (e 2 1, 1) :: [] ∧ schedOk (schedStg (bad.x.sched.getD 0 0)) (e 2 1) = false ∧ todo un = (e 2 0, 0) :: [] ∧ traps (un.start.copyCheck un.c un.x (schedReq un.x 0 (e 2 0))) 0x15 = true ∧
    todo (s [e 3 1]) = [] := by decide +kernel

/-- An operator whose opcode has an entry, and operands of two fuse groups. -/
theorem wit_GraphMoves_expanded :
    let s := onGraph [tensorOf 0 0x20000 [2], tensorOf 0 0x30000 [2]]
    let i : OpImage := { ident := 9, opc := 0x20, first := 0, words := 0, base := 0x100000 }
    let u : State := { s with m := { s.m with parsers := [(0, { builtin := [i] })] } }
    let o : LbOp := { op := 0x20, md := 0, ln := 0, d := 256, a := 257, b := 0, c := 0, imm := 0 }
    let tr (g : Nat) : Tensor := { key := 0, root := 0, desc := 2 ^ 19 + g * 2 ^ 128, base := 0, ext := [2] }
    u.m.builtinOf 0 o = some i ∧ s.m.builtinOf 0 o = none ∧ withDA u (fun d a => d.ext == a.ext && okWith (fuseGroup ([a] ++ [d])) any_) = true ∧ okWith (fuseGroup [tr 1, tr 2]) any_ = false := by
  decide +kernel

/-- A tensor whose last writer waits for a commit, and one whose writer has committed. -/
theorem wit_GraphControl_committed :
    let l : Launch := { lrec := 0, queue := 0, fofs := 0, open_ := [(1, 5)] }
    let h : Handle := { tensorOf 6 0x20000 [2] with last := some 1 }
    let s := onGraph [h, tensorOf 6 0x20000 [2]]
    let u : State := { s with m := { s.m with launches := [(1, some l)], sys := [(6, 0x90000)], mem := wordAt 0x90040 1 } }
    okWith (s.m.plain 0 someWalk 256) (fun t => s.m.lastCommitted t.root && !s.m.rootWritten t.root) = true ∧
    okWith (u.m.plain 0 someWalk 256) (fun t => t.fmt == 6 && !u.m.lastCommitted t.root && !u.m.rootWritten t.root) = true := by decide +kernel

/-- Block-scaled tensors as sources and destinations; a scatter that adds to one without scales; a header whose bytes do not fit. -/
theorem wit_GraphState_scaled :
    let scaled (fmt base n : Nat) : Handle := { tensorOf fmt base [n] with desc := (tensorOf fmt base [n]).desc + 0x28000 * 2 ^ 384 }
    let s := onGraph [scaled 4 0x20000 32, tensorOf 0 0x30000 [32], tensorOf 6 0x40000 [32], tensorOf 8 0x50000 [80], tensorOf 0 0x60000 [32]] (wordAt 0x50000 (2 ^ 4))
    let z : RVal := (.zero false, 0)
    withDAB s (fun d a b => d.scaled && decide (d.fmt ≤ 5) && b.fmt == 6 && ready s [a, b] [d] && okWith (s.m.readVals 0 d) any_ && okWith (s.m.readVals 0 a) any_ && okWith (s.m.readCodes 0 b) any_ &&
      okWith (s.m.writeVals 0 {} d (List.replicate 32 (z, 0))) any_ && okWith (s.m.writeVals 0 { satf := true } d ((List.replicate 32 z).map fun x => saturated a.ints d (x, 0))) any_) = true ∧
    okWith (s.m.target 0 someWalk 260) (fun d => !d.scaled && okWith (s.m.writeCodes 0 d (List.replicate 32 0) []) any_) = true ∧
    okWith (s.m.plain 0 someWalk 259) (fun a => a.fmt == 8 && decide (64 ≤ a.count) && okWith (s.m.tensorBytes 0 a) fun im => let h := leNat (im.take 32)
      withDA s fun d _ => h != d.header && decide (64 + d.imageBytes h ≤ a.count) && decide (a.count < 64 + d.imageBytes d.header)) = true := by decide +kernel

/-- A built-in operator whose header any rights meet; block-scaled and refused operands of `shard`; a `fuse` of a handle that is not transient. -/
theorem wit_MicrocodeWords_builtin :
    let e : Expansion := { someExp 256 257 with op := { (someExp 256 257).op with op := 0x02 }, image := { ident := 0, opc := 2, first := 0, words := 2, base := 0x100000 } }
    let s := onMicro e [tensorOf 0 0x20000 [4], tensorOf 0 0x30000 [4]]
    isMicro s e = true ∧ e.op.op.toNat < 0xC0 ∧ 0xC0 ≤ (someExp 256 257).op.op.toNat ∧ okWith (s.m.operand someWalk e 0) (fun t => !hTr t.desc && decide (t.ext.length ≤ (3 : BitVec 3).toNat)) = true ∧
    (1 : BitVec 2).toNat ≤ 1 ∧ 2 ≤ (2 : BitVec 2).toNat := by decide +kernel

/-- An image whose operators a Parser can load: a header of two words, a routine and an end. -/
theorem wit_ServiceCommands_loadable :
    let ws := [3 * 2 ^ 39 + 2 * 2 ^ 31, 6 * 2 ^ 60 + 2 ^ 50, 11 * 2 ^ 60]
    ws.length ≤ 8192 ∧ operatorRuns ws = [ws] ∧ badWord false ws = none ∧ 1 ≤ bits (ws.headD 0) 31 8 ∧ bits (ws.headD 0) 31 8 < 0xC0 := by decide +kernel

/-- A launch whose record is legal with one image and one region declared for its entry: bindings that start it, and one that `sbind` would refuse. -/
theorem wit_LaunchesAtWork_declared :
    let l : Launch := { lrec := 0x20000 + 0xF * 2 ^ 1024 + 2 ^ 1216 + 2 ^ 472 + 0x0C * 2 ^ 1239, queue := 0, cores := [0], coords := [(0, 0x50000000000)] }
    let m (r : List (Nat × Nat × Scope × Nat)) : Machine := { launches := [(1, some l)], decls := [(0x20000, { sobs := [(0x30000, 4)], regions := r })] }
    let ok := m [(0x40000, 128, .die, 0x30000)]
    let bad := m [(0x40001, 128, .die, 0x30000)]
    let start (m : Machine) : Res Machine := (m.dropReads l).startLaunch 1 l
    l.recordOk = true ∧ ({ l with lrec := l.lrec - 2 ^ 1216 } : Launch).recordOk = false ∧ l.bound = false ∧ isRcore ok (coreOf 0) = false ∧ ok.outranked 1 0 l = false ∧ ok.hungry l = true ∧ ok.asking (coreOf 0) = false ∧
    l.preempted = [] ∧ (ok.ctx 0).st = .free ∧ errWith (start bad) (fun e => match e with | .trap _ => true | .hold _ => false) = true ∧
    okWith (start ok) (fun m1 => (m1.object 0x30000).isSome && match m1.grant 1 (coreOf 0) with
      | some m2 => let r := (m2.setCtx 0 { launch := some 1 }).request 0
        (r.2.any fun p => !bit p.1.toNat 63) && (r.1.launch 1).isSome
      | none => false) = true := by decide +kernel

/-- A bound context with its fills and its coordinate, and without; a saved task that waits for the pool; a pre-empted `wait` whose conditions are told. -/
theorem wit_ContextEvents_more :
    let x : Ctx := { st := .bound, filled := true, tc := [(0, 5)] }
    let l : Launch := { someLaunch with lrec := 0x100000 * 2 ^ 320, preempted := [(2, 7)] }
    let m : Machine := { cores := [(0, { wants := [(3, 1)] })], ctxs := [(2, { st := .switched, hold := some (.stage 0 3), told := [1, 600] })], launches := [(1, some l)], mem := wordAt (0x100000 + 2 ^ 19 * 2 + 0x280 + 8 * 29) 0xF0 }
    x.filled = true ∧ x.tcreg 0 ≠ tcEmpty ∧ ({ x with tc := [(0, tcEmpty)] } : Ctx).tcreg 0 = tcEmpty ∧ l.nextSaved = some (2, 7) ∧ m.canResume 0 1 = false ∧
    ({ m with mem := [] } : Machine).canResume 0 1 = true ∧ (m.ctx 2).hold = some (.stage 0 3) ∧ ((m.ctx 2).told.filter fun k => k < 512) = [1] := by decide +kernel

/-- Privileged transfers of a context of the core that are ready, must wait, or fail; a transfer with a follow-on behind a retained command; no transfer at an index. -/
theorem wit_TransferEvents_privileged :
    let e : Nat := 2 * 2 ^ 64 + 2 ^ 68 + 2 ^ 75 + 4 * 2 ^ 128
    let t : Xfer := { someXfer with kind := .tld, reg := 1, mEnt := e, tEnt := e, desc := tileDesc 0 256 1 }
    let q (t : Xfer) (xs : List Xfer) : Machine := { ctxs := [(0, { tilesCtx with xfers := xs })], cores := [(0, { priv := [(0, t)] })] }
    let ran (t : Xfer) (f : Ran → Bool) : Bool := let m := q t []; (m.core 0).priv.zipIdx.find? (fun p => p.1.2.ch == 0) == some ((0, t), 0) && f (m.runXfer (privActor 0 0) { t with started := true })
    ran t (fun r => r.cause.isNone && !r.waits) = true ∧ ran { t with base := 2 ^ 63 } (fun r => r.cause.isSome) = true ∧
    (((q t [{ t with seq := 0 }]).owner 0).xfers ++ (q t []).privOf 0).all (fun u => !t.waitsFor u) = true ∧
    ((q t []).ctx 0).xfers[0]? = none ∧ (({ ctxs := [(0, { retained := [{ ctx := 0, kind := .mzero }] })] } : Machine).owner 0).retained ≠ [] := by decide +kernel

/-- A transfer whose element lies in another package without a route waits. -/
theorem wit_TransferEvents_waits :
    let e : Nat := 2 * 2 ^ 64 + 2 ^ 68 + 2 ^ 75 + 4 * 2 ^ 128
    let t : Xfer := { someXfer with kind := .tld, reg := 1, mEnt := e, tEnt := e, desc := tileDesc 0 256 1 }
    let leaf : Nat := 0x20 * 2 ^ 12 + 2 ^ 46 + 5 * 2 ^ 48 + 0x2E3
    let m : Machine := { limits := 2 ^ 1541, ctxs := [(0, { tilesCtx with xfers := [t], told := [5] })], cores := [(0, { tlb := [{ vpn := 0x20, page := 0x20000, leaf }] })] }
    let r := m.runXfer 0 t
    r.cause = none ∧ r.waits = true ∧ ((m.ctx 0).xfers[0]? = some t) ∧ (m.ctx 0).preempting = false ∧ ({ tilesCtx with async := [{ code := 0x35 }] } : Ctx).preempting = true := by decide +kernel

/-- Two stores of one home slice and of two; a coded line whose block is reserved; accesses of the host that reach memory of tier 0, of its own and of an expander, and that do not. -/
theorem wit_MemoryEvents_reached :
    let e : StoreEntry := { ctx := 0, key := 0x20000, bytes := [1] }
    let m : Machine := { sys := [(7, 0x80000)], cores := [(0, { path := [e, { e with key := 0x20600 }, { e with key := 0x20080 }] })], mem := natAt 0x80000 128 (2 ^ 63 + 8 * 2 ^ 8 + 6 * 2 ^ 48 + 0x100000 * 2 ^ 384 + 0x1000 * 2 ^ 320) }
    let reached (m : Machine) (a n : Nat) : Bool := (decide (a < 2 ^ 46) && m.locked && !m.expired && decide (a + n ≤ hbmSize)) || (decide (2 ^ 46 ≤ a) && a / 2 ^ 46 == (a + n - 1) / 2 ^ 46 && decide (a / 2 ^ 46 < 515))
    overlaps 0x20000 1 0x20600 1 = false ∧ homeSlice 0x20000 = homeSlice 0x20600 ∧ homeSlice 0x20000 ≠ homeSlice 0x20080 ∧
    reached { locked := true } 0x20000 8 = true ∧ reached {} 0x20000 8 = false ∧ reached {} (2 ^ 46 + 8) 8 = true ∧ reached {} (515 * 2 ^ 46) 8 = false ∧ reached {} (2 * 2 ^ 46 - 4) 8 = false ∧
    (m.core 0).path.length = 3 := by decide +kernel

/-- A group of one package at its two steps, with a late trigger and without one; a domain group that spans packages; a record that was stored to. -/
theorem wit_GroupEvents_steps :
    let m (x state : Nat) : Machine := { sys := [(6, 0x80000)], mem := natAt (0x80000 + 64 * x) 64 (state + 0x30000 * 2 ^ 256), objs := [(0x30000, objAt 4 0 2 2)], groups := [(0, { late := some (1, 2) })] }
    let w : Machine := { m 0 6 with watch := [(0x80000, 0), (0x80040, 0)] }
    (m 0 2).barKey 0 = some 0x30000 ∧ (m 0 2).spansOut 0 = false ∧ ((m 0 2).object 0x30000).any (fun o => objArr o == objExp o) = true ∧ grState ((m 0 2).groupRec 0) = 2 ∧ grState ((m 0 3).groupRec 0) = 3 ∧
    ((m 0 3).group 0).late = some (1, 2) ∧ ((m 1 3).group 1).late = none ∧ (m 0 1).memOk = true ∧ SMap.rising (m 0 1).groups = true ∧ grState ((m 0 4).groupRec 0) ∉ [1, 2, 3] ∧
    (w.watch.find? fun p => groupWord w p.1 && (p.1 - grb w) / 64 == 0) = some (0x80000, 0) ∧ grState (w.groupRec 0) = 6 ∧ w.members 0 = [] := by decide +kernel

/-- A domain group with another member package: none of its members here, so all of them have arrived, and one that has not. -/
theorem wit_GroupEvents_domain :
    let m : Machine := { sys := [(6, 0x80000), (9, 0x90000)], mem := natAt (0x80000 + 64 * 128) 64 (2 + 0x95000 * 2 ^ 64 + 2 ^ 185 + 0x30000 * 2 ^ 256) ++ [(0x90040, 0xFF), (0x95000, 5)], objs := [(0x30000, objAt 4 0 1 2)] }
    m.spansOut 128 = true ∧ m.barKey 128 = some 0x30000 ∧ grState (m.groupRec 128) = 2 ∧ m.members 128 = [] ∧ m.savedMembers 128 = [] := by decide +kernel

/-- The three states of the boot. -/
theorem wit_StepRuns_boot :
    State.reset.turn = .none ∧ State.reset.agenda = [] ∧ State.reset.m.boot = .rom ∧ ({ m := { boot := .halted } } : State).m.boot = .halted ∧ ({ m := { boot := .running } } : State).m.boot = .running ∧
    isEvent .hostPerst = true ∧ 0x10 ≤ (0x15 : Nat) := by decide +kernel

/-- Queue 0 at a `nop`, an unassigned opcode, code outside what is mapped, and the end of its code; die 0 at a word that is one and at one that is none. -/
theorem wit_StepRuns_units :
    let s (op : Nat) : State := onGraph [] [(0x11020, .ofNat 8 op)]
    let w : Walk := { someWalk with pkg := 2 ^ 63 }
    let read (op : Nat) (f : Nat → Bool) : Bool := okWith ((s op).m.parserRead 0 (someWalk.pkg + someWalk.coff + someWalk.pos) 16 2) fun bs => f (leNat bs)
    let e := someExp 0 0
    (s 0).turn = .graph 0 ∧ (s 0).m.walkOf 0 = some someWalk ∧ someWalk.pos + 16 ≤ someWalk.clen ∧ read 0 (fun n => (decodeBytecode n).isSome) = true ∧ read 0x0F (fun n => (decodeBytecode n).isNone) = true ∧
    errWith ((s 0).m.parserRead 0 (w.pkg + w.coff + w.pos) 16 2) any_ = true ∧ ({ w with pos := 0xF8 } : Walk).clen < 0xF8 + 16 ∧
    (onMicro e []).turn = .micro 0 ∧ ((onMicro e []).m.parser 0).exp = some e ∧ e.pos < e.image.words ∧ (decodeMicrocode (11 * 2 ^ 60)).isSome = true ∧ (decodeMicrocode (12 * 2 ^ 60)).isNone = true := by decide +kernel

/-- Context 0 at `nxt` tc1 (11 R265), with EOB, on a machine that has nothing else; at a PC that is no multiple of 4; and with a result for a register that its bundle names in flight. -/
def atCode (x : Ctx) (code : List Byte) : State := { m := { ctxs := [(0, { x with st := .running })], mem := code.zipIdx.filterMap fun p => if p.1 = 0 then none else some (0x10000 + p.2, p.1) }, turn := .bundle 0 }

theorem wit_StepRuns_bundle :
    let nxt : List Byte := [0xC4, 0x29, 0x00, 0x00]
    let add : List Byte := leBytes 8 (((encodeRaw (.sAdd 1 (.r0 2) (.r0 3))).map Raw.toNat).getD 0 + 4)
    let s := atCode { pc := 0x10000 } nxt
    let odd := atCode { pc := 0x10002 } nxt
    let late := atCode { pc := 0x10000, intl := [{ reg := 2, value := 5 }] } add
    let late2 := atCode { pc := 0x10000, intl := [{ reg := 9, value := 5 }] } add
    s.turn = .bundle 0 ∧ (s.m.ctx 0).due = none ∧ (s.m.ctx 0).filled = true ∧ (s.m.ctx 0).deferredNow = none ∧ (s.m.ctx 0).pc.toNat % 4 = 0 ∧ okWith (s.m.fetch 0) (fun r => r.2.length == 1) = true ∧
    okWith (s.m.fetchSyllable 0 (s.m.ctx 0) 0x10000) (fun r => r.2.eob == 1 && r.2.len ≤ 3 && (match decodeSyllable false 0 r.2 with | .ok i => i == .nxt 1 | .error _ => false)) = true ∧
    traps (odd.m.fetch 0) 0x0A = true ∧
    okWith (late.m.fetch 0) (fun r => (late.m.ctx 0).intl.any fun i => r.2.any fun y => namesResult y.ins i) = true ∧ okWith (late2.m.fetch 0) (fun r => (late2.m.ctx 0).intl.all fun i => r.2.all fun y => !namesResult y.ins i) = true ∧
    ((List.range 4).all fun f => !bit ((s.m.ctx 0).cr (0x44 + f)).toNat 63) = true ∧ okWith (s.m.fetchWord 0 0x10000) (fun r => okWith (r.1.fetchRest 0 0x10004 ((syllableBytes r.2 - 4) / 4)) any_) = true ∧
    okWith (s.m.translate (coreOf 0) 0x10000 .fetch) (fun r => !leafCAP r.2.leaf && damperAllows r.1 r.2.key && okWith (r.1.farCheck 0x10000 4 .fetch r.2.key) any_ && (r.1.core 0).path.isEmpty && r.1.staged.isEmpty) = true := by decide +kernel

/-- The meaning of that syllable at its place goes on, and the step with it; an event at the head of the agenda. -/
theorem wit_StepRuns_exec :
    let s := atCode { pc := 0x10000 } [0xC4, 0x29, 0x00, 0x00]
    nextWith (step s) (fun t => t.m.bun.len == 4 || t.turn == .none) = true ∧ nextWith (exec (.nxt 1) (on { launch := some 1 })) (fun _ => true) = true ∧ isEvent .hostPerst = true ∧
    nextWith (step { m := { expired := true }, agenda := [.hostPerst] }) (fun t => !t.m.expired && t.agenda.isEmpty) = true := by decide +kernel

/-- A syllable without EOB with one behind it, an unassigned opcode, and a slot out of order. -/
theorem wit_StepRuns_decode :
    let two : List Byte := [0xC0, 0x29, 0x00, 0x00] ++ leBytes 8 (((encodeRaw (.mzero 1)).map Raw.toNat).getD 0 + 4)
    let s := atCode { pc := 0x10000 } two
    okWith (s.m.fetchSyllable 0 (s.m.ctx 0) 0x10000) (fun r => r.2.eob == 0 && okWith (r.1.fetchBundle 0 (s.m.ctx 0) 1 (4 * r.2.len) (r.2.slot + 1)) (fun _ => true)) = true ∧
    okWith (s.m.fetchSyllable 0 (s.m.ctx 0) 0x10000) (fun r => match decodeSyllable false (r.2.slot + 1) r.2 with
      | .ok _ => false
      | .error f => f.cause == 2) = true := by decide +kernel

/-- A well-formed instruction of each slot's form at the ends of its fields, in the mode that may hold it, and the encodings' ends of 13 R295. -/
theorem wit_TileWordsRoundTrip :
    let at_ (i : Instr) (svc : Bool) (eob : Nat) : Bool := wellFormed i && (match encodeRaw i with
      | some r => (modeRefused svc { r with eob }).isNone
      | none => false)
    let ok (i : Instr) (svc : Bool) : Bool := at_ i svc 0 && at_ i svc 1
    ok (.sAdd 63 (.r0 63) (.l32 0xFFFFFFFF)) false = true ∧ ok (.sAdd 0 (.l6 0x20) (.k 1023)) true = true ∧ ok (.bc .none (.r0 63) (.r0 0) 0xFFFFFFFC) false = true ∧ at_ .rts true 1 = true ∧
    ok (.mand 0xFF 15 15 15) false = true ∧ ok (.mzero 7) false = true ∧ ok (.trel 63) false = true := by decide +kernel

theorem wit_GraphWordsRoundTrip :
    (0x76, Instr.lbNotify) ∈ lbForms ∧ 0xC0 ≤ (0xC0 : BitVec 8).toNat ∧ 0xC0 ≤ (0xFF : BitVec 8).toNat ∧ (decodeBytecode (2 ^ 128 - 1)).isSome = true ∧ 2 ^ 128 - 1 < 2 ^ 128 ∧
    (∀ p < 4, ∀ q < 4, p < q → bits (0xE4 : BitVec 8).toNat (2 * p) 2 ≠ bits (0xE4 : BitVec 8).toNat (2 * q) 2) ∧ 1 ≤ (1024 : BitVec 11).toNat ∧ (1024 : BitVec 11).toNat ≤ 1024 ∧
    2 ≤ (1022 : BitVec 10).toNat ∧ (1022 : BitVec 10).toNat ≤ 1022 ∧ (12 : BitVec 4).toNat ≤ 12 ∧ (0xFFFFFFFC : BitVec 32).toNat % 4 = 0 ∧ 960 ≤ (1023 : BitVec 10).toNat := by
  refine ⟨?_, ?_, ?_, ?_, ?_, ?_, ?_, ?_, ?_, ?_, ?_, ?_, ?_⟩
  · simp [lbForms]
  all_goals decide +kernel

/-- The invariant holds right after reset, in a state with a bundle's turn and one with an event to come. -/
theorem wit_StepKeepsInvariant : State.reset.snap = none ∧ State.reset.turn.ok = true ∧ State.reset.agendaOk = true ∧ (Turn.bundle 383).ok = true ∧ (Turn.graph 127).ok = true ∧ (Turn.micro 7).ok = true ∧
    ({ agenda := [.hostPerst] } : State).agendaOk = true := by decide +kernel

theorem wit_SyllablesKeepMemoryCanonical :
    let s := on { s := [(1, 0x20000), (2, 5)] }
    encodeRaw (.st 3 2 1 (.r0 0)) ≠ none ∧ s.m.memOk = true ∧ s.start.memOk = true ∧ nextWith (exec (.st 3 2 1 (.r0 0)) s) (fun _ => true) = true := by decide +kernel

theorem wit_ResultFrames : let s := on { s := [(1, 5)] }
    SMap.rising s.m.ctxs = true ∧ (s.m.ctx 1).st = .free ∧ s.c ≠ 1 := by decide

/-- 21 R411; 10 R240: the context that the boot ROM binds may issue at once, from ENTRY, with no coordinate still to land. -/
theorem test_rom_context_ready : (romCtx 0x20040).st = .ready ∧ (romCtx 0x20040).canIssue = true ∧ (romCtx 0x20040).pc = 0x20040 ∧ (romCtx 0x20040).nxt = [] ∧ (romCtx 0x20040).tcreg 0 = 0 := by decide +kernel

/-- The Parser of a die expands an operator of queue 0: its turn is that of queue 0, and not of queue 1. -/
theorem wit_StepRuns_turn :
    let s : State := { m := { parsers := [(0, { exp := some (someExp 0 0) })] }, agenda := [.operatorIssue 0] }
    s.turn = .none ∧ s.agenda = [.operatorIssue 0] ∧ isEvent (.operatorIssue 0) = true ∧ s.m.parserTurn 0 = true ∧ s.m.parserTurn 1 = false := by decide +kernel

end Sys2Proof.Tests
end

section
/-! SUPPORT. What the checks and binds of a syllable's meaning answer, and what a syllable that checks the whole of its operands reads. -/

namespace Sys2Proof.Machine

/-! ### Steps of a meaning -/

@[simp] theorem ok_bind {ε α β : Type} (a : α) (f : α → Except ε β) : (Except.ok a >>= f) = f a := rfl
@[simp] theorem error_bind {ε α β : Type} (e : ε) (f : α → Except ε β) : (Except.error e >>= f) = .error e := rfl

/-- A meaning whose first part has a value goes on with it. -/
theorem bind_eq_of_ok {ε α β : Type} {x : Except ε α} {a : α} {f : α → Except ε β} {r : Except ε β} (h : x = .ok a) (e : f a = r) : (x >>= f) = r := by
  rw [h]; exact e

/-- A meaning that ends well has a value for its first part. -/
theorem bind_eq_ok {ε α β : Type} {x : Except ε α} {f : α → Except ε β} {r : β} : (x >>= f) = .ok r ↔ ∃ a, x = .ok a ∧ f a = .ok r := by
  cases x with
  | ok a => simp
  | error e => simp

theorem check_pass {ok : Bool} {code i0 : Nat} {i1 i2 : Option Nat} (h : ok = true) : check ok code i0 i1 i2 = .ok () := if_pos h
theorem check_fail {ok : Bool} {code i0 : Nat} {i1 i2 : Option Nat} (h : ok = false) :
    check ok code i0 i1 i2 = .error (.trap { code, i0, i1, i2 }) := if_neg (by simp [h])

@[simp] theorem env_m0 (s : State) : s.env.m0 = s.start := rfl
@[simp] theorem env_c (s : State) : s.env.c = s.c := rfl
@[simp] theorem env_x (s : State) : s.env.x = s.x := rfl
@[simp] theorem withM_self (s : State) : s.withM s.m = s := rfl

end Sys2Proof.Machine
end

section
/-! SUPPORT. Accumulators read by `vacc` and `mq` (05 R137; 06 R169), and the start and completion of matrix commands (07 R187-R191). -/

namespace Sys2Proof.Machine

/-! ### Readers of accumulators -/

section
variable {s : State} {acc b : Nat}

theorem accCheck_ok (hb : b ≤ 7) (ha : s.x.holdsAcc acc = true) : accCheck s.env acc b = .ok () := by
  simp [accCheck, check_pass, hb, ha]

theorem accCheck_block (hb : 7 < b) : accCheck s.env acc b = .error (.trap { code := 0x14, i0 := b }) := by
  simp [accCheck, check_fail, hb]

theorem accCheck_notHeld (hb : b ≤ 7) (ha : s.x.holdsAcc acc = false) : accCheck s.env acc b = .error (.trap { code := 0x18, i0 := acc }) := by
  simp [accCheck, check_pass, check_fail, hb, ha]

theorem accIdle_ok (h : s.start.accWriting s.c acc = false) : accIdle s.env acc = .ok () := by simp [accIdle, h]

theorem accIdle_busy (h : s.start.accWriting s.c acc = true) : accIdle s.env acc = .error (.hold .busy) := by simp [accIdle, h]

end

theorem exec_vacc (sl : VSlot) (o : VOp) (s : State) : exec (.vacc sl o) s = execVacc sl o s := rfl

/-- `vacc` in every case: nothing with CE = 0, the causes of its two checks in their order, the hold, and the rows' words (05 R137). -/
theorem execVacc_cases {s : State} (g : s.going) (r : s.room) (sl : VSlot) (o : VOp) :
    let acc := (srcReg o.a).toNat % 8
    let b := (s.x.src o.b).toNat
    (o.ce = 0 → exec (.vacc sl o) s = .next s) ∧
    (o.ce ≠ 0 → 7 < b → exec (.vacc sl o) s = .next (s.trapped { code := 0x14, i0 := b })) ∧
    (o.ce ≠ 0 → b ≤ 7 → s.x.holdsAcc acc = false → exec (.vacc sl o) s = .next (s.trapped { code := 0x18, i0 := acc })) ∧
    (o.ce ≠ 0 → b ≤ 7 → s.x.holdsAcc acc = true → s.start.accWriting s.c acc = true → exec (.vacc sl o) s = .next (s.heldBy .busy)) ∧
    (o.ce ≠ 0 → b ≤ 7 → s.x.holdsAcc acc = true → s.start.accWriting s.c acc = false →
      exec (.vacc sl o) s = .next (s.wordsOut s.m o 4 ((s.x.lanes o.ms o.ce).map fun g =>
        (g, s.x.accv acc (4 * b + g / 32) (16 * (g / 16 % 2) + g % 16))))) := by
  rw [exec_vacc]
  refine ⟨fun ce => ?_, fun ce hb => ?_, fun ce hb ha => ?_, fun ce hb ha hw => ?_, fun ce hb ha hw => ?_⟩
  · exact syllable_ok g (if_pos ce)
  · exact syllable_trap g ((if_neg ce).trans (by simp [accCheck_block hb]))
  · exact syllable_trap g ((if_neg ce).trans (by simp [accCheck_notHeld hb ha]))
  · exact syllable_hold g ((if_neg ce).trans (by simp [accCheck_ok hb ha, accIdle_busy hw]))
  · rw [← withM_wordsOut]
    exact syllable_ok g ((if_neg ce).trans (by simp [accCheck_ok hb ha, accIdle_ok hw, rawResult_ok (.inr r), Nat.div_div_eq_div_mul]))

/-- The triple that `mq` makes of lane `g`: of a row of the row block, or of a column (06 R169). -/
def mqTriple (x : Ctx) (acc : Nat) (blk : MqBlock) (g : Nat) : Triple × Nat := accTriple (match blk with
  | .row b => (List.range 32).map fun j => x.accv acc (4 * (x.src b).toNat + g / 32) j
  | .col => (List.range 32).map fun i => x.accv acc i (16 * (g / 16 % 2) + g % 16))

/-- That triple merged with the one that the lane held (06 R168). -/
def mqMerged (x : Ctx) (d acc : Nat) (blk : MqBlock) (g : Nat) : Triple × Nat :=
  let r := (x.qlane d g).merge (mqTriple x acc blk g).1
  (r.1, (mqTriple x acc blk g).2 ||| r.2)

theorem exec_mq (d : BitVec 4) (a : BitVec 3) (merge : Bool) (blk : MqBlock) (ms : BitVec 4) (ce : BitVec 8) (s : State) :
    exec (.mq d a merge blk ms ce) s = execMq d a merge blk ms ce s := rfl

/-- `mq` of an idle accumulator, with the lanes' triples merged with those they held or not (06 R168, R169). -/
theorem execMq_ok {s : State} (g : s.going) (r : s.room) {d : BitVec 4} {a : BitVec 3} {merge : Bool} {blk : MqBlock} {ms : BitVec 4} {ce : BitVec 8} (hce : ce ≠ 0)
    (ha : s.x.holdsAcc a.toNat = true) (hw : s.start.accWriting s.c a.toNat = false) (hb : ∀ b, blk = .row b → (s.x.src b).toNat ≤ 7)
    (hm : merge = true → ∀ g ∈ s.x.lanes ms ce, (s.x.qlane d.toNat g).malformed = false) :
    let rs := (s.x.lanes ms ce).map fun g => (g, if merge then mqMerged s.x d.toNat a.toNat blk g else mqTriple s.x a.toNat blk g)
    exec (.mq d a merge blk ms ce) s = .next (s.withCtx (s.cur.issue
      { off := 40, file := .q, reg := d.toNat, ce := ce.toNat, fl := rs.foldl (fun f p => f ||| p.2.2) 0, pc := s.m.bun.pc, en := 0,
        writes := rs.map fun p => (128 * d.toNat + p.1, p.2.1.toNat) })) := by
  rw [exec_mq]
  refine syllable_ok g (bind_eq_of_ok (accCheck_ok ?_ ha) (bind_eq_of_ok (forLanes_ok ?_) (bind_eq_of_ok (accIdle_ok hw) ((if_neg hce).trans (push_quiet (.inr r))))))
  · cases blk with
    | row b => exact hb b rfl
    | col => exact Nat.zero_le _
  · intro g' hg
    cases merge with
    | false => cases blk <;> simp [mqTriple, Nat.div_div_eq_div_mul]
    | true => cases blk <;> simp [mqMerged, mqTriple, readTriple, hm rfl g' hg, Nat.div_div_eq_div_mul]

/-! ### The matrix queue -/

section
variable {m m' : Machine} {n : Nat} {q q' : MCmd} {rest : List MCmd}

theorem startCmd_ok {m₁ : Machine} {o : MOut} (hr : (m.core n).mrun = none) (hq : (m.core n).mq = q :: rest) (hg : m.gatherAll q = (m₁, q', none))
    (hf : m₁.fetchCmd q' = (m', .ok o)) : m.startCmd n = m'.onCore n fun k => { k with mq := rest, mrun := some (q', o) } := by
  simp only [Machine.startCmd, hr, hq, hg, hf]

theorem startCmd_error {m₁ : Machine} {c : Cause} (hr : (m.core n).mrun = none) (hq : (m.core n).mq = q :: rest) (hg : m.gatherAll q = (m₁, q', none))
    (hf : m₁.fetchCmd q' = (m', .error c)) : m.startCmd n = m'.retain n q' rest c := by
  simp only [Machine.startCmd, hr, hq, hg, hf]

theorem startCmd_trap {t : Cause} (hr : (m.core n).mrun = none) (hq : (m.core n).mq = q :: rest) (hg : m.gatherAll q = (m', q', some (.trap t))) :
    m.startCmd n = m'.retain n q' rest { t with kind := 1, i1 := q'.pc, i2 := q'.kind.op } := by
  simp only [Machine.startCmd, hr, hq, hg]

theorem startCmd_hold {h : Hold} (hr : (m.core n).mrun = none) (hq : (m.core n).mq = q :: rest) (hg : m.gatherAll q = (m', q', some (.hold h))) :
    m.startCmd n = (m'.onCore n fun k => { k with mq := q' :: rest }).lostRoute q'.ctx h := by
  simp only [Machine.startCmd, hr, hq, hg]

theorem startCmd_empty (hq : (m.core n).mq = []) : m.startCmd n = m := by
  cases hr : (m.core n).mrun <;> simp only [Machine.startCmd, hr, hq]

/-- The causes of an operand fetch are those of R191: none of them is the damper's. -/
theorem fetchCmd_error_code {c : Cause} (h : m.fetchCmd q = (m', .error c)) : c.code ≠ 0x3B := by
  unfold Machine.fetchCmd at h
  cases hk : q.kind with
  | mma =>
    simp only [hk] at h
    repeat' split at h
    all_goals cases h <;> simp
  | _ => simp [hk] at h

theorem completeCmd_running {o : MOut} (hr : (m.core n).mrun = some (q, o)) :
    m.completeCmd n = (m.setCore n (o.pad.foldl (fun k p => k.setPadByte (p.1 / 2 ^ 21) (p.1 % 2 ^ 21) p.2)
      { m.core n with mrun := none, latch := (match o.lat with | some (l, v) => SMap.set {} (m.core n).latch l v | none => (m.core n).latch) })).onCtx q.ctx fun x =>
        ({ x with acc := SMap.setAll 0 x.acc o.acc }).orFlg o.fl := by
  simp only [Machine.completeCmd, hr]
  rfl

end

theorem retain_kept (m : Machine) (n : Nat) (q : MCmd) (rest : List MCmd) {k : Cause} (h : k.code ≠ 0x3B) :
    m.retain n q rest k = (m.onCore n fun c => { c with mq := rest.filter fun r => r.ctx != q.ctx }).onCtx q.ctx fun x =>
      { x with retained := x.retained ++ q :: rest.filter fun r => r.ctx == q.ctx, deferred := x.deferred ++ [k] } := if_neg h

theorem retain_passed (m : Machine) (n : Nat) (q : MCmd) (rest : List MCmd) {k : Cause} (h : k.code = 0x3B) :
    m.retain n q rest k = (m.onCore n fun c => { c with mq := rest }).onCtx q.ctx fun x => { x with deferred := x.deferred ++ [k] } := if_pos h

theorem exec_matrixCmdStart {s : State} {n : Nat} {m : Machine} (h : s.m.startCmd n = m) : exec (.matrixCmdStart n) s = .next (s.withM m) := h ▸ rfl
theorem exec_matrixCmdComplete {s : State} {n : Nat} {m : Machine} (h : s.m.completeCmd n = m) : exec (.matrixCmdComplete n) s = .next (s.withM m) := h ▸ rfl

/-- Settles O24: the readers of accumulators by the checks in their order, the matrix queue by what the fetch of its next command answers. -/
theorem accumulatorReadsAndMatrixEvents : Obligations.AccumulatorReadsAndMatrixEvents := by
  unfold Obligations.AccumulatorReadsAndMatrixEvents
  refine ⟨fun s g r => ⟨execVacc_cases g r, ?_⟩, ?_⟩
  · intro d a blk ms ce hce ha hw hb T out
    have hT : ∀ g, T g = mqTriple s.x a.toNat blk g := fun g => by cases blk <;> rfl
    refine ⟨?_, fun hm => ?_⟩
    · rw [execMq_ok g r hce ha hw hb (by simp)]
      simp only [out, hT, Bool.false_eq_true, if_false]
    · rw [execMq_ok g r hce ha hw hb fun _ => hm]
      simp only [out, hT, mqMerged, if_true]
  · intro s n q rest k
    refine ⟨fun hr hq => ⟨?_, ?_, ?_, ?_⟩, fun h => if_neg h, ?_, ?_, ?_, ?_⟩
    · exact fun m q' m' o hg hf => exec_matrixCmdStart (startCmd_ok hr hq hg hf)
    · exact fun m q' m' c hg hf => exec_matrixCmdStart ((startCmd_error hr hq hg hf).trans (retain_kept _ _ _ _ (fetchCmd_error_code hf)))
    · exact fun m q' t hg => ⟨fun h => exec_matrixCmdStart ((startCmd_trap hr hq hg).trans (retain_kept _ _ _ _ h)),
        fun h => exec_matrixCmdStart ((startCmd_trap hr hq hg).trans (retain_passed _ _ _ _ h))⟩
    · exact fun m q' h hg => exec_matrixCmdStart (startCmd_hold hr hq hg)
    · exact fun hq => exec_matrixCmdStart (startCmd_empty hq)
    · exact fun o hr => exec_matrixCmdComplete (completeCmd_running hr)
    · intro hk
      simp only [Machine.fetchCmd, hk]
    · intro row pad hk
      simp only [Machine.fetchCmd, hk, row, pad]

end Sys2Proof.Machine
end

section
/-! SUPPORT. Taking a cause: the frame's words (10 R249, R250), the trap registers (03 R77), and the context that enters service code (10 R245, R253). -/

namespace Sys2Proof.Machine

/-! ### Words in bytes -/

@[simp] theorem length_leBytes (n x : Nat) : (leBytes n x).length = n := by
  induction n generalizing x with
  | zero => rfl
  | succ n ih => simp [leBytes, ih]

theorem leNat_leBytes (n x : Nat) : leNat (leBytes n x) = x % 256 ^ n := by
  induction n generalizing x with
  | zero => simp [leBytes, leNat, Nat.mod_one]
  | succ n ih => simp [leBytes, leNat, ih, Nat.pow_succ', Nat.mod_mul]

theorem length_flatMap_leBytes (n : Nat) (ws : List Nat) : (ws.flatMap (leBytes n)).length = n * ws.length := by
  induction ws with
  | nil => rfl
  | cons w ws ih => rw [List.flatMap_cons, List.length_append, length_leBytes, ih, List.length_cons, Nat.mul_succ, Nat.add_comm]

/-- A word read where a list of words stands in bytes. -/
theorem leNat_word_of_flatMap (ws : List Nat) (tail : List Byte) {i : Nat} (h : i < ws.length) :
    leNat (((ws.flatMap (leBytes 8) ++ tail).drop (8 * i)).take 8) = ws[i] % 2 ^ 64 := by
  induction ws generalizing i with
  | nil => simp at h
  | cons w ws ih =>
    cases i with
    | zero => simp [leNat_leBytes]
    | succ i =>
      have e : ((w :: ws).flatMap (leBytes 8) ++ tail).drop (8 * (i + 1)) = (ws.flatMap (leBytes 8) ++ tail).drop (8 * i) := by
        simp [List.drop_append, Nat.mul_add]
      rw [e, ih (by simpa using h)]
      rfl

/-! ### The frame -/

/-- The words of a frame before its replay entries: the fault record, the state record, SVCSTACK at s0's place, and s1-s63 (10 R249, R250). -/
def frameWords (x : Ctx) (cause : Nat) (info : List Nat) (tpc size : Nat) : List Nat :=
  [cause, tpc] ++ info ++ [size, frameState x, x.fpc.toNat, x.fmt.toNat, 0, 0, 0, 0, 0, 0, (x.cr 0x17).toNat] ++
    (List.range 63).map fun i => (x.sreg (.ofNat 6 (i + 1))).toNat

theorem frameBytes_eq (x : Ctx) (cause : Nat) (info : List Nat) (tpc size : Nat) :
    frameBytes x cause info tpc size = (frameWords x cause info tpc size).flatMap (leBytes 8) ++ (sortPend x.pend).flatMap replayEntry := by
  simp only [frameBytes, frameWords, List.flatMap_append, List.flatMap_map]

theorem length_frameWords (x : Ctx) (cause : Nat) {info : List Nat} (tpc size : Nat) (h : info.length = 4) : (frameWords x cause info tpc size).length = 80 := by
  simp [frameWords, h]

/-- The word of a frame at a multiple of 8. -/
theorem frameBytes_word (x : Ctx) (cause : Nat) {info : List Nat} (tpc size : Nat) {i v : Nat}
    (e : (frameWords x cause info tpc size)[i]? = some v) : leNat (((frameBytes x cause info tpc size).drop (8 * i)).take 8) = v % 2 ^ 64 := by
  obtain ⟨lt, rfl⟩ := List.getElem?_eq_some_iff.1 e
  rw [frameBytes_eq]
  exact leNat_word_of_flatMap _ _ lt

/-- Scalar register i stands at byte 0x80 + 8 i of the frame (10 R249). -/
theorem frameWords_scalar (x : Ctx) (cause : Nat) {info : List Nat} (tpc size : Nat) (h : info.length = 4) {i : Reg} (ne : i ≠ 0) :
    (frameWords x cause info tpc size)[16 + i.toNat]? = some (x.sreg i).toNat := by
  have pos : 0 < i.toNat := by bv_omega
  have e : (i.toNat - 1) + 1 = i.toNat := by omega
  have lt : i.toNat - 1 < 63 := by omega
  unfold frameWords
  rw [List.getElem?_append_right (by simp [h]; omega)]
  simp [h, show 16 + i.toNat - 17 = i.toNat - 1 by omega, lt, e]

theorem frameBytes_words (x : Ctx) (cause : Nat) (info : List Nat) (pc size : Nat) (h : info.length = 4) :
     let bs := frameBytes x cause info pc size
     let w (o : Nat) : Nat := leNat ((bs.drop o).take 8)
     (x.pend = [] → bs.length = 0x280) ∧
     w 0x00 = cause % 2 ^ 64 ∧ w 0x08 = pc % 2 ^ 64 ∧ (∀ j, j < 4 → w (0x10 + 8 * j) = info.getD j 0 % 2 ^ 64) ∧
     w 0x30 = size % 2 ^ 64 ∧ w 0x80 = (x.cr 0x17).toNat ∧ ∀ i : Reg, i ≠ 0 → w (0x80 + 8 * i.toNat) = (x.sreg i).toNat := by
  intro bs w
  have at_ : ∀ {i v : Nat}, (frameWords x cause info pc size)[i]? = some v → w (8 * i) = v % 2 ^ 64 := frameBytes_word x cause pc size
  obtain ⟨a, b, c, d, rfl⟩ : ∃ a b c d, info = [a, b, c, d] := by
    match info, h with
    | [a, b, c, d], _ => exact ⟨a, b, c, d, rfl⟩
  refine ⟨fun hp => ?_, at_ (i := 0) rfl, at_ (i := 1) rfl, fun j hj => ?_, at_ (i := 6) rfl, ?_, fun i hi => ?_⟩
  · have none_ : (sortPend x.pend).flatMap replayEntry = [] := by rw [hp]; rfl
    show (frameBytes x cause [a, b, c, d] pc size).length = 0x280
    rw [frameBytes_eq, none_, List.append_nil, length_flatMap_leBytes, length_frameWords x cause pc size h]
  · rw [show 0x10 + 8 * j = 8 * (2 + j) by omega]
    refine at_ ?_
    match j, hj with
    | 0, _ => rfl
    | 1, _ => rfl
    | 2, _ => rfl
    | 3, _ => rfl
  · rw [show 0x80 = 8 * 16 from rfl, at_ (i := 16) (v := (x.cr 0x17).toNat) rfl]
    exact Nat.mod_eq_of_lt (BitVec.isLt _)
  · rw [show 0x80 + 8 * i.toNat = 8 * (16 + i.toNat) by omega, at_ (frameWords_scalar x cause pc size h hi)]
    exact Nat.mod_eq_of_lt (BitVec.isLt _)

/-! ### The trap registers -/

theorem Ctx.setCr_rising {x : Ctx} (h : SMap.rising x.csr = true) (n : Nat) (v : Word) : SMap.rising (x.setCr n v).csr = true := SMap.set_rising n v h

theorem Ctx.cr_setCr {x : Ctx} (h : SMap.rising x.csr = true) (n j : Nat) (v : Word) : (x.setCr n v).cr j = if j = n then v else x.cr j := by
  by_cases e : j = n
  · rw [if_pos e, e]; exact x.cr_setCr_same n v h
  · rw [if_neg e]; exact x.cr_setCr_other n j v h e

/-- A control register after several writes reads as the last one to it. -/
theorem Ctx.cr_setCrs {x : Ctx} (h : SMap.rising x.csr = true) (ws : List (Nat × Word)) (j : Nat) :
    (ws.foldl (fun (x : Ctx) w => x.setCr w.1 w.2) x).cr j = ws.foldl (fun v w => if j = w.1 then w.2 else v) (x.cr j) := by
  induction ws generalizing x with
  | nil => rfl
  | cons w ws ih => rw [List.foldl_cons, ih (Ctx.setCr_rising h _ _), Ctx.cr_setCr h, List.foldl_cons]

/-- TRAPCAUSE, TRAPPC, SVCSTACK and TRAPINFO0-3 set, in the order in which a cause sets them (10 R249). -/
def Ctx.setTrap (x : Ctx) (cause : Nat) (pc : Word) (base : Nat) (info : List Nat) : Ctx :=
  info.zipIdx.foldl (fun (x : Ctx) p => x.setCr (0x11 + p.2) (.ofNat 64 p.1)) (((x.setCr 0x10 (.ofNat 64 cause)).setCr 0x15 pc).setCr 0x17 (.ofNat 64 base))

/-- Only the control registers change. -/
theorem Ctx.setTrap_eq (x : Ctx) (cause : Nat) (pc : Word) (base : Nat) (info : List Nat) : ∃ r, x.setTrap cause pc base info = { x with csr := r } := by
  unfold Ctx.setTrap
  suffices H : ∀ (ps : List (Nat × Nat)) (y : Ctx), (∃ r, y = { x with csr := r }) →
      ∃ r, ps.foldl (fun (x : Ctx) p => x.setCr (0x11 + p.2) (.ofNat 64 p.1)) y = { x with csr := r } from H _ _ ⟨_, rfl⟩
  intro ps
  induction ps with
  | nil => exact fun _ h => h
  | cons p ps ih =>
    rintro y ⟨r, rfl⟩
    exact ih _ ⟨_, rfl⟩

/-- What the control registers read once a cause has set them. -/
theorem Ctx.setTrap_cr {x : Ctx} (h : SMap.rising x.csr = true) (cause : Nat) (pc : Word) (base : Nat) {info : List Nat} (len : info.length = 4) :
    let y := x.setTrap cause pc base info
    y.cr 0x10 = .ofNat 64 cause ∧ y.cr 0x15 = pc ∧ (∀ j, j < 4 → y.cr (0x11 + j) = .ofNat 64 (info.getD j 0)) ∧ y.cr 0x17 = .ofNat 64 base ∧
      ∀ n, n ∉ [0x10, 0x11, 0x12, 0x13, 0x14, 0x15, 0x17] → y.cr n = x.cr n := by
  obtain ⟨a, b, c, d, rfl⟩ : ∃ a b c d, info = [a, b, c, d] := by
    match info, len with
    | [a, b, c, d], _ => exact ⟨a, b, c, d, rfl⟩
  have read : ∀ n, (x.setTrap cause pc base [a, b, c, d]).cr n =
      if n = 0x14 then .ofNat 64 d else if n = 0x13 then .ofNat 64 c else if n = 0x12 then .ofNat 64 b else if n = 0x11 then .ofNat 64 a
      else if n = 0x17 then .ofNat 64 base else if n = 0x15 then pc else if n = 0x10 then .ofNat 64 cause else x.cr n := fun n => by
    exact Ctx.cr_setCrs h [(0x10, .ofNat 64 cause), (0x15, pc), (0x17, .ofNat 64 base), (0x11, .ofNat 64 a), (0x12, .ofNat 64 b), (0x13, .ofNat 64 c), (0x14, .ofNat 64 d)] n
  refine ⟨read _, read _, fun j hj => ?_, read _, fun n hn => ?_⟩
  · rw [read]
    match j, hj with
    | 0, _ => rfl
    | 1, _ => rfl
    | 2, _ => rfl
    | 3, _ => rfl
  · simp only [List.mem_cons, List.not_mem_nil, or_false, not_or] at hn
    simp [read, hn]

theorem trapInfo_length (m : Machine) (k : Cause) : (m.trapInfo k).length = 4 := rfl

/-! ### The context in service code -/

@[simp] theorem discard_ctx (m : Machine) (n c : Nat) (k : Cause) : (m.discard n k).ctx c = m.ctx c := by
  unfold Machine.discard
  repeat' split
  all_goals rfl

/-- The machine in which a cause is taken: what the TLBs held for a refused address, the context's request of the pool, and an expander's failure are gone. -/
def Machine.beforeTrap (m : Machine) (c : Nat) (k : Cause) : Machine :=
  (m.discard (coreOf c) k).onCore (coreOf c) fun q => { q with wants := q.wants.filter (fun p => p.1 != c), cxlBad := q.cxlBad && k.code != 0x31 }

@[simp] theorem beforeTrap_ctx (m : Machine) (c j : Nat) (k : Cause) : (m.beforeTrap c k).ctx j = m.ctx j := discard_ctx ..

/-- The bytes that a frame of the context takes: multiples of 128 (10 R249). -/
def Ctx.frameSize (x : Ctx) : Nat := roundUp (0x280 + (x.pend.map fun p => (replayEntry p).length).sum) 128

def Ctx.frameBase (x : Ctx) : Nat := wrap 64 (((x.cr 0x17).toNat : Int) - x.frameSize)

/-- The frame written below SVCSTACK, none where a page of it is not pinned (10 R249, R253). -/
def Machine.trapFrame (m : Machine) (c : Nat) (x : Ctx) (k : Cause) (pc : Word) : Option Machine :=
  { m with fresh := m.fresh + 4 }.writePinned (coreOf c) x.frameBase (frameBytes x k.word (m.trapInfo k) pc.toNat x.frameSize) 40

/-- The context as service code finds it (10 R245, R249). -/
def Ctx.inService (x : Ctx) (k : Cause) (pc : Word) (info : List Nat) : Ctx :=
  let y := x.setTrap k.word pc x.frameBase info
  { y with pend := [], frames := (sortPend x.pend).map (·.pc) :: x.frames, depth := x.depth + 1, st := .inService, hold := none,
           ret := x.st = .retired, pc := x.cr 0x16, seen := none, asked := none, waitHeld := 0, lq := y.lq.map LqEntry.saved }

theorem takeCause_eq (m : Machine) (c : Nat) (k : Cause) (pc : Word) :
    let x := (m.ctx c).landInterlocks
    let m0 := m.beforeTrap c k
    m.takeCause c k pc = if 8 ≤ x.depth ∨ (x.cr 0x17).toNat % 128 ≠ 0 then m0.setCtx c x.kill
      else match m0.trapFrame c x k pc with
        | none => m0.setCtx c x.kill
        | some m' => m'.setCtx c (x.inService k pc (m0.trapInfo k)) := by
  rw [← beforeTrap_ctx m c c k]
  rfl

section
variable {m m' : Machine} {c : Nat} {k : Cause} {pc : Word}

theorem takeCause_kills (h : 8 ≤ (m.ctx c).landInterlocks.depth ∨ ((m.ctx c).landInterlocks.cr 0x17).toNat % 128 ≠ 0 ∨
      (m.beforeTrap c k).trapFrame c (m.ctx c).landInterlocks k pc = none) :
    m.takeCause c k pc = (m.beforeTrap c k).setCtx c (m.ctx c).landInterlocks.kill := by
  rw [takeCause_eq]
  by_cases hs : 8 ≤ (m.ctx c).landInterlocks.depth ∨ ((m.ctx c).landInterlocks.cr 0x17).toNat % 128 ≠ 0
  · exact if_pos hs
  · have hf : (m.beforeTrap c k).trapFrame c (m.ctx c).landInterlocks k pc = none := (or_assoc.2 h).resolve_left hs
    simp only [if_neg hs, hf]

theorem takeCause_enters (hd : (m.ctx c).landInterlocks.depth < 8) (hs : ((m.ctx c).landInterlocks.cr 0x17).toNat % 128 = 0)
    (hf : (m.beforeTrap c k).trapFrame c (m.ctx c).landInterlocks k pc = some m') :
    m.takeCause c k pc = m'.setCtx c ((m.ctx c).landInterlocks.inService k pc ((m.beforeTrap c k).trapInfo k)) := by
  rw [takeCause_eq, if_neg (by omega)]
  simp only [hf]

end

/-- Entering service code leaves the registers as they are (10 R245). -/
theorem Ctx.inService_frame (x : Ctx) (k : Cause) (pc : Word) (info : List Nat) :
    let y := x.inService k pc info
    y.stepArmed = x.stepArmed ∧ y.lq = x.lq.map LqEntry.saved ∧
      y.s = x.s ∧ y.v = x.v ∧ y.mask = x.mask ∧ y.q = x.q ∧ y.acc = x.acc ∧ y.t = x.t ∧ y.cap = x.cap ∧ y.konst = x.konst ∧ y.tc = x.tc := by
  obtain ⟨r, e⟩ := x.setTrap_eq k.word pc x.frameBase info
  simp only [Ctx.inService, e, and_self]

/-- Settles O31: a cause kills the context or enters service code as its frame can be written; the frame and the control registers are read back word by word. -/
theorem takingACause : Obligations.TakingACause := by
  unfold Obligations.TakingACause
  refine ⟨fun m c k pc => ⟨fun h => ⟨takeCause_kills h, rfl, rfl⟩, fun m' hd hs hf hr => ?_⟩, fun m k => ⟨trapInfo_length m k, fun v => ?_⟩,
    fun x cause info pc size => frameBytes_words x cause info pc size⟩
  · let x := (m.ctx c).landInterlocks
    let info := (m.beforeTrap c k).trapInfo k
    refine ⟨x.inService k pc info, takeCause_enters hd hs hf, rfl, rfl, rfl, rfl, rfl, ?_⟩
    obtain ⟨hstep, hlq, hregs⟩ := x.inService_frame k pc info
    obtain ⟨hcause, hpc, hinfo, hstack, hother⟩ := Ctx.setTrap_cr hr k.word pc x.frameBase (trapInfo_length _ k)
    exact ⟨hstep, rfl, hlq, hcause, hpc, hinfo, hstack, hother, hregs⟩
  · refine ⟨?_, ?_, ?_, ?_⟩ <;> intro h <;> simp [Machine.trapInfo, h]

end Sys2Proof.Machine
end

section
/-! SUPPORT. Control registers: who may read and write them (03 R76), what `csrr` reads (04 R103), and what `csrw` writes or refuses (03 R76-R78; 02 R33, R39; 14 R301). -/

namespace Sys2Proof.Machine

/-! ### Rights -/

/-- The table of R76 as the model holds it against the sets in which the statements word it. -/
theorem csrRights_none_iff (svc : Bool) (n : Nat) : csrRights svc n = none ↔ ¬ csrAssigned n := by
  unfold csrRights csrAssigned csrReadable
  simp only [true_and]
  repeat' split
  all_goals simp only [reduceCtorEq, false_iff, true_iff, Decidable.not_not]
  all_goals omega

theorem csrRights_some {svc : Bool} {n : Nat} {r w : Bool} (h : csrRights svc n = some (r, w)) : (r = true ↔ csrReadable svc n) ∧ (w = true ↔ csrWritable svc n) := by
  unfold csrRights at h
  unfold csrReadable csrWritable
  repeat' split at h
  all_goals cases h
  all_goals cases svc
  all_goals simp only [Bool.false_eq_true, true_iff, false_iff, true_and, false_and, or_false, false_or]
  all_goals omega

theorem csrReadable_assigned {svc : Bool} {n : Nat} (h : csrReadable svc n) : csrAssigned n := by
  unfold csrAssigned csrReadable at *
  simp only [true_and]
  omega

theorem csrWritable_readable {svc : Bool} {n : Nat} (h : csrWritable svc n) : csrReadable svc n := by
  unfold csrWritable csrReadable at *
  cases svc
  all_goals
    simp only [Bool.false_eq_true, true_and, false_and, false_or, or_false] at *
    omega

theorem csrRights_of_assigned {n : Nat} (svc : Bool) (h : csrAssigned n) : ∃ r w, csrRights svc n = some (r, w) := by
  cases e : csrRights svc n with
  | none => exact absurd h ((csrRights_none_iff svc n).1 e)
  | some p => exact ⟨p.1, p.2, rfl⟩

theorem csrRights_hidden {svc : Bool} {n : Nat} (a : csrAssigned n) (h : ¬ csrReadable svc n) : ∃ w, csrRights svc n = some (false, w) := by
  obtain ⟨r, w, e⟩ := csrRights_of_assigned svc a
  exact ⟨w, by rw [e, Bool.eq_false_iff.2 fun t => h ((csrRights_some e).1.1 t)]⟩

theorem csrRights_readable {svc : Bool} {n : Nat} (h : csrReadable svc n) : ∃ w, csrRights svc n = some (true, w) := by
  obtain ⟨r, w, e⟩ := csrRights_of_assigned svc (csrReadable_assigned h)
  exact ⟨w, by rw [e, (csrRights_some e).1.2 h]⟩

theorem csrRights_readOnly {svc : Bool} {n : Nat} (h : csrReadable svc n) (nw : ¬ csrWritable svc n) : csrRights svc n = some (true, false) := by
  obtain ⟨w, e⟩ := csrRights_readable h
  rw [e, Bool.eq_false_iff.2 fun t => nw ((csrRights_some e).2.1 t)]

theorem csrRights_writable {svc : Bool} {n : Nat} (h : csrWritable svc n) : csrRights svc n = some (true, true) := by
  obtain ⟨w, e⟩ := csrRights_readable (csrWritable_readable h)
  rw [e, (csrRights_some e).2.2 h]

/-! ### `csrr` -/

section
variable {s : State} {n : Nat}

theorem csrValue_pc (m : Machine) (c : Nat) (pc : Word) : m.csrValue c 0x00 pc = pc := rfl
theorem csrValue_cycle (m : Machine) (c : Nat) (pc : Word) : m.csrValue c 0x60 pc = (m.core (coreOf c)).cycle := rfl

theorem csrValue_watermark (m : Machine) (c : Nat) (pc : Word) (h : 0x30 ≤ n ∧ n ≤ 0x33) : m.csrValue c n pc = .ofNat 64 ((m.ctx c).xwm (n - 0x30)) := by
  simp only [Machine.csrValue, if_neg (show n ≠ 0x00 by omega), if_neg (show n ≠ 0x60 by omega), if_pos h]

theorem schedTable_unlaunched {m : Machine} {c : Nat} (h : (m.ctx c).launch = none) : m.schedTable c = none := by simp [Machine.schedTable, h]

theorem csrValue_stored (m : Machine) (c : Nat) (pc : Word) (h0 : n ≠ 0x00) (h60 : n ≠ 0x60) (hw : ¬ (0x30 ≤ n ∧ n ≤ 0x33)) (hl : n = 0x23 → (m.ctx c).launch = none) :
    m.csrValue c n pc = (m.ctx c).cr n := by
  simp only [Machine.csrValue, if_neg h0, if_neg h60, if_neg hw]
  by_cases h : n = 0x23
  · simp only [if_pos h, schedTable_unlaunched (hl h)]
  · exact if_neg h

theorem csrValue_schedptr {m : Machine} {c li base : Nat} {l : Launch} (pc : Word) (h : m.schedTable c = some (li, l, base)) (hl : (l.table (coreOf c)).length ≤ 8192) :
    m.csrValue c 0x23 pc = .ofNat 64 (base + 8 * l.head (coreOf c)) := by
  simp [Machine.csrValue, h, Launch.place, hl]

theorem exec_csrr (d : Reg) (num : BitVec 8) (s : State) : exec (.csrr d num) s = execCsrr d num s := rfl

/-- A register without an unraised cause of its channel is read. -/
theorem execCsrr_ok {d : Reg} {num : BitVec 8} (g : s.going) (hr : csrReadable (s.x.depth != 0) num.toNat)
    (hc : 0x30 ≤ num.toNat ∧ num.toNat ≤ 0x33 → s.x.oldestCause (fun c _ => c == num.toNat - 0x30) = none) :
    exec (.csrr d num) s = .next (s.wrote 1 d (s.start.csrValue s.c num.toNat s.m.bun.pc)) := by
  obtain ⟨w, e⟩ := csrRights_readable hr
  rw [exec_csrr]
  refine syllable_ok g ?_
  simp only [env_x, e, check_pass, ok_bind]
  by_cases h : 0x30 ≤ num.toNat ∧ num.toNat ≤ 0x33
  · simp only [if_pos h, Ctx.raiseCovered, hc h, ok_bind]
    exact result_ok (.inl (Nat.le_refl 1))
  · simp only [if_neg h]
    exact result_ok (.inl (Nat.le_refl 1))

theorem execCsrr_cause {d : Reg} {num : BitVec 8} {k : Cause} (g : s.going) (h : 0x30 ≤ num.toNat ∧ num.toNat ≤ 0x33)
    (hc : s.x.oldestCause (fun c _ => c == num.toNat - 0x30) = some k) : exec (.csrr d num) s = .next (s.trapped k) := by
  obtain ⟨w, e⟩ := csrRights_readable (svc := s.x.depth != 0) (n := num.toNat) (by unfold csrReadable; omega)
  rw [exec_csrr]
  exact syllable_trap g (by simp only [env_x, e, check_pass, ok_bind, if_pos h, Ctx.raiseCovered, hc, error_bind])

theorem execCsrr_unassigned {d : Reg} {num : BitVec 8} (g : s.going) (h : ¬ csrAssigned num.toNat) :
    exec (.csrr d num) s = .next (s.trapped { code := 0x01, i0 := some 4 }) := by
  rw [exec_csrr]
  exact syllable_trap g (by simp only [(csrRights_none_iff _ _).2 h]; rfl)

theorem execCsrr_hidden {d : Reg} {num : BitVec 8} (g : s.going) (a : csrAssigned num.toNat) (h : ¬ csrReadable (s.x.depth != 0) num.toNat) :
    exec (.csrr d num) s = .next (s.trapped { code := 0x01, i0 := some 6 }) := by
  obtain ⟨w, e⟩ := csrRights_hidden a h
  rw [exec_csrr]
  exact syllable_trap g (by simp only [env_x, e, check_fail, error_bind])

end

/-! ### `csrw` -/

section
variable {e : Env} {m : Machine} {n : Nat} {v : Word}

theorem csrWrite_unassigned (h : ¬ csrAssigned n) : m.csrWrite e n v = .error (.trap { code := 0x01, i0 := some 4 }) := by
  unfold Machine.csrWrite
  simp only [(csrRights_none_iff _ n).2 h]
  rfl

theorem csrWrite_hidden (a : csrAssigned n) (h : ¬ csrReadable (e.x.depth != 0) n) : m.csrWrite e n v = .error (.trap { code := 0x01, i0 := some 6 }) := by
  obtain ⟨w, er⟩ := csrRights_hidden a h
  simp only [Machine.csrWrite, er, check_fail, error_bind]

theorem csrWrite_readOnly (h : csrReadable (e.x.depth != 0) n) (nw : ¬ csrWritable (e.x.depth != 0) n) :
    m.csrWrite e n v = .error (.trap { code := 0x01, i0 := some 5 }) := by
  simp only [Machine.csrWrite, csrRights_readOnly h nw, check_pass, check_fail, ok_bind, error_bind]

/-- A value with offending bits is refused, with one of them (00 R6). -/
theorem csrWrite_bad (h : csrWritable (e.x.depth != 0) n) (ne : n ≠ 0x02) (hb : csrBad n v.toNat ≠ []) :
    ∃ i ∈ csrBad n v.toNat, m.csrWrite e n v = .error (.trap { code := 0x03, i0 := i }) := by
  cases hi : (csrBad n v.toNat).min? with
  | none => exact absurd (List.min?_eq_none_iff.1 hi) hb
  | some i =>
    refine ⟨i, List.min?_mem hi, ?_⟩
    have fail : (csrBad n v.toNat == []) = false := by simpa using hb
    simp only [Machine.csrWrite, csrRights_writable h, check_pass, ok_bind, if_neg ne, fail, hi, check_fail, error_bind]
    rfl

/-- FMT is written by its own rule (02 R39). -/
theorem csrWrite_fmt : m.csrWrite e 0x02 v = m.writeFmt e v := by
  simp only [Machine.csrWrite, csrRights_writable (show csrWritable (e.x.depth != 0) 0x02 by unfold csrWritable; omega), check_pass, ok_bind, if_true]

theorem writeFmt_ok (hb : csrBad 0x02 v.toNat = []) (hf : v.toNat % 8 < 5) : m.writeFmt e v = .ok (m.onCtx e.c fun x => x.writeDelayed 0x02 v) := by
  simp [Machine.writeFmt, hb, check_pass, bits, hf]

theorem writeFmt_reserved (hb : csrBad 0x02 v.toNat = []) (hf : 5 ≤ v.toNat % 8) : m.writeFmt e v = .error (.trap { code := 0x19, i0 := some 0 }) := by
  simp [Machine.writeFmt, hb, check_pass, check_fail, bits, Nat.not_lt.2 hf]

section
variable (h : csrWritable (e.x.depth != 0) n) (hb : csrBad n v.toNat = [])
include h hb

theorem csrWrite_plain (hn : n ∉ [0x01, 0x02, 0x03, 0x22, 0x23, 0x51]) : m.csrWrite e n v = .ok (m.onCtx e.c fun x => x.setCr n v) := by
  simp only [List.mem_cons, List.not_mem_nil, or_false, not_or] at hn
  obtain ⟨h1, h2, h3, h22, h23, h51⟩ := hn
  simp only [Machine.csrWrite, csrRights_writable h, check_pass, ok_bind, hb, beq_self_eq_true, if_neg h1, if_neg h2, if_neg h3, if_neg h22, if_neg h23, if_neg h51]

theorem csrWrite_fpc (hn : n = 0x01) : m.csrWrite e n v = .ok (m.onCtx e.c fun x => x.writeDelayed 0x01 v) := by
  subst hn
  simp [Machine.csrWrite, csrRights_writable h, check_pass, hb]

theorem csrWrite_rngctr (hn : n = 0x51) : m.csrWrite e n v = .ok { m.onCtx e.c (fun x => x.setCr n v) with bun := { m.bun with rngSet := true } } := by
  subst hn
  simp [Machine.csrWrite, csrRights_writable h, check_pass, hb]

theorem csrWrite_kbase {m' : Machine} (hn : n = 0x22) (hf : m.fillKonst e.c v.toNat = .ok m') : m.csrWrite e n v = .ok (m'.onCtx e.c fun x => x.setCr 0x22 v) := by
  subst hn
  simp [Machine.csrWrite, csrRights_writable h, check_pass, hb, hf]

/-- DMR is written under the conditions of 14 R301; only a level checkpointed by the old value can have an open superstep. -/
theorem csrWrite_dmr (hn : n = 0x03) : ∃ frozen, (ckLevel (e.x.cr 0x03).toNat = none → frozen = false) ∧
    m.csrWrite e n v = (check (dmrOk (e.x.cr 0x03).toNat (v ||| 1).toNat frozen) 0x03 40 >>= fun _ => .ok (m.onCtx e.c fun x => x.setCr 0x03 (v ||| 1))) := by
  subst hn
  simp only [Machine.csrWrite, csrRights_writable h, check_pass, ok_bind, hb, beq_self_eq_true, if_true, show (0x03 : Nat) ≠ 0x02 by decide, show (0x03 : Nat) ≠ 0x01 by decide, if_false]
  refine ⟨_, fun hc => ?_, rfl⟩
  simp only [hc]

theorem csrWrite_schedptr_in {li base i : Nat} {l : Launch} (hn : n = 0x23) (ht : m.schedTable e.c = some (li, l, base)) (hl : (l.table (coreOf e.c)).length ≤ 8192)
    (hv : v.toNat = base + 8 * i) (hi : i ≤ (l.table (coreOf e.c)).length) : m.csrWrite e n v = .ok (m.setLaunch li (l.setHead (coreOf e.c) i)) := by
  subst hn
  rw [hv] at hb
  simp [Machine.csrWrite, csrRights_writable h, check_pass, hb, ht, hv, Launch.atPlace, hl, hi]

theorem csrWrite_schedptr_beyond {li base i : Nat} {l : Launch} (hn : n = 0x23) (ht : m.schedTable e.c = some (li, l, base)) (hl : (l.table (coreOf e.c)).length ≤ 8192)
    (hv : v.toNat = base + 8 * i) (hi : (l.table (coreOf e.c)).length < i) : m.csrWrite e n v = .error (.trap { code := 0x03, i0 := some 3 }) := by
  subst hn
  rw [hv] at hb
  simp [Machine.csrWrite, csrRights_writable h, check_pass, hb, ht, hv, Launch.atPlace, hl, Nat.not_le.2 hi, raise]

theorem csrWrite_schedptr_unlaunched (hn : n = 0x23) (hl : m.schedTable e.c = none) : m.csrWrite e n v = .ok (m.onCtx e.c fun x => x.setCr 0x23 v) := by
  subst hn
  simp [Machine.csrWrite, csrRights_writable h, check_pass, hb, hl]

end
end

/-! ### The bits of DMR (03 R78; 14 R301) -/

theorem bit_eq_testBit (x i : Nat) : bit x i = x.testBit i := by
  rw [Nat.testBit_eq_decide_div_mod_eq, bit, Nat.shiftRight_eq_div_pow]
  rfl

theorem bit_of_bits_eq_zero {v lo w i : Nat} (h : bits v lo w = 0) (hi : i < w) : bit v (lo + i) = false := by
  have t : (bits v lo w).testBit i = v.testBit (lo + i) := by simp [bits, hi]
  rw [bit_eq_testBit, ← t, h, Nat.zero_testBit]

theorem bits_or_one (v : Word) {lo : Nat} (hlo : 0 < lo) (w : Nat) : bits (v ||| 1).toNat lo w = bits v.toNat lo w := by
  have one : (1 : Nat) >>> lo = 0 := Nat.shiftRight_eq_zero _ _ (Nat.one_lt_two_pow (Nat.pos_iff_ne_zero.1 hlo))
  simp [bits, Nat.shiftRight_or_distrib, one]

theorem ckLevel_none {v : Nat} (h : bits v 40 7 = 0) : ckLevel v = none := by
  simp only [ckLevel, List.find?_eq_none, List.mem_range]
  exact fun i hi => by simp [bit_of_bits_eq_zero h hi]

/-- A value that names no checkpointed level meets the conditions while no superstep is open. -/
theorem dmrOk_uncheckpointed {old v : Nat} (h : bits v 40 7 = 0) : dmrOk old v false = true := by
  have none_ : (List.range 7).filter (fun i => bit v (40 + i)) = [] := by
    simp only [List.filter_eq_nil_iff, List.mem_range]
    exact fun i hi => by simp [bit_of_bits_eq_zero h hi]
  simp [dmrOk, none_, bit_of_bits_eq_zero (i := 0) h (by decide)]

/-- A value refused on its own is refused whatever the old one was. -/
theorem dmrOk_refused {v : Nat} (old : Nat) (frozen : Bool) (h : dmrOk 0 v false = false) : dmrOk old v frozen = false := by
  unfold dmrOk at *
  simp only [Bool.not_false, Bool.true_or, Bool.and_true] at h
  simp only [h, Bool.false_and]

/-! ### The syllables -/

section
variable {s : State} {num : BitVec 8} {a : Src}

theorem execCsrw_ok {m : Machine} (g : s.going) (e : s.m.csrWrite s.env num.toNat (s.x.src a) = .ok m) : exec (.csrw num a) s = .next (s.withM m) :=
  syllable_ok (f := fun e m => m.csrWrite e num.toNat (e.x.src a)) g e

theorem execCsrw_trap {k : Cause} (g : s.going) (e : s.m.csrWrite s.env num.toNat (s.x.src a) = .error (.trap k)) : exec (.csrw num a) s = .next (s.trapped k) :=
  syllable_trap (f := fun e m => m.csrWrite e num.toNat (e.x.src a)) g e

/-- `fmtw` is `csrw` of FMT (02 R39). -/
theorem exec_fmtw (a : Src) (s : State) : exec (.fmtw a) s = exec (.csrw 0x02 a) s := by
  show syllable (fun e m => m.writeFmt e (e.x.src a)) s = syllable (fun e m => m.csrWrite e 0x02 (e.x.src a)) s
  simp only [csrWrite_fmt]

end

/-- Settles O4: reads and writes by the rights table of R76, each write by the rule of its register. -/
theorem controlRegisters : Obligations.ControlRegisters := by
  unfold Obligations.ControlRegisters
  refine ⟨fun s d num g => ?_, fun s a g => ?_⟩
  · intro n svc
    have open_ : (n ≤ 0x03 ∨ n = 0x23 ∨ n = 0x60 ∨ 0x30 ≤ n ∧ n ≤ 0x33) → csrReadable svc n := fun h => by unfold csrReadable; omega
    refine ⟨execCsrr_unassigned g, execCsrr_hidden g, fun h => ?_, fun h => ?_, fun h1 h2 => ⟨fun k => execCsrr_cause g ⟨h1, h2⟩, fun hc => ?_⟩,
      fun hr h0 h60 hw hl => ?_, fun h li l base ht hl => ?_⟩
    · rw [execCsrr_ok g (open_ (by omega)) (by omega), show num.toNat = 0x00 from h, csrValue_pc]
    · rw [execCsrr_ok g (open_ (by omega)) (by omega), show num.toNat = 0x60 from h, csrValue_cycle]
      rfl
    · rw [execCsrr_ok g (open_ (by omega)) (fun _ => hc), csrValue_watermark _ _ _ ⟨h1, h2⟩]
      rfl
    · rw [execCsrr_ok g hr (fun h => absurd h hw), csrValue_stored _ _ _ h0 h60 hw hl]
      rfl
    · rw [execCsrr_ok g (open_ (by omega)) (by omega), show num.toNat = 0x23 from h, csrValue_schedptr _ ht hl]
  · intro v svc
    have task : ∀ n ∈ [0x01, 0x02, 0x22, 0x50, 0x51], csrWritable svc n := fun n h => by
      simp only [List.mem_cons, List.not_mem_nil, or_false] at h
      unfold csrWritable
      omega
    have service : ∀ n ∈ [0x03, 0x23], svc = true → csrWritable svc n := fun n h hs => by
      simp only [List.mem_cons, List.not_mem_nil, or_false] at h
      simp only [csrWritable, hs, true_and]
      omega
    have num_ne : ∀ {num c : BitVec 8}, num ≠ c → num.toNat ≠ c.toNat := fun h e => h (BitVec.eq_of_toNat_eq e)
    refine ⟨fun num h => execCsrw_trap g (csrWrite_unassigned h), fun num h nw => execCsrw_trap g (csrWrite_readOnly h nw),
      fun num ha h => execCsrw_trap g (csrWrite_hidden ha h), fun num h ne hb => ?_, fun num h hb hn => ?_, fun num h hb hn => ?_,
      fun hb => ?_, fun hb hf => ?_, fun hb hf => execCsrw_trap g (csrWrite_fmt.trans (writeFmt_reserved hb hf)),
      fun hs hb hv ho => ?_, fun hs hb hd => ?_, fun m hb hf => ?_, fun hs hb hl => ?_, fun hs hb li l base i ht hl hv => ⟨fun hi => ?_, fun hi => ?_⟩,
      rfl, rfl, rfl, rfl, rfl, rfl, exec_fmtw a s⟩
    · obtain ⟨i, hi, e⟩ := csrWrite_bad (m := s.m) (e := s.env) h (num_ne ne) hb
      exact ⟨i, hi, execCsrw_trap g e⟩
    · refine execCsrw_ok g (csrWrite_plain h hb ?_)
      simp only [List.mem_cons, List.not_mem_nil, or_false, not_or] at hn ⊢
      obtain ⟨h1, h2, h3, h22, h23, h51⟩ := hn
      exact ⟨num_ne h1, num_ne h2, num_ne h3, num_ne h22, num_ne h23, num_ne h51⟩
    · subst hn
      exact execCsrw_ok g (csrWrite_rngctr h hb rfl)
    · exact execCsrw_ok g (csrWrite_fpc (task _ (by simp)) hb rfl)
    · exact execCsrw_ok g (csrWrite_fmt.trans (writeFmt_ok hb hf))
    · obtain ⟨frozen, hf, e⟩ := csrWrite_dmr (e := s.env) (m := s.m) (service 0x03 (by simp) hs) hb rfl
      rw [hf (ckLevel_none ho), check_pass (dmrOk_uncheckpointed ((bits_or_one v (by decide) 7).trans hv))] at e
      exact execCsrw_ok g e
    · obtain ⟨frozen, -, e⟩ := csrWrite_dmr (e := s.env) (m := s.m) (service 0x03 (by simp) hs) hb rfl
      rw [check_fail (dmrOk_refused _ _ hd)] at e
      exact execCsrw_trap g e
    · exact execCsrw_ok g (csrWrite_kbase (task _ (by simp)) hb rfl hf)
    · exact execCsrw_ok g (csrWrite_schedptr_unlaunched (service _ (by simp) hs) hb rfl (schedTable_unlaunched hl))
    · exact execCsrw_ok g (csrWrite_schedptr_in (service _ (by simp) hs) hb rfl ht hl hv hi)
    · exact execCsrw_trap g (csrWrite_schedptr_beyond (service _ (by simp) hs) hb rfl ht hl hv hi)

end Sys2Proof.Machine
end

section
/-! SUPPORT. Scratchpad access of vectors and statistics registers (05 R146-R148, R154; 06 R166), and triples merged or updated at their edges (06 R157-R161; 02 R53). -/

namespace Sys2Proof.Machine

/-! ### Checks over lanes -/

theorem lanes_of_ce_zero (x : Ctx) (ms : BitVec 4) {ce : BitVec 8} (h : ce = 0) : x.lanes ms ce = [] := by
  simp [Ctx.lanes, h, bit]

theorem padCheck_ok {k : Core} {g : Nat} {offs : List Nat} (h : ∀ o ∈ offs, k.padOk g o = true) : padCheck k g offs = .ok () := by
  have none_ : offs.filter (fun a => !k.padOk g a) = [] := by
    simp only [List.filter_eq_nil_iff, Bool.not_eq_true', Bool.not_eq_false]
    exact h
  simp [padCheck, none_]

theorem padCheck_trap {k : Core} {g w : Nat} {offs : List Nat} (h : (offs.filter fun a => !k.padOk g a).min? = some w) :
    padCheck k g offs = .error (.trap { code := 0x14, i0 := w }) := by
  simp only [padCheck, h]
  rfl

/-- A lane at which the check of its own fails stops the lanes behind it. -/
theorem forLanes_trap_head {α : Type} {f : Nat → Res α} {l : Nat} {ls : List Nat} {k : Stop} (h : f l = .error k) : forLanes f (l :: ls) = .error k := by
  simp [forLanes, h]

/-! ### Vectors -/

section
variable {s : State} {g : BitVec 2} {ms : BitVec 4} {ce : BitVec 8} {d a c : Reg} {b : Src} {sz : BitVec 2}

theorem padBase_ok (h : ce = 0 ∨ (s.x.sreg a + s.x.src b).toNat % 256 = 0) : padBase s.env ce a b = .ok (s.x.sreg a + s.x.src b).toNat := by
  simp only [padBase, env_x]
  rw [check_pass (by simpa using h)]
  rfl

theorem padBase_trap (hc : ce ≠ 0) (h : (s.x.sreg a + s.x.src b).toNat % 256 ≠ 0) :
    padBase s.env ce a b = .error (.trap { code := 0x0A, i0 := (s.x.sreg a + s.x.src b).toNat }) := by
  simp only [padBase, env_x]
  rw [check_fail (Bool.or_eq_false_iff.2 ⟨beq_false_of_ne hc, beq_false_of_ne h⟩)]
  rfl

/-- A vector register loaded from the offsets of its lanes, all of them in scratchpad. -/
theorem padLoad_ok {offs : List (Nat × Nat)} (r : s.room) (h : ∀ p ∈ offs, s.k.padOk g.toNat p.2 = true) :
    s.m.padLoad s.env g ce d offs = .ok (if ce = 0 then s
      else s.issued { off := 3, file := .v, reg := d.toNat, ce := ce.toNat, writes := offs.map fun p => (128 * d.toNat + p.1, (s.k.padWord g.toNat p.2).toNat) }).m := by
  refine bind_eq_of_ok (padCheck_ok fun o ho => ?_) ?_
  · obtain ⟨p, hp, rfl⟩ := List.mem_map.1 ho
    exact h p hp
  · split
    · rfl
    · exact push_ok (.inr r)

/-- What the machine is where a syllable does nothing, or has one effect. -/
theorem withM_ite {p : Prop} [Decidable p] (t u : State) : s.withM (if p then t else u).m = if p then s.withM t.m else s.withM u.m := apply_ite (fun t => s.withM t.m) p t u

theorem exec_vld (g : BitVec 2) (ms : BitVec 4) (ce : BitVec 8) (d a : Reg) (b : Src) (s : State) : exec (.vld g ms ce d a b) s = execVld g ms ce d a b s := rfl
theorem exec_vst (g : BitVec 2) (ms : BitVec 4) (ce : BitVec 8) (d a : Reg) (b : Src) (s : State) : exec (.vst g ms ce d a b) s = execVst g ms ce d a b s := rfl
theorem exec_vldg (g : BitVec 2) (ms : BitVec 4) (ce : BitVec 8) (d a : Reg) (b : Src) (c : Reg) (s : State) : exec (.vldg g ms ce d a b c) s = execVldg g ms ce d a b c s := rfl

theorem execVld_misaligned (gg : s.going) (hc : ce ≠ 0) (h : (s.x.sreg a + s.x.src b).toNat % 256 ≠ 0) :
    exec (.vld g ms ce d a b) s = .next (s.trapped { code := 0x0A, i0 := (s.x.sreg a + s.x.src b).toNat }) := by
  rw [exec_vld]
  exact syllable_trap gg (by simp only [padBase_trap hc h, error_bind])

theorem execVst_misaligned (gg : s.going) (hc : ce ≠ 0) (h : (s.x.sreg a + s.x.src b).toNat % 256 ≠ 0) :
    exec (.vst g ms ce d a b) s = .next (s.trapped { code := 0x0A, i0 := (s.x.sreg a + s.x.src b).toNat }) := by
  rw [exec_vst]
  exact syllable_trap gg (by simp only [padBase_trap hc h, error_bind])

theorem execVld_ok (gg : s.going) (r : s.room) (h : ce = 0 ∨ (s.x.sreg a + s.x.src b).toNat % 256 = 0)
    (hp : ∀ l ∈ s.x.lanes ms ce, s.k.padOk g.toNat (laneOffset (s.x.sreg a + s.x.src b).toNat l) = true) :
    exec (.vld g ms ce d a b) s = .next (if ce = 0 then s else s.issued
      { off := 3, file := .v, reg := d.toNat, ce := ce.toNat,
        writes := (s.x.lanes ms ce).map fun l => (128 * d.toNat + l, (s.k.padWord g.toNat (laneOffset (s.x.sreg a + s.x.src b).toNat l)).toNat) }) := by
  rw [exec_vld]
  have load := padLoad_ok (g := g) (ce := ce) (d := d) (offs := (s.x.lanes ms ce).map fun l => (l, laneOffset (s.x.sreg a + s.x.src b).toNat l)) r fun p hm => by
    obtain ⟨l, hl, rfl⟩ := List.mem_map.1 hm
    exact hp l hl
  refine (syllable_ok gg (bind_eq_of_ok (padBase_ok h) load)).trans ?_
  rw [withM_ite, List.map_map]
  rfl

theorem execVst_ok (gg : s.going) (h : ce = 0 ∨ (s.x.sreg a + s.x.src b).toNat % 256 = 0)
    (hp : ∀ l ∈ s.x.lanes ms ce, s.k.padOk g.toNat (laneOffset (s.x.sreg a + s.x.src b).toNat l) = true) :
    exec (.vst g ms ce d a b) s = .next (s.withCore fun k =>
      (s.x.lanes ms ce).foldl (fun k l => k.setPadWord g.toNat (laneOffset (s.x.sreg a + s.x.src b).toNat l) (s.x.vreg d.toNat l)) k) := by
  rw [exec_vst]
  refine syllable_ok gg (bind_eq_of_ok (padBase_ok h) (bind_eq_of_ok (padCheck_ok fun o ho => ?_) rfl))
  obtain ⟨l, hl, rfl⟩ := List.mem_map.1 ho
  exact hp l hl

section
variable (gg : s.going) (h : (s.x.sreg a + s.x.src b).toNat % 256 = 0) {w : Nat}
  (hw : (((s.x.lanes ms ce).map fun l => laneOffset (s.x.sreg a + s.x.src b).toNat l).filter fun f => !s.k.padOk g.toNat f).min? = some w)
include gg h hw

theorem execVld_outside : exec (.vld g ms ce d a b) s = .next (s.trapped { code := 0x14, i0 := w }) := by
  rw [exec_vld]
  refine syllable_trap gg (bind_eq_of_ok (padBase_ok (.inr h)) ?_)
  have bad : padCheck s.k g.toNat (((s.x.lanes ms ce).map fun l => (l, laneOffset (s.x.sreg a + s.x.src b).toNat l)).map (·.2)) = .error (.trap { code := 0x14, i0 := w }) := by
    rw [List.map_map]
    exact padCheck_trap hw
  exact congrArg (· >>= _) bad

theorem execVst_outside : exec (.vst g ms ce d a b) s = .next (s.trapped { code := 0x14, i0 := w }) := by
  rw [exec_vst]
  exact syllable_trap gg (bind_eq_of_ok (padBase_ok (.inr h)) (congrArg (· >>= _) (padCheck_trap hw)))

end

theorem execVldg_ok (gg : s.going) (r : s.room)
    (hp : ∀ l ∈ s.x.lanes ms ce, let off := (s.x.sreg a + s.x.src b + s.x.vreg c.toNat l).toNat
      off % 8 = 0 ∧ unitCluster off = l / 16 ∧ s.k.padOk g.toNat off = true) :
    exec (.vldg g ms ce d a b c) s = .next (if ce = 0 then s else s.issued
      { off := 3, file := .v, reg := d.toNat, ce := ce.toNat,
        writes := (s.x.lanes ms ce).map fun l => (128 * d.toNat + l, (s.k.padWord g.toNat (s.x.sreg a + s.x.src b + s.x.vreg c.toNat l).toNat).toNat) }) := by
  rw [exec_vldg]
  have load := padLoad_ok (g := g) (ce := ce) (d := d) (offs := (s.x.lanes ms ce).map fun l => (l, (s.x.sreg a + s.x.src b + s.x.vreg c.toNat l).toNat)) r fun p hm => by
    obtain ⟨l, hl, rfl⟩ := List.mem_map.1 hm
    exact (hp l hl).2.2
  refine (syllable_ok gg (bind_eq_of_ok (forLanes_ok (v := fun _ => ()) fun l hl => ?_) load)).trans ?_
  · obtain ⟨ha, hcl, -⟩ := hp l hl
    exact bind_eq_of_ok (check_pass (beq_iff_eq.2 ha)) (check_pass (beq_iff_eq.2 hcl))
  · rw [withM_ite, List.map_map]
    rfl

/-! ### Strided stores -/

theorem szBytes_eq (sz : BitVec 2) : szBytes sz.toNat = 2 ^ sz.toNat := by
  revert sz
  decide

/-- The address of a lane of a strided store (05 R154). -/
def stridedAddr (x : Ctx) (a : Reg) (b : Src) (c : Reg) (l : Nat) : Nat := wrap 64 (((x.sreg a + x.src b).toNat : Int) + (x.sreg c).toNat * l)

/-- One lane of a strided store of `n` bytes: a cause names its lane, and a blocked access is passed over (10 R256). -/
def storeLane (e : Env) (n : Nat) (addr : Nat → Nat) (d : Reg) (m : Machine) (l : Nat) : Res Machine :=
  match m.storeChecked e.c (addr l) n (e.x.vreg d.toNat l).toNat with
  | .error (.trap k) => if k.blocked then .ok (m.deferDamper e.c { k with i1 := l }) else .error (.trap { k with i1 := l })
  | r => r

theorem exec_vsts (sz : BitVec 2) (ms : BitVec 4) (ce : BitVec 8) (d a : Reg) (b : Src) (c : Reg) (s : State) :
    exec (.vsts sz ms ce d a b c) s = syllable (fun e m =>
      match (e.x.lanes ms ce).find? fun l => e.m0.tileOver e.c true (stridedAddr e.x a b c l) (2 ^ sz.toNat) with
      | some l => .error (.hold (.tileOp (stridedAddr e.x a b c l) (2 ^ sz.toNat)))
      | none => (e.x.lanes ms ce).foldlM (storeLane e (2 ^ sz.toNat) (stridedAddr e.x a b c) d) m) s := by
  rw [← szBytes_eq]
  rfl

section
variable {n l : Nat} {ls : List Nat} {addr : Nat → Nat} {m m' : Machine}

/-- Lanes that are stored without a cause are stored one after another. -/
theorem foldlM_storeLane_ok (h : ls.foldlM (fun m l => m.storeChecked s.c (addr l) n (s.x.vreg d.toNat l).toNat) m = .ok m') :
    ls.foldlM (storeLane s.env n addr d) m = .ok m' := by
  induction ls generalizing m with
  | nil => exact h
  | cons l ls ih =>
    rw [List.foldlM_cons] at h ⊢
    cases e : m.storeChecked s.c (addr l) n (s.x.vreg d.toNat l).toNat with
    | error k => simp [e] at h
    | ok m1 =>
      rw [e, ok_bind] at h
      exact bind_eq_of_ok (by simp only [storeLane, env_c, env_x, e]) (ih h)

theorem foldlM_storeLane_trap {k : Cause} (h : m.storeChecked s.c (addr l) n (s.x.vreg d.toNat l).toNat = .error (.trap k)) (hk : k.blocked = false) :
    (l :: ls).foldlM (storeLane s.env n addr d) m = .error (.trap { k with i1 := l }) := by
  simp only [List.foldlM_cons, storeLane, env_c, env_x, h, hk, Bool.false_eq_true, if_false, error_bind]

end

theorem execVsts_held {l : Nat} (gg : s.going) (h : ((s.x.lanes ms ce).find? fun l => s.start.tileOver s.c true (stridedAddr s.x a b c l) (2 ^ sz.toNat)) = some l) :
    exec (.vsts sz ms ce d a b c) s = .next (s.heldBy (.tileOp (stridedAddr s.x a b c l) (2 ^ sz.toNat))) := by
  rw [exec_vsts]
  exact syllable_hold gg (by simp only [env_x, env_m0, env_c, h])

section
variable (gg : s.going) (hf : ((s.x.lanes ms ce).find? fun l => s.start.tileOver s.c true (stridedAddr s.x a b c l) (2 ^ sz.toNat)) = none)
include gg hf

theorem execVsts_ok {m : Machine}
    (hm : (s.x.lanes ms ce).foldlM (fun m l => m.storeChecked s.c (stridedAddr s.x a b c l) (2 ^ sz.toNat) (s.x.vreg d.toNat l).toNat) s.m = .ok m) :
    exec (.vsts sz ms ce d a b c) s = .next (s.withM m) := by
  rw [exec_vsts]
  refine syllable_ok gg ?_
  simp only [env_x, env_m0, env_c, hf]
  exact foldlM_storeLane_ok hm

theorem execVsts_trap {l : Nat} {ls : List Nat} {k : Cause} (hl : s.x.lanes ms ce = l :: ls)
    (hk : s.m.storeChecked s.c (stridedAddr s.x a b c l) (2 ^ sz.toNat) (s.x.vreg d.toNat l).toNat = .error (.trap k)) (hb : k.blocked = false) :
    exec (.vsts sz ms ce d a b c) s = .next (s.trapped { k with i1 := l }) := by
  rw [exec_vsts]
  refine syllable_trap gg ?_
  simp only [env_x, env_m0, env_c, hf]
  rw [hl]
  exact foldlM_storeLane_trap hk hb

end

end

/-! ### Statistics registers -/

section
variable {s : State} {o : VOp}

theorem planeBase_ok (h : o.ce = 0 ∨ (s.x.src o.a + s.x.src o.b).toNat % 256 = 0)
    (hp : ∀ p ∈ planes (s.x.src o.a + s.x.src o.b).toNat, ∀ g ∈ s.x.lanes o.ms o.ce, s.k.padOk o.f.toNat (laneOffset p g) = true) :
    planeBase s.env o = .ok (s.x.src o.a + s.x.src o.b).toNat := by
  have all : (planes (s.x.src o.a + s.x.src o.b).toNat).find? (fun p => (s.x.lanes o.ms o.ce).any fun g => !s.k.padOk o.f.toNat (laneOffset p g)) = none := by
    simp only [List.find?_eq_none, List.any_eq_true, Bool.not_eq_true', not_exists, not_and, Bool.not_eq_false]
    exact hp
  unfold planeBase
  refine bind_eq_of_ok (check_pass (by simpa using h)) ?_
  split
  next p hf => exact absurd (hf.symm.trans all) (by simp)
  next => rfl

theorem planeBase_trap (hc : o.ce ≠ 0) (h : (s.x.src o.a + s.x.src o.b).toNat % 256 ≠ 0) :
    planeBase s.env o = .error (.trap { code := 0x0A, i0 := (s.x.src o.a + s.x.src o.b).toNat }) := by
  simp only [planeBase, env_x]
  rw [check_fail (Bool.or_eq_false_iff.2 ⟨beq_false_of_ne hc, beq_false_of_ne h⟩)]
  rfl

theorem readTriple_ok {q g : Nat} (h : (s.x.qlane q g).malformed = false) : readTriple s.env q g = .ok (s.x.qlane q g) := by
  simp [readTriple, h]

theorem readTriple_trap {q g : Nat} (h : (s.x.qlane q g).malformed = true) : readTriple s.env q g = .error (.trap { code := 0x1E, i0 := some 1, i1 := q, i2 := g }) := by
  simp [readTriple, h, raise]

theorem exec_qld (sl : VSlot) (o : VOp) (s : State) : exec (.qld sl o) s = execQld sl o s := rfl
theorem exec_qst (sl : VSlot) (o : VOp) (s : State) : exec (.qst sl o) s = execQst sl o s := rfl

theorem execQld_misaligned (sl : VSlot) (g : s.going) (hc : o.ce ≠ 0) (h : (s.x.src o.a + s.x.src o.b).toNat % 256 ≠ 0) :
    exec (.qld sl o) s = .next (s.trapped { code := 0x0A, i0 := (s.x.src o.a + s.x.src o.b).toNat }) := by
  rw [exec_qld]
  exact syllable_trap g (by simp only [planeBase_trap hc h, error_bind])

theorem execQst_misaligned (sl : VSlot) (g : s.going) (hc : o.ce ≠ 0) (h : (s.x.src o.a + s.x.src o.b).toNat % 256 ≠ 0) :
    exec (.qst sl o) s = .next (s.trapped { code := 0x0A, i0 := (s.x.src o.a + s.x.src o.b).toNat }) := by
  rw [exec_qst]
  exact syllable_trap g (by simp only [planeBase_trap hc h, error_bind])

section
variable (sl : VSlot) (gg : s.going) (h : o.ce = 0 ∨ (s.x.src o.a + s.x.src o.b).toNat % 256 = 0)
  (hp : ∀ p ∈ planes (s.x.src o.a + s.x.src o.b).toNat, ∀ g ∈ s.x.lanes o.ms o.ce, s.k.padOk o.f.toNat (laneOffset p g) = true)
include gg h hp

theorem execQld_ok (r : s.room) :
    let b := (s.x.src o.a + s.x.src o.b).toNat
    let w (p g : Nat) : Nat := (s.k.padWord o.f.toNat (laneOffset p g)).toNat
    exec (.qld sl o) s = .next (s.statsOut s.m o 3 ((s.x.lanes o.ms o.ce).map fun g => (g, ⟨w b g, w (b + 1024) g, w (b + 2048) g⟩, 0))) := by
  intro b w
  rw [exec_qld, ← withM_statsOut]
  exact syllable_ok gg (bind_eq_of_ok (planeBase_ok h hp) (laneResult_ok (.inr r)))

theorem execQst_malformed {g : Nat} {ls : List Nat} (hl : s.x.lanes o.ms o.ce = g :: ls) (hm : (s.x.qlane o.d.toNat g).malformed = true) :
    exec (.qst sl o) s = .next (s.trapped { code := 0x1E, i0 := some 1, i1 := o.d.toNat, i2 := g }) := by
  rw [exec_qst]
  refine syllable_trap gg (bind_eq_of_ok (planeBase_ok h hp) ?_)
  simp only [env_x, hl, forLanes_trap_head (readTriple_trap hm), error_bind]

theorem execQst_ok (hm : ∀ g ∈ s.x.lanes o.ms o.ce, (s.x.qlane o.d.toNat g).malformed = false) :
    let b := (s.x.src o.a + s.x.src o.b).toNat
    exec (.qst sl o) s = .next (s.withCore fun k => (s.x.lanes o.ms o.ce).foldl (fun k g =>
      let t := s.x.qlane o.d.toNat g
      ((k.setPadWord o.f.toNat (laneOffset b g) (.ofNat 64 t.w)).setPadWord o.f.toNat (laneOffset (b + 1024) g) (.ofNat 64 t.mean)).setPadWord
        o.f.toNat (laneOffset (b + 2048) g) (.ofNat 64 t.m2)) k) := by
  rw [exec_qst]
  exact syllable_ok gg (bind_eq_of_ok (planeBase_ok h hp) (bind_eq_of_ok (forLanes_ok fun g hg => readTriple_ok (hm g hg)) rfl))

end

end

/-! ### Triples at their edges -/

theorem isEmpty_empty : Triple.empty.isEmpty = true := by decide
theorem malformed_empty : Triple.empty.malformed = false := by decide

theorem merge_empty_right {t : Triple} (h : t.isEmpty = false) : t.merge .empty = (t, 0) := by simp [Triple.merge, h, isEmpty_empty]
theorem merge_empty_left {t : Triple} (h : t.isEmpty = false) : Triple.empty.merge t = (t, 0) := by simp [Triple.merge, h, isEmpty_empty]

/-- The first value of an empty triple becomes its mean (06 R157). -/
theorem update_empty {t : Triple} {x : Nat} (h : t.isEmpty = true) (hn : (Fp.d.unpack x).isNan = false) (hs : (Fp.d.unpack x).isSnan = false) :
    t.update x = (⟨one64, x, 0⟩, 0) := by
  simp [Triple.update, firstUpdate, h, hn, hs]

theorem updateW_zero {w : Nat} (t : Triple) (x : Nat) (h : (Fp.d.unpack w).isZero = true) : t.updateW x w = (t, 0) := if_pos h

/-- Settles O21: scratchpad accesses by the checks on all their lanes, strided stores lane by lane, triples at their edges. -/
theorem scratchpad : Obligations.Scratchpad := by
  unfold Obligations.Scratchpad
  refine ⟨fun s g ms ce d a c b gg => ?_, fun s sl o gg => ?_, fun t x w => ?_⟩
  · intro o on at_
    refine ⟨fun hc h => ⟨execVld_misaligned gg hc h, execVst_misaligned gg hc h⟩, fun h hp => ⟨fun r => execVld_ok gg r h hp, execVst_ok gg h hp⟩,
      fun h w hw => ⟨execVld_outside gg h hw, execVst_outside gg h hw⟩, fun r hp => execVldg_ok gg r hp, fun sz => ?_⟩
    exact ⟨fun l => execVsts_held gg, fun hf => ⟨fun m => execVsts_ok gg hf, fun l ls k => execVsts_trap gg hf⟩⟩
  · intro b lanes w
    exact ⟨fun hc h => ⟨execQld_misaligned sl gg hc h, execQst_misaligned sl gg hc h⟩, fun h hp =>
      ⟨execQld_ok sl gg h hp, fun g ls => execQst_malformed sl gg h hp, execQst_ok sl gg h hp⟩⟩
  · exact ⟨fun h => ⟨merge_empty_right h, merge_empty_left h⟩, update_empty, updateW_zero t x, malformed_empty⟩

end Sys2Proof.Machine
end

section
/-! SUPPORT. Matrix syllables whose checks pass queue their commands with what they capture (07 R181, R182, R185-R188; 02 R33). -/

namespace Sys2Proof.Machine

/-! ### Checks at issue (07 R186) -/

@[simp] theorem concerning_ok {α : Type} (r : Nat) (v : α) : concerning r (.ok v) = .ok v := rfl

theorem needAcc_ok {x : Ctx} {a : Nat} (h : x.holdsAcc a = true) : needAcc x a = .ok () := check_pass h
theorem needAcc_trap {x : Ctx} {a : Nat} (h : x.holdsAcc a = false) : needAcc x a = .error (.trap { code := 0x18, i0 := a, i1 := a }) := check_fail h

/-- A captured tile's register is defined, and the capture holds its number and descriptor. -/
theorem captureTile_tile {x : Ctx} {r : Nat} {w : Bool} {t : MArg} (h : x.captureTile r w = .ok t) : x.tile r = .ok t.desc ∧ t.reg = r := by
  obtain ⟨d, hd, h⟩ := bind_eq_ok.1 h
  cases w with
  | false => cases h; exact ⟨hd, rfl⟩
  | true =>
    obtain ⟨e, -, h⟩ := bind_eq_ok.1 h
    cases h
    exact ⟨hd, rfl⟩

theorem shapeCheck_ok {k : Core} {ok : Bool} {a : MArg} (h : ok = true) (ht : k.tileOk a.desc = true) : shapeCheck k ok a = .ok () :=
  bind_eq_of_ok (check_pass h) (check_pass ht)

/-- No pending operation has a role that conflicts with those of a command (07 R179). -/
def State.freeFor (s : State) (q : MCmd) : Prop :=
  (∀ r ∈ q.reads, s.start.pendingWrite s.c r = false) ∧ ∀ r ∈ q.writes, s.start.pendingRead s.c r = false ∧ s.start.pendingWrite s.c r = false

theorem scoreboard_ok {m : Machine} {c : Nat} {reads writes : List Nat} (hr : ∀ r ∈ reads, m.pendingWrite c r = false)
    (hw : ∀ r ∈ writes, m.pendingRead c r = false ∧ m.pendingWrite c r = false) : m.scoreboard c reads writes = .ok () := by
  have no_read : reads.any (m.pendingWrite c) = false := List.any_eq_false.2 fun r h => by simp [hr r h]
  have no_write : writes.any (fun r => m.pendingRead c r || m.pendingWrite c r) = false := List.any_eq_false.2 fun r h => by simp [hw r h]
  simp [Machine.scoreboard, no_read, no_write]

section
variable {s : State}

/-- The state with a command at the end of its core's queue (07 R187). -/
def State.queued (s : State) (q : MCmd) : State := s.withCore fun k => { k with mq := k.mq ++ [q] }

theorem enqueue_ok {q : MCmd} {acc : Bool} (hq : s.k.mq.length < 16) (hf : s.freeFor q) (ha : acc = true → s.start.followInto s.c q.acc = false) :
    s.m.enqueue s.env q acc = .ok (s.queued q).m := by
  have room : ¬ (acc && s.start.followInto s.c q.acc || decide (16 ≤ s.k.mq.length)) = true := by
    simp only [Bool.or_eq_true, Bool.and_eq_true, decide_eq_true_eq, not_or, not_and, Bool.not_eq_true, Nat.not_le]
    exact ⟨ha, hq⟩
  exact bind_eq_of_ok (scoreboard_ok hf.1 hf.2) (if_neg room)

/-- A command with no tile operands conflicts with nothing. -/
theorem freeFor_of_no_tiles {q : MCmd} (hr : q.reads = []) (hw : q.writes = []) : s.freeFor q := by simp [State.freeFor, hr, hw]

/-! ### The syllables -/

theorem execMzero_ok (g : s.going) (hq : s.k.mq.length < 16) {d : BitVec 3} (ha : s.x.holdsAcc d.toNat = true) (hf : s.start.followInto s.c d.toNat = false) :
    exec (.mzero d) s = .next (s.queued { s.env.cmd s.m .mzero with acc := d.toNat }) := by
  show execMzero d s = _
  exact syllable_ok g (bind_eq_of_ok (needAcc_ok ha) (enqueue_ok hq (freeFor_of_no_tiles rfl rfl) fun _ => hf))

theorem execMzero_notHeld (g : s.going) {d : BitVec 3} (ha : s.x.holdsAcc d.toNat = false) :
    exec (.mzero d) s = .next (s.trapped { code := 0x18, i0 := d.toNat, i1 := d.toNat }) := by
  show execMzero d s = _
  exact syllable_trap g (congrArg (· >>= _) (needAcc_trap ha))

theorem stateTile_ok {r : Nat} {t : MArg} (ht : s.x.captureTile r false = .ok t) (hr : 32 ≤ tdRows t.desc) (hb : 256 ≤ tdRowb t.desc) (hk : s.k.tileOk t.desc = true) :
    stateTile s.env r = .ok t := by
  unfold stateTile
  simp only [env_x, ht, concerning_ok, ok_bind]
  exact bind_eq_of_ok (shapeCheck_ok (by simp [hr, hb]) hk) rfl

section
variable {a : BitVec 3} {d : Reg} {t : MArg} (g : s.going) (hq : s.k.mq.length < 16) (ha : s.x.holdsAcc a.toNat = true)
  (hf : s.start.followInto s.c a.toNat = false)
include g hq ha hf

theorem execMsv_ok (ht : stateTile s.env d.toNat = .ok t) (free : s.freeFor { s.env.cmd s.m .msv with acc := a.toNat, a := t }) :
    exec (.msv d a) s = .next (s.queued { s.env.cmd s.m .msv with acc := a.toNat, a := t }) := by
  show execMsv d a s = _
  exact syllable_ok g (bind_eq_of_ok (needAcc_ok ha) (bind_eq_of_ok ht (enqueue_ok hq free fun _ => hf)))

theorem execMrst_ok (ht : stateTile s.env d.toNat = .ok t) (free : s.freeFor { s.env.cmd s.m .mrst with acc := a.toNat, a := t }) :
    exec (.mrst a d) s = .next (s.queued { s.env.cmd s.m .mrst with acc := a.toNat, a := t }) := by
  show execMrst a d s = _
  exact syllable_ok g (bind_eq_of_ok (needAcc_ok ha) (bind_eq_of_ok ht (enqueue_ok hq free fun _ => hf)))

theorem execMst_ok {rm : BitVec 3} {clr : Bool} (ht : s.x.captureTile d.toNat true = .ok t) (hc : entFmt t.ent ≠ 11)
    (hcb : entFmt t.ent = 10 → cb4Ordered (tableCodes t.cb) = true) (hr : 32 + (if entScaled t.ent then 1 else 0) ≤ tdRows t.desc)
    (hw : 4 * widthOf s.x.fmt (entFmt t.ent) ≤ tdRowb t.desc) (hs : entScaled t.ent = true → 32 ≤ tdRowb t.desc) (hk : s.k.tileOk t.desc = true)
    (free : s.freeFor { s.env.cmd s.m .mst with acc := a.toNat, a := t, rm := capturedRm s.x rm, clr }) :
    exec (.mst d a rm clr) s = .next (s.queued { s.env.cmd s.m .mst with acc := a.toNat, a := t, rm := capturedRm s.x rm, clr }) := by
  show execMst d a rm clr s = _
  refine syllable_ok g (bind_eq_of_ok (needAcc_ok ha) (bind_eq_of_ok (congrArg _ ht) (bind_eq_of_ok (check_pass ?_) (bind_eq_of_ok (shapeCheck_ok ?_ hk)
    (bind_eq_of_ok (check_pass ?_) (enqueue_ok hq free fun _ => hf))))))
  · simpa using hc
  · cases h : entScaled t.ent <;> simp_all
  · by_cases h : entFmt t.ent = 10
    · simp [hcb h]
    · simp [h]

end

section
variable {d : BitVec 2} {a : Reg} (g : s.going) (hq : s.k.mq.length < 16) (hl : s.x.lm.getLsbD d.toNat = true)
include g hq hl

theorem execMlatch_ok {t : MArg} (ht : s.x.captureTile a.toNat true = .ok t) (hp : pairOk (entFmt t.ent) (entFmt t.ent) = true)
    (hs : operandShape s.x.fmt t = true) (hk : s.k.tileOk t.desc = true) (free : s.freeFor { s.env.cmd s.m .mlatch with lat := d.toNat, a := t }) :
    exec (.mlatch d a) s = .next (s.queued { s.env.cmd s.m .mlatch with lat := d.toNat, a := t }) := by
  show execMlatch d a s = _
  exact syllable_ok g (bind_eq_of_ok (congrArg _ (captureTile_tile ht).1) (bind_eq_of_ok (check_pass hl) (bind_eq_of_ok (congrArg _ ht)
    (bind_eq_of_ok (check_pass hp) (bind_eq_of_ok (shapeCheck_ok hs hk) (enqueue_ok hq free (by simp)))))))

theorem execMlatchMem_ok {tid : BitVec 8} {t : Nat} (ht : s.x.useEntry tid.toNat = .ok t) (hp : pairOk (entFmt t) (entFmt t) = true)
    (hal : (s.x.sreg a).toNat % 256 = 0) :
    exec (.mlatchMem d a tid) s = .next (s.queued
      { s.env.cmd s.m .mlatchMem with lat := d.toNat, a := { ent := t, cb := s.x.entryTable t }, addr := (s.x.sreg a).toNat }) := by
  show execMlatchMem d a tid s = _
  exact syllable_ok g (bind_eq_of_ok (check_pass hl) (bind_eq_of_ok (congrArg _ ht) (bind_eq_of_ok (check_pass hp)
    (bind_eq_of_ok (check_pass (beq_iff_eq.2 hal)) (enqueue_ok hq (freeFor_of_no_tiles rfl rfl) (by simp))))))

end

/-! ### `mma` (07 R186, R188) -/

section
variable {m : Machine} {c : Nat} {x : Ctx} {acc a b rm pc : Nat} {z0 : Bool} {ta tb : MArg} (ha : x.holdsAcc acc = true)
  (hta : x.captureTile a true = .ok ta) (hsa : operandShape x.fmt ta = true) (hka : (m.core (coreOf c)).tileOk ta.desc = true)
include ha hta hsa hka

theorem mmaCheck_tile (htb : x.captureTile b true = .ok tb) (hp : pairOk (entFmt ta.ent) (entFmt tb.ent) = true) (hsb : operandShape x.fmt tb = true)
    (hkb : (m.core (coreOf c)).tileOk tb.desc = true) (hg : tdG ta.desc ≠ tdG tb.desc) :
    m.mmaCheck c x acc a b false rm z0 pc = .ok { ctx := c, kind := .mma, acc, a := ta, b := tb, rm, z0, fpc := x.fpc, fmt := x.fmt, pc, ti := x.ti } := by
  unfold Machine.mmaCheck
  simp only [needAcc_ok ha, (captureTile_tile hta).1, (captureTile_tile htb).1, hta, htb, concerning_ok, ok_bind, Bool.not_false, Bool.true_or, if_true, Bool.false_eq_true, if_false,
    check_pass, hp, shapeCheck_ok hsa hka, shapeCheck_ok hsb hkb, bne_iff_ne.2 hg]

theorem mmaCheck_latch (hl : x.lm.getLsbD b = true) (hp : ∀ code, m.latchCode c b = some code → pairOk (entFmt ta.ent) code = true) :
    m.mmaCheck c x acc a b true rm z0 pc =
      .ok { ctx := c, kind := .mma, acc, a := ta, b := { reg := b, latch := true }, rm, z0, fpc := x.fpc, fmt := x.fmt, pc, ti := x.ti } := by
  unfold Machine.mmaCheck
  simp only [needAcc_ok ha, (captureTile_tile hta).1, hta, concerning_ok, ok_bind, Bool.not_true, Bool.false_or, if_true, Bool.false_eq_true, if_false, check_pass hl]
  cases h : m.latchCode c b with
  | none => simp only [check_pass, ok_bind, shapeCheck_ok hsa hka]
  | some code => simp only [check_pass (hp code h), ok_bind, shapeCheck_ok hsa hka]

end

section
variable {d rm : BitVec 3} {a : Reg} {z0 : Bool} {q : MCmd} (g : s.going) (hq : s.k.mq.length < 16)
include g hq

theorem execMma_tile {b : Reg} (h : s.start.mmaCheck s.c s.x d.toNat a.toNat b.toNat false (capturedRm s.x rm) z0 s.m.bun.pc.toNat = .ok q)
    (hf : s.start.followInto s.c q.acc = false) (free : s.freeFor { q with clk := s.k.cycle.toNat }) :
    exec (.mma d a (.tile b) rm z0) s = .next (s.queued { q with clk := s.k.cycle.toNat }) := by
  show execMma d a (.tile b) rm z0 s = _
  exact syllable_ok g (bind_eq_of_ok h (enqueue_ok hq free fun _ => hf))

theorem execMma_latch {l : BitVec 2} (h : s.start.mmaCheck s.c s.x d.toNat a.toNat l.toNat true (capturedRm s.x rm) z0 s.m.bun.pc.toNat = .ok q)
    (hf : s.start.followInto s.c q.acc = false) (free : s.freeFor { q with clk := s.k.cycle.toNat }) :
    exec (.mma d a (.latch l) rm z0) s = .next (s.queued { q with clk := s.k.cycle.toNat }) := by
  show execMma d a (.latch l) rm z0 s = _
  exact syllable_ok g (bind_eq_of_ok h (enqueue_ok hq free fun _ => hf))

end

end

/-- Settles O23: each syllable's checks pass in their order, and its command joins the queue. -/
theorem matrixCommands : Obligations.MatrixCommands := by
  unfold Obligations.MatrixCommands
  intro s g hq queued ready cmd
  refine ⟨fun d => execMzero_ok g hq, fun d => execMzero_notHeld g, fun d a t ha hf ht hr hb hk => ?_, fun d a rm clr t ha hf ht hc hcb hr hw hs hk free => ?_,
    fun d a t hl ht hp hs hk free => ?_, fun d a tid t hl ht hp hal => ?_,
    fun d a b rm z0 ta tb ha hf hta htb hp hsa hsb hka hkb hg free => ?_, fun d a l rm z0 ta ha hf hta hl hp hsa hka free => ?_⟩
  · have state := stateTile_ok ht hr hb hk
    exact ⟨execMsv_ok g hq ha hf state, execMrst_ok g hq ha hf state⟩
  · exact execMst_ok g hq ha hf ht hc hcb hr hw hs hk free
  · exact execMlatch_ok g hq hl ht hp hs hk free
  · exact execMlatchMem_ok g hq hl ht hp hal
  · exact execMma_tile g hq (mmaCheck_tile ha hta hsa hka htb hp hsb hkb hg) hf free
  · exact execMma_latch g hq (mmaCheck_latch ha hta hsa hka hl hp) hf free

end Sys2Proof.Machine
end

section
/-! SUPPORT. What a copy request captures once its checks pass (07 R174; 08 R204; 02 R33), and the stages of the copy schedule (08 R206, R208). -/

namespace Sys2Proof.Machine

/-! ### Capture -/

theorem tile_ok {x : Ctx} {r d : Nat} (h : x.tile r = .ok d) : x.tDef.getLsbD r = true ∧ d = (SMap.get 0 x.t r).toNat := by
  obtain ⟨_, hd, h⟩ := bind_eq_ok.1 h
  cases h
  exact ⟨check_ok hd, rfl⟩

theorem useEntry_ok {x : Ctx} {n e : Nat} (h : x.useEntry n = .ok e) : e = x.entry n ∧ entV e = true := by
  obtain ⟨_, hv, h⟩ := bind_eq_ok.1 h
  cases h
  exact ⟨rfl, (Bool.and_eq_true_iff.1 (check_ok hv)).1⟩

/-- The memory entry of a transfer: that of the request, with two dimensions exchanged for a transposition (08 R207). -/
def CopyReq.memEntry (r : CopyReq) (e : Nat) : Nat := match r.kind with
  | .ttrans _ => entSwap e (bits r.spec 4 4) (bits r.spec 0 4)
  | _ => e

theorem memEntry_plain {r : CopyReq} (h : ∀ up, r.kind ≠ .ttrans up) (e : Nat) : r.memEntry e = e := by
  unfold CopyReq.memEntry
  cases hk : r.kind with
  | ttrans up => exact absurd hk (h up)
  | _ => rfl

/-- A transfer as it stands when a request has passed its checks, with a follow-on command or none (08 R204, R205). -/
def CopyReq.xfer (r : CopyReq) (x : Ctx) (desc mE tE : Nat) (follow : Option MCmd) : Xfer :=
  { ch := r.ch, id := 0, kind := r.kind, reg := r.d, lay := r.lay, desc, mEnt := mE, tEnt := tE, mCb := x.entryTable mE, tCb := x.entryTable tE,
    fpc := x.fpc, fmt := x.fmt, base := r.base, aux := r.aux, pc := r.pc, ti := x.ti, follow }

theorem copyCheck_ok {m : Machine} {c : Nat} {x : Ctx} {r : CopyReq} {t : Xfer} (h : m.copyCheck c x r = .ok t) :
    ∃ desc e tE follow, x.tile r.d = .ok desc ∧ x.useEntry r.tid = .ok e ∧ x.useEntry (tdTid desc) = .ok tE ∧ (m.core (coreOf c)).tileOk desc = true ∧
      t = r.xfer x desc (r.memEntry e) tE follow := by
  unfold Machine.copyCheck at h
  cases hb : r.specBad.min? with
  | some i => simp [hb, raise] at h
  | none =>
    simp only [hb] at h
    obtain ⟨desc, htile, h⟩ := bind_eq_ok.1 h
    obtain ⟨e, hmem, h⟩ := bind_eq_ok.1 h
    obtain ⟨tE, hten, h⟩ := bind_eq_ok.1 h
    obtain ⟨_, -, h⟩ := bind_eq_ok.1 h
    obtain ⟨_, -, h⟩ := bind_eq_ok.1 h
    obtain ⟨_, hbank, h⟩ := bind_eq_ok.1 h
    obtain ⟨_, -, h⟩ := bind_eq_ok.1 h
    obtain ⟨_, -, h⟩ := bind_eq_ok.1 h
    suffices H : ∃ follow, t = r.xfer x desc (r.memEntry e) tE follow by
      obtain ⟨follow, ht⟩ := H
      exact ⟨desc, e, tE, follow, htile, hmem, hten, check_ok hbank, ht⟩
    split at h
    · split at h
      all_goals
        obtain ⟨q, -, h⟩ := bind_eq_ok.1 h
        exact ⟨some q, (Except.ok.inj h).symm⟩
    · exact ⟨none, (Except.ok.inj h).symm⟩

/-! ### Stages -/

/-- The entries of the schedule that a stage predicate names, with their places (08 R208). -/
def Ctx.stageEntries (x : Ctx) (stage : Nat → Bool) : List (Nat × Nat) := x.sched.zipIdx.filter fun p => stage (schedStg p.1)

/-- The form of a schedule entry after the one before it. -/
def Ctx.formOk (x : Ctx) (p : Nat × Nat) : Bool := schedOk (if p.2 = 0 then 0 else schedStg (x.sched.getD (p.2 - 1) 0)) p.1

/-- The transfer that a schedule entry becomes; whatever fails is COPY_SCHEDULE with the entry's place. -/
def Machine.entryXfer (m0 : Machine) (c : Nat) (x : Ctx) (p : Nat × Nat) : Res Xfer :=
  if !x.formOk p then raise 0x23 p.2
  else match m0.copyCheck c x (schedReq x p.2 p.1) with
    | .error (.trap _) => raise 0x23 p.2
    | r => r

/-- All due entries are checked before any of them issues. -/
theorem runSchedule_eq (m0 m : Machine) (c : Nat) (x : Ctx) (stage : Nat → Bool) : Machine.runSchedule m0 m c x stage =
    ((x.stageEntries stage).mapM (m0.entryXfer c x) >>= fun ts => ts.foldlM (fun (m : Machine) t => Machine.issueXfer m0 m c t) m) := rfl

section
variable {m0 m m' : Machine} {c : Nat} {x : Ctx} {stage : Nat → Bool} {p : Nat × Nat} {rest : List (Nat × Nat)} {t : Xfer}

theorem entryXfer_ok (hf : x.formOk p = true) (hc : m0.copyCheck c x (schedReq x p.2 p.1) = .ok t) : m0.entryXfer c x p = .ok t := by
  simp only [Machine.entryXfer, hf, hc, Bool.not_true, Bool.false_eq_true, if_false]

theorem entryXfer_bad (bad : x.formOk p = false ∨ ∃ k, m0.copyCheck c x (schedReq x p.2 p.1) = .error (.trap k)) :
    m0.entryXfer c x p = .error (.trap { code := 0x23, i0 := p.2 }) := by
  unfold Machine.entryXfer
  cases hf : x.formOk p with
  | false => rfl
  | true =>
    obtain ⟨k, hk⟩ := bad.resolve_left (by rw [hf]; exact Bool.noConfusion)
    rw [hk]
    rfl

theorem runSchedule_none (h : x.stageEntries stage = []) : Machine.runSchedule m0 m c x stage = .ok m := by
  rw [runSchedule_eq, h]
  rfl

/-- The first entry that is ill-formed or fails a check stops them all. -/
theorem runSchedule_bad (h : x.stageEntries stage = p :: rest) (bad : x.formOk p = false ∨ ∃ k, m0.copyCheck c x (schedReq x p.2 p.1) = .error (.trap k)) :
    Machine.runSchedule m0 m c x stage = .error (.trap { code := 0x23, i0 := p.2 }) := by
  rw [runSchedule_eq, h, List.mapM_cons, entryXfer_bad bad, error_bind, error_bind]

theorem runSchedule_one (h : x.stageEntries stage = [p]) (hf : x.formOk p = true) (hc : m0.copyCheck c x (schedReq x p.2 p.1) = .ok t)
    (hi : Machine.issueXfer m0 m c t = .ok m') : Machine.runSchedule m0 m c x stage = .ok m' := by
  rw [runSchedule_eq, h, List.mapM_cons, entryXfer_ok hf hc]
  exact bind_eq_of_ok (a := [t]) rfl (bind_eq_of_ok hi rfl)

end

/-- The stages that `tstage` issues when STAGE goes up to `n`: those above the old value, and stage 0 where it is due (08 R206, R208). -/
def Ctx.stagesTo (x : Ctx) (n g : Nat) : Bool := g ≤ n && (decide ((x.cr 0x24).toNat < g) || (g == 0 && x.stageZeroDue))

section
variable {s : State} {b : Src}

theorem exec_tstage (b : Src) (s : State) : exec (.tstage b) s = execTstage b s := rfl

theorem execTstage_beyond (g : s.going) (h : 65535 < (s.x.cr 0x24).toNat + (s.x.src b).toNat) :
    exec (.tstage b) s = .next (s.trapped { code := 0x23, i0 := (s.x.cr 0x24).toNat + (s.x.src b).toNat }) := by
  rw [exec_tstage]
  exact syllable_trap g (congrArg (· >>= _) (check_fail (decide_eq_false (Nat.not_le.2 h))))

theorem execTstage_zero (g : s.going) (h : (s.x.cr 0x24).toNat + (s.x.src b).toNat ≤ 65535) (hb : s.x.src b = 0) : exec (.tstage b) s = .next s := by
  rw [exec_tstage]
  exact syllable_ok g (bind_eq_of_ok (check_pass (decide_eq_true h)) (if_pos hb))

section
variable (g : s.going) (h : (s.x.cr 0x24).toNat + (s.x.src b).toNat ≤ 65535) (hb : s.x.src b ≠ 0)
include g h hb

theorem execTstage_moved {m : Machine} (hr : Machine.runSchedule s.start s.m s.c s.x (s.x.stagesTo ((s.x.cr 0x24).toNat + (s.x.src b).toNat)) = .ok m) :
    exec (.tstage b) s = .next (s.withM
      { (m.onCtx s.c fun x => x.setCr 0x24 (.ofNat 64 ((s.x.cr 0x24).toNat + (s.x.src b).toNat))) with bun := { m.bun with stage0 := true } }) := by
  rw [exec_tstage]
  exact syllable_ok g (bind_eq_of_ok (check_pass (decide_eq_true h)) ((if_neg hb).trans (bind_eq_of_ok hr rfl)))

theorem execTstage_trap {k : Cause} (hr : Machine.runSchedule s.start s.m s.c s.x (s.x.stagesTo ((s.x.cr 0x24).toNat + (s.x.src b).toNat)) = .error (.trap k)) :
    exec (.tstage b) s = .next (s.trapped k) := by
  rw [exec_tstage]
  exact syllable_trap g (bind_eq_of_ok (check_pass (decide_eq_true h)) ((if_neg hb).trans (congrArg (· >>= _) hr)))

end

end

/-- Settles O26: a checked request's transfer is read off its checks; `tstage` by the schedule entries that fall due. -/
theorem copyCaptureAndStages : Obligations.CopyCaptureAndStages := by
  unfold Obligations.CopyCaptureAndStages
  refine ⟨fun m c x r t h => ?_, fun s b g => ?_⟩
  · obtain ⟨desc, e, tE, follow, htile, hmem, hten, hbank, rfl⟩ := copyCheck_ok h
    obtain ⟨hdef, hdesc⟩ := tile_ok htile
    obtain ⟨rfl, hv⟩ := useEntry_ok hmem
    obtain ⟨htE, htv⟩ := useEntry_ok hten
    refine ⟨hdef, hdesc, rfl, rfl, rfl, rfl, rfl, rfl, rfl, rfl, rfl, rfl, htE, htv, fun hk => ?_, hbank⟩
    have plain := memEntry_plain hk (x.entry r.tid)
    exact ⟨plain, plain.symm ▸ hv⟩
  · intro n
    refine ⟨execTstage_beyond g, execTstage_zero g, fun h hb => ?_⟩
    intro stage moved todo form
    exact ⟨fun ht => execTstage_moved g h hb (runSchedule_none ht), fun p rest ht bad => execTstage_trap g h hb (runSchedule_bad ht bad),
      fun p t m ht hf hc hi => execTstage_moved g h hb (runSchedule_one ht hf hc hi), fun m hr => execTstage_moved g h hb hr⟩

end Sys2Proof.Machine
end

section
/-! SUPPORT. Statistics instructions over their lanes: what each writes once every triple it uses is well formed, and the cause of the first lane that is not (06 R155-R165). -/

namespace Sys2Proof.Machine

/-! ### Lanes in order -/

/-- A part that fails is the failure of the whole. -/
theorem bind_eq_of_error {ε α β : Type} {x : Except ε α} {f : α → Except ε β} {e : ε} (h : x = .error e) : (x >>= f) = .error e := by
  rw [h]; rfl

/-- The first lane that stops, behind lanes that have values, stops the instruction (log 72). -/
theorem forLanes_trap {α : Type} {f : Nat → Res α} {v : Nat → α} {pre post : List Nat} {g : Nat} {k : Stop} (hv : ∀ h ∈ pre, f h = .ok (v h)) (hg : f g = .error k) :
    forLanes f (pre ++ g :: post) = .error k := by
  induction pre with
  | nil => exact forLanes_trap_head hg
  | cons a as ih =>
    obtain ⟨ha, has⟩ := List.forall_mem_cons.1 hv
    simp only [List.cons_append, forLanes, ha, ih has, ok_bind, error_bind]

section
variable {s : State} {o : VOp} {m : Machine} {pop : List Word}

/-- A syllable whose meaning ends in issuing triples. -/
theorem syllable_triples {f : Env → Machine → Res Machine} {lat : Nat} {rs : List (Nat × Triple × Nat)} (gg : s.going) (r : lat ≤ 1 ∨ s.roomIn m)
    (e : f s.env s.m = m.statResult s.env o lat rs) : syllable f s = .next (s.triplesOut m o lat rs) := by
  rw [← withM_triplesOut]
  exact syllable_ok gg (e.trans (statResult_ok r))

/-! ### Clearing and updating (06 R157, R158, R163, R164) -/

theorem exec_qclr (sl : VSlot) (o : VOp) (s : State) : exec (.qclr sl o) s = execQclr sl o s := rfl
theorem exec_qupd (sl : VSlot) (o : VOp) (s : State) : exec (.qupd sl o) s = execQupd sl o s := rfl
theorem exec_qupw (sl : VSlot) (o : VOp) (s : State) : exec (.qupw sl o) s = execQupw sl o s := rfl

theorem execQclr_ok (sl : VSlot) (gg : s.going) : exec (.qclr sl o) s = .next (s.triplesOut s.m o 1 ((s.x.lanes o.ms o.ce).map fun g => (g, .empty, 0))) := by
  rw [exec_qclr]
  exact syllable_triples gg (.inl (Nat.le_refl 1)) rfl

theorem execQupd_ok (sl : VSlot) (gg : s.going) (r : s.roomIn m) (hp : s.m.popIf s.env (isV63 o.a) = .ok (m, pop))
    (hm : ∀ g ∈ s.x.lanes o.ms o.ce, (s.x.qlane o.d.toNat g).malformed = false) {X : Nat → Nat}
    (hx : ∀ g ∈ s.x.lanes o.ms o.ce, updateSource s.env pop o o.a g = .ok (X g)) :
    exec (.qupd sl o) s = .next (s.triplesOut m o 16 ((s.x.lanes o.ms o.ce).map fun g =>
      (g, ((s.x.qlane o.d.toNat g).update (X g)).1, ((s.x.qlane o.d.toNat g).update (X g)).2 ||| updateFlags s.env pop o o.a g))) := by
  rw [exec_qupd]
  refine syllable_triples gg (.inr r) (bind_eq_of_ok hp (bind_eq_of_ok (forLanes_ok fun g hg => ?_) rfl))
  exact bind_eq_of_ok (readTriple_ok (hm g hg)) (bind_eq_of_ok (hx g hg) rfl)

section
variable {g X W : Nat} (hm : (s.x.qlane o.d.toNat g).malformed = false) (hw : updateSource s.env pop o o.b g = .ok W)
include hm hw

theorem weighLane_ok (hb : badWeight W = false) (hx : (Fp.d.unpack W).isZero = false → updateSource s.env pop o o.a g = .ok X) :
    weighLane s.env pop o g = .ok (if (Fp.d.unpack W).isZero then (s.x.qlane o.d.toNat g, 0)
      else (((s.x.qlane o.d.toNat g).updateW X W).1, ((s.x.qlane o.d.toNat g).updateW X W).2 ||| updateFlags s.env pop o o.a g)) := by
  refine bind_eq_of_ok (readTriple_ok hm) (bind_eq_of_ok hw (bind_eq_of_ok (check_pass (by simp [hb])) ?_))
  cases hz : (Fp.d.unpack W).isZero with
  | true => rfl
  | false => exact bind_eq_of_ok (hx hz) rfl

theorem weighLane_badWeight (hb : badWeight W = true) : weighLane s.env pop o g = .error (.trap { code := 0x1E, i0 := some 2, i2 := g }) :=
  bind_eq_of_ok (readTriple_ok hm) (bind_eq_of_ok hw (bind_eq_of_error (check_fail (by simp [hb]))))

end

section
variable (sl : VSlot) (gg : s.going) (hp : s.m.popIf s.env (isV63 o.a || isV63 o.b) = .ok (m, pop)) {X W : Nat → Nat}
include gg hp

theorem execQupw_ok (r : s.roomIn m) (hw : ∀ g ∈ s.x.lanes o.ms o.ce, updateSource s.env pop o o.b g = .ok (W g))
    (h : ∀ g ∈ s.x.lanes o.ms o.ce, (s.x.qlane o.d.toNat g).malformed = false ∧ badWeight (W g) = false ∧
      ((Fp.d.unpack (W g)).isZero = false → updateSource s.env pop o o.a g = .ok (X g))) :
    exec (.qupw sl o) s = .next (s.triplesOut m o 20 ((s.x.lanes o.ms o.ce).map fun g =>
      (g, if (Fp.d.unpack (W g)).isZero then (s.x.qlane o.d.toNat g, 0)
        else (((s.x.qlane o.d.toNat g).updateW (X g) (W g)).1, ((s.x.qlane o.d.toNat g).updateW (X g) (W g)).2 ||| updateFlags s.env pop o o.a g)))) := by
  rw [exec_qupw]
  refine syllable_triples gg (.inr r) (bind_eq_of_ok hp (bind_eq_of_ok (forLanes_ok fun g hg => ?_) rfl))
  obtain ⟨hm, hb, hx⟩ := h g hg
  exact weighLane_ok hm (hw g hg) hb hx

theorem execQupw_badWeight {g : Nat} {ls : List Nat} (hl : s.x.lanes o.ms o.ce = g :: ls) (hw : updateSource s.env pop o o.b g = .ok (W g))
    (hm : (s.x.qlane o.d.toNat g).malformed = false) (hb : badWeight (W g) = true) :
    exec (.qupw sl o) s = .next (s.trapped { code := 0x1E, i0 := some 2, i2 := g }) := by
  rw [exec_qupw]
  refine syllable_trap gg (bind_eq_of_ok hp (bind_eq_of_error ?_))
  rw [env_x, hl]
  exact forLanes_trap_head (weighLane_badWeight hm hw hb)

end

/-! ### Merging and reducing (06 R159, R161) -/

theorem exec_qmrg (sl : VSlot) (o : VOp) (s : State) : exec (.qmrg sl o) s = execQmrg sl o s := rfl
theorem exec_qred (sl : VSlot) (o : VOp) (s : State) : exec (.qred sl o) s = execQred sl o s := rfl

theorem execQmrg_ok (sl : VSlot) (gg : s.going) (r : s.room)
    (h : ∀ g ∈ s.x.lanes o.ms o.ce, (s.x.qlane (qNum o.a) g).malformed = false ∧ (s.x.qlane (qNum o.b) g).malformed = false) :
    exec (.qmrg sl o) s = .next (s.triplesOut s.m o 16 ((s.x.lanes o.ms o.ce).map fun g => (g, (s.x.qlane (qNum o.a) g).merge (s.x.qlane (qNum o.b) g)))) := by
  rw [exec_qmrg]
  refine syllable_triples gg (.inr r) (bind_eq_of_ok (forLanes_ok fun g hg => ?_) rfl)
  obtain ⟨ha, hb⟩ := h g hg
  exact bind_eq_of_ok (readTriple_ok ha) (bind_eq_of_ok (readTriple_ok hb) rfl)

theorem execQmrg_malformed (sl : VSlot) (gg : s.going) {g : Nat} {ls : List Nat} (hl : s.x.lanes o.ms o.ce = g :: ls) (hm : (s.x.qlane (qNum o.a) g).malformed = true) :
    exec (.qmrg sl o) s = .next (s.trapped { code := 0x1E, i0 := some 1, i1 := qNum o.a, i2 := g }) := by
  rw [exec_qmrg]
  refine syllable_trap gg (bind_eq_of_error ?_)
  rw [env_x, hl]
  exact forLanes_trap_head (bind_eq_of_error (readTriple_trap hm))

theorem execQred_ok (sl : VSlot) (gg : s.going) (r : s.room) (h : ∀ g ∈ s.x.lanes o.ms o.ce, (s.x.qlane (qNum o.a) g).malformed = false) :
    let on (c l : Nat) : Bool := s.x.mbit o.ms.toNat (16 * c + l)
    exec (.qred sl o) s = .next (s.triplesOut s.m o 64 ((clusters o.ce).flatMap fun c =>
      let t := mergeTree ((List.range 16).map fun l => if on c l then some (s.x.qlane (qNum o.a) (16 * c + l)) else none)
      ((List.range 16).filter (on c)).map fun l => (16 * c + l, t))) := by
  rw [exec_qred]
  exact syllable_triples gg (.inr r) (bind_eq_of_ok (forLanes_ok fun g hg => readTriple_ok (h g hg)) rfl)

theorem execQred_malformed (sl : VSlot) (gg : s.going) {pre post : List Nat} {g : Nat} (hl : s.x.lanes o.ms o.ce = pre ++ g :: post)
    (hpre : ∀ h ∈ pre, (s.x.qlane (qNum o.a) h).malformed = false) (hm : (s.x.qlane (qNum o.a) g).malformed = true) :
    exec (.qred sl o) s = .next (s.trapped { code := 0x1E, i0 := some 1, i1 := qNum o.a, i2 := g }) := by
  rw [exec_qred]
  refine syllable_trap gg (bind_eq_of_error ?_)
  rw [env_x, hl]
  exact forLanes_trap (fun h hh => readTriple_ok (hpre h hh)) (readTriple_trap hm)

/-! ### Exchanging (06 R165) -/

/-- The lane of cluster c XOR k at the place of lane `g` of cluster c. -/
def partnerLane (k g : Nat) : Nat := 16 * ((g / 16) ^^^ k) + g % 16

/-- What an exchange gives lane `g`: its partner's triple, or the two merged, the lower cluster as operand a. -/
def exchangeLane (x : Ctx) (merge : Bool) (q k g : Nat) : Nat × Triple × Nat :=
  if !merge then (g, x.qlane q (partnerLane k g), 0)
  else if k = 0 then (g, x.qlane q g, 0)
  else (g, (x.qlane q (min g (partnerLane k g))).merge (x.qlane q (max g (partnerLane k g))))

theorem exchangeLane_self {x : Ctx} {q k g : Nat} (hk : k = 0) : exchangeLane x true q k g = (g, x.qlane q g, 0) := if_pos hk

theorem exchangeLane_other {x : Ctx} {q k g : Nat} (hk : k ≠ 0) :
    exchangeLane x true q k g = (g, (x.qlane q (min g (partnerLane k g))).merge (x.qlane q (max g (partnerLane k g)))) := if_neg hk

/-- Every lane that an exchange reads is a lane in use or the partner of one. -/
theorem readTriple_exchange {q k : Nat} {on : List Nat} (h : ∀ g ∈ on, (s.x.qlane q g).malformed = false ∧ (s.x.qlane q (partnerLane k g)).malformed = false) :
    ∀ g ∈ (List.range 128).filter (fun g => on.contains g || on.any fun h => partnerLane k h == g), readTriple s.env q g = .ok (s.x.qlane q g) := by
  intro g hg
  simp only [List.mem_filter, Bool.or_eq_true, List.contains_iff_mem, List.any_eq_true, beq_iff_eq] at hg
  obtain ⟨-, hon | ⟨p, hp, rfl⟩⟩ := hg
  · exact readTriple_ok (h g hon).1
  · exact readTriple_ok (h p hp).2

section
variable (gg : s.going) (r : s.room) (h : ∀ g ∈ s.x.lanes o.ms o.ce, (s.x.qlane (qNum o.a) g).malformed = false ∧
  (s.x.qlane (qNum o.a) (partnerLane ((s.x.src o.b).toNat % 8) g)).malformed = false)
include gg r h

theorem exchange_ok (merge : Bool) :
    exchange merge o s = .next (s.triplesOut s.m o 18 ((s.x.lanes o.ms o.ce).map (exchangeLane s.x merge (qNum o.a) ((s.x.src o.b).toNat % 8)))) :=
  syllable_triples gg (.inr r) (bind_eq_of_ok (forLanes_ok (readTriple_exchange h)) rfl)

theorem execQxc_ok (sl : VSlot) : exec (.qxc sl o) s = .next (s.triplesOut s.m o 18 ((s.x.lanes o.ms o.ce).map fun g =>
    (g, s.x.qlane (qNum o.a) (partnerLane ((s.x.src o.b).toNat % 8) g), 0))) :=
  exchange_ok gg r h false

theorem execQxcMerge_self (sl : VSlot) (hk : (s.x.src o.b).toNat % 8 = 0) :
    exec (.qxcMerge sl o) s = .next (s.triplesOut s.m o 18 ((s.x.lanes o.ms o.ce).map fun g => (g, s.x.qlane (qNum o.a) g, 0))) := by
  refine (exchange_ok gg r h true).trans ?_
  rw [List.map_congr_left fun g _ => exchangeLane_self hk]

theorem execQxcMerge_other (sl : VSlot) (hk : (s.x.src o.b).toNat % 8 ≠ 0) :
    exec (.qxcMerge sl o) s = .next (s.triplesOut s.m o 18 ((s.x.lanes o.ms o.ce).map fun g =>
      let p := partnerLane ((s.x.src o.b).toNat % 8) g
      (g, (s.x.qlane (qNum o.a) (min g p)).merge (s.x.qlane (qNum o.a) (max g p))))) := by
  refine (exchange_ok gg r h true).trans ?_
  rw [List.map_congr_left fun g _ => exchangeLane_other hk]

end

/-! ### Draining (06 R162, R164) -/

theorem exec_qdrn (sl : VSlot) (o : VOp) (s : State) : exec (.qdrn sl o) s = execQdrn sl o s := rfl

theorem execQdrn_ok (sl : VSlot) (gg : s.going) (r : s.roomIn m) :
    let f := o.f.toNat
    let B (g : Nat) : Nat := if f = 5 ∨ f = 7 then s.x.elem pop s.x.nf 0 o.b g else 0
    let E (g : Nat) : Nat := if f = 5 then B g else if f = 7 then (s.x.vsrc pop o.c g).toNat else 0
    s.m.popIf s.env (((f == 5 || f == 7) && isV63 o.b) || (f == 7 && o.c == 63)) = .ok (m, pop) →
    (∀ g ∈ s.x.lanes o.ms o.ce, (s.x.qlane (qNum o.a) g).malformed = false) → ((f = 5 ∨ f = 7) → ∀ g ∈ s.x.lanes o.ms o.ce, badEps (E g) = false) →
    exec (.qdrn sl o) s = .next (s.lanesOut m o (if f = 0 ∨ f = 1 ∨ f = 6 then 4 else 16) 0
      ((s.x.lanes o.ms o.ce).map fun g => (g, (s.x.qlane (qNum o.a) g).drain f (B g) (E g)))) := by
  intro f B E hp hm he
  rw [exec_qdrn, ← withM_lanesOut]
  refine syllable_ok gg (bind_eq_of_ok hp (bind_eq_of_ok (forLanes_ok fun g hg => ?_) (vecResult_ok (.inr r))))
  refine bind_eq_of_ok (readTriple_ok (hm g hg)) (bind_eq_of_ok (check_pass ?_) rfl)
  show (!((f == 5 || f == 7) && badEps (E g))) = true
  by_cases hf : f = 5 ∨ f = 7
  · simp [he hf g hg]
  · obtain ⟨h5, h7⟩ := not_or.1 hf
    simp [h5, h7]

end

/-- Settles O19: each instruction by the triples that its lanes read, in ascending order, with the first that is refused as its cause. -/
theorem statistics : Obligations.Statistics := by
  unfold Obligations.Statistics
  intro s sl o m pop gg r lanes q r' D Q
  refine ⟨fun _ => execQclr_ok sl gg, fun hp hm X hx => execQupd_ok sl gg r hp hm hx, fun hp X W hw => ⟨execQupw_ok sl gg hp r hw, fun g ls hl => ?_⟩,
    execQmrg_ok sl gg, execQred_ok sl gg, fun room h => ⟨execQxc_ok gg room h sl, execQxcMerge_self gg room h sl, execQxcMerge_other gg room h sl⟩,
    execQdrn_ok sl gg r, fun pre g post hl hpre hm => ⟨execQred_malformed sl gg hl hpre hm, fun hnil => ?_⟩⟩
  · exact execQupw_badWeight sl gg hp hl (hw g (hl ▸ List.mem_cons_self))
  · subst hnil
    exact execQmrg_malformed sl gg hl hm

end Sys2Proof.Machine
end

section
/-! SUPPORT. How a bytecode operator runs once its own checks are met (11 R259; 12 R280, R287, R290), and the statistics operators of a graph (12 R281, R282; 06 R156-R162). -/

namespace Sys2Proof.Machine

/-! ### Checks and results of the Parser -/

theorem pcheck_pass {ok : Bool} {k : Nat} (h : ok = true) : pcheck ok k = .ok () := if_pos h
theorem pcheck_fail {ok : Bool} {k : Nat} (h : ok = false) : pcheck ok k = .error k := if_neg (by simp [h])

theorem except_map_bind {ε α β γ : Type} (x : Except ε α) (f : α → β) (g : β → Except ε γ) : (x.map f >>= g) = x >>= fun a => g (f a) :=
  bind_map_left f x g

theorem except_bind_ok {ε α β : Type} (x : Except ε α) (f : α → β) : (x >>= fun a => Except.ok (f a)) = x.map f := bind_pure_comp f x

/-- A part that is the image of another hands its values on through the function. -/
theorem bind_eq_of_map {ε α β γ : Type} {y : Except ε β} {x : Except ε α} {f : α → β} {g : β → Except ε γ} {h : α → Except ε γ} (e : y = x.map f)
    (k : ∀ a, g (f a) = h a) : (y >>= g) = (x >>= h) := by
  rw [e, except_map_bind]
  exact bind_congr k

theorem pcheck_cases (ok : Bool) (k : Nat) : pcheck ok k = .ok () ∨ pcheck ok k = .error k := by
  cases ok with
  | true => exact .inl rfl
  | false => exact .inr rfl

/-- Operands that agree on a fuse group pass; all others fail with HANDLE_FAULT (12 R287). -/
theorem fuseGroup_cases (ts : List Tensor) : fuseGroup ts = .ok () ∨ fuseGroup ts = .error 0x39 := pcheck_cases _ _

/-! ### Running an operator -/

section
variable {s : State} {q : Nat} {w : Walk} {f : Machine → Nat → Walk → PRes LbRes}

section
variable (at_ : s.graphAt q w)
include at_

theorem lbRun_error {k : Nat} (h : f s.m q w = .error k) (hk : k ≠ 0) : lbRun f s = .next (s.graphFails q w k) := by
  obtain ⟨ht, hw, hp⟩ := at_
  simp only [lbRun, ht, hw, hp, h, if_neg hk]
  rfl

theorem lbRun_again {m : Machine} (h : f s.m q w = .ok (.again m)) : lbRun f s = .next (s.graphAgain m) := by
  obtain ⟨ht, hw, hp⟩ := at_
  simp only [lbRun, ht, hw, hp, h]
  rfl

theorem lbRun_done {m : Machine} {w' : Walk} (h : f s.m q w = .ok (.done m w')) : lbRun f s = .next (s.graphDone q m w') := by
  obtain ⟨ht, hw, hp⟩ := at_
  simp only [lbRun, ht, hw, hp, h]
  rfl

theorem lbRun_expand {m : Machine} {e : Expansion} (h : f s.m q w = .ok (.expand m e)) : lbRun f s = .next ({ s with m }.expand e) := by
  obtain ⟨ht, hw, -⟩ := at_
  simp only [lbRun, ht, hw, h]

end

section
variable {m : Machine} {o : LbOp} {adv : Nat} {rds wrs : List Tensor} {eff : PRes (Machine × Nat)}

theorem whenReady_fuse (h : fuseGroup (rds ++ wrs) ≠ .ok ()) : whenReady m q o w adv rds wrs eff = .error 0x39 := by
  have hf := (fuseGroup_cases (rds ++ wrs)).resolve_left h
  simp only [whenReady, hf, error_bind]

section
variable (h : fuseGroup (rds ++ wrs) = .ok ())
include h

theorem whenReady_builtin {image : OpImage} (hb : m.builtinOf q o = some image) :
    whenReady m q o w adv rds wrs eff = .ok (.expand m (m.expansion q w o image adv)) := by
  simp only [whenReady, h, hb, ok_bind]

variable (hb : m.builtinOf q o = none)
include hb

theorem whenReady_wait (hr : m.opReady (rds.map (·.root)) (wrs.map (·.root)) = false) : whenReady m q o w adv rds wrs eff = .ok (.again m) := by
  simp [whenReady, h, hb, hr]

theorem whenReady_ready (hr : m.opReady (rds.map (·.root)) (wrs.map (·.root)) = true) :
    whenReady m q o w adv rds wrs eff =
      eff.map fun r => .done r.1 { w.step with flg := w.flg ||| r.2, rngCtr := w.rngCtr + .ofNat 64 adv } := by
  simp only [whenReady, h, hb, hr, ok_bind, if_true]
  exact except_bind_ok eff _

end

/-- An operator whose own checks leave it to wait for its operands runs as an operator of whole tensors. -/
theorem runsWhole_of_whenReady (at_ : s.graphAt q w) {i : Instr} (hi : exec i s = lbRun f s) (hf : f s.m q w = whenReady s.m q o w adv rds wrs eff) :
    s.runsWhole q w o i rds wrs eff adv := by
  unfold State.runsWhole
  rw [hi]
  refine ⟨fun h => ?_, fun h => ⟨fun image hb => ?_, fun hb hr => ?_, fun hb hr => ⟨fun r he => ?_, fun k he hk => ?_⟩⟩⟩
  · exact lbRun_error at_ (hf.trans (whenReady_fuse h)) (by decide)
  · exact lbRun_expand at_ (hf.trans (whenReady_builtin h hb))
  · exact lbRun_again at_ (hf.trans (whenReady_wait h hb hr))
  · exact lbRun_done at_ (hf.trans ((whenReady_ready h hb hr).trans (congrArg _ he)))
  · exact lbRun_error at_ (hf.trans ((whenReady_ready h hb hr).trans (congrArg _ he))) hk

end

end

/-! ### Operands -/

/-- Fields that are used or zero, with MOD and IMM within their low bits, are well formed (12 R277). -/
theorem onlyFields_ok {o : LbOp} {u : Bool × Bool × Bool × Bool} {k j : Nat}
    (hu : ((u.1 || o.d == 0) && (u.2.1 || o.a == 0) && (u.2.2.1 || o.b == 0) && (u.2.2.2 || o.c == 0)) = true) (hk : o.md.toNat < 2 ^ k) (hj : o.imm.toNat < 2 ^ j) :
    onlyFields o u (2 ^ k - 1) (2 ^ j - 1) = .ok () := by
  refine pcheck_pass ?_
  rw [hu, Nat.and_two_pow_sub_one_of_lt_two_pow hk, Nat.and_two_pow_sub_one_of_lt_two_pow hj]
  simp

theorem accepts_ok {top : Nat} {ts : List Tensor} (h : ∀ t ∈ ts, t.fmt ≤ top) : accepts top ts = .ok () :=
  pcheck_pass (List.all_eq_true.2 fun t ht => decide_eq_true (h t ht))

theorem shareOk_apart {permit : Bool} {d : Tensor} {srcs : List Tensor} (h : ∀ t ∈ srcs, t.root ≠ d.root) : shareOk permit d srcs = .ok () :=
  pcheck_pass (List.all_eq_true.2 fun t ht => by simp [h t ht])

theorem axisOk_ok {ax : Nat} {t : Tensor} (h : ax < t.ext.length) : axisOk ax t = .ok () := pcheck_pass (decide_eq_true h)

theorem nfAgree_ok {ts : List Tensor} {nf : NFmt} (h : agreeNf ts = .ok nf) : nfAgree ts = .ok () := bind_eq_of_ok h rfl

/-- An operand that the number 0 leaves out, or that a tensor of KIND 0 is. -/
def Machine.optional (m : Machine) (q : Nat) (w : Walk) (t : Option Tensor) (n : Nat) : Prop :=
  (t = none ∧ n = 0) ∨ ∃ u, t = some u ∧ n ≠ 0 ∧ m.plain q w n = .ok u

/-- The values of an operand, none where it is left out. -/
def Machine.optionalVals (m : Machine) (q : Nat) : Option Tensor → PRes (List RVal)
  | some u => m.readVals q u
  | none => .ok []

section
variable {m : Machine} {q : Nat} {w : Walk} {n : BitVec 12}

/-- What goes on with an operand that may be left out. -/
theorem optional_eq {α : Type} {t : Option Tensor} {g : Option Tensor → PRes α} {r : PRes α} (h : m.optional q w t n.toNat) (e : g t = r) :
    (if n = 0 then Except.ok none >>= g else (m.plain q w n.toNat).map some >>= g) = r := by
  obtain ⟨rfl, hn⟩ | ⟨u, rfl, hn, hu⟩ := h
  · exact (if_pos (BitVec.eq_of_toNat_eq hn)).trans e
  · rw [if_neg fun e => hn (congrArg BitVec.toNat e), hu]
    exact e

/-- What goes on with a function of the values of an operand that may be left out. -/
theorem optionalVals_eq {α β : Type} {t : Option Tensor} {f : List RVal → β} {g : β → PRes α} {h : List RVal → PRes α} (k : ∀ vs, g (f vs) = h vs) :
    (match t with
      | some u => (m.readVals q u).map f >>= g
      | none => Except.ok (f []) >>= g) = m.optionalVals q t >>= h := by
  cases t with
  | none => exact k []
  | some u => exact bind_eq_of_map rfl k

theorem optional_none (h : m.optional q w none n.toNat) : n = 0 := by
  obtain ⟨-, hn⟩ | ⟨u, hu, -, -⟩ := h
  · exact BitVec.eq_of_toNat_eq hn
  · cases hu

theorem optional_some {u : Tensor} (h : m.optional q w (some u) n.toNat) : m.plain q w n.toNat = .ok u := by
  obtain ⟨hu, -⟩ | ⟨u', hu, -, hp⟩ := h
  · cases hu
  · cases hu; exact hp

end

/-! ### `rstats` (12 R282) -/

theorem exec_lbRstats (o : LbOp) (s : State) : exec (.lbRstats o) s = execLbRstats o s := rfl

/-- The effect of `rstats`, as its statement words it. -/
def Machine.rstatsEffect (m : Machine) (q : Nat) (d a : Tensor) (b c : Option Tensor) (ax : Nat) : PRes (Machine × Nat) := do
  let xs ← m.readVals q a
  let ws ← m.optionalVals q b
  let ms ← m.optionalVals q c
  let ts ← (axisLines a.ext ax).mapM fun l => statLine (l.map fun e =>
    { x := (codes64 xs).getD e (0, 0), w := ((codes64 ws).map some).getD e none, skip := (ms.map fun v => v.1.isZero).getD e false })
  let r ← m.writeCodes q d (ts.map fun t => t.1.toNat) []
  .ok (r.1, r.2 ||| ts.foldl (fun f t => f ||| t.2) 0)

section
variable {s : State} {q : Nat} {w : Walk} {o : LbOp} {d a : Tensor} {b c : Option Tensor}
  (at_ : s.graphAt q w) (hd : s.m.target q w o.d.toNat = .ok d) (ha : s.m.plain q w o.a.toNat = .ok a) (hb : s.m.optional q w b o.b.toNat) (hc : s.m.optional q w c o.c.toNat)
include at_ hd ha hb hc

theorem execLbRstats_runs (hmd : o.md.toNat < 8) (himm : o.imm = 0) (hs : ∀ t ∈ a :: (b.toList ++ c.toList), t.fmt ≤ 9 ∧ t.root ≠ d.root ∧ t.ext = a.ext) (hf : d.fmt = 11)
    (hn : ∃ nf, agreeNf (a :: (b.toList ++ c.toList)) = .ok nf) (hax : o.md.toNat % 8 < a.ext.length)
    (he : d.ext = a.ext.set (o.md.toNat % 8) 1) :
    s.runsWhole q w o (.lbRstats o) (a :: (b.toList ++ c.toList)) [d] (s.m.rstatsEffect q d a b c (o.md.toNat % 8)) := by
  rw [Nat.mod_eq_of_lt hmd] at hax he ⊢
  refine runsWhole_of_whenReady at_ (exec_lbRstats o s) ?_
  obtain ⟨nf, hn⟩ := hn
  have hext : (d.ext == a.ext.set o.md.toNat 1 && (a :: (b.toList ++ c.toList)).all fun t => t.ext == a.ext) = true := by
    simp only [he, beq_self_eq_true, Bool.true_and, List.all_eq_true, beq_iff_eq]
    exact fun t ht => (hs t ht).2.2
  refine bind_eq_of_ok (onlyFields_ok (k := 3) (j := 0) rfl hmd (by simp [himm])) (bind_eq_of_ok hd (bind_eq_of_ok ha (optional_eq hb (optional_eq hc ?_))))
  refine bind_eq_of_ok (accepts_ok fun t ht => (hs t ht).1) (bind_eq_of_ok (pcheck_pass (by simp [hf])) (bind_eq_of_ok (nfAgree_ok hn)
    (bind_eq_of_ok (shareOk_apart fun t ht => (hs t ht).2.1) (bind_eq_of_ok (axisOk_ok hax) (bind_eq_of_ok (pcheck_pass hext) (congrArg _ ?_))))))
  exact bind_eq_of_map rfl fun xs => optionalVals_eq (f := fun ws => (codes64 ws).map some) fun ws => optionalVals_eq (f := fun ms => ms.map fun v => v.1.isZero) fun ms => rfl

end

/-! ### `rdrain` (12 R282; 06 R156, R162) -/

theorem exec_lbRdrain (o : LbOp) (s : State) : exec (.lbRdrain o) s = execLbRdrain o s := rfl

/-- The effect of `rdrain`, as its statement words it. -/
def Machine.rdrainEffect (m : Machine) (q : Nat) (d a : Tensor) (b : Option Tensor) (rm : Rm) (opt eps : Nat) : PRes (Machine × Nat) := do
  let cs ← m.readCodes q a
  if ∃ x ∈ cs, (Triple.ofNat x).malformed = true then .error 0x1E
  else do
    let xs ← m.optionalVals q b
    m.writeVals q { rm } d ((cs.map Triple.ofNat).zipIdx.map fun p =>
      joinFlags (of64 (p.1.drain opt ((codes64 xs).getD p.2 (0, 0)).1 eps)) ((codes64 xs).getD p.2 (0, 0)).2)

/-- A tensor of triples is read whole, or refused for a malformed one (06 R156). -/
theorem readTriples_eq {α : Type} {m : Machine} {q : Nat} {t : Tensor} {g : List Triple → PRes α} {h : List Nat → PRes α} (k : ∀ cs, g (cs.map Triple.ofNat) = h cs) :
    (m.readTriples q t >>= g) = m.readCodes q t >>= fun cs => if ∃ x ∈ cs, (Triple.ofNat x).malformed = true then .error 0x1E else h cs := by
  unfold Machine.readTriples
  rw [bind_assoc]
  refine bind_congr fun cs => ?_
  by_cases bad : ∃ x ∈ cs, (Triple.ofNat x).malformed = true
  · rw [if_pos bad]
    exact bind_eq_of_error (bind_eq_of_error (pcheck_fail (by simpa using bad)))
  · rw [if_neg bad]
    exact bind_eq_of_ok (bind_eq_of_ok (pcheck_pass (by simpa using bad)) rfl) (k cs)

/-- What goes on with an operand that exactly one option has. -/
theorem optional_eq_of_iff {α : Type} {m : Machine} {q : Nat} {w : Walk} {n : Nat} {t : Option Tensor} {g : Option Tensor → PRes α} {r : PRes α} {x y : Nat}
    (h : m.optional q w t n) (ht : t ≠ none ↔ x = y) (e : g t = r) : (if x = y then (m.plain q w n).map some >>= g else Except.ok none >>= g) = r := by
  obtain ⟨rfl, -⟩ | ⟨u, rfl, -, hu⟩ := h
  · exact (if_neg fun hx => ht.2 hx rfl).trans e
  · rw [if_pos (ht.1 (by simp)), hu]
    exact e

section
variable {s : State} {q : Nat} {w : Walk} {o : LbOp} {d a : Tensor} {b : Option Tensor} {rm : Rm}
  (hd : s.m.target q w o.d.toNat = .ok d) (ha : s.m.plain q w o.a.toNat = .ok a) (hb : s.m.optional q w b o.b.toNat) (hc : o.c = 0)
  (hrm : lbRm (o.md.toNat / 8) = .ok rm) (hopt : b ≠ none ↔ o.md.toNat % 8 = 7) (hf : a.fmt = 11) (hfs : ∀ t ∈ d :: b.toList, t.fmt ≤ 5)
  (hs : ∀ t ∈ a :: b.toList, t.root ≠ d.root ∧ t.ext = d.ext)
include hd ha hb hc hrm hopt hf hfs hs

/-- `rdrain` up to its epsilon: the checks of its operands pass. -/
theorem execLbRdrain_checked : ∃ f, exec (.lbRdrain o) s = lbRun f s ∧ f s.m q w = (do
    pcheck (!(5 ≤ o.md.toNat % 8 && o.md.toNat % 8 != 6) || !badEps o.imm.toNat) 0x1E
    whenReady s.m q o w 0 (a :: b.toList) [d] (s.m.rdrainEffect q d a b rm (o.md.toNat % 8) o.imm.toNat)) := by
  refine ⟨_, exec_lbRdrain o s, ?_⟩
  have hfields : o.md.toNat % 8 = 7 ∨ o.b = 0 := by
    cases b with
    | none => exact .inr (optional_none hb)
    | some u => exact .inl (hopt.1 (by simp))
  have hext : (d.ext == a.ext && b.toList.all fun t => t.ext == d.ext) = true := by
    simp only [Bool.and_eq_true, beq_iff_eq, List.all_eq_true]
    exact ⟨(hs a List.mem_cons_self).2.symm, fun t ht => (hs t (List.mem_cons_of_mem a ht)).2⟩
  refine bind_eq_of_ok (onlyFields_ok (k := 6) (j := 64) (by simpa [hc] using hfields) o.md.isLt o.imm.isLt) (bind_eq_of_ok hrm (bind_eq_of_ok hd (bind_eq_of_ok ha
    (optional_eq_of_iff hb hopt ?_))))
  refine bind_eq_of_ok (pcheck_pass (by simp [hf])) (bind_eq_of_ok (accepts_ok hfs) (bind_eq_of_ok (shareOk_apart fun t ht => (hs t ht).1)
    (bind_eq_of_ok (pcheck_pass hext) (bind_congr fun _ => congrArg _ ?_))))
  exact readTriples_eq fun cs => optionalVals_eq (f := codes64) fun xs => rfl

variable (at_ : s.graphAt q w)
include at_

theorem execLbRdrain_badEps (ho : o.md.toNat % 8 = 5 ∨ o.md.toNat % 8 = 7) (he : badEps o.imm.toNat = true) : exec (.lbRdrain o) s = .next (s.graphFails q w 0x1E) := by
  obtain ⟨f, hx, hr⟩ := execLbRdrain_checked hd ha hb hc hrm hopt hf hfs hs
  rw [hx]
  refine lbRun_error at_ (hr.trans (bind_eq_of_error (pcheck_fail ?_))) (by decide)
  obtain h | h := ho <;> simp [h, he]

theorem execLbRdrain_runs (he : (o.md.toNat % 8 = 5 ∨ o.md.toNat % 8 = 7) → badEps o.imm.toNat = false) :
    s.runsWhole q w o (.lbRdrain o) (a :: b.toList) [d] (s.m.rdrainEffect q d a b rm (o.md.toNat % 8) o.imm.toNat) := by
  obtain ⟨f, hx, hr⟩ := execLbRdrain_checked hd ha hb hc hrm hopt hf hfs hs
  refine runsWhole_of_whenReady at_ hx (hr.trans (bind_eq_of_ok (pcheck_pass ?_) rfl))
  by_cases ho : o.md.toNat % 8 = 5 ∨ o.md.toNat % 8 = 7
  · simp [he ho]
  · have other : o.md.toNat % 8 < 5 ∨ o.md.toNat % 8 = 6 := by omega
    simpa using .inl other

end

/-! ### `norm` (12 R282; 06 R162) -/

theorem exec_lbNorm (o : LbOp) (s : State) : exec (.lbNorm o) s = execLbNorm o s := rfl

/-- A line of `norm`: each element drained against the line's own triple, times B plus C. -/
def normLine (rm : Rm) (eps : Nat) (bs cs : List RVal) (xs : List FRes) (t : Triple × Nat) : List (RVal × Nat) :=
  xs.zipIdx.map fun p =>
    let y := t.1.drain 7 p.1.1 eps
    let vb := bs.getD p.2 (.zero false, 0)
    let vc := cs.getD p.2 (.zero false, 0)
    joinFlags (liftNan [realOf64 y.1, vb, vc] (match mulVal (realOf64 y.1).1 vb.1 with
      | some v => addReal rm v vc.1
      | none => invalidVal)) (t.2 ||| y.2 ||| p.1.2)

/-- The effect of `norm`, as its statement words it. -/
def Machine.normEffect (m : Machine) (q : Nat) (d a b c : Tensor) (rm : Rm) (ax eps : Nat) : PRes (Machine × Nat) := do
  let xs ← m.readVals q a
  let bs ← m.readVals q b
  let cs ← m.readVals q c
  let rows ← (axisLines a.ext ax).mapM fun l => (statLine (l.map fun e => { x := (codes64 xs).getD e (0, 0) })).map
    (normLine rm eps bs cs (l.map fun e => (codes64 xs).getD e (0, 0)))
  m.writeVals q { rm } d (fromLines a.ext ax ((.zero false, 0), 0) rows)

section
variable {s : State} {q : Nat} {w : Walk} {o : LbOp} {d a b c : Tensor} {rm : Rm}
  (hd : s.m.target q w o.d.toNat = .ok d) (ha : s.m.plain q w o.a.toNat = .ok a) (hb : s.m.plain q w o.b.toNat = .ok b) (hc : s.m.plain q w o.c.toNat = .ok c)
  (hrm : lbRm (o.md.toNat / 8) = .ok rm) (hfs : ∀ t ∈ [d, a, b, c], t.fmt ≤ 5) (hs : ∀ t ∈ [a, b, c], t.root ≠ d.root) (hax : o.md.toNat % 8 < a.ext.length) (hext : d.ext = a.ext)
  (hline : ∀ t ∈ [b, c], t.ext = (List.range a.ext.length).map fun i => if i = o.md.toNat % 8 then a.ext.getD (o.md.toNat % 8) 1 else 1)
include hd ha hb hc hrm hfs hs hax hext hline

/-- `norm` up to its epsilon: the checks of its operands pass. -/
theorem execLbNorm_checked : ∃ f, exec (.lbNorm o) s = lbRun f s ∧ f s.m q w = (do
    pcheck (!badEps o.imm.toNat) 0x1E
    whenReady s.m q o w 0 [a, b, c] [d] (s.m.normEffect q d a b c rm (o.md.toNat % 8) o.imm.toNat)) := by
  refine ⟨_, exec_lbNorm o s, ?_⟩
  refine bind_eq_of_ok (onlyFields_ok (k := 6) (j := 64) rfl o.md.isLt o.imm.isLt) (bind_eq_of_ok hrm (bind_eq_of_ok hd (bind_eq_of_ok ha (bind_eq_of_ok hb
    (bind_eq_of_ok hc ?_)))))
  refine bind_eq_of_ok (accepts_ok hfs) (bind_eq_of_ok (shareOk_apart hs) (bind_eq_of_ok (axisOk_ok hax) (bind_eq_of_ok (pcheck_pass ?_)
    (bind_congr fun _ => congrArg _ ?_))))
  · simp only [hext, hline b (by simp), hline c (by simp), beq_self_eq_true, Bool.and_self]
  · refine bind_eq_of_map rfl fun xs => bind_congr fun bs => bind_congr fun cs => congrArg (· >>= _) (congrArg (List.mapM · _) (funext fun l => ?_))
    simp only [List.map_map]
    exact except_bind_ok _ _

variable (at_ : s.graphAt q w)
include at_

theorem execLbNorm_badEps (he : badEps o.imm.toNat = true) : exec (.lbNorm o) s = .next (s.graphFails q w 0x1E) := by
  obtain ⟨f, hx, hr⟩ := execLbNorm_checked hd ha hb hc hrm hfs hs hax hext hline
  rw [hx]
  exact lbRun_error at_ (hr.trans (bind_eq_of_error (pcheck_fail (by simp [he])))) (by decide)

theorem execLbNorm_runs (he : badEps o.imm.toNat = false) :
    s.runsWhole q w o (.lbNorm o) [a, b, c] [d] (s.m.normEffect q d a b c rm (o.md.toNat % 8) o.imm.toNat) := by
  obtain ⟨f, hx, hr⟩ := execLbNorm_checked hd ha hb hc hrm hfs hs hax hext hline
  exact runsWhole_of_whenReady at_ hx (hr.trans (bind_eq_of_ok (pcheck_pass (by simp [he])) rfl))

end

/-- Settles O38: the checks of each operator pass, and it then runs as an operator of whole tensors with the effect that its rule states. -/
theorem graphStatistics : Obligations.GraphStatistics := by
  unfold Obligations.GraphStatistics
  intro s q w o d a b c at_ hd ha named vals ax hb hc
  refine ⟨execLbRstats_runs at_ hd ha hb hc, fun rm hrm hcn hopt hf hfs hs => ?_, fun rm tb tc hrm hbs hcs hfs hs hax hext hline => ?_⟩
  · subst hcn
    exact ⟨execLbRdrain_badEps hd ha hb (optional_none hc) hrm hopt hf hfs hs at_, execLbRdrain_runs hd ha hb (optional_none hc) hrm hopt hf hfs hs at_⟩
  · subst hbs hcs
    exact ⟨execLbNorm_badEps hd ha (optional_some hb) (optional_some hc) hrm hfs hs hax hext hline at_,
      execLbNorm_runs hd ha (optional_some hb) (optional_some hc) hrm hfs hs hax hext hline at_⟩

end Sys2Proof.Machine
end

section
/-! SUPPORT. Tile registers written when no pending operation uses them (07 R175-R179), and grants of the shared accumulators (07 R183, R184). -/

namespace Sys2Proof.Machine

section
variable {s : State}

/-! ### Tile registers -/

/-- No pending operation reads or writes a tile register (07 R179). -/
def State.tileIdle (s : State) (d : Reg) : Prop := s.start.pendingRead s.c d.toNat = false ∧ s.start.pendingWrite s.c d.toNat = false

theorem scoreboard_tileIdle {d : Reg} (free : s.tileIdle d) : s.start.scoreboard s.c [] [d.toNat] = .ok () :=
  scoreboard_ok (by simp) (by simpa [State.tileIdle] using free)

theorem scoreboard_tileInUse {d : Reg} (used : ¬ s.tileIdle d) : s.start.scoreboard s.c [] [d.toNat] = .error (.hold .busy) := by
  have pending : s.start.pendingRead s.c d.toNat = true ∨ s.start.pendingWrite s.c d.toNat = true :=
    (Decidable.not_and_iff_or_not.1 used).imp eq_true_of_ne_false eq_true_of_ne_false
  exact if_pos (by simpa only [List.any_nil, List.any_cons, Bool.or_false, Bool.false_or, Bool.or_eq_true] using pending)

theorem tile_defined {x : Ctx} {r : Nat} (h : x.tDef.getLsbD r = true) : x.tile r = .ok (SMap.get 0 x.t r).toNat := bind_eq_of_ok (check_pass h) rfl
theorem tile_undefined {x : Ctx} {r : Nat} (h : x.tDef.getLsbD r = false) : x.tile r = .error (.trap { code := 0x15, i0 := r }) := bind_eq_of_error (check_fail h)

/-- The descriptor that `tdef` makes of two scalar registers, low half first (07 R178). -/
def Ctx.tdefDesc (x : Ctx) (a b : Reg) : Nat := (x.sreg b).toNat * 2 ^ 64 + (x.sreg a).toNat

/-- The descriptor that `tmov` copies, with TID replaced where the syllable names one (07 R178). -/
def tmovDesc (v : Nat) (tid : Option (BitVec 8)) : Nat := tid.elim v fun t => v % 2 ^ 120 + t.toNat * 2 ^ 120

theorem tmovDesc_none (v : Nat) : tmovDesc v none = v := rfl
theorem tmovDesc_some (v : Nat) (t : BitVec 8) : tmovDesc v (some t) = v % 2 ^ 120 + t.toNat * 2 ^ 120 := Option.elim_some ..

theorem exec_tdef (d a b : Reg) (s : State) : exec (.tdef d a b) s = execTdef d a b s := rfl
theorem exec_trel (d : Reg) (s : State) : exec (.trel d) s = execTrel d s := rfl
theorem exec_tmov (d a : Reg) (tid : Option (BitVec 8)) (s : State) : exec (.tmov d a tid) s = execTmov d a tid s := rfl

section
variable (g : s.going) {d a b : Reg}
include g

theorem execTdef_ok (ok : tdOk (s.x.tdefDesc a b) = true) (free : s.tileIdle d) :
    exec (.tdef d a b) s = .next (s.withM (s.m.setTile s.c d (some (s.x.tdefDesc a b)))) := by
  rw [exec_tdef]
  exact syllable_ok g (bind_eq_of_ok (check_pass ok) (bind_eq_of_ok (scoreboard_tileIdle free) rfl))

theorem execTdef_malformed (bad : tdOk (s.x.tdefDesc a b) = false) : exec (.tdef d a b) s = .next (s.trapped { code := 0x14, i0 := some 0 }) := by
  rw [exec_tdef]
  exact syllable_trap g (bind_eq_of_error (check_fail bad))

theorem execTdef_inUse (ok : tdOk (s.x.tdefDesc a b) = true) (used : ¬ s.tileIdle d) : exec (.tdef d a b) s = .next (s.heldBy .busy) := by
  rw [exec_tdef]
  exact syllable_hold g (bind_eq_of_ok (check_pass ok) (bind_eq_of_error (scoreboard_tileInUse used)))

theorem execTrel_ok (free : s.tileIdle d) : exec (.trel d) s = .next (s.withM (s.m.setTile s.c d none)) := by
  rw [exec_trel]
  exact syllable_ok g (bind_eq_of_ok (scoreboard_tileIdle free) rfl)

theorem execTrel_inUse (used : ¬ s.tileIdle d) : exec (.trel d) s = .next (s.heldBy .busy) := by
  rw [exec_trel]
  exact syllable_hold g (bind_eq_of_error (scoreboard_tileInUse used))

theorem execTmov_undefined (undef : s.x.tDef.getLsbD a.toNat = false) (tid : Option (BitVec 8)) :
    exec (.tmov d a tid) s = .next (s.trapped { code := 0x15, i0 := a.toNat }) := by
  rw [exec_tmov]
  exact syllable_trap g (bind_eq_of_error (tile_undefined undef))

theorem execTmov_ok (hdef : s.x.tDef.getLsbD a.toNat = true) (free : s.tileIdle d) {tid : Option (BitVec 8)}
    (ok : tdOk (tmovDesc (SMap.get 0 s.x.t a.toNat).toNat tid) = true) :
    exec (.tmov d a tid) s = .next (s.withM (s.m.setTile s.c d (some (tmovDesc (SMap.get 0 s.x.t a.toNat).toNat tid)))) := by
  rw [exec_tmov]
  refine syllable_ok g (bind_eq_of_ok (tile_defined hdef) ?_)
  cases tid with
  | none => exact bind_eq_of_ok (check_pass ok) (bind_eq_of_ok (scoreboard_tileIdle free) rfl)
  | some t =>
    rw [tmovDesc_some] at ok ⊢
    dsimp only [execTmov.setLow]
    exact bind_eq_of_ok (check_pass ok) (bind_eq_of_ok (scoreboard_tileIdle free) rfl)

end

/-! ### Grants of shared accumulators -/

/-- The shared accumulators that `macq` asks for and the context does not hold (07 R184). -/
def Ctx.accNeed (x : Ctx) (mask : BitVec 4) : BitVec 4 := mask &&& ~~~x.accHeld

/-- The requests of the core's pool that are older than the context's own (07 R184). -/
def State.olderWants (s : State) : List (Nat × Nat) := (s.start.poolWants (coreOf s.c)).takeWhile fun p => p.1 != s.c

/-- The machine in which the context has its grant, and no longer asks for it (07 R184). -/
def State.granted (s : State) (need : BitVec 4) : Machine :=
  (s.m.onCore (coreOf s.c) fun k => { k with wants := k.wants.filter fun p => p.1 != s.c }).onCtx s.c fun x =>
    { x.clearShared need with accHeld := s.x.accHeld ||| need }

theorem exec_macq (mask : BitVec 4) (s : State) : exec (.macq mask) s = execMacq mask s := rfl
theorem exec_mrls (mask : BitVec 4) (s : State) : exec (.mrls mask) s = execMrls mask s := rfl

section
variable (g : s.going) {mask : BitVec 4}
include g

theorem execMacq_held (need : s.x.accNeed mask = 0) : exec (.macq mask) s = .next s := by
  rw [exec_macq]
  exact syllable_ok g (if_pos need)

theorem execMacq_holdsOther (need : s.x.accNeed mask ≠ 0) (held : s.x.accHeld ≠ 0) :
    exec (.macq mask) s = .next (s.trapped { code := 0x18, i0 := some 8, i1 := s.x.accHeld.toNat }) := by
  rw [exec_macq]
  exact syllable_trap g ((if_neg need).trans (bind_eq_of_error (check_fail (beq_false_of_ne held))))

section
variable (need : s.x.accNeed mask ≠ 0) (held : s.x.accHeld = 0)
include need held

theorem execMacq_waits (short : s.olderWants ≠ [] ∨ s.start.poolFree (coreOf s.c) < popcount4 (s.x.accNeed mask)) :
    exec (.macq mask) s = .next (s.heldBy (.grant mask.toNat)) := by
  rw [exec_macq]
  exact syllable_hold g ((if_neg need).trans (bind_eq_of_ok (check_pass (beq_iff_eq.2 held)) (if_pos short)))

theorem execMacq_grants (first : s.olderWants = []) (enough : popcount4 (s.x.accNeed mask) ≤ s.start.poolFree (coreOf s.c)) :
    exec (.macq mask) s = .next (s.withM (s.granted (s.x.accNeed mask))) := by
  have notShort : ¬ (s.olderWants ≠ [] ∨ s.start.poolFree (coreOf s.c) < popcount4 (s.x.accNeed mask)) :=
    fun short => short.elim (· first) (Nat.not_lt.2 enough)
  rw [exec_macq]
  exact syllable_ok g ((if_neg need).trans (bind_eq_of_ok (check_pass (beq_iff_eq.2 held)) (if_neg notShort)))

end

theorem execMrls_idle (idle : ∀ i < 4, mask.getLsbD i = true → s.start.accBusy s.c (4 + i) = false) :
    exec (.mrls mask) s = .next (s.withM (s.m.onCtx s.c fun x => { x.clearShared mask with accHeld := x.accHeld &&& ~~~mask })) := by
  have noneBusy : ((List.range 4).any fun i => mask.getLsbD i && s.start.accBusy s.c (4 + i)) = false :=
    List.any_eq_false.2 fun i hi => by simpa using idle i (List.mem_range.1 hi)
  rw [exec_mrls]
  exact syllable_ok g (if_neg (Bool.eq_false_iff.1 noneBusy))

theorem execMrls_busy {i : Nat} (hi : i < 4) (named : mask.getLsbD i = true) (busy : s.start.accBusy s.c (4 + i) = true) :
    exec (.mrls mask) s = .next (s.heldBy .busy) := by
  have someBusy : ((List.range 4).any fun i => mask.getLsbD i && s.start.accBusy s.c (4 + i)) = true :=
    List.any_eq_true.2 ⟨i, List.mem_range.2 hi, by simp [named, busy]⟩
  rw [exec_mrls]
  exact syllable_hold g (if_pos someBusy)

end

end

/-- Settles O22: the writers of tile registers by their checks and the register's use, the grant by what the context holds and the pool has free. -/
theorem tilesAndGrants : Obligations.TilesAndGrants := by
  unfold Obligations.TilesAndGrants
  refine ⟨fun s d a b g => ?_, fun s mask g => ?_⟩
  · intro v free put
    refine ⟨execTdef_ok g, execTdef_malformed g, execTdef_inUse g, execTrel_ok g, execTrel_inUse g, execTmov_undefined g, fun hdef idle => ?_⟩
    refine ⟨fun ok => execTmov_ok g hdef idle (tid := none) ok, fun t ok => ?_⟩
    rw [← tmovDesc_some] at ok ⊢
    exact execTmov_ok g hdef idle ok
  · intro need older
    exact ⟨execMacq_held g, execMacq_holdsOther g, execMacq_waits g, execMacq_grants g, execMrls_idle g, fun i hi named busy => execMrls_busy g hi named busy⟩

end Sys2Proof.Machine
end

section
/-! SUPPORT. Copy syllables whose request passes its checks join a channel of the context or a privileged one of its core (08 R193, R194, R205, R209). -/

namespace Sys2Proof.Machine

/-! ### Reading back a listed value -/

/-- A value that differs from what an unlisted key reads as is read back from any map, whatever the order of its keys. -/
theorem SMap.get_set_of_ne {β : Type} [DecidableEq β] {d x : β} (m : SMap β) (k : Nat) (ne : x ≠ d) : SMap.get d (SMap.set d m k x) k = x := by
  induction m with
  | nil => simp [SMap.set, SMap.get, ne]
  | cons p m ih =>
    obtain ⟨i, v⟩ := p
    rcases Nat.lt_trichotomy i k with below | same | above
    · simp [SMap.set, SMap.get, below, Nat.ne_of_lt below, Nat.lt_asymm below, ih]
    · simp [SMap.set, SMap.get, same, ne]
    · simp [SMap.set, SMap.get, ne, Nat.lt_asymm above, Nat.ne_of_gt above]

/-- A context that has issued an operation is no context that nothing was ever written to, so it is read back. -/
theorem setCtx_ctx_issued (m : Machine) (c : Nat) (x : Ctx) (n : Nat) : (m.setCtx c { x with opSeq := n + 1 }).ctx c = { x with opSeq := n + 1 } :=
  SMap.get_set_of_ne m.ctxs c fun fresh => Nat.succ_ne_zero n (congrArg Ctx.opSeq fresh)

/-! ### The channels -/

/-- No pending operation has a role that conflicts with those of a transfer (07 R179; 08 R202). -/
def State.freeForXfer (s : State) (t : Xfer) : Prop :=
  (∀ r ∈ t.roles.1, s.start.pendingWrite s.c r = false) ∧ ∀ r ∈ t.roles.2, s.start.pendingRead s.c r = false ∧ s.start.pendingWrite s.c r = false

/-- A role that conflicts with a pending operation holds the bundle (07 R179). -/
theorem scoreboard_busy {m : Machine} {c : Nat} {reads writes : List Nat}
    (used : ¬ ((∀ r ∈ reads, m.pendingWrite c r = false) ∧ ∀ r ∈ writes, m.pendingRead c r = false ∧ m.pendingWrite c r = false)) :
    m.scoreboard c reads writes = .error (.hold .busy) := by
  refine if_pos (Decidable.byContradiction fun quiet => used ?_)
  simpa only [Bool.or_eq_true, not_or, Bool.not_eq_true, List.any_eq_false, Bool.or_eq_false_iff] using quiet

section
variable {s : State} {t : Xfer}

/-- A checked transfer joins a channel of the context, or a privileged one of its core (08 R205, R209). -/
def State.issueCopy (s : State) (prv : Bool) (t : Xfer) : Res Machine :=
  if prv then Machine.issuePriv s.start s.m s.c t else Machine.issueXfer s.start s.m s.c t

theorem issueCopy_busy (prv : Bool) (used : ¬ s.freeForXfer t) : s.issueCopy prv t = .error (.hold .busy) := by
  have held := scoreboard_busy used
  cases prv with
  | false => exact bind_eq_of_error held
  | true => exact bind_eq_of_error held

section
variable (free : s.freeForXfer t)
include free

theorem issueCopy_channel_full (full : 64 ≤ (s.cur.xfers.filter fun u => u.ch == t.ch && !u.isFire).length) :
    s.issueCopy false t = .error (.hold .busy) :=
  bind_eq_of_ok (scoreboard_ok free.1 free.2) (if_pos full)

theorem issueCopy_channel_ok (room : (s.cur.xfers.filter fun u => u.ch == t.ch && !u.isFire).length < 64) :
    s.issueCopy false t = .ok (s.m.setCtx s.c
      { s.cur.setCr (0x34 + t.ch) (s.cur.cr (0x34 + t.ch) + 1) with
        xfers := s.cur.xfers ++ [{ t with id := (s.cur.cr (0x34 + t.ch)).toNat, seq := s.cur.opSeq }], opSeq := s.cur.opSeq + 1 }) :=
  bind_eq_of_ok (scoreboard_ok free.1 free.2) (if_neg (Nat.not_le.2 room))

theorem issueCopy_privileged_full (full : 64 ≤ ((s.m.core (coreOf s.c)).priv.filter fun p => p.2.ch == t.ch).length) :
    s.issueCopy true t = .error (.hold .busy) :=
  bind_eq_of_ok (scoreboard_ok free.1 free.2) (if_pos full)

theorem issueCopy_privileged_ok (room : ((s.m.core (coreOf s.c)).priv.filter fun p => p.2.ch == t.ch).length < 64) :
    s.issueCopy true t = .ok (((s.withCtx { s.cur with opSeq := s.cur.opSeq + 1 }).m.onCore (coreOf s.c) fun k =>
      { k with priv := k.priv ++ [(s.c, { t with seq := s.cur.opSeq })] }).bumpCount s.c (0x380 + 16 * t.ch)) := by
  refine bind_eq_of_ok (scoreboard_ok free.1 free.2) ((if_neg (Nat.not_le.2 room)).trans ?_)
  simp only [Machine.onCtx_eq, setCtx_ctx_issued, Nat.add_sub_cancel]
  rfl

end

end

/-! ### The syllables -/

/-- What a copy syllable asks its channel for (08 R193, R197, R205). -/
def State.copyReq (s : State) (o : CopyOp) (kind : XKind) (follow : Bool) : CopyReq :=
  { kind, follow, d := o.d.toNat, tid := o.tid.toNat, ch := o.ch.toNat, lay := o.lay.toNat, base := (s.x.sreg o.a + s.x.src o.b).toNat,
    aux := (s.x.sreg o.c).toNat, pc := s.m.bun.pc.toNat }

/-- The copy syllables of given fields, each with its request (08 R193, R205, R207; 20 R408). -/
def State.copySyllables (s : State) (o : CopyOp) : List (Instr × CopyReq) :=
  [(.tld o, s.copyReq o .tld false), (.tst o, s.copyReq o .tst false), (.tldm o, s.copyReq o .tld true),
   (.ttrans o, s.copyReq o (.ttrans (bit (s.x.sreg o.c).toNat 8)) false), (.tred .sum o, s.copyReq o (.tred .sum) false), (.tred .max o, s.copyReq o (.tred .max) false),
   (.tred .min o, s.copyReq o (.tred .min) false), (.tred .merge o, s.copyReq o (.tred .merge) false)]

section
variable {s : State} {o : CopyOp} {t : Xfer}

/-- All copy syllables have the one meaning `copyOp`. -/
theorem exec_copySyllable {p : Instr × CopyReq} (h : p ∈ s.copySyllables o) :
    ∃ kind follow, exec p.1 s = copyOp kind follow o s ∧ p.2 = s.copyReq o (kind o (s.x.sreg o.c)) follow := by
  simp only [State.copySyllables, List.mem_cons, List.not_mem_nil, or_false] at h
  rcases h with rfl | rfl | rfl | rfl | rfl | rfl | rfl | rfl
  · exact ⟨fun _ _ => .tld, false, rfl, rfl⟩
  · exact ⟨fun _ _ => .tst, false, rfl, rfl⟩
  · exact ⟨fun _ _ => .tld, true, rfl, rfl⟩
  · exact ⟨fun _ aux => .ttrans (bit aux.toNat 8), false, rfl, rfl⟩
  · exact ⟨fun _ _ => .tred .sum, false, rfl, rfl⟩
  · exact ⟨fun _ _ => .tred .max, false, rfl, rfl⟩
  · exact ⟨fun _ _ => .tred .min, false, rfl, rfl⟩
  · exact ⟨fun _ _ => .tred .merge, false, rfl, rfl⟩

variable {kind : CopyOp → Word → XKind} {follow : Bool} (g : s.going)
include g

theorem copyOp_trap {k : Cause} (h : s.start.copyCheck s.c s.x (s.copyReq o (kind o (s.x.sreg o.c)) follow) = .error (.trap k)) :
    copyOp kind follow o s = .next (s.trapped k) :=
  syllable_trap g (bind_eq_of_error h)

section
variable (h : s.start.copyCheck s.c s.x (s.copyReq o (kind o (s.x.sreg o.c)) follow) = .ok t)
include h

theorem copyOp_hold {e : Hold} (hi : s.issueCopy o.prv t = .error (.hold e)) : copyOp kind follow o s = .next (s.heldBy e) :=
  syllable_hold g (bind_eq_of_ok h hi)

theorem copyOp_ok {m : Machine} (hi : s.issueCopy o.prv t = .ok m) : copyOp kind follow o s = .next (s.withM m) :=
  syllable_ok g (bind_eq_of_ok h hi)

end

end

/-- Settles O25: all copy syllables have one meaning, which follows the checks, the scoreboard and the room of the channel. -/
theorem copyIssue : Obligations.CopyIssue := by
  unfold Obligations.CopyIssue
  intro s o g aux req p hp
  obtain ⟨kind, follow, hexec, hreq⟩ := exec_copySyllable (s := s) (o := o) hp
  rw [hexec, hreq]
  refine ⟨fun k h => copyOp_trap g h, fun t h => ⟨fun used => copyOp_hold g h (issueCopy_busy _ used), fun free prv => ?_, fun free own => ?_⟩⟩
  · exact ⟨fun full => copyOp_hold g h (prv ▸ issueCopy_privileged_full free full), fun room => copyOp_ok g h (prv ▸ issueCopy_privileged_ok free room)⟩
  · exact ⟨fun full => copyOp_hold g h (own ▸ issueCopy_channel_full free full), fun room => copyOp_ok g h (own ▸ issueCopy_channel_ok free room)⟩

end Sys2Proof.Machine
end

section
/-! SUPPORT. Transfers at work: when one starts, is ready and runs (08 R194, R195, R202-R205), privileged ones (08 R209), and accesses that an expander never completes (16 R343). -/

namespace Sys2Proof.Machine

section
variable {m : Machine} {c i : Nat} {t : Xfer} (ht : (m.ctx c).xfers[i]? = some t)

/-! ### Start (08 R194, R195) -/

section
include ht

/-- No transfer starts twice, while a pre-emption waits, or before an earlier one of its channel. -/
theorem startXfer_refused (no : t.started = true ∨ (m.ctx c).preempting = true ∨ ∃ u ∈ (m.ctx c).xfers.take i, u.ch = t.ch ∧ u.started = false) :
    m.startXfer c i = m.setCtx c (m.ctx c) := by
  have stays : t.started = true ∨ (m.ctx c).preempting = true ∨ ((m.ctx c).xfers.take i).any (fun u => u.ch == t.ch && !u.started) = true := by
    simpa using no
  simp only [Machine.startXfer, Machine.onCtx_eq, ht, if_pos stays]

theorem startXfer_ok (fresh : t.started = false) (calm : (m.ctx c).preempting = false) (first : ∀ u ∈ (m.ctx c).xfers.take i, u.ch = t.ch → u.started = true) :
    m.startXfer c i = m.setCtx c { m.ctx c with xfers := (m.ctx c).xfers.set i { t with started := true } } := by
  have starts : ¬ (t.started = true ∨ (m.ctx c).preempting = true ∨ ((m.ctx c).xfers.take i).any (fun u => u.ch == t.ch && !u.started) = true) := by
    simpa [fresh, calm] using first
  simp only [Machine.startXfer, Machine.onCtx_eq, ht, if_neg starts]

end

/-! ### Readiness (08 R202, R205; 20 R406) -/

/-- An earlier transfer of the context that a transfer stays behind. -/
def Machine.staysBehind (m : Machine) (c : Nat) (t u : Xfer) : Prop := t.waitsFor u = true ∨ (u.seq < t.seq ∧ m.fireMeets c t u = true)

theorem xferReady_iff : m.xferReady c t = true ↔
    t.started = true ∧ t.fault = none ∧ (∀ u ∈ m.xfersOf c, ¬ m.staysBehind c t u) ∧ (t.follow = none ∨ (m.core (coreOf c)).mq.length < 16) := by
  simp [Machine.xferReady, Machine.staysBehind, and_assoc]

theorem xferReady_false (no : (∃ u ∈ m.xfersOf c, m.staysBehind c t u) ∨ t.started = false) : m.xferReady c t = false := by
  refine Bool.eq_false_iff.2 fun ready => ?_
  obtain ⟨started, -, clear, -⟩ := xferReady_iff.1 ready
  rcases no with ⟨u, hu, behind⟩ | fresh
  · exact clear u hu behind
  · exact Bool.false_ne_true (fresh.symm.trans started)

/-- A ready transfer that is no fire's copy is not passed over. -/
theorem ready_not_passed (ready : m.xferReady c t = true) (copy : t.isFire = false) : ¬ ((!m.xferReady c t) = true ∨ t.isFire = true) := by simp [ready, copy]

/-! ### Runs (08 R195, R204) -/

section
include ht

theorem advanceXfer_notReady (no : m.xferReady c t = false) : m.advanceXfer c i = (m, false) := by
  simp [Machine.advanceXfer, ht, no]

section
variable (ready : m.xferReady c t = true) (copy : t.isFire = false)
include ready copy

theorem advanceXfer_done (hc : (m.runXfer c t).cause = none) (hw : (m.runXfer c t).waits = false) :
    m.advanceXfer c i = (((m.runXfer c t).m.clearTold c).finishXfer c i (m.runXfer c t).t, true) := by
  simp only [Machine.advanceXfer, ht, if_neg (ready_not_passed ready copy), hc, hw, Bool.false_eq_true, if_false]

theorem advanceXfer_waits (hc : (m.runXfer c t).cause = none) (hw : (m.runXfer c t).waits = true) :
    m.advanceXfer c i = ((m.runXfer c t).m.onCtx c fun x => { x with xfers := x.xfers.set i (m.runXfer c t).t }, false) := by
  simp only [Machine.advanceXfer, ht, if_neg (ready_not_passed ready copy), hc, hw, if_true]

theorem advanceXfer_fault {k : Cause} (hc : (m.runXfer c t).cause = some k) :
    m.advanceXfer c i = (((m.runXfer c t).m.clearTold c).onCtx c fun x => { x with xfers := x.xfers.set i { (m.runXfer c t).t with fault := some k } }, false) := by
  simp only [Machine.advanceXfer, ht, if_neg (ready_not_passed ready copy), hc]

/-! ### Accesses that an expander never completes (16 R343) -/

/-- The first element at or past the progress that lies in an expander meets the fault, behind the run of those before it. -/
theorem cxlTimeout_fault (hc : c < 384) {j : Nat} (hj : ((List.range (entCount t.mEnt)).drop t.prog).find? (fun j => m.inTier2 c (t.va j)) = some j)
    {r : Ran} (hr : xferLoop c ((List.range (j / if t.computes then 32 else 1)).map (· * if t.computes then 32 else 1)) { m, t, puts := [] } = r)
    (hw : r.waits = false) (hk : r.cause = none) :
    m.cxlTimeout c i = r.m.onCtx c fun x => { x with xfers := x.xfers.set i { r.t with
      blocks := (r.puts.map (·.vline)).eraseDups, fault := some { code := 0x31, kind := 1, i0 := t.va j, i1 := t.pc, i2 := t.id, i3 := t.ch } } } := by
  simp only [Machine.cxlTimeout, if_neg (Nat.not_le.2 hc), ht, if_neg (ready_not_passed ready copy), hj, hr, hw, hk, Option.getD_none, Bool.false_eq_true, if_false]

end

theorem transferDone_copy (copy : t.isFire = false) : m.transferDone c i = if (m.advanceXfer c i).2 then (m.advanceXfer c i).1 else m := by
  simp [Machine.transferDone, ht, copy]

end

theorem cxlTimeout_parser (hc : 384 ≤ c) : m.cxlTimeout c i = m.setParser (c % 8) { m.parser (c % 8) with cxlBad := true } := if_pos hc

theorem cxlTimeout_core (hc : c < 384) (hn : (m.ctx c).xfers[i]? = none) : m.cxlTimeout c i = m.onCore (coreOf c) fun k => { k with cxlBad := true } := by
  simp [Machine.cxlTimeout, Nat.not_le.2 hc, hn]

end

/-! ### Privileged channels (08 R209) -/

section
variable {m : Machine} {n ch d k : Nat} {t : Xfer} (sound : t.fault = none) (clear : ∀ u ∈ (m.owner d).xfers ++ m.privOf d, t.waitsFor u = false)
  (room : t.follow = none ∨ 384 ≤ d ∨ (m.core (coreOf d)).mq.length < 16)
include sound clear room

/-- Nothing keeps a privileged transfer of owner `d` from running: no cause of its own, no other transfer of its context, and no want of room for its follow-on command. -/
theorem priv_not_kept : ¬ (t.fault.isSome = true ∨ ((m.owner d).xfers ++ m.privOf d).any (t.waitsFor ·) = true ∨
    (t.follow.isSome = true ∧ d < 384 ∧ 16 ≤ (m.core (coreOf d)).mq.length)) := by
  rintro (faulted | behind | ⟨follows, here, full⟩)
  · simp [sound] at faulted
  · obtain ⟨u, hu, waits⟩ := List.any_eq_true.1 behind
    exact Bool.false_ne_true ((clear u hu).symm.trans waits)
  · rcases room with alone | image | room
    · simp [alone] at follows
    · exact Nat.not_lt.2 image here
    · exact Nat.not_lt.2 full room

variable (head : (m.core n).priv.zipIdx.find? (fun p => p.1.2.ch == ch) = some ((d, t), k)) {r : Ran} (hr : m.runXfer (privActor n d) { t with started := true } = r)
include head hr

theorem advancePriv_done (hc : r.cause = none) (hw : r.waits = false) : m.advancePriv n ch =
    ((((r.m.onCore n fun q => { q with priv := q.priv.eraseIdx k }).ownerFlags d r.t.fl).bumpCount d (0x388 + 16 * ch)).recordPriv d ch none).follow d t := by
  simp only [Machine.advancePriv, head, if_neg (priv_not_kept sound clear room), hr, hc, hw, Bool.false_eq_true, if_false]

theorem advancePriv_waits (hc : r.cause = none) (hw : r.waits = true) : m.advancePriv n ch = r.m.onCore n fun q => { q with priv := q.priv.set k (d, r.t) } := by
  simp only [Machine.advancePriv, head, if_neg (priv_not_kept sound clear room), hr, hc, hw, if_true]

theorem advancePriv_fault {e : Cause} (hc : r.cause = some e) : m.advancePriv n ch =
    ((r.m.onCore n fun q => { q with priv := q.priv.set k (d, { r.t with fault := some { e with lv := 1 } }) }).recordPriv d ch (some e)).onOwner d fun x =>
      { x with deferred := x.deferred ++ [{ e with lv := 1 }] } := by
  simp only [Machine.advancePriv, head, if_neg (priv_not_kept sound clear room), hr, hc]

end

/-! ### The events -/

section
variable {s : State} {c i : Nat} {m : Machine}

theorem exec_transferStart (h : s.m.startXfer c i = m) : exec (.transferStart c i) s = .next (s.withM m) := h ▸ rfl
theorem exec_transferComplete (h : s.m.transferDone c i = m) : exec (.transferComplete c i) s = .next (s.withM m) := h ▸ rfl
theorem exec_transferFault (h : s.m.transferFaulted c i = m) : exec (.transferFault c i) s = .next (s.withM m) := h ▸ rfl
theorem exec_privTransferComplete {n : Nat} {ch : Bool} (h : s.m.advancePriv n (if ch then 1 else 0) = m) : exec (.privTransferComplete n ch) s = .next (s.withM m) := h ▸ rfl
theorem exec_cxlCompletionTimeout (h : s.m.cxlTimeout c i = m) : exec (.cxlCompletionTimeout c i) s = .next (s.withM m) := h ▸ rfl

section
variable {t : Xfer} (ht : (s.m.ctx c).xfers[i]? = some t) (copy : t.isFire = false)
include ht copy

/-- A run that completes is the completion event's, and leaves the fault event without effect. -/
theorem exec_transfer_done (h : s.m.advanceXfer c i = (m, true)) :
    exec (.transferComplete c i) s = .next (s.withM m) ∧ exec (.transferFault c i) s = .next (s.withM s.m) :=
  ⟨exec_transferComplete (by simp [transferDone_copy ht copy, h]), exec_transferFault (by simp [Machine.transferFaulted, h])⟩

/-- A run that stops short is the fault event's, and leaves the completion event without effect. -/
theorem exec_transfer_short (h : s.m.advanceXfer c i = (m, false)) :
    exec (.transferComplete c i) s = .next (s.withM s.m) ∧ exec (.transferFault c i) s = .next (s.withM m) :=
  ⟨exec_transferComplete (by simp [transferDone_copy ht copy, h]), exec_transferFault (by simp [Machine.transferFaulted, h])⟩

end

end

/-- Settles O48: each event by whether the transfer is ready and how its run ends. -/
theorem transferEvents : Obligations.TransferEvents := by
  unfold Obligations.TransferEvents
  intro s c i t goes x done kept before
  refine ⟨fun ht => ⟨?_, ?_, ?_, ?_, ?_, ?_⟩, fun hc => ?_, fun hc hn => ?_, fun n d k ch head sound clear room => ⟨?_, ?_, ?_⟩⟩
  · exact fun preempted => exec_transferStart (startXfer_refused ht (.inr (.inl preempted)))
  · exact fun fresh calm first => exec_transferStart (startXfer_ok ht fresh calm first)
  · exact fun earlier => exec_transferStart (startXfer_refused ht (.inr (.inr earlier)))
  · intro started sound clear room copy
    have ready : s.m.xferReady c t = true := xferReady_iff.2 ⟨started, sound, clear, room⟩
    refine ⟨fun hc hw => ?_, fun hc hw => ?_, fun k hc => ?_⟩
    · exact exec_transfer_done ht copy (advanceXfer_done ht ready copy hc hw)
    · exact exec_transfer_short ht copy (advanceXfer_waits ht ready copy hc hw)
    · exact (exec_transfer_short ht copy (advanceXfer_fault ht ready copy hc)).symm
  · exact fun copy no => (exec_transfer_short ht copy (advanceXfer_notReady ht (xferReady_false no))).1
  · exact fun hc ready copy j hj hw hk => exec_cxlCompletionTimeout (cxlTimeout_fault ht ready copy hc hj rfl hw hk)
  · exact exec_cxlCompletionTimeout (cxlTimeout_parser hc)
  · exact exec_cxlCompletionTimeout (cxlTimeout_core hc hn)
  · exact fun hc hw => exec_privTransferComplete (advancePriv_done sound clear room head rfl hc hw)
  · exact fun hc hw => exec_privTransferComplete (advancePriv_waits sound clear room head rfl hc hw)
  · exact fun e hc => exec_privTransferComplete (advancePriv_fault sound clear room head rfl hc)

end Sys2Proof.Machine
end
